-- ==== Sys2Proof/Word.lean ====
section
/-!
DEFINITION. Machine words, the concatenation of bit fields, and the small types that events carry.
-/

namespace Sys2Proof

/-- A general register, an address, a control register. -/
abbrev Word := BitVec 64

/-- The smallest unit of memory. -/
abbrev Byte := BitVec 8

/-- A vector register: 32 lanes of 32 bits (R12). -/
abbrev VWord := BitVec 1024

/-- Two bit fields side by side, the first more significant. -/
def cat (x : BitVec v) (y : BitVec w) : BitVec (v + w) := x ++ y

/-- The code of one instruction: a halfword, or two halfwords of which the first holds bits 31 to 16 (R62). -/
inductive Code where
  | c16 (w : BitVec 16)
  | c32 (w : BitVec 32)
deriving DecidableEq, Repr

/-- Which engine command an event speaks of: the head of a core's copy FIFO (R307), the head of a gather stream
(R316), an XRED in flight (R428) or one member's collective (R430), each by its place in State. -/
inductive EngineId where
  | copy (core : Nat)
  | gather (die engine stream : Nat)
  | xred (idx : Nat)
  | coll (idx : Nat)
deriving DecidableEq, Repr

/-- What an incoming packet of another device asks for (R419, R422, R433). -/
inductive RemoteOp where
  /-- a remote store of these bytes, with the barrier object that counts them when the handle is tagged -/
  | store (data : List (BitVec 8)) (tag : Option Nat)
  /-- the read of a remote LD.a -/
  | read
  /-- a remote read-modify-write: operation code of R285, 4-byte form, operand, and the new value of a CAS -/
  | amo (op : BitVec 4) (w4 : Bool) (v new : BitVec 64)
deriving DecidableEq, Repr

/-- A packet that arrives over an Alatch link (R420): link, launch id RLID, window offset, operation. -/
structure RemotePacket where
  link : Nat
  rlid : Nat
  offset : Nat
  op : RemoteOp
deriving DecidableEq, Repr

end Sys2Proof
end

