-- ==== Sys2Proof/Config.lean ====
section
/-!
DEFINITION. What an implementation fixes and the values the spec leaves open. Each is opaque: nothing proved of the
model can rest on the number one machine would show.
-/

namespace Sys2Proof.Config

/-- The value of a place the spec leaves unpredictable, fresh for each place of the counter it is applied to
(R273, R320, R322; State.freeCtr counts). -/
opaque freeWord : Nat → Word

/-- The installed capacity of the second tier in bytes, which firmware sets at boot (R407); Sys2Proof.Machine reads it
capped at 8 TiB. -/
opaque secondTierBytes : Nat

end Sys2Proof.Config
end

