-- ==== Sys2Proof/Syntax.lean ====
section
/-!
DEFINITION. The instruction set as syntax: one constructor for each row of the opcode table, 259 encoded
instructions and 95 events of the part (rules R62 to R78, R90 to R118, R167 to R194, R277 to R299, R330 to R339,
R383 to R395, R426 to R433; the events carry what decides which of them takes place).
A field of an encoding keeps the letter the opcode table gives it. The order is that of the table, the instructions
without a field and three others after the rest.
-/

namespace Sys2Proof

/-- The instruction set and the events of the part. -/
inductive Instr where
  /-- ADD (R90): Adds two general registers modulo 2^64. -/
  | add (d a : BitVec 5) (m : BitVec 2) (b : BitVec 5) (n : BitVec 2)
  /-- SUB (R90): Subtracts g[b] from g[a] modulo 2^64. -/
  | sub (d a : BitVec 5) (m : BitVec 2) (b : BitVec 5) (n : BitVec 2)
  /-- AND (R90): Bitwise AND of two registers. -/
  | and (d a : BitVec 5) (m : BitVec 2) (b : BitVec 5) (n : BitVec 2)
  /-- OR (R90): Bitwise OR of two registers. -/
  | or (d a : BitVec 5) (m : BitVec 2) (b : BitVec 5) (n : BitVec 2)
  /-- XOR (R90): Bitwise XOR of two registers. -/
  | xor (d a : BitVec 5) (m : BitVec 2) (b : BitVec 5) (n : BitVec 2)
  /-- ANDN (R90): g[a] AND NOT g[b]. -/
  | andn (d a : BitVec 5) (m : BitVec 2) (b : BitVec 5) (n : BitVec 2)
  /-- SLL (R90): Logical left shift by g[b][5:0]. -/
  | sll (d a : BitVec 5) (m : BitVec 2) (b : BitVec 5) (n : BitVec 2)
  /-- SRL (R90): Logical right shift by g[b][5:0]. -/
  | srl (d a : BitVec 5) (m : BitVec 2) (b : BitVec 5) (n : BitVec 2)
  /-- SRA (R90): Arithmetic right shift by g[b][5:0]. -/
  | sra (d a : BitVec 5) (m : BitVec 2) (b : BitVec 5) (n : BitVec 2)
  /-- MUL (R90): Low 64 bits of the product. -/
  | mul (d a : BitVec 5) (m : BitVec 2) (b : BitVec 5) (n : BitVec 2)
  /-- MULH (R90): High 64 bits of the signed product. -/
  | mulh (d a : BitVec 5) (m : BitVec 2) (b : BitVec 5) (n : BitVec 2)
  /-- MULHU (R90): High 64 bits of the unsigned product. -/
  | mulhu (d a : BitVec 5) (m : BitVec 2) (b : BitVec 5) (n : BitVec 2)
  /-- MIN (R90): Signed minimum. -/
  | min (d a : BitVec 5) (m : BitVec 2) (b : BitVec 5) (n : BitVec 2)
  /-- MAX (R90): Signed maximum. -/
  | max (d a : BitVec 5) (m : BitVec 2) (b : BitVec 5) (n : BitVec 2)
  /-- MINU (R90): Unsigned minimum. -/
  | minu (d a : BitVec 5) (m : BitVec 2) (b : BitVec 5) (n : BitVec 2)
  /-- MAXU (R90): Unsigned maximum. -/
  | maxu (d a : BitVec 5) (m : BitVec 2) (b : BitVec 5) (n : BitVec 2)
  /-- ADDW (R90): 32-bit add, sign-extended. -/
  | addw (d a : BitVec 5) (m : BitVec 2) (b : BitVec 5) (n : BitVec 2)
  /-- SUBW (R90): 32-bit subtract, sign-extended. -/
  | subw (d a : BitVec 5) (m : BitVec 2) (b : BitVec 5) (n : BitVec 2)
  /-- SEXTB (R90): Sign-extends the low byte. -/
  | sextb (d a : BitVec 5) (m : BitVec 2)
  /-- SEXTH (R90): Sign-extends the low halfword. -/
  | sexth (d a : BitVec 5) (m : BitVec 2)
  /-- SEXTW (R90): Sign-extends the low word. -/
  | sextw (d a : BitVec 5) (m : BitVec 2)
  /-- ZEXTB (R90): Zero-extends the low byte. -/
  | zextb (d a : BitVec 5) (m : BitVec 2)
  /-- ZEXTH (R90): Zero-extends the low halfword. -/
  | zexth (d a : BitVec 5) (m : BitVec 2)
  /-- ZEXTW (R90): Zero-extends the low word. -/
  | zextw (d a : BitVec 5) (m : BitVec 2)
  /-- CLZ (R90): Counts leading zero bits. -/
  | clz (d a : BitVec 5) (m : BitVec 2)
  /-- POPC (R90): Counts one bits. -/
  | popc (d a : BitVec 5) (m : BitVec 2)
  /-- CMP (R91): Sets g[d] to 1 when the condition holds for two registers, else 0. -/
  | cmp (d a : BitVec 5) (m : BitVec 2) (b : BitVec 5) (n : BitVec 2) (c : BitVec 3)
  /-- SEL (R91): Selects g[a] or g[b] by whether g[d] is non-zero. -/
  | sel (d a : BitVec 5) (m : BitVec 2) (b : BitVec 5) (n : BitVec 2)
  /-- DIV (R96): Signed 64-bit divide in the D siding. -/
  | div (d a : BitVec 5) (m : BitVec 2) (b : BitVec 5) (n : BitVec 2)
  /-- REM (R96): Signed 64-bit remainder. -/
  | rem (d a : BitVec 5) (m : BitVec 2) (b : BitVec 5) (n : BitVec 2)
  /-- DIVU (R96): Unsigned 64-bit divide. -/
  | divu (d a : BitVec 5) (m : BitVec 2) (b : BitVec 5) (n : BitVec 2)
  /-- REMU (R96): Unsigned 64-bit remainder. -/
  | remu (d a : BitVec 5) (m : BitVec 2) (b : BitVec 5) (n : BitVec 2)
  /-- DIVW (R96): Signed 32-bit divide. -/
  | divw (d a : BitVec 5) (m : BitVec 2) (b : BitVec 5) (n : BitVec 2)
  /-- REMW (R96): Signed 32-bit remainder. -/
  | remw (d a : BitVec 5) (m : BitVec 2) (b : BitVec 5) (n : BitVec 2)
  /-- DIVUW (R96): Unsigned 32-bit divide. -/
  | divuw (d a : BitVec 5) (m : BitVec 2) (b : BitVec 5) (n : BitVec 2)
  /-- REMUW (R96): Unsigned 32-bit remainder. -/
  | remuw (d a : BitVec 5) (m : BitVec 2) (b : BitVec 5) (n : BitVec 2)
  /-- ADDI (R93): Adds a sign-extended 12-bit immediate. -/
  | addi (d a : BitVec 5) (m : BitVec 2) (i : BitVec 12)
  /-- ANDI (R93): ANDs a sign-extended immediate. -/
  | andi (d a : BitVec 5) (m : BitVec 2) (i : BitVec 12)
  /-- ORI (R93): ORs a zero-extended immediate. -/
  | ori (d a : BitVec 5) (m : BitVec 2) (i : BitVec 12)
  /-- XORI (R93): XORs a zero-extended immediate. -/
  | xori (d a : BitVec 5) (m : BitVec 2) (i : BitVec 12)
  /-- SLLI (R94): Logical left shift by an immediate. -/
  | slli (d a : BitVec 5) (m : BitVec 2) (s : BitVec 6)
  /-- SRLI (R94): Logical right shift by an immediate. -/
  | srli (d a : BitVec 5) (m : BitVec 2) (s : BitVec 6)
  /-- SRAI (R94): Arithmetic right shift by an immediate. -/
  | srai (d a : BitVec 5) (m : BitVec 2) (s : BitVec 6)
  /-- CMPI (R92): Compares a register with a 9-bit immediate under a condition code. -/
  | cmpi (d a : BitVec 5) (m : BitVec 2) (c : BitVec 3) (i : BitVec 9)
  /-- LI (R95): Loads a sign-extended 19-bit immediate. -/
  | li (d : BitVec 5) (i : BitVec 19)
  /-- LIX (R95): Shifts g[d] left by 19 and inserts an immediate. -/
  | lix (d : BitVec 5) (i : BitVec 19)
  /-- ADDPC (R95): Adds an immediate to the instruction's own address. -/
  | addpc (d : BitVec 5) (i : BitVec 19)
  /-- BR (R99): Conditional branch comparing two registers. -/
  | br (c : BitVec 3) (a b : BitVec 5) (o : BitVec 11)
  /-- J (R99): PC-relative jump. -/
  | j (o : BitVec 24)
  /-- CALL (R99): PC-relative jump writing the link to g31. -/
  | call (o : BitVec 24)
  /-- JR (R99): Register jump with link; RET is JR g0, g31, 0. -/
  | jr (d a : BitVec 5) (m : BitVec 2) (i : BitVec 12)
  /-- BLKMV (R109): Performs one step of a block move of up to 64 bytes and updates its registers. -/
  | blkmv (d a b : BitVec 5)
  /-- BLKSET (R109): Performs one step of a block fill of up to 64 bytes. -/
  | blkset (d a b : BitVec 5)
  /-- REPN (R111): Repeats its target instruction g[d] times, one retiring pair per count. -/
  | repn (d : BitVec 5)
  /-- CRR (R116): Reads a control register once oldest. -/
  | crr (d : BitVec 5) (n : BitVec 12)
  /-- CWR (R116): Writes a control register or handle binding at retirement, serialising. -/
  | cwr (s : BitVec 5) (n : BitVec 12)
  /-- MKEMPTY (R117): Marks a register FREE at commit and discards its outstanding fill. -/
  | mkempty (d : BitVec 5)
  /-- RSTATE (R117): Reads the state code of a general register. -/
  | rstate (d s : BitVec 5)
  /-- TRAP (R118): Carries BREAK with a code. -/
  | trap (c : BitVec 16)
  /-- BRK (R118): Carries BREAK with a code and TRAPINFO[16] = 1. -/
  | brk (c : BitVec 16)
  /-- FADD (R100): Floating-point add rounded once. -/
  | fadd (d a : BitVec 5) (m : BitVec 2) (b : BitVec 5) (n : BitVec 2)
  /-- FSUB (R100): Floating-point subtract. -/
  | fsub (d a : BitVec 5) (m : BitVec 2) (b : BitVec 5) (n : BitVec 2)
  /-- FMUL (R100): Floating-point multiply. -/
  | fmul (d a : BitVec 5) (m : BitVec 2) (b : BitVec 5) (n : BitVec 2)
  /-- FMIN (R100): Floating-point minimum, exact. -/
  | fmin (d a : BitVec 5) (m : BitVec 2) (b : BitVec 5) (n : BitVec 2)
  /-- FMAX (R100): Floating-point maximum, exact. -/
  | fmax (d a : BitVec 5) (m : BitVec 2) (b : BitVec 5) (n : BitVec 2)
  /-- FABS (R100): Clears the sign. -/
  | fabs (d a : BitVec 5) (m : BitVec 2)
  /-- FNEG (R100): Inverts the sign. -/
  | fneg (d a : BitVec 5) (m : BitVec 2)
  /-- FMA (R100): Fused a*b+d rounded once. -/
  | fma (d a : BitVec 5) (m : BitVec 2) (b : BitVec 5) (n : BitVec 2)
  /-- FMSUB (R100): Fused a*b-d. -/
  | fmsub (d a : BitVec 5) (m : BitVec 2) (b : BitVec 5) (n : BitVec 2)
  /-- FNMA (R100): Fused -(a*b)+d. -/
  | fnma (d a : BitVec 5) (m : BitVec 2) (b : BitVec 5) (n : BitVec 2)
  /-- FNMS (R100): Fused -(a*b)-d. -/
  | fnms (d a : BitVec 5) (m : BitVec 2) (b : BitVec 5) (n : BitVec 2)
  /-- FDIV (R100): Floating-point divide in the D siding. -/
  | fdiv (d a : BitVec 5) (m : BitVec 2) (b : BitVec 5) (n : BitVec 2)
  /-- FSQRT (R100): Floating-point square root in the D siding. -/
  | fsqrt (d a : BitVec 5) (m : BitVec 2)
  /-- FCMP (R100): Floating-point compare under a condition. -/
  | fcmp (d a : BitVec 5) (m : BitVec 2) (b : BitVec 5) (n c : BitVec 2)
  /-- FCLASS (R100): Writes the one-hot class mask of a float. -/
  | fclass (d a : BitVec 5) (m : BitVec 2)
  /-- CVT (R102): Exact widening conversion between formats. -/
  | cvt (d a : BitVec 5) (m : BitVec 2) (e s : BitVec 4)
  /-- CVTD (R103): Rounding conversion under an overflow policy. -/
  | cvtd (d a : BitVec 5) (m : BitVec 2) (e : BitVec 4) (p : BitVec 2) (s : BitVec 4)
  /-- LD (R105): Loads 8 bytes through a handle binding. -/
  | ld (t b : BitVec 5) (m : BitVec 2) (h : BitVec 4) (o : BitVec 8)
  /-- LDW (R105): Loads 4 bytes sign-extended. -/
  | ldw (t b : BitVec 5) (m : BitVec 2) (h : BitVec 4) (o : BitVec 8)
  /-- LDH (R105): Loads 2 bytes sign-extended. -/
  | ldh (t b : BitVec 5) (m : BitVec 2) (h : BitVec 4) (o : BitVec 8)
  /-- LDB (R105): Loads 1 byte sign-extended. -/
  | ldb (t b : BitVec 5) (m : BitVec 2) (h : BitVec 4) (o : BitVec 8)
  /-- ST (R105): Stores 8 bytes, held until retirement. -/
  | st (t b : BitVec 5) (m : BitVec 2) (h : BitVec 4) (o : BitVec 8)
  /-- STW (R105): Stores 4 bytes. -/
  | stw (t b : BitVec 5) (m : BitVec 2) (h : BitVec 4) (o : BitVec 8)
  /-- STH (R105): Stores 2 bytes. -/
  | sth (t b : BitVec 5) (m : BitVec 2) (h : BitVec 4) (o : BitVec 8)
  /-- STB (R105): Stores 1 byte. -/
  | stb (t b : BitVec 5) (m : BitVec 2) (h : BitVec 4) (o : BitVec 8)
  /-- LD.nc (R107): Loads 8 bytes without reading or allocating L1. -/
  | ldNc (t b : BitVec 5) (m : BitVec 2) (h : BitVec 4) (o : BitVec 8)
  /-- LD.a (R279): Asynchronous 8-byte load as a long-latency producer. -/
  | ldA (t b : BitVec 5) (m : BitVec 2) (h : BitVec 4) (o : BitVec 8)
  /-- VLD (R281): Loads 128 bytes into a vector register. -/
  | vld (v : BitVec 4) (b : BitVec 5) (m : BitVec 2) (h : BitVec 4) (o : BitVec 8)
  /-- VLD.nc (R281): Vector load bypassing L1. -/
  | vldNc (v : BitVec 4) (b : BitVec 5) (m : BitVec 2) (h : BitVec 4) (o : BitVec 8)
  /-- VST (R281): Stores a vector register, held until retirement. -/
  | vst (v : BitVec 4) (b : BitVec 5) (m : BitVec 2) (h : BitVec 4) (o : BitVec 8)
  /-- AMOSWAP (R285): Atomic swap returning the old value. -/
  | amoswap (d a : BitVec 5) (s : BitVec 3) (w : BitVec 1) (h : BitVec 4) (f : BitVec 2)
  /-- AMOADD (R285): Atomic add. -/
  | amoadd (d a : BitVec 5) (s : BitVec 3) (w : BitVec 1) (h : BitVec 4) (f : BitVec 2)
  /-- AMOAND (R285): Atomic AND. -/
  | amoand (d a : BitVec 5) (s : BitVec 3) (w : BitVec 1) (h : BitVec 4) (f : BitVec 2)
  /-- AMOOR (R285): Atomic OR. -/
  | amoor (d a : BitVec 5) (s : BitVec 3) (w : BitVec 1) (h : BitVec 4) (f : BitVec 2)
  /-- AMOXOR (R285): Atomic XOR. -/
  | amoxor (d a : BitVec 5) (s : BitVec 3) (w : BitVec 1) (h : BitVec 4) (f : BitVec 2)
  /-- AMOMIN (R285): Atomic signed minimum. -/
  | amomin (d a : BitVec 5) (s : BitVec 3) (w : BitVec 1) (h : BitVec 4) (f : BitVec 2)
  /-- AMOMAX (R285): Atomic signed maximum. -/
  | amomax (d a : BitVec 5) (s : BitVec 3) (w : BitVec 1) (h : BitVec 4) (f : BitVec 2)
  /-- AMOMINU (R285): Atomic unsigned minimum. -/
  | amominu (d a : BitVec 5) (s : BitVec 3) (w : BitVec 1) (h : BitVec 4) (f : BitVec 2)
  /-- AMOMAXU (R285): Atomic unsigned maximum. -/
  | amomaxu (d a : BitVec 5) (s : BitVec 3) (w : BitVec 1) (h : BitVec 4) (f : BitVec 2)
  /-- CAS (R286): Compare-and-swap on an even register pair. -/
  | cas (d a : BitVec 5) (s : BitVec 3) (w : BitVec 1) (h : BitVec 4) (f : BitVec 2)
  /-- LD.acq (R283): 8-byte acquire load at a scope. -/
  | ldAcq (d a : BitVec 5) (s : BitVec 3) (e : BitVec 5) (h : BitVec 4)
  /-- ST.rel (R283): 8-byte release store at a scope. -/
  | stRel (d a : BitVec 5) (s : BitVec 3) (e : BitVec 5) (h : BitVec 4)
  /-- VLDS (R282): Strided vector load of 32 lanes. -/
  | vlds (v : BitVec 4) (a b : BitVec 5) (h : BitVec 4)
  /-- VSTS (R282): Strided vector store of 32 lanes. -/
  | vsts (v : BitVec 4) (a b : BitVec 5) (h : BitVec 4)
  /-- FENCE.acq (R289): Acquire fence at a scope. -/
  | fenceAcq (s : BitVec 3)
  /-- FENCE.acq.inv (R289): Acquire fence that invalidates the core's L1. -/
  | fenceAcqInv (s : BitVec 3)
  /-- FENCE.rel (R289): Release fence, draining the quad cache when wider than .quad. -/
  | fenceRel (s : BitVec 3)
  /-- FENCE.full (R289): Full fence taking its place in strong order. -/
  | fenceFull (s : BitVec 3)
  /-- OBJDECL (R295): Declares a coherence object from a shape record. -/
  | objdecl (d a : BitVec 5) (h : BitVec 4)
  /-- LDV (R292): Acquire read of a named version of a versioned word. -/
  | ldv (d a : BitVec 5) (s : BitVec 3) (b : BitVec 5) (h : BitVec 4)
  /-- STV (R293): Creates the next version of a versioned word with release. -/
  | stv (d a : BitVec 5) (s : BitVec 3) (h : BitVec 4)
  /-- VRECL (R294): Retires held versions below a version number. -/
  | vrecl (d a : BitVec 5) (h : BitVec 4)
  /-- WREC (R298): Opens a record window, starting, re-recording or joining a recording. -/
  | wrec (d a b : BitVec 5) (h : BitVec 4)
  /-- WPLAY (R299): Opens a replay window on a recording. -/
  | wplay (d b : BitVec 5)
  /-- WEND (R299): Closes the context's Tradewind window. -/
  | wend (d : BitVec 5)
  /-- WSTAT (R299): Reads a recording's live state. -/
  | wstat (d b : BitVec 5)
  /-- SEND (R172): Places a message to a named core and queue in the send buffer. -/
  | send (d a : BitVec 5) (m : BitVec 2) (b : BitVec 5) (n : BitVec 2)
  /-- SENDH (R172): Places a hinted task for a mesh walk in the send buffer. -/
  | sendh (d a : BitVec 5) (m : BitVec 2) (b : BitVec 5) (n : BitVec 2)
  /-- SENDNZ (R173): Sends one message per non-zero vector element at release. -/
  | sendnz (h v p : BitVec 4) (s : BitVec 3)
  /-- SPAWN (R174): Requests a context on a named core for a child task. -/
  | spawn (d a : BitVec 5) (m : BitVec 2) (b : BitVec 5) (n : BitVec 2)
  /-- PUSHT (R172): Pushes a task record to the bottom of the core's own deque at release. -/
  | pusht (d a : BitVec 5) (m : BitVec 2) (b : BitVec 5) (n : BitVec 2)
  /-- QSTAT (R176): Reads the occupancy of one of the core's queues. -/
  | qstat (d : BitVec 5) (q : BitVec 3)
  /-- GRPQ (R177): Reads a group's member count and this core's membership. -/
  | grpq (d s : BitVec 5)
  /-- GRPQ.m (R177): Reads the COREID of member i of a group. -/
  | grpqM (d s : BitVec 5)
  /-- QPRI (R176): Samples and sets the core's queue hold mask. -/
  | qpri (d s : BitVec 5)
  /-- VFADD (R179): Vector float add. -/
  | vfadd (d a b : BitVec 4) (c : BitVec 3)
  /-- VFSUB (R179): Vector float subtract. -/
  | vfsub (d a b : BitVec 4) (c : BitVec 3)
  /-- VFMUL (R179): Vector float multiply. -/
  | vfmul (d a b : BitVec 4) (c : BitVec 3)
  /-- VFMA (R179): Vector fused multiply-add. -/
  | vfma (d a b : BitVec 4) (c : BitVec 3)
  /-- VFMIN (R179): Vector float minimum. -/
  | vfmin (d a b : BitVec 4) (c : BitVec 3)
  /-- VFMAX (R179): Vector float maximum. -/
  | vfmax (d a b : BitVec 4) (c : BitVec 3)
  /-- VFABS (R179): Vector float absolute value. -/
  | vfabs (d a : BitVec 4)
  /-- VFNEG (R179): Vector float negate. -/
  | vfneg (d a : BitVec 4)
  /-- VADD (R180): Vector integer add. -/
  | vadd (d a b : BitVec 4) (c : BitVec 3)
  /-- VSUB (R180): Vector integer subtract. -/
  | vsub (d a b : BitVec 4) (c : BitVec 3)
  /-- VMUL (R180): Vector integer multiply, low bits. -/
  | vmul (d a b : BitVec 4) (c : BitVec 3)
  /-- VMIN (R180): Vector integer minimum. -/
  | vmin (d a b : BitVec 4) (c : BitVec 3)
  /-- VMAX (R180): Vector integer maximum. -/
  | vmax (d a b : BitVec 4) (c : BitVec 3)
  /-- VAND (R180): Vector AND. -/
  | vand (d a b : BitVec 4) (c : BitVec 3)
  /-- VOR (R180): Vector OR. -/
  | vor (d a b : BitVec 4) (c : BitVec 3)
  /-- VXOR (R180): Vector XOR. -/
  | vxor (d a b : BitVec 4) (c : BitVec 3)
  /-- VSLL (R180): Vector logical left shift. -/
  | vsll (d a b : BitVec 4) (c : BitVec 3)
  /-- VSRL (R180): Vector logical right shift. -/
  | vsrl (d a b : BitVec 4) (c : BitVec 3)
  /-- VSRA (R180): Vector arithmetic right shift. -/
  | vsra (d a b : BitVec 4) (c : BitVec 3)
  /-- VADDS (R180): Vector saturating add. -/
  | vadds (d a b : BitVec 4) (c : BitVec 3)
  /-- VSUBS (R180): Vector saturating subtract. -/
  | vsubs (d a b : BitVec 4) (c : BitVec 3)
  /-- VFCMP (R181): Vector float compare producing masks. -/
  | vfcmp (d a b : BitVec 4) (c : BitVec 3) (k : BitVec 2)
  /-- VICMP (R181): Vector integer compare producing masks. -/
  | vicmp (d a b : BitVec 4) (c k : BitVec 3)
  /-- VSEL (R181): Vector element select by the mask in vd. -/
  | vsel (d a b : BitVec 4) (c : BitVec 3)
  /-- VPERM (R182): Permutes lanes of va by indices in vb. -/
  | vperm (d a b : BitVec 4)
  /-- VBCAST (R182): Broadcasts a general register to every element. -/
  | vbcast (d s : BitVec 4)
  /-- VBCASTL (R182): Broadcasts lane L of va. -/
  | vbcastl (d a : BitVec 4) (l : BitVec 6)
  /-- VROT (R182): Rotates lanes of va by L. -/
  | vrot (d a : BitVec 4) (l : BitVec 6)
  /-- VRSUM (R183): Segmented float sum reduction by a fixed tree. -/
  | vrsum (d a : BitVec 4) (s : BitVec 3)
  /-- VRMAX (R183): Segmented float max reduction. -/
  | vrmax (d a : BitVec 4) (s : BitVec 3)
  /-- VRMIN (R183): Segmented float min reduction. -/
  | vrmin (d a : BitVec 4) (s : BitVec 3)
  /-- VRISUM (R183): Segmented wrapping integer sum. -/
  | vrisum (d a : BitVec 4) (s : BitVec 3)
  /-- VRISUMS (R183): Segmented saturating integer sum. -/
  | vrisums (d a : BitVec 4) (s : BitVec 3)
  /-- VRIMAX (R183): Segmented integer max reduction. -/
  | vrimax (d a : BitVec 4) (s : BitVec 3)
  /-- VRIMIN (R183): Segmented integer min reduction. -/
  | vrimin (d a : BitVec 4) (s : BitVec 3)
  /-- VCVT (R184): Exact vector conversion placing one part. -/
  | vcvt (d a : BitVec 4) (p : BitVec 3) (e : BitVec 4)
  /-- VCVTD (R184): Rounding vector conversion under a policy. -/
  | vcvtd (d a : BitVec 4) (p : BitVec 3) (o : BitVec 2) (e : BitVec 4)
  /-- VCVT.s (R184): Scaled widening conversion by E8M0 scales in vb. -/
  | vcvtS (d a b : BitVec 4) (p : BitVec 3) (o : BitVec 2) (e : BitVec 4)
  /-- VCVTD.s (R184): Scaled narrowing conversion by E8M0 scales in vb. -/
  | vcvtdS (d a b : BitVec 4) (p : BitVec 3) (o : BitVec 2) (e : BitVec 4)
  /-- VRCP (R186): Vector reciprocal. -/
  | vrcp (d a : BitVec 4)
  /-- VRSQRT (R186): Vector reciprocal square root. -/
  | vrsqrt (d a : BitVec 4)
  /-- VEXP2 (R186): Vector base-2 exponential. -/
  | vexp2 (d a : BitVec 4)
  /-- VLOG2 (R186): Vector base-2 logarithm. -/
  | vlog2 (d a : BitVec 4)
  /-- VTANH (R186): Vector hyperbolic tangent. -/
  | vtanh (d a : BitVec 4)
  /-- VSIGM (R186): Vector logistic sigmoid. -/
  | vsigm (d a : BitVec 4)
  /-- VFDIV (R186): Vector float divide. -/
  | vfdiv (d a b : BitVec 4)
  /-- VFSQRT (R186): Vector float square root. -/
  | vfsqrt (d a : BitVec 4)
  /-- VINS (R182): Inserts a general register into lane L. -/
  | vins (d s : BitVec 4) (l : BitVec 6)
  /-- VEXT (R182): Extracts lane L into a general register. -/
  | vext (d a : BitVec 4) (l : BitVec 6)
  /-- XFREE (R190): Releases named tiles and ends the lease. -/
  | xfree (a : BitVec 5)
  /-- XCFG (R155): Writes the array configuration register. -/
  | xcfg (a : BitVec 5)
  /-- XCFG.tab (R163): Loads the codebook pattern table from quad memory. -/
  | xcfgTab (a : BitVec 5)
  /-- XSTAT (R190): Reads tile and lease status. -/
  | xstat (c : BitVec 3) (a : BitVec 5)
  /-- XSTAT.clr (R190): Reads tile status and clears its sticky fields. -/
  | xstatClr (c : BitVec 3) (a : BitVec 5)
  /-- XLDA (R191): Loads A operand rows from quad memory. -/
  | xlda (a b : BitVec 5) (r : BitVec 2)
  /-- XLDB (R191): Loads B operand columns from quad memory. -/
  | xldb (a b : BitVec 5) (r : BitVec 2)
  /-- XLDSA (R191): Loads A block-scale pairs. -/
  | xldsa (a : BitVec 5) (r : BitVec 2)
  /-- XLDSB (R191): Loads B block-scale pairs. -/
  | xldsb (a : BitVec 5) (r : BitVec 2)
  /-- XUNF (R161): Loads an unfolding descriptor. -/
  | xunf (a : BitVec 5)
  /-- XMMA (R192): Matrix multiply-accumulate into a tile. -/
  | xmma (c : BitVec 3) (m n : BitVec 2)
  /-- XCMMA (R192): Complex matrix multiply-accumulate. -/
  | xcmma (c : BitVec 3) (m n : BitVec 2)
  /-- XZERO (R160): Zeroes a tile and resets its step counter. -/
  | xzero (c : BitVec 3)
  /-- XZERO.f (R160): Sets a tile from an FP32 bias vector. -/
  | xzeroF (c : BitVec 3) (v : BitVec 4)
  /-- XZERO.i (R160): Sets a tile from an INT32 bias vector. -/
  | xzeroI (c : BitVec 3) (v : BitVec 4)
  /-- XDRN (R164): Promotes and drains a tile region to quad memory. -/
  | xdrn (c : BitVec 3) (a b : BitVec 5) (f : BitVec 4) (p : BitVec 2) (k r : BitVec 1)
  /-- CPY (R332): Issues a copy command into the core's FIFO, waiting while full. -/
  | cpy (d a : BitVec 5) (m : BitVec 2)
  /-- CPY.nb (R332): Issues a copy command without waiting. -/
  | cpyNb (d a : BitVec 5) (m : BitVec 2)
  /-- CPYST (R333): Reads FIFO status or a copy-engine stall counter. -/
  | cpyst (d s : BitVec 5)
  /-- GATHER (R334): Issues a gather command to an engine stream. -/
  | gather (d a : BitVec 5) (m : BitVec 2) (b : BitVec 5) (n : BitVec 2)
  /-- RAINIT (R335): Initialises a ring object. -/
  | rainit (a : BitVec 5) (m : BitVec 2) (b : BitVec 5) (n : BitVec 2)
  /-- RAWAIT (R335): Waits for a ring slot to be filled. -/
  | rawait (d a : BitVec 5) (m : BitVec 2) (b : BitVec 5) (n : BitVec 2)
  /-- RAREL (R335): Releases a ring slot. -/
  | rarel (a : BitVec 5) (m : BitVec 2)
  /-- BARINIT (R337): Initialises a barrier object. -/
  | barinit (a : BitVec 5) (m : BitVec 2) (b : BitVec 5) (n : BitVec 2)
  /-- BARARR (R337): Arrives at a barrier object with release. -/
  | bararr (a : BitVec 5) (m : BitVec 2) (b : BitVec 5) (n : BitVec 2)
  /-- BARXB (R338): Adds an expectation to a barrier's pending bytes. -/
  | barxb (a : BitVec 5) (m : BitVec 2) (b : BitVec 5) (n : BitVec 2)
  /-- BARWAIT (R337): Waits until a barrier's phase passes a value. -/
  | barwait (a : BitVec 5) (m : BitVec 2) (b : BitVec 5) (n : BitVec 2)
  /-- SEQWAIT (R339): Waits until a sequence word reaches a value. -/
  | seqwait (a : BitVec 5) (m : BitVec 2) (b : BitVec 5) (n : BitVec 2)
  /-- SLEEP (R386): Leaves the pipe until a time, a fill or an event. -/
  | sleep (s : BitVec 5)
  /-- KILLCTX (R388): Starts removal of another launch. -/
  | killctx (d a : BitVec 5) (m : BitVec 2)
  /-- TLBI (R389): Invalidates translations of the launch. -/
  | tlbi (a : BitVec 5) (m : BitVec 2) (b : BitVec 5) (n : BitVec 2)
  /-- WATCH (R390): Fills a watchpoint from a translated binding and offset. -/
  | watch (m : BitVec 5) (n : BitVec 2) (h : BitVec 4) (s : BitVec 5)
  /-- SNAP (R392): Fires the flash trigger and returns its number. -/
  | snap (d : BitVec 5)
  /-- GUST (R393): Requests a gust lease, returning a status. -/
  | gust (d s : BitVec 5)
  /-- GUST.t (R393): Requests a gust lease, trapping LEASE_REFUSED on refusal. -/
  | gustT (d s : BitVec 5)
  /-- GUSTREL (R394): Releases the context's gust lease. -/
  | gustrel (d : BitVec 5)
  /-- QREAD (R395): Reads quota, budget or limit values. -/
  | qread (d : BitVec 5) (s : BitVec 3)
  /-- XRED (R427): Issues an in-switch reduction contribution. -/
  | xred (d a : BitVec 5) (m : BitVec 2)
  /-- COLL (R429): Starts a collective over a group. -/
  | coll (d a : BitVec 5) (m : BitVec 2)
  /-- CWAIT (R432): Waits for a chunk of a collective. -/
  | cwait (d a : BitVec 5) (m : BitVec 2) (b : BitVec 5) (n : BitVec 2)
  /-- RAMO.swap (R433): Remote atomic swap on another device. -/
  | ramoSwap (d a : BitVec 5) (m : BitVec 2) (b : BitVec 5) (n : BitVec 2) (w : BitVec 1)
  /-- RAMO.add (R433): Remote atomic add. -/
  | ramoAdd (d a : BitVec 5) (m : BitVec 2) (b : BitVec 5) (n : BitVec 2) (w : BitVec 1)
  /-- RAMO.and (R433): Remote atomic AND. -/
  | ramoAnd (d a : BitVec 5) (m : BitVec 2) (b : BitVec 5) (n : BitVec 2) (w : BitVec 1)
  /-- RAMO.or (R433): Remote atomic OR. -/
  | ramoOr (d a : BitVec 5) (m : BitVec 2) (b : BitVec 5) (n : BitVec 2) (w : BitVec 1)
  /-- RAMO.xor (R433): Remote atomic XOR. -/
  | ramoXor (d a : BitVec 5) (m : BitVec 2) (b : BitVec 5) (n : BitVec 2) (w : BitVec 1)
  /-- RAMO.min (R433): Remote atomic signed minimum. -/
  | ramoMin (d a : BitVec 5) (m : BitVec 2) (b : BitVec 5) (n : BitVec 2) (w : BitVec 1)
  /-- RAMO.max (R433): Remote atomic signed maximum. -/
  | ramoMax (d a : BitVec 5) (m : BitVec 2) (b : BitVec 5) (n : BitVec 2) (w : BitVec 1)
  /-- RAMO.minu (R433): Remote atomic unsigned minimum. -/
  | ramoMinu (d a : BitVec 5) (m : BitVec 2) (b : BitVec 5) (n : BitVec 2) (w : BitVec 1)
  /-- RAMO.maxu (R433): Remote atomic unsigned maximum. -/
  | ramoMaxu (d a : BitVec 5) (m : BitVec 2) (b : BitVec 5) (n : BitVec 2) (w : BitVec 1)
  /-- RAMO.cas (R433): Remote compare-and-swap. -/
  | ramoCas (d a : BitVec 5) (m : BitVec 2) (b : BitVec 5) (n : BitVec 2) (w : BitVec 1)
  /-- MOV.c (R70): Compact register move. -/
  | movC (d a : BitVec 4)
  /-- ADD.c (R70): Compact two-address add. -/
  | addC (d a : BitVec 4)
  /-- SUB.c (R70): Compact two-address subtract. -/
  | subC (d a : BitVec 4)
  /-- AND.c (R70): Compact AND. -/
  | andC (d a : BitVec 4)
  /-- OR.c (R70): Compact OR. -/
  | orC (d a : BitVec 4)
  /-- XOR.c (R70): Compact XOR. -/
  | xorC (d a : BitVec 4)
  /-- SLL.c (R70): Compact logical left shift. -/
  | sllC (d a : BitVec 4)
  /-- SRL.c (R70): Compact logical right shift. -/
  | srlC (d a : BitVec 4)
  /-- ADDI.c (R70): Compact add immediate. -/
  | addiC (d : BitVec 4) (i : BitVec 7)
  /-- LI.c (R70): Compact load immediate. -/
  | liC (d : BitVec 4) (i : BitVec 7)
  /-- SLLI.c (R70): Compact left shift immediate. -/
  | slliC (d : BitVec 4) (s : BitVec 5)
  /-- SRLI.c (R70): Compact logical right shift immediate. -/
  | srliC (d : BitVec 4) (s : BitVec 5)
  /-- SRAI.c (R70): Compact arithmetic right shift immediate. -/
  | sraiC (d : BitVec 4) (s : BitVec 5)
  /-- LD.c (R70): Compact 8-byte load through hb0. -/
  | ldC (d a : BitVec 4) (o : BitVec 3)
  /-- ST.c (R70): Compact 8-byte store through hb0. -/
  | stC (t a : BitVec 4) (o : BitVec 3)
  /-- BEQZ.c (R70): Compact branch if zero. -/
  | beqzC (a : BitVec 4) (o : BitVec 7)
  /-- BNEZ.c (R70): Compact branch if non-zero. -/
  | bnezC (a : BitVec 4) (o : BitVec 7)
  /-- J.c (R70): Compact PC-relative jump. -/
  | jC (o : BitVec 11)
  /-- JR.c (R70): Compact register jump. -/
  | jrC (a : BitVec 4)
  /-- FMT (R71): Format prefix setting PFX, PFMT and PRND for the next instruction. -/
  | fmt (f : BitVec 4) (r : BitVec 3)
  /-- HINT (R78): Hint-space instruction that retires as a no-op. -/
  | hint (o : BitVec 3) (h : BitVec 24)
  /-- OBJDROP (R296): Drops a declared coherence object. -/
  | objdrop (d : BitVec 5)
  /-- WDROP (R299): Drops a recording to EMPTY. -/
  | wdrop (d b : BitVec 5)
  /-- NOP (R118): Retires with no effect. -/
  | nop
  /-- DRAIN (R290): Sends every dirty byte of the quad cache to its home. -/
  | drain
  /-- FFENCE (R291): Fetch fence: discards fetched packets and refetches. -/
  | ffence
  /-- DONE (R171): Waits for outstanding work, then ends the task and releases its send buffer. -/
  | done
  /-- XLEASE (R190): Requests the quad's array lease. -/
  | xlease
  /-- XWAIT (R190): Waits until the context's accepted array commands complete. -/
  | xwait
  /-- TRET (R385): Returns from a trap handler to TRAPPC, restoring saved state. -/
  | tret
  /-- HALT (R387): Gives up the task by abort. -/
  | halt
  /-- TLBSYNC (R389): Waits until earlier invalidations and old-mapping stores complete. -/
  | tlbsync
  /-- SSTEP.off (R391): Disables single step. -/
  | sstepOff
  /-- SSTEP.on (R391): Enables single step. -/
  | sstepOn
  /-- SSTEP.once (R391): Enables one single step. -/
  | sstepOnce
  /-- RESET (R126): Reset leaves every context DORMANT with reset register values. -/
  | reset
  /-- FILL_ARRIVAL (R18): A fill reaches the foot and updates the register or fill slot. -/
  | fillArrival (core ctx slot : Nat) (data : Option (BitVec 64)) (err : Bool)
  /-- DEEP_MISS_NOTICE (R34): The memory system notifies a fill slot of an L2 miss. -/
  | deepMissNotice (core ctx slot : Nat)
  /-- SIDING_REJOIN (R28): An instruction completing in a siding rejoins at stage 6. -/
  | sidingRejoin (core : Nat)
  /-- MISS_RETURN (R106): Data for a plain load miss returns to the M siding. -/
  | missReturn (core : Nat)
  /-- TRAP_ENTRY (R346): The kill token reaches the foot and the context enters its handler or aborts. -/
  | trapEntry (core : Nat)
  /-- MISS_SWITCH (R34): The core switches context on a deep miss. -/
  | missSwitch (core : Nat)
  /-- ASYNC_EVENT_TAKEN (R33): An asynchronous event is taken at a retirement boundary. -/
  | asyncEventTaken (core : Nat)
  /-- FORCED_BOUNDARY (R33): After 56 cycles without retirement the core makes a boundary itself. -/
  | forcedBoundary (core : Nat)
  /-- PIPE_SLICE_EXPIRY (R130): A context that held the pipe 4,096 cycles is switched out. -/
  | pipeSliceExpiry (core : Nat)
  /-- STORE_PERFORMED (R203): A released store is performed at the quad cache once write permission is granted. -/
  | storePerformed (core idx : Nat)
  /-- DIRTY_MERGE (R205): Dirty bytes merge at the home and invalidate other copies. -/
  | dirtyMerge (quad line : Nat) (evict : Bool)
  /-- BANK_REFRESH (R207): A weight-store bank enters its refresh window. -/
  | bankRefresh
  /-- DISPATCH (R129): A core dispatches a candidate to a DORMANT context. -/
  | dispatch (core : Nat)
  /-- MESSAGE_OFFER (R133): A released message is offered to its destination queue and accepted or refused. -/
  | messageOffer (core ctx : Nat)
  /-- MESSAGE_REOFFER (R132): A refused message is offered again after 2 us. -/
  | messageReoffer (core ctx : Nat)
  /-- HINT_WALK (R134): A SENDH task walks towards its hint quad and is claimed, pushed or refused. -/
  | hintWalk (core ctx : Nat)
  /-- SPAWN_REQUEST (R135): A SPAWN request reaches its core, which reserves a context or not. -/
  | spawnRequest (core ctx slot : Nat)
  /-- CHILD_START (R135): A granted child starts on its reserved context once admitted. -/
  | childStart (core ctx : Nat)
  /-- STEAL_PROBE (R138): A thief probes a victim over the steal network. -/
  | stealProbe (core : Nat)
  /-- STEAL_REPLY (R138): A victim's answer to a probe reaches the thief. -/
  | stealReply (core : Nat)
  /-- STEAL_PAUSE_EXPIRY (R138): The 1 us pause after a fruitless steal pass ends. -/
  | stealPauseExpiry (core : Nat)
  /-- SPILL_MOVE (R127): The oldest spilled message moves into a freed hardware entry. -/
  | spillMove (core queue : Nat)
  /-- START_MESSAGE (R143): A launch's start message reaches a core and starts its start task. -/
  | startMessage (core : Nat)
  /-- LAUNCH_COMPLETE (R143): Every core of the launch is quiescent and the launch completes. -/
  | launchComplete (launch : Nat)
  /-- LEASE_GRANT (R152): The array grants the lease to the next requesting core. -/
  | leaseGrant (quad : Nat)
  /-- LEASE_CLOCK_EXPIRY (R152): The lease ends after 4,096 cycles. -/
  | leaseClockExpiry (quad : Nat)
  /-- ARRAY_COMMAND_EXECUTE (R151): An accepted array command executes once its instruction retired. -/
  | arrayCommandExecute (quad : Nat)
  /-- VECTOR_ISSUE (R150): The vector unit issues a ready lane head round-robin. -/
  | vectorIssue (quad : Nat)
  /-- SEAL (R266): A recording's seal completes, writing sorted entries and header. -/
  | seal (launch rec : Nat)
  /-- PUSH_ARRIVAL (R268): A push arrives at the consumer quad and is placed or discarded. -/
  | pushArrival (quad idx : Nat)
  /-- PUSH_TIMEOUT (R268): An unplaced push is discarded 2 us after issue. -/
  | pushTimeout (quad idx : Nat)
  /-- ROUND_CLOSE (R271): A replay round closes once its pushes settle. -/
  | roundClose (launch rec : Nat)
  /-- ENGINE_CHUNK (R307): The copy engine serves one chunk of a FIFO head. -/
  | engineChunk (quad : Nat)
  /-- COPY_OP (R309): A COPY engine command begins after its source waits. -/
  | copyOp (core : Nat)
  /-- PACK (R309): A PACK engine command begins. -/
  | pack (core : Nat)
  /-- UNPACK (R309): An UNPACK engine command begins. -/
  | unpack (core : Nat)
  /-- FILL (R309): A FILL engine command begins. -/
  | fill (core : Nat)
  /-- RING_RESERVE (R320): A ring-advancing command reserves a slot when one is free. -/
  | ringReserve (core : Nat)
  /-- GATHER_ROW (R317): A gather engine copies one indexed row. -/
  | gatherRow (die engine stream : Nat)
  /-- COMMAND_COMPLETION (R313): An engine command's bytes are performed and its completion signal follows. -/
  | commandCompletion (engine : EngineId)
  /-- TAIL_POLL (R325): A command processor reads a chain's TAIL. -/
  | tailPoll (chain : Nat)
  /-- CHAIN_ENTRY_COMPLETION (R325): A chain entry completes; STATUS is written and SEQ rises. -/
  | chainEntryCompletion (chain : Nat)
  /-- ROOT (R324): Chain entry setting the translation root. -/
  | root (chain : Nat)
  /-- LAUNCH (R143): Chain entry carrying out a launch. -/
  | launch (chain : Nat)
  /-- COPY (R324): Chain entry copying memory, possibly to a weight store. -/
  | copy (chain : Nat)
  /-- WAIT (R324): Chain entry waiting on a memory word. -/
  | wait (chain : Nat)
  /-- SIGNAL (R324): Chain entry storing a value with release. -/
  | signal (chain : Nat)
  /-- SUSPEND (R360): Chain entry suspending a launch between tasks. -/
  | suspend (chain : Nat)
  /-- RESUME (R361): Chain entry resuming a suspended launch. -/
  | resume (chain : Nat)
  /-- REMOVE (R362): Chain entry removing a launch. -/
  | remove (chain : Nat)
  /-- WINDOW (R420): Chain entry opening a launch's remote window. -/
  | window (chain : Nat)
  /-- LOGCFG (R409): Chain entry configuring the dirty-range log ring. -/
  | logcfg (chain : Nat)
  /-- FLUSH (R412): Chain entry writing dirty lines of a range back. -/
  | flush (chain : Nat)
  /-- OBSCFG (R435): Chain entry configuring observation. -/
  | obscfg (chain : Nat)
  /-- CORE_SUSPEND (R360): A core whose launch contexts are DORMANT saves state and releases. -/
  | coreSuspend (core : Nat)
  /-- TASK_OVERRUN (R350): BUDGET reaches 0 and the task is aborted. -/
  | taskOverrun (core ctx : Nat)
  /-- KILL_FLOOD (R362): The kill flood reaches a core and annuls the launch's contexts. -/
  | killFlood (launch core : Nat)
  /-- SWEEP_END (R362): The 4 us sweep of a removed launch ends at a router. -/
  | sweepEnd (launch : Nat)
  /-- REMOVAL_CONFIRMATION (R363): The reduction tree confirms removal and caches are drained. -/
  | removalConfirmation (launch : Nat)
  /-- DOLDRUMS (R366): The doldrums trap is raised for a stuck launch. -/
  | doldrums (launch : Nat)
  /-- CONTROL_INTERVAL_BOUNDARY (R368): Every 8 us MELT, leases, budgets and quotas are updated. -/
  | controlIntervalBoundary (melt : List (Nat × Nat))
  /-- GUST_LEASE_EXPIRY (R378): A gust lease ends at a boundary and the holder is notified. -/
  | gustLeaseExpiry (cluster : Nat)
  /-- ENERGY_METER_UPDATE (R372): Energy meters charge a context's quota. -/
  | energyMeterUpdate (core ctx nj : Nat)
  /-- FIRMWARE_BUDGET_WRITE (R369): Power firmware sets a cluster's E_B and I_B. -/
  | firmwareBudgetWrite (cluster eb ib : Nat)
  /-- FIRMWARE_WATCHDOG (R381): Firmware silent for 4 intervals: defaults restored, leases end. -/
  | firmwareWatchdog
  /-- SUPPLY_SAG (R379): A supply sag halves affected clocks. -/
  | supplySag (core : Nat)
  /-- SAG_CLEAR (R379): A sag clears and clocks climb back. -/
  | sagClear (core : Nat)
  /-- THERMAL_TRIP (R381): A cluster at 110 C pauses its clocks. -/
  | thermalTrip (cluster : Nat)
  /-- THERMAL_RECOVER (R381): A cluster below 105 C resumes its clocks. -/
  | thermalRecover (cluster : Nat)
  /-- SUPPLY_LOSS_WARNING (R380): A supply-loss warning starts the checkpoint sequencer. -/
  | supplyLossWarning
  /-- HOST_WRITE (R404): A host BAR2 write is performed at its home. -/
  | hostWrite (link offset : Nat) (data : List (BitVec 8))
  /-- CHAIN_REGISTRATION_WRITE (R403): A host write of a chain registration entry enables or stops a chain. -/
  | chainRegistrationWrite (chain : Nat) (value : BitVec 128)
  /-- HOST_REGISTER_WRITE (R402): A host write to a BAR0 register with no row of its own. -/
  | hostRegisterWrite (offset : Nat) (value : BitVec 64)
  /-- REMOTE_PACKET_ARRIVAL (R420): An incoming remote access is performed through a window or ends in error. -/
  | remotePacketArrival (pkt : RemotePacket)
  /-- REMOTE_ACK (R421): A remote store's acknowledgement returns. -/
  | remoteAck (idx : Nat) (err : Bool)
  /-- FLIT_REPLAY (R413): A failed flit is replayed; eight failures take the link down. -/
  | flitReplay (link : Nat) (ok : Bool)
  /-- REDUCTION_RESULT (R428): The switch's reduction result arrives and is written. -/
  | reductionResult (idx : Nat) (data : List (BitVec 8)) (bad : Bool)
  /-- COLLECTIVE_CHUNK (R430): A collective chunk is combined and written to members. -/
  | collectiveChunk (idx chunk : Nat) (fromSwitch : List (BitVec 8)) (bad : Bool)
  /-- LOG_ENTRY_WRITE (R410): A home slice writes its open log entry and advances PRODUCER. -/
  | logEntryWrite (slice : Nat)
  /-- ISOBAR_SAMPLE (R436): Port counts are sampled at a sampling boundary and a frame written. -/
  | isobarSample (counts : List (Nat × BitVec 64))
  /-- HOST_FLASH_TRIGGER (R439): A host write fires the flash trigger. -/
  | hostFlashTrigger
  /-- SNAPSHOT_LATCH (R392): Every block latches snapshot records at the latch cycle. -/
  | snapshotLatch
  /-- SNAPSHOT_COPY (R439): A command processor copies a latch to memory. -/
  | snapshotCopy
  /-- BREAKPOINT_CLEAR (R440): The host clears a chain halt and the entry begins. -/
  | breakpointClear (chain : Nat)
  /-- TASK_STOP_WRITE (R441): The host writes a task stop, in force within 2 us. -/
  | taskStopWrite (n : Nat) (word0 word1 : BitVec 64)
  /-- ARRAY_COMMAND_COMPLETION (R187): An executing array command finishes after its stated time, leaving the command queue and letting XWAIT, DONE, the lease drain and the next command proceed. -/
  | arrayCommandCompletion (quad : Nat)
  /-- SLEEP_EXPIRY (R386): The g[s] mesh cycles of a SLEEP pass and the sleeping context becomes ready again. -/
  | sleepExpiry (core ctx : Nat)
  /-- REPLAY_ENTRY_LOAD (R267): A quad loads the next entry of a replay window's stream from the recording buffer into its places. -/
  | replayEntryLoad (core ctx : Nat)
  /-- RESUME_MESSAGE (R361): A resume message reaches a core, acts as its fetch fence and lets it make the resumption acquire and dispatch again. -/
  | resumeMessage (core : Nat)
  /-- POWER_FIRMWARE_UPDATE (R374): The power firmware begins or ends an update, setting or clearing FWUPD. -/
  | powerFirmwareUpdate (begins : Bool)
  /-- DEVICE_ID_ASSIGNMENT (R417): Fabric management sets the device's fabric identity in DEVID. -/
  | deviceIdAssignment (id : BitVec 12)
  /-- ILLEGAL_ENCODING (R76): The foot decodes a reserved or ill-formed encoding as a packet that carries ILLEGAL. -/
  | illegalEncoding (bits : BitVec 32) (wide : Bool)
  /-- FETCH_BOUNDS (R63): A fetch whose halfwords do not all lie inside the instruction store yields a packet that carries BOUNDS. -/
  | fetchBounds (outside : BitVec 64)
  /-- UNKNOWN_CHAIN_ENTRY_TYPE (R325): A command processor begins an entry whose TYPE is unknown and halts the chain by ERR without writing STATUS. -/
  | unknownChainEntryType (chain : Nat)
deriving DecidableEq, Repr

end Sys2Proof
end

