-- ==== Sys2Proof/Machine/State.lean ====
section
/-!
DEFINITION. The machine's state: contexts, cores, quads, clusters, dies, launches, memory and everything in flight
between them, with its value after reset. Plain data throughout. INVENTORY.md lists each piece with the rule that
names it.
-/

namespace Sys2Proof.Machine

/-- Why the machine stops. Nothing in the spec stops the part as a whole: a fault of a program is a trap (R344), which is
a next state. The one fault here is for a state that no run reaches. -/
inductive Fault where
  /-- Raised by no instruction: kept so that a caller can name a stop that is none of the spec's. Safe. -/
  | unreachable
deriving DecidableEq, Repr

/-- Why an instruction is refused. -/
inductive Refusal where
  /-- Raised by exec's arm of an instruction that has no meaning in this model. Safe. -/
  | notModelled (mnemonic : String)
deriving DecidableEq, Repr

/-- A map from numbers, its keys rising; an unlisted key has the default its reader names. -/
abbrev NatMap (α : Type) := List (Nat × α)

/-- States of a general register (R11). -/
inductive RegState where
  | full
  | empty (tag : BitVec 4)
  | free
deriving DecidableEq, Repr

/-- States of a context (R121). -/
inductive CtxState where
  | dormant
  | reserved
  | running
  | draining
deriving DecidableEq, Repr

/-- What a fill slot is waiting for (R18). -/
inductive FillKind where
  /-- the read of an LD.a (R279, R280) -/
  | load
  /-- the same, still to be performed: its home holds it for an engine, or an older access goes before it: handle entry, offset, key
  of the first byte, and the slots of the older reads of its context that come first (R213, R222, R279, R280) -/
  | held (h : BitVec 256) (off key : Nat) (after : List Nat)
  /-- the reply of a SPAWN (R135) -/
  | spawn
  /-- the creation of version n of the versioned word at a place, for an acquire wider than .quad or not (R240, R292) -/
  | version (word : Nat) (n : Nat) (wide : Bool)
  /-- an access to another device (R419, R433) -/
  | remote
deriving DecidableEq, Repr

/-- One busy fill slot: the register its producer marked EMPTY, what fills it, whether the memory system has sent its
deep-miss notice, and whether its task has been aborted since (R18, R34, R348). A value already on its way is held here
until the fill arrives. -/
structure FillSlot where
  reg : BitVec 5
  kind : FillKind
  value : Option Word
  err : Bool
  deep : Bool
  orphan : Bool
deriving DecidableEq, Repr

/-- What a wait at a SYNC word or object wants: a barrier's phase passed, a ring's slot filled, a word at least so large
(R320, R339). -/
inductive SyncWant where
  | phase (n : BitVec 32)
  | slot (n : BitVec 32)
  | atLeast (v : Word)
deriving DecidableEq, Repr

/-- A register that has become FREE, or FULL by its fill, while instructions that the foot decoded before may still be unretired (R19,
R25, R29): how many more instructions may be such ones, and the tag of the fill, where one has filled it or, by an error, freed it
(R26, R280). -/
structure Fading where
  reg : BitVec 5
  left : Nat
  lost : Option (BitVec 4)
deriving DecidableEq, Repr

/-- What the instruction at PC waits for. The first is a stall at stage 2, the second a wait for a free fill slot at
stage 3; the others are waits in a siding (R22, R27, R28). -/
inductive Wait where
  | source (regs : List (BitVec 5))
  /-- a source whose fill came with an error mark: it is never garnered, and only a trap or a switch ends the stall (R26) -/
  | lost
  | fillSlot
  /-- a vector operation in its core's lane (R150) -/
  | vector
  /-- an array command without the lease, or XLEASE (R151) -/
  | lease
  /-- room in the array's command queue (R151) -/
  | arrayRoom
  /-- XWAIT, XSTAT or a command that reads quad memory: own commands or stores outstanding (R189, R190) -/
  | arrayDone
  /-- a plain load of a line an engine owns (R222, R106) -/
  | miss (line : Nat)
  /-- a read that has reached its weight-store bank within the bank's refresh window (R207) -/
  | refresh
  /-- stores, merges or versions that must be performed first (R289, R290) -/
  | drain
  /-- CPY with the FIFO full (R310) -/
  | fifo
  /-- GATHER with its stream full (R316) -/
  | stream (die engine strm : Nat)
  /-- COLL with its engine full (R431), XRED without credit (R427) -/
  | engine
  /-- BARWAIT, RAWAIT or SEQWAIT on a SYNC word; asleep while what it wants has not come (R365) -/
  | sync (key : Nat) (want : SyncWant)
  /-- SEQWAIT on a GLOBAL word: its key and the least value (R339, R365) -/
  | word (key : Nat) (v : Word)
  /-- CWAIT on a chunk of a collective id; asleep for a package-only collective (R431) -/
  | coll (sleeping : Bool) (id chunk : Nat)
  /-- LDV delivering a held version (R292) -/
  | version
  /-- DONE with work outstanding (R171, R315) -/
  | done
  /-- WPLAY, WREC or WDROP while a recording seals or a round closes (R261, R304) -/
  | recording (n : Nat)
  /-- TLBSYNC (R389) -/
  | shootdown
  /-- SNAP until its latch cycle (R392) -/
  | latch (cycle : Nat)
  /-- a remote access waiting for acknowledgements of earlier stores (R421, R433) -/
  | acks
deriving DecidableEq, Repr

/-- A trap's report: cause code, whether it is taken at a boundary, the address, TRAPINFO (R344, R345). -/
structure Report where
  code : BitVec 8
  async : Bool
  pc : Word
  info : Word
deriving DecidableEq, Repr

/-- The asynchronous causes that can be pending for a context, with the TRAPINFO of each (R349). -/
structure Async where
  extError : Option Word
  doldrums : Option Word
  watch : Option Word
  gust : Option Word
  step : Option Word
  /-- task stops armed at addresses: number and address of each (R441, R442) -/
  stopAt : List (Nat × Word)
deriving DecidableEq, Repr

/-- What the next boundary does: a trap report, or a switch to another context that sets no trap register (R31, R34). -/
inductive Token where
  | trap (r : Report)
  /-- a switch on a deep miss names the fill slot awaited -/
  | park (slot : Option Nat)
deriving DecidableEq, Repr

/-- A REPN whose target has not retired: its address, its counter and the count before this pair (R112). -/
structure Repeat where
  pc : Word
  d : BitVec 5
  count : Word
deriving DecidableEq, Repr

/-- The implied release a record carries: the core that made it and the objects its quad then held dirty (R132, R221). -/
abbrev Released := Option (Nat × List Nat)

/-- A task in its envelope (R122, R123), with its release. -/
structure Task where
  record : BitVec 256
  taskId : Word
  msgId : Word
  childPc : BitVec 16
  rel : Released
deriving DecidableEq, Repr

/-- Where a running task came from (R345, R348). -/
inductive Origin where
  | queue (q entry : Nat)
  | deque
  | child
deriving DecidableEq, Repr

/-- The task a context runs: its envelope, its origin, its privilege, the class entry it started from, the budget
granted and the current class charged to its cluster (R125, R126, R344, R370). -/
structure TaskInfo where
  task : Task
  origin : Origin
  sys : Bool
  entry : BitVec 512
  granted : Nat
deriving DecidableEq, Repr

/-- What an entry of the send buffer does when DONE releases it (R131, R172 to R174). -/
inductive SendKind where
  | msg (dest : Nat)
  | hint
  | push
  /-- SENDNZ: destination, the captured vector, element format selector, base index (R147, R173) -/
  | nz (dest : Nat) (v : VWord) (sel : BitVec 3) (base : BitVec 32)
  /-- SPAWN: destination core, fill slot while the request is out, granted context (R135, R174) -/
  | child (dest : Nat) (slot : Nat) (granted : Option Nat)
deriving DecidableEq, Repr

/-- One entry of a send buffer: what it does, the record, the payload slot it holds, and its TASKID. -/
structure SendEntry where
  kind : SendKind
  task : Task
  slot : Option Nat
deriving DecidableEq, Repr

/-- What DONE released and is not yet accepted (R132). Pushes and children leave as soon as the task's stores have been
performed. -/
inductive DrainKind where
  | msg (dest : Nat)
  | hint
  | push
  | child (dest cx : Nat)
deriving DecidableEq, Repr

/-- A released message with its payload slot; refused ones wait for the next offer. -/
structure Drain where
  kind : DrainKind
  task : Task
  slot : Option Nat
  refused : Bool
deriving DecidableEq, Repr

/-- The class entry a context reserved for a child will start from, and the child once its parent has released it
(R135). -/
structure Reservation where
  entry : BitVec 512
  sys : Bool
  child : Option Task
deriving DecidableEq, Repr

/-- An open Tradewind window: recording, stream, next ordinal, replay or record, and its number in its recording (R259,
R262). -/
structure Window where
  recNo : Nat
  stream : Nat
  ordinal : Nat
  replay : Bool
  id : Nat
deriving DecidableEq, Repr

/-- One context (R10 to R15 and the control registers later rules add). -/
structure Ctx where
  cstate : CtxState
  g : Vector Word 32
  gs : Vector RegState 32
  v : Vector VWord 16
  hb : Vector Word 16
  pc : Word
  status : Word
  trapCause : Word
  trapPc : Word
  trapInfo : Word
  trapMsg : Word
  trapVec : Word
  tstatus : Word
  taskId : Word
  budget : Word
  /-- remaining energy quota, signed nJ (R372) -/
  enquota : Word
  /-- a task overdrew the quota and no boundary has refilled it (R373) -/
  barred : Bool
  srgen : Word
  promo : Word
  scopeGrp : Word
  watch : Vector Word 4
  stepCtl : Word
  fills : NatMap FillSlot
  rep : Option Repeat
  wait : Option Wait
  /-- what the instruction at PC has already done in its siding: the value it will retire with -/
  held : Option Word
  /-- the descriptor that the GATHER at PC has read (R334) -/
  desc : Option (BitVec 512)
  /-- the wait that its switch out of the pipe has interrupted, until its instruction runs again (R130, R365) -/
  napping : Option Wait
  token : Option Token
  async : Async
  /-- the producer at PC has found every fill slot busy and waits at stage 3; the destination of the producer that has just
  retired after such a wait (R19) -/
  slotWait : Bool
  late : Option (BitVec 5)
  /-- registers made FREE that younger instructions may have read before (R25) -/
  fading : List Fading
  /-- registers filled that younger instructions may have found still awaiting their fill at stage 2 (R19) -/
  filled : List Fading
  /-- parked by a switch and the fill slots it waits for; none when ready (R34) -/
  parked : Option (List Nat)
  /-- mesh cycle at which a SLEEP ends (R386) -/
  sleep : Option Nat
  send : List SendEntry
  drain : List Drain
  task : Option TaskInfo
  reservation : Option Reservation
  window : Option Window
  /-- ERR of CPYST (R328) -/
  errSticky : Bool
  /-- TLBI retired and not yet everywhere: numbers of the shootdowns (R389) -/
  tlbi : List Nat
deriving DecidableEq, Repr

/-- A message in a hardware entry of a queue (R127). -/
structure QEntry where
  entry : Nat
  task : Task
  dispatched : Bool
deriving DecidableEq, Repr

/-- One message queue: hardware entries oldest first, the spill ring's oldest place and length, the releases of the spilled
messages, messages accepted in the launch (R123, R127). -/
structure Queue where
  hw : List QEntry
  spillHead : Nat
  spillCount : Nat
  spillRel : List Released
  accepted : Nat
deriving DecidableEq, Repr

/-- A record in a deque (R136). -/
structure DequeRec where
  record : BitVec 256
  taskId : Word
  rel : Released
deriving DecidableEq, Repr

/-- A core's deque: the hardware part bottom first, the spill ring's bottom place and length with the releases of its
records, places reserved by PUSHT (R136). -/
structure Deque where
  hw : List DequeRec
  spillBottom : Nat
  spillCount : Nat
  spillRel : List Released
  reserved : Nat
deriving DecidableEq, Repr

/-- What the steal engine of a core is doing (R138). -/
inductive Steal where
  | idle
  /-- a probe is at this victim -/
  | probing (victim : Nat)
  /-- the pause after a fruitless pass -/
  | paused
deriving DecidableEq, Repr

/-- A line of a core's L1 with the state of its parity (R198, R199, R201). -/
structure L1Line where
  data : BitVec 512
  bad : Bool
deriving DecidableEq, Repr

/-- A producing store's mark on a line: launch, recording, stream, ordinal, quad (R263), and the number of its window, by
which its entries fire (R267). -/
structure Tag where
  launch : Nat
  recNo : Nat
  stream : Nat
  ordinal : Nat
  quad : Nat
  window : Nat
deriving DecidableEq, Repr

/-- Where a released store is performed (R203, R213, R418). -/
inductive StoreDest where
  /-- a GLOBAL line, in the quad cache: object of the access, LOG bit of the page, policy of the handle -/
  | cached (obj : Nat) (log : Bool) (policy : Nat)
  /-- QUAD, WEIGHT, SYNC, ORDERED or ISTORE, by its code: at its home; LOG bit of the page -/
  | home (space : Nat) (log : Bool)
  /-- another device: device, launch id there, window offset, the offset of the tagged object -/
  | remote (rdev rlid offset : Nat) (tag : Option Nat)
deriving DecidableEq, Repr

/-- What a released store does at that place: a write of its bytes, or an update of a versioned word, a ring or a
barrier object (R240, R320, R322, R341). -/
inductive HomeOp where
  | write
  | stv
  | vrecl (n : BitVec 32)
  | rainit
  | rarel
  | barinit
  | bararr (n : Nat)
  | barxb (n : Nat)
deriving DecidableEq, Repr

/-- A store its core has released and that is not yet performed (R30, R203). -/
structure StoreRec where
  ctx : Nat
  launch : Nat
  addr : Nat
  bytes : List Byte
  dest : StoreDest
  op : HomeOp
  tag : Option Tag
  /-- a release: performed only after every older store of its context (R229) -/
  rel : Bool
  /-- a release wider than .quad: recorded and performed at the home (R229) -/
  wide : Bool
  /-- fill slots of older LD.a and RAMO whose reads are still to be performed (R230, R280) -/
  after : List Nat
  /-- the VSTS it is a lane of, by a number of its core's (R282) -/
  vsts : Option Nat
  /-- release fences at .ctx or .core that its context has passed since, which did not wait for it, and whether one of them was a
  FENCE.full (R228, R289) -/
  fences : Nat
  full : Bool
  /-- copy commands that its core had accepted when it was released: later ones wait for it (R242, R312) -/
  copies : Nat
deriving DecidableEq, Repr

/-- The command that owns a destination line or waits to own it (R222, R312): the copy command of a core by its count, a
gather command by its stream and count within its launch, an XRED by core and count, one member's collective by its
engine, core and count, the COPY of a chain by its entry. -/
inductive Claim where
  | copy (core count : Nat)
  | gather (die engine strm count : Nat)
  | xred (core count : Nat)
  | coll (engine core count : Nat)
  | chain (ch n : Nat)
deriving DecidableEq, Repr

/-- A command of the copy FIFO (R307 to R313): issuing context, its count, the request and the bindings it was made
with, the fill slots of its context's future versions that must arrive first (R240), for a ring-advancing one the commands
whose claims come before its own (R312), whether it has begun, destination bytes written, a ring-advancing command's slot with the ring's generation and the slot's offset (R320, R336),
the cause of R314 it ended with and whether the object itself faulted, the task that issued it. -/
structure CopyCmd where
  ctx : Nat
  count : Nat
  req : Vector Word 4
  hbs : Vector Word 16
  after : List Nat
  ahead : List Claim
  begun : Bool
  done : Nat
  slot : Option (Nat × Nat × Nat)
  err : Option (Nat × Bool)
  taskId : Word
deriving DecidableEq, Repr

/-- One core. -/
structure Core where
  ctxs : Vector Ctx 8
  pipe : Option (Fin 8)
  slice : Nat
  lastCtx : Fin 8
  l1 : NatMap L1Line
  stores : List StoreRec
  /-- older values of halfwords of its instruction store, by address, that a fetch before the next FFENCE may still read (R246)
  -/
  stale : List (Nat × BitVec 16)
  tlb : NatMap (Nat × Word)
  cycle : Word
  grpMask : Word
  launch : Option Nat
  started : Bool
  queues : Vector Queue 8
  hold : BitVec 8
  dispatches : Nat
  lastQueue : Fin 8
  deque : Deque
  created : Nat
  steal : Steal
  stealPtr : Nat
  stealMiss : Nat
  stolen : Option DequeRec
  fifo : List CopyCmd
  fifoAccepted : Nat
  fifoDone : Nat
  xredAccepted : Nat
  /-- SUSPEND has reached the core; it has looked at the flag (R360) -/
  preempt : Bool
  seen : Bool
  /-- state saved and the core released (R360) -/
  released : Bool
  /-- the supply sags; mesh cycle at which the last sag cleared (R379) -/
  sag : Bool
  sagEnd : Option Nat
  parityRefetches : Nat
  lostHits : Nat
deriving DecidableEq, Repr

/-- What a push knows of itself: launch, recording, round, and the object of its entry, none once that has been dropped (R268,
R272). -/
structure PushId where
  launch : Nat
  recNo : Nat
  round : Nat
  obj : Option Nat
deriving DecidableEq, Repr

/-- A line of a quad cache (R203): state, data, which bytes it has and which are dirty, the objects of its dirty bytes,
the producing store's tag, the LOG bit, the launch, the push that brought it while no read has used it, the stream
policy, whether its policy keeps no L2 data (R214); and whether a merge of another quad's has put a newer value into the home
while the invalidation is still on its way to this copy (R205, R220, R243). -/
structure CacheLine where
  writable : Bool
  data : BitVec 512
  valid : BitVec 64
  dirty : BitVec 64
  objs : List Nat
  tag : Option Tag
  log : Bool
  launch : Nat
  pushed : Option PushId
  stream : Bool
  noL2 : Bool
  doomed : Bool
deriving DecidableEq, Repr

/-- Kinds of an accumulator tile (R159). -/
inductive TileKind where
  | none
  | float
  | int
deriving DecidableEq, Repr

/-- One cell: the 26-bit partial with its shadow, or an INT32 value in the shadow; whether the partial holds an
accumulation since its last promotion (R58, R159). -/
structure Cell where
  p : BitVec 26
  s : BitVec 32
  pending : Bool
deriving DecidableEq, Repr

/-- An accumulator tile (R158, R165); `next` is the kind that the commands accepted for it will leave it. -/
structure Tile where
  owner : Option (Fin 4 × Fin 8)
  kind : TileKind
  next : TileKind
  steps : Nat
  cells : List Cell
  inv : Bool
  ovf : Bool
  unf : Bool
  inx : Bool
  cvt : Bool
  cidx : Nat
  skip : Nat
deriving DecidableEq, Repr

/-- What an array command does (R190 to R194); a grant of the lease takes its turn among them (R152). -/
inductive ArrayOp where
  | grant
  | cfg
  | table (offset : Nat)
  | loadA (base stride rows : Nat)
  | loadB (base stride cols : Nat)
  | scaleA (base rows : Nat)
  | scaleB (base cols : Nat)
  | unfold (desc : BitVec 256)
  | mma (tile : Fin 8) (complex : Bool) (m n : Nat)
  | zero (tile : Fin 8) (bias : Option (Bool × VWord))
  | drain (tile : Fin 8) (dest : Nat) (layout : Word) (fmt : BitVec 4) (policy : BitVec 2) (keep raw : Bool)
  | free
deriving DecidableEq, Repr

/-- An accepted array command: issuer, what it does, whether it claims its tile, the values sampled at acceptance (R148,
R151, R158). -/
structure ArrayCmd where
  core : Fin 4
  ctx : Fin 8
  op : ArrayOp
  claim : Bool
  cfg : Word
  promo : Nat
  rnd : BitVec 3
  srgen : BitVec 32
  executed : Bool
deriving DecidableEq, Repr

/-- The shared array of a quad (R148 to R166). -/
structure ArrayUnit where
  /-- holder, commands left, cycles left -/
  lease : Option (Fin 4)
  count : Nat
  clock : Nat
  lastHolder : Fin 4
  requests : List (Fin 4)
  cfg : Word
  a : List Byte
  b : List Byte
  scaleA : List (BitVec 16)
  scaleB : List (BitVec 16)
  /-- an XUNF has been accepted since the grant; the descriptor the last one loaded -/
  unfolding : Bool
  unfolded : BitVec 256
  table : List (BitVec 24)
  tiles : Vector Tile 8
  queue : List ArrayCmd
deriving DecidableEq, Repr

/-- A vector operation waiting in a core's lane (R150). -/
structure LaneOp where
  ctx : Fin 8
  issued : Bool
deriving DecidableEq, Repr

/-- A push of R268 on its way to a quad, and whether a later merge has invalidated it (R237). -/
structure Push where
  line : Nat
  data : BitVec 512
  id : PushId
  stale : Bool
deriving DecidableEq, Repr

/-- One quad. -/
structure Quad where
  cache : NatMap CacheLine
  array : ArrayUnit
  lanes : Vector (List LaneOp) 4
  lastLane : Fin 4
  copyLast : Fin 4
  stalls : Vector Nat 6
  pushes : List Push
deriving DecidableEq, Repr

/-- States of a gust lease (R377). -/
structure Gust where
  core : Nat
  ctx : Nat
  /-- granted and not yet in effect -/
  pending : Bool
  /-- mesh cycles left from the last boundary, or, while the grant is pending, from the next (R376) -/
  remain : Nat
  /-- ended at the last boundary with this LAST code, its holder not yet told; 0 for no -/
  due : BitVec 4
deriving DecidableEq, Repr

/-- One cluster of the heat store (R368 to R378). -/
structure Cluster where
  eb : Nat
  ib : Nat
  remE : Nat
  usedI : Nat
  permil : Nat
  refrz : Bool
  gust : Option Gust
  /-- the lease raises E_B until a boundary at which there is none (R369, R394) -/
  raised : Bool
  lastEnd : BitVec 4
  /-- TASKIDs of the starved candidates as marked, and of those refused in this interval and in the last (R371) -/
  starved : List Word
  refusedNow : List Word
  refusedLast : List Word
  /-- every mark in order: of candidates that wait, and of tasks that run and that an abort may return (R371) -/
  kept : List Word
  tripped : Bool
deriving DecidableEq, Repr

/-- A gather command of a stream (R316, R317): issuer, its count, the descriptor and bindings it was made with, rows
copied, the cause of R314 it ended with, the task that issued it. -/
structure GatherCmd where
  core : Nat
  ctx : Nat
  launch : Nat
  count : Nat
  desc : BitVec 512
  hbs : Vector Word 16
  row : Nat
  err : Option (Nat × Bool)
  taskId : Word
deriving DecidableEq, Repr

/-- A gather engine: four streams, the commands each has accepted in a launch (by 4 × launch id + stream), the stream
served last (R316, R334). -/
structure Gather where
  streams : Vector (List GatherCmd) 4
  accepted : NatMap Nat
  lastStream : Fin 4
  stalls : Vector Nat 6
deriving DecidableEq, Repr

/-- States of a recording (R261). -/
inductive RecState where
  | empty
  | recording
  | sealing
  | ready
  | replaying
  | fallback
deriving DecidableEq, Repr

/-- A transfer entry of R258: OBJ, LINE, PQUAD, CQUAD, STREAM, TRIGGER; and whether its object has been dropped since (R272).
-/
structure Transfer where
  obj : Nat
  line : Nat
  pquad : Nat
  cquad : Nat
  stream : Nat
  trigger : Nat
  dead : Bool
deriving DecidableEq, Repr

/-- A window of the open round, kept until the round closes: its stream, and for a replay the places of the entries it
has fired and holds loaded (R267). -/
structure RoundWindow where
  stream : Nat
  fired : List Nat
  loaded : List Nat
deriving DecidableEq, Repr

/-- One recording (R256 to R274). -/
structure Recording where
  state : RecState
  /-- the buffer's bytes in rows: first key, length and LOG bit of each (R257, R408) -/
  buffer : List (Nat × Nat × Bool)
  cap : Nat
  thresh : Nat
  entries : List Transfer
  objs : List Nat
  openCount : Nat
  rounds : Nat
  rdep : Nat
  tdep : Nat
  pushes : Nat
  used : Nat
  unfired : Nat
  dropped : Nat
  ovfl : Bool
  conflict : Bool
  fb : Bool
  sealed : Bool
  /-- the open round began in REPLAYING; pushes of it not settled; unconsumed ones, in all and by the object of their entry (R272);
  closing -/
  replayRound : Bool
  unsettled : Nat
  unconsumed : Nat
  unusedBy : NatMap Nat
  closing : Bool
  /-- windows of the open round by number, and how many windows the recording has had -/
  windows : NatMap RoundWindow
  windowCtr : Nat
  /-- rounds the recording has had, and how many before it was last recorded -/
  roundCtr : Nat
  since : Nat
  /-- lines and the quad that pushed them last in the round (R269) -/
  pushers : List (Nat × Nat)
deriving DecidableEq, Repr

/-- States of a launch (R143, R359, R362). -/
inductive LaunchState where
  | running
  | suspending
  | suspended
  | removing
deriving DecidableEq, Repr

/-- What a suspended core keeps beside the bytes of its save area: the places of its spill rings, its counts and the
releases of its records (R123, R360, R361). -/
structure SavedCore where
  queues : List Queue
  deque : Deque
  created : Nat
  fifoAccepted : Nat
  fifoDone : Nat
  xredAccepted : Nat
  /-- the suspension's release: quad and the objects it held dirty (R244) -/
  rel : Released
deriving DecidableEq, Repr

/-- A launch in the package (R142, R143). -/
structure Launch where
  state : LaunchState
  chain : Nat
  root : Nat
  code : Word
  codeLen : Nat
  qspill : Word
  dspill : Word
  save : Word
  startWord : Word
  args : Vector (BitVec 32) 3
  quota : Nat
  ckpt : Nat
  doldOff : Bool
  handlers : NatMap (BitVec 512)
  handles : NatMap (BitVec 256)
  groups : NatMap (List Nat)
  recs : NatMap Recording
  /-- base address and length of the remote window (R420) -/
  window : Option (Word × Nat)
  /-- cores whose start or resume message is under way (R143, R361) -/
  toStart : List Nat
  resuming : Bool
  /-- cores the kill flood has not reached, and whether the sweep has ended (R362) -/
  flood : List Nat
  swept : Bool
  /-- chain whose REMOVE entry waits for the removal -/
  removedBy : Option Nat
  saved : NatMap SavedCore
deriving DecidableEq, Repr

/-- A chain that a command processor serves (R323, R403): its registration entry; a header to be read; the header's
address, BASE and NENT as read; the translation root. -/
structure Chain where
  reg : BitVec 128
  reload : Bool
  hdr : Nat
  base : Nat
  nent : Nat
  root : Nat
  /-- index of the entry in progress -/
  current : Option Nat
  head : Nat
  seq : Nat
  /-- bytes of a COPY done so far, or 1 once another entry has been carried out; STATUS to write when it completes -/
  progress : Nat
  status : Option Nat
  /-- halted by ERR -/
  halted : Bool
  /-- the host has cleared the halt of a breakpoint (R440) -/
  brkPassed : Bool
deriving DecidableEq, Repr

/-- A versioned word (R240): its last version, the values held with their numbers, the waiting requests. -/
structure VWordRec where
  last : BitVec 32
  held : List (BitVec 32 × Word)
  /-- core, context, fill slot of each future request, with its version -/
  waiting : List (Nat × Nat × Nat × BitVec 32)
deriving DecidableEq, Repr

/-- Kinds of synchronisation object made by RAINIT and BARINIT (R319, R321). -/
inductive SyncKind where
  /-- slots filled and not yet passed by WR -/
  | ring (filled : List (BitVec 32))
  | barrier
deriving DecidableEq, Repr

/-- A synchronisation object: its kind, how many RAINITs its place has had, and whether a foreign write has made its state
unpredictable (R320, R322, R336). -/
structure SyncObj where
  kind : SyncKind
  gen : Nat
  wild : Bool
deriving DecidableEq, Repr

/-- A release record: quads in order of their release, with the objects each held dirty (R219). -/
structure Release where
  quads : List (Nat × List Nat)
deriving DecidableEq, Repr

/-- A declared coherence object (R218, R295). -/
structure Obj where
  launch : Nat
  shape : BitVec 512
  boundTo : Option Nat
deriving DecidableEq, Repr

/-- A remote store or request on its way to another device (R421, R433); of a store, the fences it has been passed by and the copy
commands accepted before it, as of any store. -/
structure RemoteReq where
  core : Nat
  ctx : Nat
  launch : Nat
  rdev : Nat
  rlid : Nat
  offset : Nat
  link : Nat
  op : RemoteOp
  slot : Option Nat
  taskId : Word
  fences : Nat
  full : Bool
  copies : Nat
deriving DecidableEq, Repr

/-- A reduction in flight, with the link that its contribution takes and its result comes by (R413, R427, R428). -/
structure Reduction where
  core : Nat
  ctx : Nat
  launch : Nat
  id : Nat
  req : Vector Word 4
  hbs : Vector Word 16
  data : List Byte
  settled : Option (List Byte × Bool)
  err : Option (Nat × Bool)
  taskId : Word
  link : Nat
deriving DecidableEq, Repr

/-- One member's part of a collective (R429 to R432). -/
structure Collective where
  core : Nat
  ctx : Nat
  launch : Nat
  engine : Nat
  key : BitVec 32
  desc : BitVec 512
  hbs : Vector Word 16
  /-- the package's contributions on REDID so far, in ascending chunk number, each with its link (R413, R430) -/
  sent : List (Nat × List Byte)
  chunksDone : List Nat
  /-- the release of its chunks' completion: the members' quads with the objects each held dirty at the last one (R242, R318) -/
  rel : List (Nat × List Nat)
  ended : Bool
  err : Option (Nat × Bool)
  taskId : Word
deriving DecidableEq, Repr

/-- A shootdown of R389: launch, page number or all, cores not yet reached; the stores that cores reached still held under the old
mapping, the quads and lines where stores under it were dirty or were still to come (R245), and the core, context and fill slot of
reads under it still to be performed, with what each waits for (R353). -/
structure Shootdown where
  launch : Nat
  va : Option Word
  cores : List Nat
  stores : List (Nat × StoreRec)
  lines : List (Nat × Nat)
  reads : List (Nat × Nat × Nat × FillKind)
deriving DecidableEq, Repr

/-- A tile-merge window: the lines of a block in the order of the read that opened it, the data of that read, the last mesh cycle
of the window (R223). -/
structure TileRead where
  lines : List Nat
  data : List (BitVec 512)
  last : Nat
deriving DecidableEq, Repr

/-- An Alatch link (R413, R436). -/
structure Link where
  up : Bool
  failures : Nat
deriving DecidableEq, Repr

/-- The dirty-range log (R409 to R411). -/
structure LogRing where
  base : Nat
  count : Nat
  control : Nat
  /-- open entry of each home slice: launch, target, first line, lines -/
  openEntries : NatMap (Nat × Nat × Nat × Nat)
  /-- entries that a line that did not follow has closed and that are still to be written, oldest first: slice and entry -/
  closed : List (Nat × (Nat × Nat × Nat × Nat))
deriving DecidableEq, Repr

/-- Observation set by OBSCFG, and isobar maps (R435 to R437). -/
structure Observe where
  ring : Nat
  interval : Nat
  frames : Nat
  copy : Nat
  frame : Nat
  lastSample : Nat
  intervals : Nat
deriving DecidableEq, Repr

/-- The flash trigger (R392, R439). -/
structure Trigger where
  number : BitVec 32
  /-- the number of the trigger whose records stand -/
  latched : BitVec 32
  latchAt : Option Nat
  records : NatMap (BitVec 128)
  copying : Bool
deriving DecidableEq, Repr

/-- A task stop of R441: its words, the mesh cycle of the host's write, and the cores it is known to have reached since. -/
structure TaskStop where
  taskId : Word
  word1 : Word
  since : Nat
  cores : List Nat
deriving DecidableEq, Repr

/-- The whole machine. `cur`, `inputs`, `picks`, `delays` and `freeCtr` are the model's own (INVENTORY.md, '## State'). -/
structure State where
  cur : Nat × Fin 8
  inputs : List Instr
  picks : List Nat
  delays : List Nat
  freeCtr : Nat
  mesh : Nat
  cores : NatMap Core
  quads : NatMap Quad
  clusters : NatMap Cluster
  gathers : NatMap Gather
  collStalls : NatMap (Vector Nat 6)
  ioStalls : NatMap (Vector Nat 6)
  mem : List Host.Cell
  l2dirty : List Nat
  poison : List Nat
  tileReads : List TileRead
  owners : NatMap (List Claim)
  tags : NatMap Tag
  vwords : NatMap VWordRec
  releases : NatMap Release
  syncObjs : NatMap SyncObj
  objects : NatMap Obj
  launches : NatMap Launch
  chains : NatMap Chain
  msix : List Nat
  msixTable : NatMap Word
  msixPending : BitVec 128
  bar0Error : Word
  log : Option LogRing
  obs : Option Observe
  obsNext : Option Observe
  /-- flits (low half) and stall cycles (high half) of every port and virtual channel since the last sample, by their place in a
  frame (R436, R437) -/
  ports : NatMap (BitVec 64)
  /-- isobar frames sampled and not yet written, oldest first: the frame's place and its words (R222, R437) -/
  frames : List (Nat × List (Nat × Nat))
  trigger : Trigger
  breakpoints : NatMap (BitVec 128)
  chainHalt : NatMap Word
  taskStops : NatMap TaskStop
  devid : BitVec 12
  links : NatMap Link
  remotes : List RemoteReq
  reductions : List Reduction
  collectives : List Collective
  supplyLost : Bool
  shootdowns : NatMap Shootdown
  shootdownCtr : Nat
  fwUpdate : Bool
  fwIdle : Nat
  fwWrote : Bool
  fwDue : Bool
deriving DecidableEq, Repr

/-- STATUS after reset: MODE = SYS, every other field zero (R15). -/
def statusReset : Word := 0x80

/-- No asynchronous event pending. -/
def Async.empty : Async := ⟨Option.none, Option.none, Option.none, Option.none, Option.none, []⟩

/-- A context after reset (R15, R18, R126). Values the spec does not give are those of log entry 6. -/
def Ctx.reset : Ctx where
  cstate := .dormant
  g := Vector.replicate 32 0
  gs := (Vector.replicate 32 .free).set 0 .full
  v := Vector.replicate 16 0
  hb := Vector.replicate 16 0
  pc := 0
  status := statusReset
  trapCause := 0
  trapPc := 0
  trapInfo := 0
  trapMsg := 0
  trapVec := 0
  tstatus := 0
  taskId := 0
  budget := 0
  enquota := 0x7FFFFFFFFFFFFFFF
  barred := false
  srgen := 1
  promo := 16
  scopeGrp := 0
  watch := Vector.replicate 4 0
  stepCtl := 0
  fills := []
  rep := none
  wait := none
  held := none
  desc := none
  napping := none
  token := none
  async := Async.empty
  slotWait := false
  late := none
  fading := []
  filled := []
  parked := none
  sleep := none
  send := []
  drain := []
  task := none
  reservation := none
  window := none
  errSticky := false
  tlbi := []

/-- An empty queue. -/
def Queue.empty : Queue := ⟨[], 0, 0, [], 0⟩

/-- An empty deque. -/
def Deque.empty : Deque := ⟨[], 0, 0, [], 0⟩

/-- A core after reset. -/
def Core.reset : Core where
  ctxs := Vector.replicate 8 Ctx.reset
  pipe := none
  slice := 0
  lastCtx := 7
  l1 := []
  stores := []
  stale := []
  tlb := []
  cycle := 0
  grpMask := 0
  launch := none
  started := false
  queues := Vector.replicate 8 Queue.empty
  hold := 0
  dispatches := 0
  lastQueue := 7
  deque := Deque.empty
  created := 0
  steal := .idle
  stealPtr := 0
  stealMiss := 0
  stolen := none
  fifo := []
  fifoAccepted := 0
  fifoDone := 0
  xredAccepted := 0
  preempt := false
  seen := false
  released := false
  sag := false
  sagEnd := none
  parityRefetches := 0
  lostHits := 0

/-- A tile without an owner (R166). -/
def Tile.reset : Tile := ⟨none, .none, .none, 0, [], false, false, false, false, false, 0, 0⟩

/-- The array after reset: configuration 0x3300 (R155), buffers and table zero (R44). Empty lists read as zeros. -/
def ArrayUnit.reset : ArrayUnit where
  lease := none
  count := 0
  clock := 0
  lastHolder := 3
  requests := []
  cfg := 0x3300
  a := []
  b := []
  scaleA := []
  scaleB := []
  unfolding := false
  unfolded := 0
  table := []
  tiles := Vector.replicate 8 Tile.reset
  queue := []

/-- A quad after reset. -/
def Quad.reset : Quad := ⟨[], ArrayUnit.reset, Vector.replicate 4 [], 3, 3, Vector.replicate 6 0, []⟩

/-- A cluster after reset: the fused defaults of R369. -/
def Cluster.reset : Cluster where
  eb := 81250
  ib := 96
  remE := 81250
  usedI := 0
  permil := 0
  refrz := false
  gust := none
  raised := false
  lastEnd := 0
  starved := []
  refusedNow := []
  refusedLast := []
  kept := []
  tripped := false

/-- A gather engine after reset. -/
def Gather.reset : Gather := ⟨Vector.replicate 4 [], [], 3, Vector.replicate 6 0⟩

/-- A chain as after reset: not registered (R403). -/
def Chain.reset : Chain := ⟨0, false, 0, 0, 0, 0, none, 0, 0, 0, none, false, false⟩

/-- An EMPTY recording (R256). -/
def Recording.reset : Recording where
  state := .empty
  buffer := []
  cap := 0
  thresh := 0
  entries := []
  objs := []
  openCount := 0
  rounds := 0
  rdep := 0
  tdep := 0
  pushes := 0
  used := 0
  unfired := 0
  dropped := 0
  ovfl := false
  conflict := false
  fb := false
  sealed := false
  replayRound := false
  unsettled := 0
  unconsumed := 0
  unusedBy := []
  closing := false
  windows := []
  windowCtr := 0
  roundCtr := 0
  since := 0
  pushers := []

/-- The machine right after reset: nothing listed is nothing changed from the reset value of its kind. -/
def State.reset : State where
  cur := (0, 0)
  inputs := []
  picks := []
  delays := []
  freeCtr := 0
  mesh := 0
  cores := []
  quads := []
  clusters := []
  gathers := []
  collStalls := []
  ioStalls := []
  mem := []
  l2dirty := []
  poison := []
  tileReads := []
  owners := []
  tags := []
  vwords := []
  releases := []
  syncObjs := []
  objects := []
  launches := []
  chains := []
  msix := []
  msixTable := []
  msixPending := 0
  bar0Error := 0
  log := none
  obs := none
  obsNext := none
  ports := []
  frames := []
  trigger := ⟨0, 0, none, [], false⟩
  breakpoints := []
  chainHalt := []
  taskStops := []
  devid := 0xFFF
  links := []
  remotes := []
  reductions := []
  collectives := []
  supplyLost := false
  shootdowns := []
  shootdownCtr := 0
  fwUpdate := false
  fwIdle := 0
  fwWrote := false
  fwDue := false

end Sys2Proof.Machine
end

