-- ==== Sys2Proof/Machine/Ops.lean ====
section
/-!
DEFINITION. The named operations: maps, access to the parts of State, registers, memory bytes, what ends a task, taking
an exception (`takeTrap`) and returning from one (`trapReturn`).
-/

namespace Sys2Proof.Machine

/-- The three outcomes, over this machine. -/
abbrev Out := Host.Outcome State Fault Refusal

/-! ### Maps -/

/-- The value listed at a key. -/
def NatMap.find : NatMap α → Nat → Option α
  | [], _ => none
  | (k, v) :: m, q => if k = q then some v else NatMap.find m q

/-- A key's value set; keys stay in rising order. -/
def NatMap.put : NatMap α → Nat → α → NatMap α
  | [], q, x => [(q, x)]
  | (k, v) :: m, q, x =>
    if q < k then (q, x) :: (k, v) :: m
    else if q = k then (q, x) :: m
    else (k, v) :: NatMap.put m q x

/-- A key unlisted. -/
def NatMap.del : NatMap α → Nat → NatMap α
  | [], _ => []
  | (k, v) :: m, q => if k = q then NatMap.del m q else (k, v) :: NatMap.del m q

/-- Every value changed, with its key. -/
def NatMap.mapVals (f : Nat → α → α) (m : NatMap α) : NatMap α := List.map (fun (e : Nat × α) => (e.1, f e.1 e.2)) m

/-- A function at every place of a fixed-length list. -/
def mapVec (f : α → β) (v : Vector α n) : Vector β n := ⟨⟨v.toList.map f⟩, by simp⟩

/-- The first element that a test accepts, with its place. -/
def findPlace (p : α → Bool) : List α → Option (Nat × α)
  | [] => none
  | a :: l => if p a then some (0, a) else (findPlace p l).map fun (i, b) => (i + 1, b)

/-- Element i replaced. -/
def setPlace : List α → Nat → α → List α
  | [], _, _ => []
  | _ :: l, 0, x => x :: l
  | a :: l, i + 1, x => a :: setPlace l i x

/-- Element i removed. -/
def dropPlace : List α → Nat → List α
  | [], _ => []
  | _ :: l, 0 => l
  | a :: l, i + 1 => a :: dropPlace l i

/-- The smallest number below n, from a start, that a test accepts. -/
def firstFrom (p : Nat → Bool) : Nat → Nat → Option Nat
  | 0, _ => none
  | n + 1, i => if p i then some i else firstFrom p n (i + 1)

/-! ### Parts of the state -/

def State.core (s : State) (c : Nat) : Core := (s.cores.find c).getD Core.reset
def State.setCore (s : State) (c : Nat) (k : Core) : State := { s with cores := s.cores.put c k }
def State.updCore (s : State) (c : Nat) (f : Core → Core) : State := s.setCore c (f (s.core c))
def Core.ctx (k : Core) (x : Fin 8) : Ctx := k.ctxs[x]
def Core.setCtx (k : Core) (x : Fin 8) (t : Ctx) : Core := { k with ctxs := k.ctxs.set x t }
def State.ctx (s : State) (c : Nat) (x : Fin 8) : Ctx := (s.core c).ctx x
def State.setCtx (s : State) (c : Nat) (x : Fin 8) (t : Ctx) : State := s.setCore c ((s.core c).setCtx x t)
def State.updCtx (s : State) (c : Nat) (x : Fin 8) (f : Ctx → Ctx) : State := s.setCtx c x (f (s.ctx c x))
def State.quad (s : State) (q : Nat) : Quad := (s.quads.find q).getD Quad.reset
def State.setQuad (s : State) (q : Nat) (k : Quad) : State := { s with quads := s.quads.put q k }
def State.updQuad (s : State) (q : Nat) (f : Quad → Quad) : State := s.setQuad q (f (s.quad q))
def State.cluster (s : State) (n : Nat) : Cluster := (s.clusters.find n).getD Cluster.reset
def State.setCluster (s : State) (n : Nat) (k : Cluster) : State := { s with clusters := s.clusters.put n k }
def State.gather (s : State) (n : Nat) : Gather := (s.gathers.find n).getD Gather.reset
def State.setGather (s : State) (n : Nat) (k : Gather) : State := { s with gathers := s.gathers.put n k }
def State.chain (s : State) (n : Nat) : Chain := (s.chains.find n).getD Chain.reset
def State.setChain (s : State) (n : Nat) (k : Chain) : State := { s with chains := s.chains.put n k }
def State.launch (s : State) (n : Nat) : Option Launch := s.launches.find n
def State.setLaunch (s : State) (n : Nat) (k : Launch) : State := { s with launches := s.launches.put n k }

/-- The context whose instruction exec runs. -/
def State.me (s : State) : Ctx := s.ctx s.cur.1 s.cur.2
/-- That context replaced. -/
def State.setMe (s : State) (t : Ctx) : State := s.setCtx s.cur.1 s.cur.2 t
def State.updMe (s : State) (f : Ctx → Ctx) : State := s.setMe (f s.me)

/-- The next free choice, below n; an empty list answers 0. -/
def State.pick (s : State) (n : Nat) : Nat × State :=
  match s.picks with
  | [] => (0, s)
  | p :: l => (if n = 0 then 0 else p % n, { s with picks := l })

/-- The next free value, unconstrained. -/
def State.free (s : State) : Word × State :=
  (Config.freeWord s.freeCtr, { s with freeCtr := s.freeCtr + 1 })

/-! ### Places of cores (R1, R16, R368) -/

def quadOf (c : Nat) : Nat := c / 4
def dieOf (c : Nat) : Nat := c / 2048
def xOf (c : Nat) : Nat := c / 128 % 16
def yOf (c : Nat) : Nat := c / 4 % 32
/-- The core's number within its quad. -/
def inQuad (c : Nat) : Fin 4 := ⟨c % 4, Nat.mod_lt _ (by decide)⟩
/-- The cluster of a core among the 256 of the package (R368). -/
def clusterOf (c : Nat) : Nat := dieOf c * 64 + 4 * (yOf c / 2) + xOf c / 4

/-! ### STATUS (R15) -/

def taskMode : BitVec 2 := 0
def trapMode : BitVec 2 := 1
def sysMode : BitVec 2 := 2

/-- Bits [lo + len − 1 : lo] of a word replaced. -/
def setBits (w : BitVec n) (lo len : Nat) (v : BitVec len) : BitVec n :=
  (w &&& ~~~((BitVec.allOnes len).setWidth n <<< lo)) ||| (v.setWidth n <<< lo)

/-- Bits [hi : hi − n + 1] from lo of an entry, as a number. -/
def field (w : BitVec n) (lo len : Nat) : Nat := (w.extractLsb' lo len).toNat

def modeOf (w : Word) : BitVec 2 := w.extractLsb' 6 2
def Ctx.mode (t : Ctx) : BitVec 2 := modeOf t.status
def Ctx.pfx (t : Ctx) : Bool := t.status.getLsbD 16
def Ctx.pfmt (t : Ctx) : BitVec 4 := t.status.extractLsb' 20 4
def Ctx.prnd (t : Ctx) : BitVec 3 := t.status.extractLsb' 17 3
def Ctx.rnd (t : Ctx) : BitVec 3 := t.status.extractLsb' 13 3
def Ctx.ie (t : Ctx) : Bool := t.status.getLsbD 5
def Ctx.swen (t : Ctx) : Bool := t.status.getLsbD 2
/-- PFX, PFMT and PRND cleared (R72, R346). -/
def clearPrefix (w : Word) : Word := w &&& ~~~(0xFF0000 : Word)

/-! ### General and vector registers (R11, R18, R36) -/

theorem reg_lt (r : BitVec 5) : r.toNat < 32 := r.isLt
theorem vreg_lt (r : BitVec 4) : r.toNat < 16 := r.isLt

/-- The value of a general register; g0 reads zero (R11). -/
def Ctx.rd (t : Ctx) (r : BitVec 5) : Word := if r = 0 then 0 else t.g[r.toNat]'(reg_lt r)
/-- The state of a general register; g0 is always FULL (R11). -/
def Ctx.rst (t : Ctx) (r : BitVec 5) : RegState := if r = 0 then .full else t.gs[r.toNat]'(reg_lt r)
/-- An ordinary write: FULL with the value; a write to g0 is discarded (R11, R18). -/
def Ctx.wr (t : Ctx) (r : BitVec 5) (v : Word) : Ctx :=
  if r = 0 then t else { t with g := t.g.set r.toNat v (reg_lt r), gs := t.gs.set r.toNat .full (reg_lt r) }
/-- The commit of a long-latency producer: EMPTY with its tag (R18). -/
def Ctx.mkEmpty (t : Ctx) (r : BitVec 5) (tag : BitVec 4) : Ctx :=
  if r = 0 then t else { t with gs := t.gs.set r.toNat (.empty tag) (reg_lt r) }
/-- A FREE mark; none on g0 (R11, R20). -/
def Ctx.free (t : Ctx) (r : BitVec 5) : Ctx :=
  if r = 0 then t else { t with gs := t.gs.set r.toNat .free (reg_lt r) }
def Ctx.vrd (t : Ctx) (r : BitVec 4) : VWord := t.v[r.toNat]'(vreg_lt r)
def Ctx.vwr (t : Ctx) (r : BitVec 4) (v : VWord) : Ctx := { t with v := t.v.set r.toNat v (vreg_lt r) }
def Ctx.hbrd (t : Ctx) (r : BitVec 4) : Word := t.hb[r.toNat]'(vreg_lt r)

/-- The bank state field of a general register: bit position in STATUS, none for bank 0 (R15). -/
def gBankPos (r : BitVec 5) : Option Nat :=
  if r.toNat < 8 then none else some (32 + 2 * (r.toNat / 8 - 1))
/-- The bank state field of a vector register. -/
def vBankPos (r : BitVec 4) : Nat := 38 + 2 * (r.toNat / 4)

/-! ### Memory bytes -/

/-- What a byte of memory reads as when nothing has written it (log entry 4). -/
def Memory.unwritten : Byte := 0

/-- One byte of a memory. -/
def Memory.get : List Host.Cell → Nat → Byte
  | [], _ => Memory.unwritten
  | (k, v) :: m, a => if k = a then v else Memory.get m a

/-- One byte written; the value an unlisted address reads as unlists the address. -/
def Memory.set : List Host.Cell → Nat → Byte → List Host.Cell
  | [], a, b => if b = Memory.unwritten then [] else [(a, b)]
  | (k, v) :: m, a, b =>
    if a < k then (if b = Memory.unwritten then (k, v) :: m else (a, b) :: (k, v) :: m)
    else if a = k then (if b = Memory.unwritten then m else (a, b) :: m)
    else (k, v) :: Memory.set m a b

/-- Addresses strictly rising from a bound, no entry equal to what an unlisted address reads as. -/
def Memory.wfFrom : Nat → List Host.Cell → Bool
  | _, [] => true
  | lo, (k, v) :: m => decide (lo ≤ k) && v != Memory.unwritten && Memory.wfFrom (k + 1) m

/-- The canonical form. -/
def Memory.wf (m : List Host.Cell) : Bool := Memory.wfFrom 0 m

/-- n bytes from an address. -/
def Memory.bytes (m : List Host.Cell) (a : Nat) : Nat → List Byte
  | 0 => []
  | n + 1 => Memory.get m a :: Memory.bytes m (a + 1) n

/-- Bytes written from an address upward. -/
def Memory.store (m : List Host.Cell) (a : Nat) : List Byte → List Host.Cell
  | [] => m
  | b :: l => Memory.store (Memory.set m a b) (a + 1) l

/-- Bytes as a little-endian number (R5). -/
def leNat : List Byte → Nat
  | [] => 0
  | b :: l => b.toNat + 256 * leNat l

/-- The low n bytes of a number, little-endian (R5). -/
def leBytes : Nat → Nat → List Byte
  | 0, _ => []
  | n + 1, v => BitVec.ofNat 8 v :: leBytes n (v / 256)

/-- A little-endian number of n bytes in memory. -/
def Memory.nat (m : List Host.Cell) (a n : Nat) : Nat := leNat (Memory.bytes m a n)

/-- Where each space lies in `mem`: main memory, the second tier and host memory by target and physical address; then
the weight stores, the quad memories and the instruction stores. A physical address at or beyond its target's capacity, which a chain's
header or entry, a ROOT, LOGCFG or OBSCFG, or a checkpoint marker may name, stands as it is (R2; DESIGN CHOICE, log entry 66). -/
def physKey (target pa : Nat) : Nat := target * 2 ^ 52 + pa
def weightKey (die o : Nat) : Nat := (8 + die) * 2 ^ 52 + o
def quadKey (q o : Nat) : Nat := 16 * 2 ^ 52 + q * 2 ^ 20 + o
def istoreKey (c a : Nat) : Nat := 17 * 2 ^ 52 + c * 2 ^ 16 + a

/-! ### The pipe (R10, R34, R130) -/

/-- The context can hold the pipe: RUNNING, neither parked nor sleeping. -/
def Ctx.ready (t : Ctx) : Bool := t.cstate == .running && t.parked.isNone && t.sleep.isNone

/-- The next ready context in ascending order after one, with wrap. -/
def nextReady (k : Core) (x : Fin 8) : Option (Fin 8) :=
  (firstFrom (fun i => (k.ctx (Fin.ofNat 8 i)).ready) 8 (x.val + 1)).map (Fin.ofNat 8)

/-- A core whose pipe is empty takes in its next ready context. -/
def Core.feed (k : Core) : Core :=
  match k.pipe with
  | some _ => k
  | none =>
    match nextReady k k.lastCtx with
    | some y => { k with pipe := some y, slice := 0 }
    | none => k

/-- A context leaves the pipe if it holds it; the next ready one enters. -/
def Core.leave (k : Core) (x : Fin 8) : Core :=
  if k.pipe = some x then ({ k with pipe := none, lastCtx := x } : Core).feed else k

/-- Every unretired instruction of the context annulled (R31): a wait ends, a REPN pair is undone. -/
def Ctx.annul (t : Ctx) : Ctx :=
  let t := { t with
    wait := none, held := none, desc := none, napping := none, token := none, slotWait := false, late := none, fading := [], filled := [] }
  match t.rep with
  | none => t
  | some r => { (t.wr r.d r.count) with pc := r.pc, rep := none }

/-- The context's vector operations leave its core's lane (R150). -/
def State.clearLane (s : State) (c : Nat) (x : Fin 8) : State :=
  s.updQuad (quadOf c) fun q =>
    { q with lanes := q.lanes.set (inQuad c) (q.lanes[inQuad c].filter fun o => o.ctx != x) }

/-! ### Asynchronous events (R33, R349) -/

/-- An event can be taken at the context's next boundary: it runs a task and is not in TRAP mode; IE masks GUST_EXPIRED
alone (R344, R378). -/
def Ctx.takeable (t : Ctx) : Bool :=
  t.cstate == .running && t.mode != trapMode &&
  (t.async.extError.isSome || t.async.doldrums.isSome || t.async.watch.isSome || (t.async.gust.isSome && t.ie) ||
    t.async.step.isSome)

/-- Some asynchronous event is pending. -/
def Async.any (a : Async) : Bool :=
  a.extError.isSome || a.doldrums.isSome || a.watch.isSome || a.gust.isSome || a.step.isSome

/-- A takeable event makes a parked context ready; any pending one ends a SLEEP (R349, R386). -/
def Ctx.notice (t : Ctx) : Ctx :=
  { t with parked := if t.takeable then none else t.parked, sleep := if t.async.any then none else t.sleep }

/-- An event posted to a context. -/
def State.post (s : State) (c : Nat) (x : Fin 8) (f : Async → Async) : State :=
  s.updCore c fun k => (k.setCtx x ({ k.ctx x with async := f (k.ctx x).async } : Ctx).notice).feed

/-- EXT_ERROR is posted; a second one merges with the first (R349). -/
def Async.ext (a : Async) (info : Word) : Async := { a with extError := a.extError.or (some info) }

/-- The flash trigger fires, or joins one still waiting for its latch cycle (R392, R439). -/
def State.fireTrigger (s : State) : State :=
  match s.trigger.latchAt with
  | some _ => s
  | none => { s with trigger := { s.trigger with number := s.trigger.number + 1, latchAt := some (s.mesh + 2048) } }

/-! ### What the end of a task does (R152, R158, R259, R348, R370, R373, R378) -/

/-- A window of the open round closes, and the round with its last one: a record round at once, a replay round when its
pushes have settled (R259, R261, R271). -/
def Recording.closeWindow (r : Recording) (id : Nat) : Recording :=
  if (r.windows.find id).isNone then r
  else
    let r := { r with openCount := r.openCount - 1 }
    if r.openCount = 0 then
      match r.state with
      | .recording => { r with state := .sealing, windows := [] }
      | .replaying | .fallback => { r with closing := true }
      | _ => r
    else r

def Launch.recording (l : Launch) (n : Nat) : Recording := (l.recs.find n).getD Recording.reset
def Launch.setRec (l : Launch) (n : Nat) (r : Recording) : Launch := { l with recs := l.recs.put n r }

/-- Some recording has a record round open. -/
def State.recordsOpen (s : State) : Bool := s.launches.any fun (_, l) => l.recs.any fun (_, r) => r.state == .recording

/-- The homes discard a recording's tags, and, where no record round stays open, those of every other that it kept (R263). -/
def State.dropTags (s : State) (launch n : Nat) : State :=
  { s with tags := if s.recordsOpen then s.tags.filter fun (_, g) => !(g.launch == launch && g.recNo == n) else [] }

/-- The open window of a context closes as by WEND. When a record round closes, the homes discard its tags (R263). -/
def State.closeWindow (s : State) (c : Nat) (x : Fin 8) : State :=
  match (s.ctx c x).window, (s.core c).launch with
  | some w, some n =>
    let s := s.updCtx c x fun t => { t with window := none }
    match s.launch n with
    | none => s
    | some l =>
      let r := (l.recording w.recNo).closeWindow w.id
      let closed := r.state = .sealing ∧ (l.recording w.recNo).state = .recording
      let s := s.setLaunch n (l.setRec w.recNo r)
      if closed then s.dropTags n w.recNo else s
  | _, _ => s

/-- The tiles of a context lose their owner, and its core's lease ends unless another context of the core has a command
waiting (R152, R158). -/
def State.endArray (s : State) (c : Nat) (x : Fin 8) : State :=
  let me := inQuad c
  let others := (List.finRange 8).any fun y => y != x &&
    match ((s.core c).ctx y).wait with
    | some .lease | some .arrayRoom | some .arrayDone => true
    | _ => false
  s.updQuad (quadOf c) fun q =>
    let a := q.array
    let tiles := mapVec (fun t => if t.owner = some (me, x) then { t with owner := none } else t) a.tiles
    let lease := if a.lease = some me && !others then none else a.lease
    { q with array := { a with tiles := tiles, lease := lease } }

/-- REM_I: the current still available in a cluster (R370). -/
def Cluster.currentLeft (k : Cluster) : Nat := k.ib - k.usedI

/-- The mark of a task that ends is lost, but for one whose message goes back to its queue: that waits again where it was in
the order of marks (R371). -/
def Cluster.endMark (k : Cluster) (id : Word) (back : Bool) : Cluster :=
  if !k.kept.contains id then k
  else if back then { k with starved := k.kept.filter fun i => i == id || k.starved.contains i }
  else { k with kept := k.kept.filter (· != id) }

/-- The peak current of an admitted record goes back to its cluster (R370). -/
def State.returnRecord (s : State) (c : Nat) (record : BitVec 256) (id : Word) (back : Bool) : State :=
  let k := s.cluster (clusterOf c)
  s.setCluster (clusterOf c)
    (({ k with usedI := k.usedI - (record.extractLsb' 212 4).toNat } : Cluster).endMark id back)

def Origin.isQueue : Origin → Bool
  | .queue _ _ => true
  | _ => false

/-- The peak current of a task goes back to its cluster (R370). -/
def State.returnCurrent (s : State) (c : Nat) (t : Option TaskInfo) (abort : Bool) : State :=
  match t with
  | none => s
  | some i => s.returnRecord c i.task.record i.task.taskId (abort && i.origin.isQueue)

/-- The MSGID of the message a task came from, 0 for a deque record or a child (R345). -/
def Ctx.trapMsgValue (t : Ctx) : Word :=
  match t.task with
  | some i =>
    match i.origin with
    | .queue _ _ => i.task.msgId
    | _ => 0
  | none => 0

/-- Everything the end of a task does beside releasing or discarding what it created: the window closes, tiles and lease
end, the current goes back, pending asynchronous events are dropped, and a negative or zero quota is recorded as QUOTA
(R373). `abort` sets ABORT in that record. -/
def State.endTask (s : State) (c : Nat) (x : Fin 8) (pc : Word) (abort : Bool) : State :=
  let msg := (s.ctx c x).trapMsgValue
  let s := ((s.closeWindow c x).endArray c x).clearLane c x
  let s := s.returnCurrent c (s.ctx c x).task abort
  let s := s.updCore c fun k => { k with seen := k.preempt }
  s.updCtx c x fun t =>
    let t := { t with
      async := Async.empty, wait := none, held := none, desc := none, napping := none, token := none, rep := none
      slotWait := false, late := none, fading := [], filled := []
      parked := none, sleep := none }
    if t.enquota.toInt ≤ 0 then
      { t with trapCause := if abort then 0x310 else 0x110, trapPc := pc, trapInfo := 0 - t.enquota, trapMsg := msg, barred := true }
    else t

/-- The message of an aborted task goes back to the head of its queue, and the queue is held (R348). -/
def Core.returnMessage (k : Core) (o : Origin) : Core :=
  match o with
  | .queue q e =>
    let i : Fin 8 := Fin.ofNat 8 q
    let u := k.queues[i]
    let back := (u.hw.filter fun m => m.entry == e).map fun m => { m with dispatched := false }
    let rest := u.hw.filter fun m => m.entry != e
    { k with queues := k.queues.set i { u with hw := back ++ rest }, hold := k.hold ||| (1#8 <<< q) }
  | _ => k

/-- Reserved children of a send buffer go back to DORMANT (R135, R348). -/
def State.freeChildren (s : State) : List SendEntry → State
  | [] => s
  | e :: l =>
    let s :=
      match e.kind with
      | .child dest _ (some y) =>
        s.updCtx dest (Fin.ofNat 8 y) fun t => { t with cstate := .dormant, reservation := none }
      | _ => s
    s.freeChildren l

/-- Fills still outstanding are discarded when they arrive (R348). -/
def Ctx.orphanFills (t : Ctx) : Ctx := { t with fills := t.fills.mapVals fun _ f => { f with orphan := true } }

/-- The task of a context is aborted with a cause word and its report (R348). -/
def State.abort (s : State) (c : Nat) (x : Fin 8) (cause pc info : Word) : State :=
  let t := s.ctx c x
  let pushes := (t.send.filter fun e => e.kind == .push).length
  let s := s.freeChildren t.send
  let s := s.updCtx c x fun t =>
    { t.annul.orphanFills with
      trapCause := cause, trapPc := pc, trapInfo := info, trapMsg := t.trapMsgValue, send := [] }
  let s := s.endTask c x pc true
  s.updCore c fun k =>
    let k := { k with deque := { k.deque with reserved := k.deque.reserved - pushes } }
    let k :=
      match t.task with
      | some i => k.returnMessage i.origin
      | none => k
    (k.setCtx x { (k.ctx x) with cstate := .dormant, task := none }).leave x

/-- TRAPCAUSE (R345). -/
def causeWord (code : BitVec 8) (async abort nested : Bool) : Word :=
  code.setWidth 64 ||| (if async then 0x100 else 0) ||| (if abort then 0x200 else 0) |||
  (if nested then 0x400 else 0)

namespace Cause
def illegal : BitVec 8 := 0x01
def divZero : BitVec 8 := 0x02
def emptyRead : BitVec 8 := 0x03
def regFree : BitVec 8 := 0x04
def bankOff : BitVec 8 := 0x05
def bounds : BitVec 8 := 0x06
def handle : BitVec 8 := 0x07
def translation : BitVec 8 := 0x08
def convOverflow : BitVec 8 := 0x09
def align : BitVec 8 := 0x0A
def versionRetired : BitVec 8 := 0x0B
def watch : BitVec 8 := 0x0C
def step : BitVec 8 := 0x0D
def break_ : BitVec 8 := 0x0E
def taskOverrun : BitVec 8 := 0x0F
def quota : BitVec 8 := 0x10
def gustExpired : BitVec 8 := 0x11
def doldrums : BitVec 8 := 0x12
def killed : BitVec 8 := 0x13
def leaseRefused : BitVec 8 := 0x14
def extError : BitVec 8 := 0x15
end Cause

/-- The core's translations are forgotten: its next access to any page translates afresh. -/
def State.forgetPlaces (s : State) (c : Nat) : State := s.updCore c fun k => { k with tlb := [] }

/-- Taking an exception: the context enters its handler with the report saved (R346), or, without a handler or for a
synchronous fault in TRAP mode, its task is aborted (R347). -/
def State.enterTrap (s : State) (c : Nat) (x : Fin 8) (r : Report) : State :=
  let t := s.ctx c x
  let nested := t.mode = trapMode
  if t.trapVec.extractLsb' 1 15 = 0 ∨ (nested ∧ r.async = false) then
    s.abort c x (causeWord r.code r.async true (decide nested)) r.pc r.info
  else
    (s.clearLane c x).updCtx c x fun t =>
      let t := t.annul
      { t with
        tstatus := t.status
        status := setBits (clearPrefix t.status) 6 2 trapMode &&& ~~~(0x20 : Word)
        trapCause := causeWord r.code r.async false (decide nested)
        trapPc := r.pc
        trapInfo := r.info
        trapMsg := t.trapMsgValue
        pc := t.trapVec &&& 0xFFFE }

/-- The same; after TRANSLATION the instruction will translate afresh (R353). -/
def State.takeTrap (s : State) (c : Nat) (x : Fin 8) (r : Report) : State :=
  let s := s.enterTrap c x r
  if r.code = Cause.translation then s.forgetPlaces c else s

/-- What TRET restores: MODE, IE, SWEN, PFX, PFMT and PRND from TSTATUS; the rest of STATUS stays (R346). -/
def returnStatus (status tstatus : Word) : Word :=
  let mask : Word := 0xFF00E4
  (status &&& ~~~mask) ||| (tstatus &&& mask)

/-- The return from an exception (R346, R385). -/
def Ctx.trapReturn (t : Ctx) : Ctx := { t with status := returnStatus t.status t.tstatus, pc := t.trapPc }

/-- The address a report of the running instruction gives: its own, or its REPN's (R112). -/
def Ctx.faultPc (t : Ctx) : Word :=
  match t.rep with
  | some r => r.pc
  | none => t.pc

/-- A synchronous fault of the instruction exec runs. -/
def State.fault (s : State) (code : BitVec 8) (info : Word) : Out :=
  .next (s.takeTrap s.cur.1 s.cur.2 ⟨code, false, s.me.faultPc, info⟩)

/-- The running instruction waits: nothing changes but what it waits for (R22, R27). -/
def State.waitFor (s : State) (w : Wait) : Out := .next (s.updMe fun t => { t with wait := some w })

end Sys2Proof.Machine
end

