-- ==== Sys2Proof/Machine/Flags.lean ====
section
/-!
DEFINITION. Condition codes (R68) and the sticky flags of STATUS (R15, R17, R55).
-/

namespace Sys2Proof.Machine

/-- The condition of a code on two values (R68); the reserved codes hold for nothing. -/
def condHolds (c : BitVec 3) (a b : Word) : Bool :=
  match c.toNat with
  | 0 => a == b
  | 1 => a != b
  | 2 => a.slt b
  | 3 => !a.slt b
  | 4 => a.ult b
  | 5 => !a.ult b
  | _ => false

/-- The exceptions an operation raised (R55). -/
structure Flags where
  inv : Bool := false
  dz : Bool := false
  ovf : Bool := false
  unf : Bool := false
  inx : Bool := false
deriving DecidableEq, Repr

def Flags.clear : Flags := {}

def Flags.or (a b : Flags) : Flags :=
  ⟨a.inv || b.inv, a.dz || b.dz, a.ovf || b.ovf, a.unf || b.unf, a.inx || b.inx⟩

/-- The flags in their places in STATUS (R15). -/
def Flags.word (f : Flags) : Word :=
  (if f.inv then 0x1000 else 0) ||| (if f.dz then 0x800 else 0) ||| (if f.ovf then 0x400 else 0) |||
  (if f.unf then 0x200 else 0) ||| (if f.inx then 0x100 else 0)

/-- Sticky flags are set at retirement by the instruction that raised them (R17). -/
def Ctx.raise (t : Ctx) (f : Flags) : Ctx := { t with status := t.status ||| f.word }

end Sys2Proof.Machine
end

