-- ==== Sys2Proof/Machine/Float.lean ====
section
/-!
DEFINITION. Number formats, exact values, the one rounding (R37 to R42, R46 to R56), float arithmetic on exact values,
conversions and their overflow policies, compares and classes (R100 to R103), and the functions of R186 rounded from
exact bounds.
-/

namespace Sys2Proof.Machine

/-- Format codes (R37). -/
def fFP32 : Nat := 0
def fBF16 : Nat := 1
def fFP16 : Nat := 2
def fE4M3 : Nat := 3
def fE5M2 : Nat := 4
def fE2M1 : Nat := 5
def fINT8 : Nat := 6
def fUINT8 : Nat := 7
def fINT32 : Nat := 8
def fE8M0 : Nat := 10

/-- Width in bits of a format code (R37). -/
def fmtWidth (f : Nat) : Nat :=
  match f with
  | 0 | 8 => 32
  | 1 | 2 | 9 => 16
  | 5 => 4
  | _ => 8

/-- A float format: exponent and fraction bits, bias, whether the all-ones exponent is reserved for infinity and NaN,
whether it has a NaN (R39). -/
structure FloatFmt where
  ebits : Nat
  mbits : Nat
  bias : Nat
  ieee : Bool
  hasNan : Bool
deriving DecidableEq, Repr

/-- The layout of a float format code (R39). -/
def floatFmt (f : Nat) : FloatFmt :=
  match f with
  | 0 => ⟨8, 23, 127, true, true⟩
  | 1 => ⟨8, 7, 127, true, true⟩
  | 2 => ⟨5, 10, 15, true, true⟩
  | 3 => ⟨4, 3, 7, false, true⟩
  | 4 => ⟨5, 2, 15, true, true⟩
  | _ => ⟨2, 1, 1, false, false⟩

/-- A26 (R39), which exists only inside the array. -/
def fmtA26 : FloatFmt := ⟨8, 17, 127, true, true⟩

def FloatFmt.width (f : FloatFmt) : Nat := 1 + f.ebits + f.mbits
/-- Magnitude bits of infinity. -/
def FloatFmt.infBits (f : FloatFmt) : Nat := (2 ^ f.ebits - 1) * 2 ^ f.mbits
/-- Magnitude bits of the largest finite value (R39). -/
def FloatFmt.maxBits (f : FloatFmt) : Nat :=
  if f.ieee then f.infBits - 1 else if f.hasNan then 2 ^ (f.ebits + f.mbits) - 2 else 2 ^ (f.ebits + f.mbits) - 1
/-- The canonical NaN (R39). -/
def FloatFmt.nanBits (f : FloatFmt) : Nat :=
  if f.ieee then f.infBits + 2 ^ (f.mbits - 1) else 2 ^ (f.ebits + f.mbits) - 1
/-- Magnitude with a sign. -/
def FloatFmt.signed (f : FloatFmt) (neg : Bool) (mag : Nat) : Nat :=
  mag + if neg then 2 ^ (f.ebits + f.mbits) else 0
/-- Exponent of the least significant bit of a subnormal. -/
def FloatFmt.emin (f : FloatFmt) : Int := 1 - (f.bias : Int) - f.mbits

/-- An exact value: NaN, infinity, or (−1)^neg × m × 2^e. -/
inductive FVal where
  | nan
  | inf (neg : Bool)
  | fin (neg : Bool) (m : Nat) (e : Int)
deriving DecidableEq, Repr

/-- The value of an encoding (R39). -/
def unpack (f : FloatFmt) (bits : Nat) : FVal :=
  let neg := bits.testBit (f.ebits + f.mbits)
  let ef := bits / 2 ^ f.mbits % 2 ^ f.ebits
  let fr := bits % 2 ^ f.mbits
  if f.ieee && ef == 2 ^ f.ebits - 1 then (if fr = 0 then .inf neg else .nan)
  else if f.hasNan && !f.ieee && ef == 2 ^ f.ebits - 1 && fr == 2 ^ f.mbits - 1 then .nan
  else if ef = 0 then .fin neg fr f.emin
  else .fin neg (2 ^ f.mbits + fr) (f.emin + (ef - 1 : Int))

/-- The value of an E8M0 scale (R41). -/
def unpackE8 (bits : Nat) : FVal := if bits % 256 = 255 then .nan else .fin false 1 ((bits % 256 : Int) - 127)

/-- Rounding modes (R46). -/
inductive Mode where
  | rne
  | rtz
  | rup
  | rdn
  | sr
deriving DecidableEq, Repr

/-- The mode of a code of STATUS.RND; reserved codes are never stored (R15). -/
def Mode.ofRnd (r : BitVec 3) : Mode :=
  match r.toNat with
  | 1 => .rtz
  | 2 => .rup
  | 3 => .rdn
  | 4 => .sr
  | _ => .rne

/-- The mode in force: the pending prefix's when it sets one, else STATUS.RND (R46). -/
def Ctx.roundMode (t : Ctx) : Mode :=
  if t.pfx ∧ t.prnd ≠ 0 then Mode.ofRnd (t.prnd - 1) else Mode.ofRnd t.rnd

/-- A magnitude m × 2^e, with something left below it when `sticky`, cut at weight 2^q and rounded in a mode with a draw
(R46, R47). Gives the multiple of 2^q and whether it is inexact. A sticky value must reach 16 bits below the cut. -/
def roundAt (mode : Mode) (draw : Nat) (neg : Bool) (m : Nat) (e : Int) (sticky : Bool) (q : Int) : Nat × Bool :=
  if q ≤ e then (m * 2 ^ (e - q).toNat, sticky)
  else
    let k := (q - e).toNat
    if k > m.log2 + 20 then
      let inexact := m != 0 || sticky
      let up :=
        match mode with
        | .rup => inexact && !neg
        | .rdn => inexact && neg
        | _ => false
      (if up then 1 else 0, inexact)
    else
      let t := m / 2 ^ k
      let r := m % 2 ^ k
      let half := 2 ^ (k - 1)
      let inexact := r != 0 || sticky
      let up :=
        match mode with
        | .rne => decide (r > half) || (r == half && (sticky || t % 2 == 1))
        | .rtz => false
        | .rup => inexact && !neg
        | .rdn => inexact && neg
        | .sr => decide (r * 65536 / 2 ^ k + draw ≥ 65536)
      (if up then t + 1 else t, inexact)

/-- A rounded magnitude: its bits with the exponent unbounded above, whether inexact, whether tiny (R46). -/
structure Rounded where
  bits : Nat
  inexact : Bool
  tiny : Bool
deriving DecidableEq, Repr

/-- A non-zero magnitude rounded into a format with no bound above (R46). -/
def roundMag (f : FloatFmt) (mode : Mode) (draw : Nat) (neg : Bool) (m : Nat) (e : Int) (sticky : Bool) : Rounded :=
  let q := e + m.log2 - f.mbits
  let qr := if q < f.emin then f.emin else q
  let (t, ix) := roundAt mode draw neg m e sticky qr
  let free := (roundAt mode draw neg m e sticky q).1
  let tiny := decide (q < f.emin) && !(q + 1 == f.emin && free == 2 ^ (f.mbits + 1))
  ⟨(qr - f.emin).toNat * 2 ^ f.mbits + t, ix, tiny⟩

/-- A result with its flags; `trap` for an overflow under policy 11, true when the source was a NaN (R53). -/
structure Conv where
  bits : Nat
  flags : Flags
  trap : Option Bool := none
deriving DecidableEq, Repr

/-- What an overflow gives, by policy (R51). -/
def overflowTo (f : FloatFmt) (policy : Nat) (neg : Bool) : Conv :=
  let fl : Flags := { ovf := true, inx := true }
  match policy with
  | 0 => ⟨f.signed neg f.maxBits, fl, none⟩
  | 1 =>
    if f.ieee then ⟨f.signed neg f.infBits, fl, none⟩
    else if f.hasNan then ⟨f.nanBits, fl, none⟩ else ⟨f.signed neg f.maxBits, fl, none⟩
  | 2 => if f.hasNan then ⟨f.nanBits, fl, none⟩ else ⟨f.signed neg f.maxBits, fl, none⟩
  | _ => ⟨f.signed neg f.maxBits, {}, some false⟩

/-- An exact finite value, with something below it when `sticky`, into a float format under a policy (R46, R51, R55). -/
def roundFin (f : FloatFmt) (mode : Mode) (draw policy : Nat) (neg : Bool) (m : Nat) (e : Int) (sticky : Bool) : Conv :=
  if m = 0 ∧ sticky = false then ⟨f.signed neg 0, {}, none⟩
  else
    let r := roundMag f mode draw neg m e sticky
    if r.bits > f.maxBits then overflowTo f policy neg
    else ⟨f.signed neg r.bits, { inx := r.inexact, unf := r.inexact && r.tiny }, none⟩

/-- A value into a float format under a policy (R46, R51, R52, R54). -/
def roundTo (f : FloatFmt) (mode : Mode) (draw policy : Nat) (v : FVal) : Conv :=
  match v with
  | .nan =>
    if f.hasNan then ⟨f.nanBits, {}, none⟩
    else
      match policy with
      | 0 | 1 => ⟨0, { inv := true }, none⟩
      | 2 => ⟨f.maxBits, { inv := true }, none⟩
      | _ => ⟨0, {}, some true⟩
  | .inf neg => if f.ieee then ⟨f.signed neg f.infBits, {}, none⟩ else overflowTo f policy neg
  | .fin neg m e => roundFin f mode draw policy neg m e false

/-- Range of an integer format (R42). -/
def intRange (f : Nat) : Int × Int :=
  if f = fINT8 then (-128, 127) else if f = fUINT8 then (0, 255) else (-2 ^ 31, 2 ^ 31 - 1)

/-- An integer's bits in a format. -/
def intBits (f : Nat) (z : Int) : Nat := (z % (2 ^ fmtWidth f : Int)).toNat

/-- An exact value into an integer format: rounded to an integer first, its range then settled (R51, R52, R103). -/
def toInteger (f : Nat) (mode : Mode) (draw policy : Nat) (v : FVal) : Conv :=
  let (lo, hi) := intRange f
  let outside (neg : Bool) : Conv :=
    let fl : Flags := { ovf := true, inx := true }
    match policy with
    | 0 | 1 => ⟨intBits f (if neg then lo else hi), fl, none⟩
    | 2 => ⟨intBits f lo, fl, none⟩
    | _ => ⟨intBits f (if neg then lo else hi), {}, some false⟩
  match v with
  | .nan =>
    match policy with
    | 0 | 1 => ⟨0, { inv := true }, none⟩
    | 2 => ⟨intBits f lo, { inv := true }, none⟩
    | _ => ⟨0, {}, some true⟩
  | .inf neg => outside neg
  | .fin neg m e =>
    let (t, ix) := roundAt mode draw neg m e false 0
    let z : Int := if neg then -(t : Int) else t
    if z < lo ∨ z > hi then outside neg else ⟨intBits f z, { inx := ix }, none⟩

/-- An integer as an exact value. -/
def FVal.ofInt (z : Int) : FVal := .fin (decide (z < 0)) z.natAbs 0

/-- The value of a source in any format but CB16 (R37, R38). -/
def sourceVal (f : Nat) (bits : Nat) : FVal :=
  if f = fINT8 then FVal.ofInt (BitVec.ofNat 8 bits).toInt
  else if f = fUINT8 then FVal.ofInt (bits % 256 : Nat)
  else if f = fINT32 then FVal.ofInt (BitVec.ofNat 32 bits).toInt
  else if f = fE8M0 then unpackE8 bits
  else unpack (floatFmt f) bits

def isIntFmt (f : Nat) : Bool := f == fINT8 || f == fUINT8 || f == fINT32

/-- A conversion of an exact value into any format under a policy (R103). -/
def convertTo (f : Nat) (mode : Mode) (draw policy : Nat) (v : FVal) : Conv :=
  if isIntFmt f then toInteger f mode draw policy v else roundTo (floatFmt f) mode draw policy v

/-! ### Arithmetic on exact values -/

def FVal.neg : FVal → FVal
  | .nan => .nan
  | .inf n => .inf !n
  | .fin n m e => .fin (!n) m e

/-- An exact sum; zero from values that are not both zeros of one sign is +0, or −0 under RDN (R40). The flag is
INV for ∞ − ∞. -/
def addVal (mode : Mode) : FVal → FVal → FVal × Bool
  | .nan, _ => (.nan, false)
  | _, .nan => (.nan, false)
  | .inf a, .inf b => if a = b then (.inf a, false) else (.nan, true)
  | .inf a, _ => (.inf a, false)
  | _, .inf b => (.inf b, false)
  | .fin a m e, .fin b n f =>
    if m = 0 ∧ n = 0 then (.fin (if a = b then a else mode == .rdn) 0 0, false)
    else if m = 0 then (.fin b n f, false)
    else if n = 0 then (.fin a m e, false)
    else
      let q := if e < f then e else f
      let x : Int := (m * 2 ^ (e - q).toNat : Nat)
      let y : Int := (n * 2 ^ (f - q).toNat : Nat)
      let z := (if a then -x else x) + (if b then -y else y)
      if z = 0 then (.fin (mode == .rdn) 0 0, false) else (.fin (decide (z < 0)) z.natAbs q, false)

/-- An exact product; the flag is INV for 0 × ∞. -/
def mulVal : FVal → FVal → FVal × Bool
  | .nan, _ => (.nan, false)
  | _, .nan => (.nan, false)
  | .inf a, .inf b => (.inf (a != b), false)
  | .inf a, .fin b n _ => if n = 0 then (.nan, true) else (.inf (a != b), false)
  | .fin a m _, .inf b => if m = 0 then (.nan, true) else (.inf (a != b), false)
  | .fin a m e, .fin b n f => (.fin (a != b) (m * n) (e + f), false)

/-- A rounded value with the INV that forming it raised; default policy 01 (R88). -/
def finishVal (f : FloatFmt) (mode : Mode) (draw : Nat) (r : FVal × Bool) : Conv :=
  if r.2 then ⟨f.nanBits, { inv := true }, none⟩ else roundTo f mode draw 1 r.1

/-- a + b (R100). -/
def fAdd (f : FloatFmt) (mode : Mode) (draw : Nat) (a b : FVal) : Conv := finishVal f mode draw (addVal mode a b)

/-- a × b (R100). -/
def fMul (f : FloatFmt) (mode : Mode) (draw : Nat) (a b : FVal) : Conv := finishVal f mode draw (mulVal a b)

/-- a × b + c, rounded once; 0 × ∞ is INV whatever c is (R56). -/
def fFma (f : FloatFmt) (mode : Mode) (draw : Nat) (a b c : FVal) : Conv :=
  let p := mulVal a b
  if p.2 then ⟨f.nanBits, { inv := true }, none⟩ else finishVal f mode draw (addVal mode p.1 c)

/-- Bits of an exact quotient kept before rounding. -/
def divBits : Nat := 96

/-- a / b (R100): a finite non-zero value over zero is a signed infinity with DZ; 0/0 and ∞/∞ are INV. -/
def fDiv (f : FloatFmt) (mode : Mode) (draw : Nat) (a b : FVal) : Conv :=
  match a, b with
  | .nan, _ => ⟨f.nanBits, {}, none⟩
  | _, .nan => ⟨f.nanBits, {}, none⟩
  | .inf _, .inf _ => ⟨f.nanBits, { inv := true }, none⟩
  | .inf x, .fin y _ _ => ⟨f.signed (x != y) f.infBits, {}, none⟩
  | .fin x _ _, .inf y => ⟨f.signed (x != y) 0, {}, none⟩
  | .fin x m e, .fin y n g =>
    if n = 0 then
      if m = 0 then ⟨f.nanBits, { inv := true }, none⟩ else ⟨f.signed (x != y) f.infBits, { dz := true }, none⟩
    else if m = 0 then ⟨f.signed (x != y) 0, {}, none⟩
    else
      let k := divBits + n.log2
      let q := m * 2 ^ k / n
      let r := m * 2 ^ k % n
      roundFin f mode draw 1 (x != y) q (e - g - k) (r != 0)

/-- Integer square root by bits from the top. -/
def isqrtGo (n : Nat) : Nat → Nat → Nat
  | 0, r => r
  | b + 1, r =>
    let c := r + 2 ^ b
    isqrtGo n b (if c * c ≤ n then c else r)

def isqrt (n : Nat) : Nat := isqrtGo n (n.log2 / 2 + 1) 0

/-- √a (R100): √−0 = −0; a negative non-zero value is INV. -/
def fSqrt (f : FloatFmt) (mode : Mode) (draw : Nat) (a : FVal) : Conv :=
  match a with
  | .nan => ⟨f.nanBits, {}, none⟩
  | .inf neg => if neg then ⟨f.nanBits, { inv := true }, none⟩ else ⟨f.infBits, {}, none⟩
  | .fin neg m e =>
    if m = 0 then ⟨f.signed neg 0, {}, none⟩
    else if neg then ⟨f.nanBits, { inv := true }, none⟩
    else
      let odd := (e % 2).toNat
      let n := m * 2 ^ (odd + 2 * divBits)
      let r := isqrt n
      roundFin f mode draw 1 false r ((e - odd) / 2 - divBits) (r * r != n)

/-- The order of two values that are not NaNs. -/
def ltVal : FVal → FVal → Bool
  | .inf a, .inf b => a && !b
  | .inf a, .fin _ _ _ => a
  | .fin _ _ _, .inf b => !b
  | .fin a m e, .fin b n f =>
    let q := if e < f then e else f
    let x : Int := (m * 2 ^ (e - q).toNat : Nat)
    let y : Int := (n * 2 ^ (f - q).toNat : Nat)
    decide ((if a then -x else x) < (if b then -y else y))
  | _, _ => false

def eqVal (x y : FVal) : Bool :=
  match x, y with
  | .nan, _ => false
  | _, .nan => false
  | _, _ => !ltVal x y && !ltVal y x

def FVal.isNan : FVal → Bool
  | .nan => true
  | _ => false

def FVal.sign : FVal → Bool
  | .nan => false
  | .inf n => n
  | .fin n _ _ => n

/-- The lesser (or greater) encoding; −0 < +0; a single NaN yields the other operand (R100). -/
def fMinMax (f : FloatFmt) (greater : Bool) (x y : Nat) : Nat :=
  let a := unpack f x
  let b := unpack f y
  let x := x % 2 ^ f.width
  let y := y % 2 ^ f.width
  if a.isNan then (if b.isNan then f.nanBits else y)
  else if b.isNan then x
  else
    let less := ltVal a b || (eqVal a b && a.sign && !b.sign)
    if less != greater then x else y

/-- The magnitude, NaN canonical (R100). -/
def fAbs (f : FloatFmt) (x : Nat) : Nat :=
  if (unpack f x).isNan then f.nanBits else x % 2 ^ (f.width - 1)

/-- The sign inverted, NaN canonical (R100). -/
def fNeg (f : FloatFmt) (x : Nat) : Nat :=
  if (unpack f x).isNan then f.nanBits else (x % 2 ^ f.width) ^^^ 2 ^ (f.width - 1)

/-- A compare of FCMP and VFCMP: .eq, .lt, .le, .un (R100). -/
def fCompare (f : FloatFmt) (c : BitVec 2) (x y : Nat) : Bool :=
  let a := unpack f x
  let b := unpack f y
  let un := a.isNan || b.isNan
  match c.toNat with
  | 0 => eqVal a b
  | 1 => !un && ltVal a b
  | 2 => !un && (ltVal a b || eqVal a b)
  | _ => un

/-- The class mask of FCLASS (R100). -/
def fClass (f : FloatFmt) (x : Nat) : Nat :=
  match unpack f x with
  | .nan => 256
  | .inf neg => if neg then 1 else 128
  | .fin neg m _ =>
    if m = 0 then (if neg then 8 else 16)
    else if m < 2 ^ f.mbits then (if neg then 4 else 32)
    else if neg then 2 else 64

/-! ### The stochastic generator (R49) -/

/-- One shift of the Galois LFSR. -/
def lfsrStep (s : BitVec 32) : BitVec 32 :=
  if s.getLsbD 0 then (s >>> 1) ^^^ 0x80200003 else s >>> 1

def lfsrSteps : Nat → BitVec 32 → BitVec 32
  | 0, s => s
  | n + 1, s => lfsrSteps n (lfsrStep s)

/-- Draw16: the state after a draw; the draw is its low 16 bits. -/
def drawNext (s : BitVec 32) : BitVec 32 := lfsrSteps 16 s
def drawOf (s : BitVec 32) : Nat := s.toNat % 65536

/-! ### The functions of R186: bounds of the exact value

A real r > 0 is given as the largest m with m × 2^(−k) ≤ r, found from bounds of growing precision; r itself is not a
multiple of 2^(−k), so what is left below is sticky. Fixed point with P fraction bits throughout. -/

/-- ln 2 × 2^P from below, with an error under `terms + 1`: 2 × Σ (1/3)^(2i+1) / (2i+1). -/
def ln2Go (scale : Nat) : Nat → Nat → Nat → Nat → Nat
  | 0, _, _, acc => acc
  | n + 1, i, pow, acc => ln2Go scale n (i + 1) (pow / 9) (acc + 2 * pow / (2 * i + 1))

def ln2Lo (p : Nat) : Nat := ln2Go (2 ^ p) (p / 3 + 2) 0 (2 ^ p / 3) 0

/-- Σ y^i / i! from below for a fixed-point y below 1; the error is under 2 × terms. -/
def expGo (p y : Nat) : Nat → Nat → Nat → Nat → Nat
  | 0, _, _, acc => acc
  | n + 1, i, term, acc =>
    let term' := term * y / 2 ^ p / (i + 1)
    expGo p y n (i + 1) term' (acc + term)

def expTerms (p : Nat) : Nat := p / 4 + 8

/-- e^y between two fixed-point values, for 0 ≤ y < 1 between ylo and yhi. -/
def expBounds (p ylo yhi : Nat) : Nat × Nat :=
  (expGo p ylo (expTerms p) 0 (2 ^ p) 0, expGo p yhi (expTerms p) 0 (2 ^ p) 0 + 4 * expTerms p)

/-- 2^f for a fraction f = a / 2^b, between two fixed-point values. -/
def exp2Bounds (p a b : Nat) : Nat × Nat :=
  let l := ln2Lo p
  let err := p / 3 + 4
  expBounds p (a * l / 2 ^ b) (a * (l + err) / 2 ^ b + 1)

/-- e^x for x = a / 2^b < 2^9, as (lo, hi) scaled by 2^P: reduced by multiples of ln 2. -/
def expXBounds (p a b : Nat) : Nat × Nat :=
  let g := p + 16
  let l := ln2Lo g
  let err := g / 3 + 4
  let x := a * 2 ^ g / 2 ^ b
  let n := x / (l + err)
  let rlo := x - n * (l + err)
  let rhi := x + 1 - n * l
  let (lo, hi) := expBounds g (min rlo (2 ^ g)) (min rhi (2 ^ g))
  (lo * 2 ^ n / 2 ^ 16, hi * 2 ^ n / 2 ^ 16 + 1)

/-- ln m for 1 ≤ m < 2, m = a / 2^b: 2 × atanh((m − 1)/(m + 1)), between two fixed-point values. -/
def lnGo (p z2 : Nat) : Nat → Nat → Nat → Nat → Nat
  | 0, _, _, acc => acc
  | n + 1, i, pow, acc => lnGo p z2 n (i + 1) (pow * z2 / 2 ^ p) (acc + 2 * pow / (2 * i + 1))

def lnBounds (p a b : Nat) : Nat × Nat :=
  let num := (a - 2 ^ b) * 2 ^ p
  let z := num / (a + 2 ^ b)
  let n := p / 3 + 4
  (lnGo p (z * z / 2 ^ p) n 0 z 0, lnGo p ((z + 1) * (z + 1) / 2 ^ p + 1) n 0 (z + 1) 0 + 2 * n + 4)

/-- A positive irrational value from a source of bounds (lo, hi) scaled by 2^P: floor(value × 2^k), sought at the
precisions listed; the last one answers its lower bound. -/
def settle (bounds : Nat → Nat × Nat) (k : Nat) : List Nat → Nat
  | [] => 0
  | p :: l =>
    let (lo, hi) := bounds p
    let a := lo * 2 ^ k / 2 ^ p
    let b := hi * 2 ^ k / 2 ^ p
    if a = b then a
    else
      match l with
      | [] => a
      | _ :: _ => settle bounds k l

def precisions : List Nat := [192, 384, 768]

/-- A value m × 2^e as numerator and binary denominator exponent. -/
def ratio (m : Nat) (e : Int) : Nat × Nat := if e < 0 then (m, (-e).toNat) else (m * 2 ^ e.toNat, 0)

/-- 2^x for a finite non-zero x, rounded (R186). -/
def exp2Fin (f : FloatFmt) (mode : Mode) (draw : Nat) (neg : Bool) (m : Nat) (e : Int) : Conv :=
  if e > 20 then
    -- so large that the result overflows, or so small that it underflows, at any exponent of this size
    roundFin f mode draw 1 false 1 (if neg then -(2 ^ 20) else 2 ^ 20) true
  else
    let (a, b) := ratio m e
    let whole := a / 2 ^ b
    let frac := a % 2 ^ b
    if frac = 0 then roundFin f mode draw 1 false 1 (if neg then -(whole : Int) else whole) false
    else
      let n : Int := if neg then -(whole : Int) - 1 else whole
      let fr := if neg then 2 ^ b - frac else frac
      let v := settle (fun p => exp2Bounds p fr b) 80 precisions
      roundFin f mode draw 1 false v (n - 80) true

/-- log2 x for a finite positive x, rounded (R186). -/
def log2Fin (f : FloatFmt) (mode : Mode) (draw : Nat) (m : Nat) (e : Int) : Conv :=
  let b := m.log2
  let n := e + b
  if m = 2 ^ b then roundTo f mode draw 1 (FVal.ofInt n)
  else
    let k := 120
    if n ≥ 0 then
      let v := settle (fun p =>
        let (lo, hi) := lnBounds p m b
        let l := ln2Lo p
        (lo * 2 ^ p / (l + p / 3 + 4), hi * 2 ^ p / l + 1)) k precisions
      roundFin f mode draw 1 false (n.toNat * 2 ^ k + v) (-k) true
    else
      -- log2 x = −(|n| − log2 of the mantissa): the magnitude's floor is one below the complement
      let v := settle (fun p =>
        let (lo, hi) := lnBounds p m b
        let l := ln2Lo p
        (lo * 2 ^ p / (l + p / 3 + 4), hi * 2 ^ p / l + 1)) k precisions
      roundFin f mode draw 1 true ((-n).toNat * 2 ^ k - v - 1) (-k) true

/-- tanh x for a finite non-zero x, rounded (R186). -/
def tanhFin (f : FloatFmt) (mode : Mode) (draw : Nat) (neg : Bool) (m : Nat) (e : Int) : Conv :=
  let top := e + m.log2
  if top ≥ 6 then roundFin f mode draw 1 neg (2 ^ 64 - 1) (-64) true
  else if top < -31 then roundFin f mode draw 1 neg (m * 2 ^ 60 - 1) (e - 60) true
  else
    let (a, b) := ratio m (e + 1)
    let v := settle (fun p =>
      let (lo, hi) := expXBounds p a b
      let one := 2 ^ p
      ((lo - one) * one / (hi + one), (hi - one) * one / (lo + one) + 1)) 140 precisions
    roundFin f mode draw 1 neg v (-140) true

/-- 1 / (1 + e^−x) for a finite non-zero x, rounded (R186). -/
def sigmFin (f : FloatFmt) (mode : Mode) (draw : Nat) (neg : Bool) (m : Nat) (e : Int) : Conv :=
  let top := e + m.log2
  if top ≥ 8 then
    if neg then roundFin f mode draw 1 false 1 (-400) true else roundFin f mode draw 1 false (2 ^ 64 - 1) (-64) true
  else
    let (a, b) := ratio m e
    let v := settle (fun p =>
      let (lo, hi) := expXBounds p a b
      let one := 2 ^ p
      let n := one * one
      if neg then (n / (one + hi), n / (one + lo) + 1)
      else (lo * one / (one + hi), hi * one / (one + lo) + 1)) (if neg then 460 else 80) [960, 1400]
    roundFin f mode draw 1 false v (if neg then -460 else -80) true

/-- The unary functions of R186, by fn6. -/
def fTranscend (f : FloatFmt) (fn : Nat) (mode : Mode) (draw : Nat) (v : FVal) : Conv :=
  let one : FVal := .fin false 1 0
  let nan : Conv := ⟨f.nanBits, {}, none⟩
  let invalid : Conv := ⟨f.nanBits, { inv := true }, none⟩
  match v with
  | .nan => nan
  | .inf neg =>
    match fn with
    | 0 => ⟨f.signed neg 0, {}, none⟩
    | 1 => if neg then invalid else ⟨0, {}, none⟩
    | 2 => if neg then ⟨0, {}, none⟩ else ⟨f.infBits, {}, none⟩
    | 3 => if neg then invalid else ⟨f.infBits, {}, none⟩
    | 4 => roundTo f mode draw 1 (.fin neg 1 0)
    | _ => if neg then ⟨0, {}, none⟩ else roundTo f mode draw 1 one
  | .fin neg m e =>
    if m = 0 then
      match fn with
      | 0 => ⟨f.signed neg f.infBits, { dz := true }, none⟩
      | 1 => ⟨f.signed neg f.infBits, { dz := true }, none⟩
      | 2 => roundTo f mode draw 1 one
      | 3 => ⟨f.signed true f.infBits, { dz := true }, none⟩
      | 4 => ⟨f.signed neg 0, {}, none⟩
      | _ => roundTo f mode draw 1 (.fin false 1 (-1))
    else
      match fn with
      | 0 => fDiv f mode draw one v
      | 1 =>
        if neg then invalid
        else
          -- 1/√x = √(1/x): the root of 2^(2K) / x, exact only when x is an even power of two
          let odd := (e % 2).toNat
          let m' := m * 2 ^ odd
          let k := 2 * (divBits + m'.log2)
          let n := 2 ^ k / m'
          let r := isqrt n
          roundFin f mode draw 1 false r (-(k / 2 : Nat) - (e - odd) / 2) (r * r * m' != 2 ^ k)
      | 2 => exp2Fin f mode draw neg m e
      | 3 => if neg then invalid else log2Fin f mode draw m e
      | 4 => tanhFin f mode draw neg m e
      | _ => sigmFin f mode draw neg m e

end Sys2Proof.Machine
end

