-- ==== Sys2Proof/WellFormed.lean ====
section
/-!
DEFINITION. The conditions an encoding must meet beyond its fixed bits, every one of them known when the foot decodes
the instruction (R76): the register-pair, register-group and selector rules of each entry. An encoding that breaks one
carries ILLEGAL. What depends on state (a pending prefix, the mode, the value of a register) is no part of this.
-/

namespace Sys2Proof

/-- The register number is even, as a register pair needs (R172, R286, R335). -/
def evenReg (r : BitVec 5) : Bool := !r.getLsbD 0

/-- The register can begin a group of four, 1 to 28 (R174, R331, R427). -/
def inGroup4 (r : BitVec 5) : Bool := r != 0 && decide (r.toNat ≤ 28)

/-- The pairs of format codes, source then destination, that CVT accepts (R102, codes of R37). -/
def Format.cvtPair (s e : BitVec 4) : Bool :=
  match s.toNat with
  | 5 => e.toNat == 3 || e.toNat == 4 || e.toNat == 2 || e.toNat == 1 || e.toNat == 0
  | 3 | 4 => e.toNat == 2 || e.toNat == 1 || e.toNat == 0
  | 1 | 2 => e.toNat == 0
  | 6 | 7 => e.toNat == 8 || e.toNat == 2 || e.toNat == 1 || e.toNat == 0
  | 10 => e.toNat == 0
  | _ => false

/-- The pairs of format codes, source then destination, that CVTD accepts (R103). -/
def Format.cvtdPair (s e : BitVec 4) : Bool :=
  decide (s.toNat ≤ 8) && decide (e.toNat ≤ 8) && s != e && !Format.cvtPair s e

/-- The instruction keeps every rule of its entry that its fields alone decide. -/
def Instr.wf : Instr → Bool
  | .add _ _ _ _ _ => true
  | .sub _ _ _ _ _ => true
  | .and _ _ _ _ _ => true
  | .or _ _ _ _ _ => true
  | .xor _ _ _ _ _ => true
  | .andn _ _ _ _ _ => true
  | .sll _ _ _ _ _ => true
  | .srl _ _ _ _ _ => true
  | .sra _ _ _ _ _ => true
  | .mul _ _ _ _ _ => true
  | .mulh _ _ _ _ _ => true
  | .mulhu _ _ _ _ _ => true
  | .min _ _ _ _ _ => true
  | .max _ _ _ _ _ => true
  | .minu _ _ _ _ _ => true
  | .maxu _ _ _ _ _ => true
  | .addw _ _ _ _ _ => true
  | .subw _ _ _ _ _ => true
  | .sextb _ _ _ => true
  | .sexth _ _ _ => true
  | .sextw _ _ _ => true
  | .zextb _ _ _ => true
  | .zexth _ _ _ => true
  | .zextw _ _ _ => true
  | .clz _ _ _ => true
  | .popc _ _ _ => true
  | .cmp _ _ _ _ _ c => decide (c.toNat ≤ 5)
  | .sel _ _ _ _ _ => true
  | .div _ _ _ _ _ => true
  | .rem _ _ _ _ _ => true
  | .divu _ _ _ _ _ => true
  | .remu _ _ _ _ _ => true
  | .divw _ _ _ _ _ => true
  | .remw _ _ _ _ _ => true
  | .divuw _ _ _ _ _ => true
  | .remuw _ _ _ _ _ => true
  | .addi _ _ _ _ => true
  | .andi _ _ _ _ => true
  | .ori _ _ _ _ => true
  | .xori _ _ _ _ => true
  | .slli _ _ _ _ => true
  | .srli _ _ _ _ => true
  | .srai _ _ _ _ => true
  | .cmpi _ _ _ c _ => decide (c.toNat ≤ 5)
  | .li _ _ => true
  | .lix _ _ => true
  | .addpc _ _ => true
  | .br c _ _ _ => decide (c.toNat ≤ 5)
  | .j _ => true
  | .call _ => true
  | .jr _ _ _ _ => true
  | .blkmv d a b => d != a && d != b && a != b && d != 0 && a != 0 && b != 0
  | .blkset d a b => d != a && d != b && a != b && d != 0 && a != 0
  | .repn d => d != 0
  | .crr _ _ => true
  | .cwr _ _ => true
  | .mkempty d => d != 0
  | .rstate _ _ => true
  | .nop => true
  | .trap _ => true
  | .brk _ => true
  | .fadd _ _ _ _ _ => true
  | .fsub _ _ _ _ _ => true
  | .fmul _ _ _ _ _ => true
  | .fmin _ _ _ _ _ => true
  | .fmax _ _ _ _ _ => true
  | .fabs _ _ _ => true
  | .fneg _ _ _ => true
  | .fma _ _ _ _ _ => true
  | .fmsub _ _ _ _ _ => true
  | .fnma _ _ _ _ _ => true
  | .fnms _ _ _ _ _ => true
  | .fdiv _ _ _ _ _ => true
  | .fsqrt _ _ _ => true
  | .fcmp _ _ _ _ _ _ => true
  | .fclass _ _ _ => true
  | .cvt _ _ _ e s => Format.cvtPair s e
  | .cvtd _ _ _ e _ s => Format.cvtdPair s e
  | .ld _ _ _ _ _ => true
  | .ldw _ _ _ _ _ => true
  | .ldh _ _ _ _ _ => true
  | .ldb _ _ _ _ _ => true
  | .st _ _ _ _ _ => true
  | .stw _ _ _ _ _ => true
  | .sth _ _ _ _ _ => true
  | .stb _ _ _ _ _ => true
  | .ldNc _ _ _ _ _ => true
  | .ldA t _ _ _ _ => t != 0
  | .vld _ _ _ _ _ => true
  | .vldNc _ _ _ _ _ => true
  | .vst _ _ _ _ _ => true
  | .amoswap _ _ s _ _ _ => s != 7
  | .amoadd _ _ s _ _ _ => s != 7
  | .amoand _ _ s _ _ _ => s != 7
  | .amoor _ _ s _ _ _ => s != 7
  | .amoxor _ _ s _ _ _ => s != 7
  | .amomin _ _ s _ _ _ => s != 7
  | .amomax _ _ s _ _ _ => s != 7
  | .amominu _ _ s _ _ _ => s != 7
  | .amomaxu _ _ s _ _ _ => s != 7
  | .cas d _ s _ _ _ => s != 7 && d != 0 && evenReg d
  | .ldAcq _ _ s _ _ => s != 7
  | .stRel _ _ s _ _ => s != 7
  | .vlds _ _ _ _ => true
  | .vsts _ _ _ _ => true
  | .fenceAcq s => s != 7
  | .fenceAcqInv s => s != 7
  | .fenceRel s => s != 7
  | .fenceFull s => s != 7
  | .drain => true
  | .ffence => true
  | .objdecl _ _ _ => true
  | .objdrop _ => true
  | .ldv d _ s _ _ => s != 7 && d != 0
  | .stv _ _ s _ => s != 7
  | .vrecl _ _ _ => true
  | .wrec _ _ _ _ => true
  | .wplay _ _ => true
  | .wend _ => true
  | .wstat _ _ => true
  | .wdrop _ _ => true
  | .done => true
  | .send _ _ _ b _ => evenReg b
  | .sendh _ _ _ b _ => evenReg b
  | .sendnz h _ p _ => h != 0 && p != 0 && !p.getLsbD 0
  | .spawn d _ _ b _ => d != 0 && inGroup4 b
  | .pusht _ _ _ b _ => evenReg b
  | .qstat _ _ => true
  | .grpq _ _ => true
  | .grpqM _ _ => true
  | .qpri _ _ => true
  | .vfadd _ _ _ c => decide (c.toNat ≤ 1)
  | .vfsub _ _ _ c => decide (c.toNat ≤ 1)
  | .vfmul _ _ _ c => decide (c.toNat ≤ 1)
  | .vfma _ _ _ c => decide (c.toNat ≤ 1)
  | .vfmin _ _ _ c => decide (c.toNat ≤ 1)
  | .vfmax _ _ _ c => decide (c.toNat ≤ 1)
  | .vfabs _ _ => true
  | .vfneg _ _ => true
  | .vadd _ _ _ c => decide (c.toNat ≤ 1)
  | .vsub _ _ _ c => decide (c.toNat ≤ 1)
  | .vmul _ _ _ c => decide (c.toNat ≤ 1)
  | .vmin _ _ _ c => decide (c.toNat ≤ 1)
  | .vmax _ _ _ c => decide (c.toNat ≤ 1)
  | .vand _ _ _ c => decide (c.toNat ≤ 1)
  | .vor _ _ _ c => decide (c.toNat ≤ 1)
  | .vxor _ _ _ c => decide (c.toNat ≤ 1)
  | .vsll _ _ _ c => decide (c.toNat ≤ 1)
  | .vsrl _ _ _ c => decide (c.toNat ≤ 1)
  | .vsra _ _ _ c => decide (c.toNat ≤ 1)
  | .vadds _ _ _ c => decide (c.toNat ≤ 1)
  | .vsubs _ _ _ c => decide (c.toNat ≤ 1)
  | .vfcmp _ _ _ c _ => decide (c.toNat ≤ 1)
  | .vicmp _ _ _ c k => decide (c.toNat ≤ 1) && decide (k.toNat ≤ 5)
  | .vsel _ _ _ c => decide (c.toNat ≤ 1)
  | .vperm _ _ _ => true
  | .vbcast _ _ => true
  | .vbcastl _ _ l => decide (l.toNat ≤ 31)
  | .vrot _ _ l => decide (l.toNat ≤ 31)
  | .vrsum _ _ s => decide (s.toNat ≤ 5)
  | .vrmax _ _ s => decide (s.toNat ≤ 5)
  | .vrmin _ _ s => decide (s.toNat ≤ 5)
  | .vrisum _ _ s => decide (s.toNat ≤ 5)
  | .vrisums _ _ s => decide (s.toNat ≤ 5)
  | .vrimax _ _ s => decide (s.toNat ≤ 5)
  | .vrimin _ _ s => decide (s.toNat ≤ 5)
  | .vcvt _ _ _ e => decide (e.toNat ≤ 10)
  | .vcvtd _ _ _ _ e => decide (e.toNat ≤ 10)
  | .vcvtS _ _ _ _ _ e => decide (e.toNat ≤ 10)
  | .vcvtdS _ _ _ _ _ e => decide (e.toNat ≤ 10)
  | .vrcp _ _ => true
  | .vrsqrt _ _ => true
  | .vexp2 _ _ => true
  | .vlog2 _ _ => true
  | .vtanh _ _ => true
  | .vsigm _ _ => true
  | .vfdiv _ _ _ => true
  | .vfsqrt _ _ => true
  | .vins _ _ l => decide (l.toNat ≤ 31)
  | .vext _ _ l => decide (l.toNat ≤ 31)
  | .xlease => true
  | .xfree _ => true
  | .xcfg _ => true
  | .xcfgTab _ => true
  | .xwait => true
  | .xstat _ _ => true
  | .xstatClr _ _ => true
  | .xlda _ _ _ => true
  | .xldb _ _ _ => true
  | .xldsa _ _ => true
  | .xldsb _ _ => true
  | .xunf _ => true
  | .xmma _ _ _ => true
  | .xcmma _ _ _ => true
  | .xzero _ => true
  | .xzeroF _ _ => true
  | .xzeroI _ _ => true
  | .xdrn _ _ _ f _ _ _ => decide (f.toNat ≤ 8)
  | .cpy _ a _ => inGroup4 a
  | .cpyNb _ a _ => inGroup4 a
  | .cpyst _ s => decide (s.toNat ≤ 6)
  | .gather _ _ _ _ _ => true
  | .rainit _ _ b _ => b != 0 && evenReg b
  | .rawait _ _ _ _ _ => true
  | .rarel _ _ => true
  | .barinit _ _ b _ => b != 0 && evenReg b
  | .bararr _ _ _ _ => true
  | .barxb _ _ _ _ => true
  | .barwait _ _ _ _ => true
  | .seqwait _ _ _ _ => true
  | .tret => true
  | .sleep _ => true
  | .halt => true
  | .killctx _ _ _ => true
  | .tlbi _ _ _ _ => true
  | .tlbsync => true
  | .watch _ _ _ _ => true
  | .sstepOff => true
  | .sstepOn => true
  | .sstepOnce => true
  | .snap _ => true
  | .gust _ _ => true
  | .gustT _ _ => true
  | .gustrel _ => true
  | .qread _ s => decide (s.toNat ≤ 5)
  | .xred _ a _ => inGroup4 a
  | .coll _ _ _ => true
  | .cwait _ _ _ _ _ => true
  | .ramoSwap d _ _ _ _ _ => d != 0
  | .ramoAdd d _ _ _ _ _ => d != 0
  | .ramoAnd d _ _ _ _ _ => d != 0
  | .ramoOr d _ _ _ _ _ => d != 0
  | .ramoXor d _ _ _ _ _ => d != 0
  | .ramoMin d _ _ _ _ _ => d != 0
  | .ramoMax d _ _ _ _ _ => d != 0
  | .ramoMinu d _ _ _ _ _ => d != 0
  | .ramoMaxu d _ _ _ _ _ => d != 0
  | .ramoCas d _ _ b _ _ => d != 0 && b != 0 && evenReg b
  | .hint _ _ => true
  | .movC _ _ => true
  | .addC _ _ => true
  | .subC _ _ => true
  | .andC _ _ => true
  | .orC _ _ => true
  | .xorC _ _ => true
  | .sllC _ _ => true
  | .srlC _ _ => true
  | .addiC _ _ => true
  | .liC _ _ => true
  | .slliC _ _ => true
  | .srliC _ _ => true
  | .sraiC _ _ => true
  | .ldC _ _ _ => true
  | .stC _ _ _ => true
  | .beqzC _ _ => true
  | .bnezC _ _ => true
  | .jC _ => true
  | .jrC _ => true
  | .fmt f r => decide (f.toNat ≤ 10) && decide (r.toNat ≤ 5)
  | .reset => true
  | .fillArrival _ _ _ _ _ => true
  | .deepMissNotice _ _ _ => true
  | .sidingRejoin _ => true
  | .missReturn _ => true
  | .trapEntry _ => true
  | .missSwitch _ => true
  | .asyncEventTaken _ => true
  | .forcedBoundary _ => true
  | .pipeSliceExpiry _ => true
  | .storePerformed _ _ => true
  | .dirtyMerge _ _ _ => true
  | .bankRefresh => true
  | .dispatch _ => true
  | .messageOffer _ _ => true
  | .messageReoffer _ _ => true
  | .hintWalk _ _ => true
  | .spawnRequest _ _ _ => true
  | .childStart _ _ => true
  | .stealProbe _ => true
  | .stealReply _ => true
  | .stealPauseExpiry _ => true
  | .spillMove _ _ => true
  | .startMessage _ => true
  | .launchComplete _ => true
  | .leaseGrant _ => true
  | .leaseClockExpiry _ => true
  | .arrayCommandExecute _ => true
  | .vectorIssue _ => true
  | .seal _ _ => true
  | .pushArrival _ _ => true
  | .pushTimeout _ _ => true
  | .roundClose _ _ => true
  | .engineChunk _ => true
  | .copyOp _ => true
  | .pack _ => true
  | .unpack _ => true
  | .fill _ => true
  | .ringReserve _ => true
  | .gatherRow _ _ _ => true
  | .commandCompletion _ => true
  | .tailPoll _ => true
  | .chainEntryCompletion _ => true
  | .root _ => true
  | .launch _ => true
  | .copy _ => true
  | .wait _ => true
  | .signal _ => true
  | .suspend _ => true
  | .resume _ => true
  | .remove _ => true
  | .window _ => true
  | .logcfg _ => true
  | .flush _ => true
  | .obscfg _ => true
  | .coreSuspend _ => true
  | .taskOverrun _ _ => true
  | .killFlood _ _ => true
  | .sweepEnd _ => true
  | .removalConfirmation _ => true
  | .doldrums _ => true
  | .controlIntervalBoundary _ => true
  | .gustLeaseExpiry _ => true
  | .energyMeterUpdate _ _ _ => true
  | .firmwareBudgetWrite _ _ _ => true
  | .firmwareWatchdog => true
  | .supplySag _ => true
  | .sagClear _ => true
  | .thermalTrip _ => true
  | .thermalRecover _ => true
  | .supplyLossWarning => true
  | .hostWrite _ _ _ => true
  | .chainRegistrationWrite _ _ => true
  | .hostRegisterWrite _ _ => true
  | .remotePacketArrival _ => true
  | .remoteAck _ _ => true
  | .flitReplay _ _ => true
  | .reductionResult _ _ _ => true
  | .collectiveChunk _ _ _ _ => true
  | .logEntryWrite _ => true
  | .isobarSample _ => true
  | .hostFlashTrigger => true
  | .snapshotLatch => true
  | .snapshotCopy => true
  | .breakpointClear _ => true
  | .taskStopWrite _ _ _ => true
  | .arrayCommandCompletion _ => true
  | .sleepExpiry _ _ => true
  | .replayEntryLoad _ _ => true
  | .resumeMessage _ => true
  | .powerFirmwareUpdate _ => true
  | .deviceIdAssignment _ => true
  | .illegalEncoding _ _ => true
  | .fetchBounds _ => true
  | .unknownChainEntryType _ => true

/-- The instruction is well formed. -/
abbrev Instr.WellFormed (i : Instr) : Prop := i.wf = true

end Sys2Proof
end

