-- ==== Sys2Proof/Decode.lean ====
section
/-!
DEFINITION. Decoding and encoding (R62, R65 to R78, R277 and the encoding of every entry). The decoder is total: a word
is an instruction of the opcode table or none, and none is what R76 calls ILLEGAL. The encoder is written from the same
layouts and lays the fields side by side, most significant first.
Lean's compiler has no tag for more than 245 constructors with fields, so what builds OBJDROP, WDROP or a hint is
noncomputable: the kernel evaluates it, compiled code does not. Those three decoders are therefore arguments of what holds
them.
-/

namespace Sys2Proof

/-- Major opcode 0x01: ADD, SUB, AND, OR, XOR, ANDN, SLL, SRL, SRA, MUL, MULH, MULHU, MIN, MAX, MINU, MAXU, ADDW, SUBW, SEXTB, SEXTH, SEXTW, ZEXTB, ZEXTH, ZEXTW, CLZ, POPC. -/
def dec01 (w : BitVec 32) : Option Instr :=
  if w.extractLsb' 0 5 = 0#5 then
    some (.add (w.extractLsb' 19 5) (w.extractLsb' 14 5) (w.extractLsb' 12 2) (w.extractLsb' 7 5) (w.extractLsb' 5 2))
  else if w.extractLsb' 0 5 = 1#5 then
    some (.sub (w.extractLsb' 19 5) (w.extractLsb' 14 5) (w.extractLsb' 12 2) (w.extractLsb' 7 5) (w.extractLsb' 5 2))
  else if w.extractLsb' 0 5 = 2#5 then
    some (.and (w.extractLsb' 19 5) (w.extractLsb' 14 5) (w.extractLsb' 12 2) (w.extractLsb' 7 5) (w.extractLsb' 5 2))
  else if w.extractLsb' 0 5 = 3#5 then
    some (.or (w.extractLsb' 19 5) (w.extractLsb' 14 5) (w.extractLsb' 12 2) (w.extractLsb' 7 5) (w.extractLsb' 5 2))
  else if w.extractLsb' 0 5 = 4#5 then
    some (.xor (w.extractLsb' 19 5) (w.extractLsb' 14 5) (w.extractLsb' 12 2) (w.extractLsb' 7 5) (w.extractLsb' 5 2))
  else if w.extractLsb' 0 5 = 5#5 then
    some (.andn (w.extractLsb' 19 5) (w.extractLsb' 14 5) (w.extractLsb' 12 2) (w.extractLsb' 7 5) (w.extractLsb' 5 2))
  else if w.extractLsb' 0 5 = 6#5 then
    some (.sll (w.extractLsb' 19 5) (w.extractLsb' 14 5) (w.extractLsb' 12 2) (w.extractLsb' 7 5) (w.extractLsb' 5 2))
  else if w.extractLsb' 0 5 = 7#5 then
    some (.srl (w.extractLsb' 19 5) (w.extractLsb' 14 5) (w.extractLsb' 12 2) (w.extractLsb' 7 5) (w.extractLsb' 5 2))
  else if w.extractLsb' 0 5 = 8#5 then
    some (.sra (w.extractLsb' 19 5) (w.extractLsb' 14 5) (w.extractLsb' 12 2) (w.extractLsb' 7 5) (w.extractLsb' 5 2))
  else if w.extractLsb' 0 5 = 9#5 then
    some (.mul (w.extractLsb' 19 5) (w.extractLsb' 14 5) (w.extractLsb' 12 2) (w.extractLsb' 7 5) (w.extractLsb' 5 2))
  else if w.extractLsb' 0 5 = 10#5 then
    some (.mulh (w.extractLsb' 19 5) (w.extractLsb' 14 5) (w.extractLsb' 12 2) (w.extractLsb' 7 5) (w.extractLsb' 5 2))
  else if w.extractLsb' 0 5 = 11#5 then
    some (.mulhu (w.extractLsb' 19 5) (w.extractLsb' 14 5) (w.extractLsb' 12 2) (w.extractLsb' 7 5) (w.extractLsb' 5 2))
  else if w.extractLsb' 0 5 = 12#5 then
    some (.min (w.extractLsb' 19 5) (w.extractLsb' 14 5) (w.extractLsb' 12 2) (w.extractLsb' 7 5) (w.extractLsb' 5 2))
  else if w.extractLsb' 0 5 = 13#5 then
    some (.max (w.extractLsb' 19 5) (w.extractLsb' 14 5) (w.extractLsb' 12 2) (w.extractLsb' 7 5) (w.extractLsb' 5 2))
  else if w.extractLsb' 0 5 = 14#5 then
    some (.minu (w.extractLsb' 19 5) (w.extractLsb' 14 5) (w.extractLsb' 12 2) (w.extractLsb' 7 5) (w.extractLsb' 5 2))
  else if w.extractLsb' 0 5 = 15#5 then
    some (.maxu (w.extractLsb' 19 5) (w.extractLsb' 14 5) (w.extractLsb' 12 2) (w.extractLsb' 7 5) (w.extractLsb' 5 2))
  else if w.extractLsb' 0 5 = 16#5 then
    some (.addw (w.extractLsb' 19 5) (w.extractLsb' 14 5) (w.extractLsb' 12 2) (w.extractLsb' 7 5) (w.extractLsb' 5 2))
  else if w.extractLsb' 0 5 = 17#5 then
    some (.subw (w.extractLsb' 19 5) (w.extractLsb' 14 5) (w.extractLsb' 12 2) (w.extractLsb' 7 5) (w.extractLsb' 5 2))
  else if w.extractLsb' 0 12 = 18#12 then
    some (.sextb (w.extractLsb' 19 5) (w.extractLsb' 14 5) (w.extractLsb' 12 2))
  else if w.extractLsb' 0 12 = 19#12 then
    some (.sexth (w.extractLsb' 19 5) (w.extractLsb' 14 5) (w.extractLsb' 12 2))
  else if w.extractLsb' 0 12 = 20#12 then
    some (.sextw (w.extractLsb' 19 5) (w.extractLsb' 14 5) (w.extractLsb' 12 2))
  else if w.extractLsb' 0 12 = 21#12 then
    some (.zextb (w.extractLsb' 19 5) (w.extractLsb' 14 5) (w.extractLsb' 12 2))
  else if w.extractLsb' 0 12 = 22#12 then
    some (.zexth (w.extractLsb' 19 5) (w.extractLsb' 14 5) (w.extractLsb' 12 2))
  else if w.extractLsb' 0 12 = 23#12 then
    some (.zextw (w.extractLsb' 19 5) (w.extractLsb' 14 5) (w.extractLsb' 12 2))
  else if w.extractLsb' 0 12 = 24#12 then
    some (.clz (w.extractLsb' 19 5) (w.extractLsb' 14 5) (w.extractLsb' 12 2))
  else if w.extractLsb' 0 12 = 25#12 then
    some (.popc (w.extractLsb' 19 5) (w.extractLsb' 14 5) (w.extractLsb' 12 2))
  else none

/-- Major opcode 0x02: CMP, SEL. -/
def dec02 (w : BitVec 32) : Option Instr :=
  if w.extractLsb' 3 2 = 0#2 then
    some (.cmp (w.extractLsb' 19 5) (w.extractLsb' 14 5) (w.extractLsb' 12 2) (w.extractLsb' 7 5) (w.extractLsb' 5 2) (w.extractLsb' 0 3))
  else if w.extractLsb' 0 5 = 16#5 then
    some (.sel (w.extractLsb' 19 5) (w.extractLsb' 14 5) (w.extractLsb' 12 2) (w.extractLsb' 7 5) (w.extractLsb' 5 2))
  else none

/-- Major opcode 0x03: DIV, REM, DIVU, REMU, DIVW, REMW, DIVUW, REMUW. -/
def dec03 (w : BitVec 32) : Option Instr :=
  if w.extractLsb' 0 5 = 0#5 then
    some (.div (w.extractLsb' 19 5) (w.extractLsb' 14 5) (w.extractLsb' 12 2) (w.extractLsb' 7 5) (w.extractLsb' 5 2))
  else if w.extractLsb' 0 5 = 1#5 then
    some (.rem (w.extractLsb' 19 5) (w.extractLsb' 14 5) (w.extractLsb' 12 2) (w.extractLsb' 7 5) (w.extractLsb' 5 2))
  else if w.extractLsb' 0 5 = 2#5 then
    some (.divu (w.extractLsb' 19 5) (w.extractLsb' 14 5) (w.extractLsb' 12 2) (w.extractLsb' 7 5) (w.extractLsb' 5 2))
  else if w.extractLsb' 0 5 = 3#5 then
    some (.remu (w.extractLsb' 19 5) (w.extractLsb' 14 5) (w.extractLsb' 12 2) (w.extractLsb' 7 5) (w.extractLsb' 5 2))
  else if w.extractLsb' 0 5 = 4#5 then
    some (.divw (w.extractLsb' 19 5) (w.extractLsb' 14 5) (w.extractLsb' 12 2) (w.extractLsb' 7 5) (w.extractLsb' 5 2))
  else if w.extractLsb' 0 5 = 5#5 then
    some (.remw (w.extractLsb' 19 5) (w.extractLsb' 14 5) (w.extractLsb' 12 2) (w.extractLsb' 7 5) (w.extractLsb' 5 2))
  else if w.extractLsb' 0 5 = 6#5 then
    some (.divuw (w.extractLsb' 19 5) (w.extractLsb' 14 5) (w.extractLsb' 12 2) (w.extractLsb' 7 5) (w.extractLsb' 5 2))
  else if w.extractLsb' 0 5 = 7#5 then
    some (.remuw (w.extractLsb' 19 5) (w.extractLsb' 14 5) (w.extractLsb' 12 2) (w.extractLsb' 7 5) (w.extractLsb' 5 2))
  else none

/-- Major opcode 0x04: ADDI. -/
def dec04 (w : BitVec 32) : Option Instr :=
  some (.addi (w.extractLsb' 19 5) (w.extractLsb' 14 5) (w.extractLsb' 12 2) (w.extractLsb' 0 12))

/-- Major opcode 0x05: ANDI. -/
def dec05 (w : BitVec 32) : Option Instr :=
  some (.andi (w.extractLsb' 19 5) (w.extractLsb' 14 5) (w.extractLsb' 12 2) (w.extractLsb' 0 12))

/-- Major opcode 0x06: ORI. -/
def dec06 (w : BitVec 32) : Option Instr :=
  some (.ori (w.extractLsb' 19 5) (w.extractLsb' 14 5) (w.extractLsb' 12 2) (w.extractLsb' 0 12))

/-- Major opcode 0x07: XORI. -/
def dec07 (w : BitVec 32) : Option Instr :=
  some (.xori (w.extractLsb' 19 5) (w.extractLsb' 14 5) (w.extractLsb' 12 2) (w.extractLsb' 0 12))

/-- Major opcode 0x08: SLLI, SRLI, SRAI. -/
def dec08 (w : BitVec 32) : Option Instr :=
  if w.extractLsb' 6 6 = 0#6 then
    some (.slli (w.extractLsb' 19 5) (w.extractLsb' 14 5) (w.extractLsb' 12 2) (w.extractLsb' 0 6))
  else if w.extractLsb' 6 6 = 16#6 then
    some (.srli (w.extractLsb' 19 5) (w.extractLsb' 14 5) (w.extractLsb' 12 2) (w.extractLsb' 0 6))
  else if w.extractLsb' 6 6 = 32#6 then
    some (.srai (w.extractLsb' 19 5) (w.extractLsb' 14 5) (w.extractLsb' 12 2) (w.extractLsb' 0 6))
  else none

/-- Major opcode 0x09: CMPI. -/
def dec09 (w : BitVec 32) : Option Instr :=
  some (.cmpi (w.extractLsb' 19 5) (w.extractLsb' 14 5) (w.extractLsb' 12 2) (w.extractLsb' 9 3) (w.extractLsb' 0 9))

/-- Major opcode 0x0A: LI. -/
def dec0A (w : BitVec 32) : Option Instr :=
  some (.li (w.extractLsb' 19 5) (w.extractLsb' 0 19))

/-- Major opcode 0x0B: LIX. -/
def dec0B (w : BitVec 32) : Option Instr :=
  some (.lix (w.extractLsb' 19 5) (w.extractLsb' 0 19))

/-- Major opcode 0x0C: ADDPC. -/
def dec0C (w : BitVec 32) : Option Instr :=
  some (.addpc (w.extractLsb' 19 5) (w.extractLsb' 0 19))

/-- Major opcode 0x10: BR. -/
def dec10 (w : BitVec 32) : Option Instr :=
  some (.br (w.extractLsb' 21 3) (w.extractLsb' 16 5) (w.extractLsb' 11 5) (w.extractLsb' 0 11))

/-- Major opcode 0x11: J. -/
def dec11 (w : BitVec 32) : Option Instr :=
  some (.j (w.extractLsb' 0 24))

/-- Major opcode 0x12: CALL. -/
def dec12 (w : BitVec 32) : Option Instr :=
  some (.call (w.extractLsb' 0 24))

/-- Major opcode 0x13: JR. -/
def dec13 (w : BitVec 32) : Option Instr :=
  some (.jr (w.extractLsb' 19 5) (w.extractLsb' 14 5) (w.extractLsb' 12 2) (w.extractLsb' 0 12))

/-- Major opcode 0x14: BLKMV, BLKSET. -/
def dec14 (w : BitVec 32) : Option Instr :=
  if w.extractLsb' 12 2 = 0#2 ∧ w.extractLsb' 0 7 = 0#7 then
    some (.blkmv (w.extractLsb' 19 5) (w.extractLsb' 14 5) (w.extractLsb' 7 5))
  else if w.extractLsb' 12 2 = 0#2 ∧ w.extractLsb' 0 7 = 1#7 then
    some (.blkset (w.extractLsb' 19 5) (w.extractLsb' 14 5) (w.extractLsb' 7 5))
  else none

/-- Major opcode 0x15: REPN. -/
def dec15 (w : BitVec 32) : Option Instr :=
  if w.extractLsb' 0 19 = 0#19 then
    some (.repn (w.extractLsb' 19 5))
  else none

/-- Major opcode 0x16: CRR, CWR. -/
def dec16 (w : BitVec 32) : Option Instr :=
  if w.extractLsb' 12 7 = 0#7 then
    some (.crr (w.extractLsb' 19 5) (w.extractLsb' 0 12))
  else if w.extractLsb' 17 7 = 1#7 then
    some (.cwr (w.extractLsb' 12 5) (w.extractLsb' 0 12))
  else none

/-- Major opcode 0x17: MKEMPTY, RSTATE. -/
def dec17 (w : BitVec 32) : Option Instr :=
  if w.extractLsb' 0 19 = 0#19 then
    some (.mkempty (w.extractLsb' 19 5))
  else if w.extractLsb' 17 2 = 1#2 ∧ w.extractLsb' 0 12 = 0#12 then
    some (.rstate (w.extractLsb' 19 5) (w.extractLsb' 12 5))
  else none

/-- Major opcode 0x18: NOP, TRAP, BRK. -/
def dec18 (w : BitVec 32) : Option Instr :=
  if w.extractLsb' 0 24 = 0#24 then
    some (.nop)
  else if w.extractLsb' 16 8 = 2#8 then
    some (.trap (w.extractLsb' 0 16))
  else if w.extractLsb' 16 8 = 4#8 then
    some (.brk (w.extractLsb' 0 16))
  else none

/-- Major opcode 0x20: FADD, FSUB, FMUL, FMIN, FMAX, FABS, FNEG. -/
def dec20 (w : BitVec 32) : Option Instr :=
  if w.extractLsb' 0 5 = 0#5 then
    some (.fadd (w.extractLsb' 19 5) (w.extractLsb' 14 5) (w.extractLsb' 12 2) (w.extractLsb' 7 5) (w.extractLsb' 5 2))
  else if w.extractLsb' 0 5 = 1#5 then
    some (.fsub (w.extractLsb' 19 5) (w.extractLsb' 14 5) (w.extractLsb' 12 2) (w.extractLsb' 7 5) (w.extractLsb' 5 2))
  else if w.extractLsb' 0 5 = 2#5 then
    some (.fmul (w.extractLsb' 19 5) (w.extractLsb' 14 5) (w.extractLsb' 12 2) (w.extractLsb' 7 5) (w.extractLsb' 5 2))
  else if w.extractLsb' 0 5 = 3#5 then
    some (.fmin (w.extractLsb' 19 5) (w.extractLsb' 14 5) (w.extractLsb' 12 2) (w.extractLsb' 7 5) (w.extractLsb' 5 2))
  else if w.extractLsb' 0 5 = 4#5 then
    some (.fmax (w.extractLsb' 19 5) (w.extractLsb' 14 5) (w.extractLsb' 12 2) (w.extractLsb' 7 5) (w.extractLsb' 5 2))
  else if w.extractLsb' 0 12 = 5#12 then
    some (.fabs (w.extractLsb' 19 5) (w.extractLsb' 14 5) (w.extractLsb' 12 2))
  else if w.extractLsb' 0 12 = 6#12 then
    some (.fneg (w.extractLsb' 19 5) (w.extractLsb' 14 5) (w.extractLsb' 12 2))
  else none

/-- Major opcode 0x21: FMA, FMSUB, FNMA, FNMS. -/
def dec21 (w : BitVec 32) : Option Instr :=
  if w.extractLsb' 0 5 = 0#5 then
    some (.fma (w.extractLsb' 19 5) (w.extractLsb' 14 5) (w.extractLsb' 12 2) (w.extractLsb' 7 5) (w.extractLsb' 5 2))
  else if w.extractLsb' 0 5 = 1#5 then
    some (.fmsub (w.extractLsb' 19 5) (w.extractLsb' 14 5) (w.extractLsb' 12 2) (w.extractLsb' 7 5) (w.extractLsb' 5 2))
  else if w.extractLsb' 0 5 = 2#5 then
    some (.fnma (w.extractLsb' 19 5) (w.extractLsb' 14 5) (w.extractLsb' 12 2) (w.extractLsb' 7 5) (w.extractLsb' 5 2))
  else if w.extractLsb' 0 5 = 3#5 then
    some (.fnms (w.extractLsb' 19 5) (w.extractLsb' 14 5) (w.extractLsb' 12 2) (w.extractLsb' 7 5) (w.extractLsb' 5 2))
  else none

/-- Major opcode 0x22: FDIV, FSQRT. -/
def dec22 (w : BitVec 32) : Option Instr :=
  if w.extractLsb' 0 5 = 0#5 then
    some (.fdiv (w.extractLsb' 19 5) (w.extractLsb' 14 5) (w.extractLsb' 12 2) (w.extractLsb' 7 5) (w.extractLsb' 5 2))
  else if w.extractLsb' 0 12 = 1#12 then
    some (.fsqrt (w.extractLsb' 19 5) (w.extractLsb' 14 5) (w.extractLsb' 12 2))
  else none

/-- Major opcode 0x23: FCMP, FCLASS. -/
def dec23 (w : BitVec 32) : Option Instr :=
  if w.extractLsb' 2 3 = 0#3 then
    some (.fcmp (w.extractLsb' 19 5) (w.extractLsb' 14 5) (w.extractLsb' 12 2) (w.extractLsb' 7 5) (w.extractLsb' 5 2) (w.extractLsb' 0 2))
  else if w.extractLsb' 0 12 = 16#12 then
    some (.fclass (w.extractLsb' 19 5) (w.extractLsb' 14 5) (w.extractLsb' 12 2))
  else none

/-- Major opcode 0x24: CVT. -/
def dec24 (w : BitVec 32) : Option Instr :=
  if w.extractLsb' 11 1 = 0#1 ∧ w.extractLsb' 4 3 = 0#3 then
    some (.cvt (w.extractLsb' 19 5) (w.extractLsb' 14 5) (w.extractLsb' 12 2) (w.extractLsb' 7 4) (w.extractLsb' 0 4))
  else none

/-- Major opcode 0x25: CVTD. -/
def dec25 (w : BitVec 32) : Option Instr :=
  if w.extractLsb' 11 1 = 0#1 ∧ w.extractLsb' 4 1 = 0#1 then
    some (.cvtd (w.extractLsb' 19 5) (w.extractLsb' 14 5) (w.extractLsb' 12 2) (w.extractLsb' 7 4) (w.extractLsb' 5 2) (w.extractLsb' 0 4))
  else none

/-- Major opcode 0x30: LD. -/
def dec30 (w : BitVec 32) : Option Instr :=
  some (.ld (w.extractLsb' 19 5) (w.extractLsb' 14 5) (w.extractLsb' 12 2) (w.extractLsb' 8 4) (w.extractLsb' 0 8))

/-- Major opcode 0x31: LDW. -/
def dec31 (w : BitVec 32) : Option Instr :=
  some (.ldw (w.extractLsb' 19 5) (w.extractLsb' 14 5) (w.extractLsb' 12 2) (w.extractLsb' 8 4) (w.extractLsb' 0 8))

/-- Major opcode 0x32: LDH. -/
def dec32 (w : BitVec 32) : Option Instr :=
  some (.ldh (w.extractLsb' 19 5) (w.extractLsb' 14 5) (w.extractLsb' 12 2) (w.extractLsb' 8 4) (w.extractLsb' 0 8))

/-- Major opcode 0x33: LDB. -/
def dec33 (w : BitVec 32) : Option Instr :=
  some (.ldb (w.extractLsb' 19 5) (w.extractLsb' 14 5) (w.extractLsb' 12 2) (w.extractLsb' 8 4) (w.extractLsb' 0 8))

/-- Major opcode 0x34: ST. -/
def dec34 (w : BitVec 32) : Option Instr :=
  some (.st (w.extractLsb' 19 5) (w.extractLsb' 14 5) (w.extractLsb' 12 2) (w.extractLsb' 8 4) (w.extractLsb' 0 8))

/-- Major opcode 0x35: STW. -/
def dec35 (w : BitVec 32) : Option Instr :=
  some (.stw (w.extractLsb' 19 5) (w.extractLsb' 14 5) (w.extractLsb' 12 2) (w.extractLsb' 8 4) (w.extractLsb' 0 8))

/-- Major opcode 0x36: STH. -/
def dec36 (w : BitVec 32) : Option Instr :=
  some (.sth (w.extractLsb' 19 5) (w.extractLsb' 14 5) (w.extractLsb' 12 2) (w.extractLsb' 8 4) (w.extractLsb' 0 8))

/-- Major opcode 0x37: STB. -/
def dec37 (w : BitVec 32) : Option Instr :=
  some (.stb (w.extractLsb' 19 5) (w.extractLsb' 14 5) (w.extractLsb' 12 2) (w.extractLsb' 8 4) (w.extractLsb' 0 8))

/-- Major opcode 0x38: LD_NC. -/
def dec38 (w : BitVec 32) : Option Instr :=
  some (.ldNc (w.extractLsb' 19 5) (w.extractLsb' 14 5) (w.extractLsb' 12 2) (w.extractLsb' 8 4) (w.extractLsb' 0 8))

/-- Major opcode 0x39: LD_A. -/
def dec39 (w : BitVec 32) : Option Instr :=
  some (.ldA (w.extractLsb' 19 5) (w.extractLsb' 14 5) (w.extractLsb' 12 2) (w.extractLsb' 8 4) (w.extractLsb' 0 8))

/-- Major opcode 0x3A: VLD, VLD_NC. -/
def dec3A (w : BitVec 32) : Option Instr :=
  if w.extractLsb' 19 1 = 0#1 then
    some (.vld (w.extractLsb' 20 4) (w.extractLsb' 14 5) (w.extractLsb' 12 2) (w.extractLsb' 8 4) (w.extractLsb' 0 8))
  else if w.extractLsb' 19 1 = 1#1 then
    some (.vldNc (w.extractLsb' 20 4) (w.extractLsb' 14 5) (w.extractLsb' 12 2) (w.extractLsb' 8 4) (w.extractLsb' 0 8))
  else none

/-- Major opcode 0x3B: VST. -/
def dec3B (w : BitVec 32) : Option Instr :=
  if w.extractLsb' 19 1 = 0#1 then
    some (.vst (w.extractLsb' 20 4) (w.extractLsb' 14 5) (w.extractLsb' 12 2) (w.extractLsb' 8 4) (w.extractLsb' 0 8))
  else none

/-- Major opcode 0x3C: AMOSWAP, AMOADD, AMOAND, AMOOR, AMOXOR, AMOMIN, AMOMAX, AMOMINU, AMOMAXU, CAS. -/
def dec3C (w : BitVec 32) : Option Instr :=
  if w.extractLsb' 6 4 = 0#4 then
    some (.amoswap (w.extractLsb' 19 5) (w.extractLsb' 14 5) (w.extractLsb' 11 3) (w.extractLsb' 10 1) (w.extractLsb' 2 4) (w.extractLsb' 0 2))
  else if w.extractLsb' 6 4 = 1#4 then
    some (.amoadd (w.extractLsb' 19 5) (w.extractLsb' 14 5) (w.extractLsb' 11 3) (w.extractLsb' 10 1) (w.extractLsb' 2 4) (w.extractLsb' 0 2))
  else if w.extractLsb' 6 4 = 2#4 then
    some (.amoand (w.extractLsb' 19 5) (w.extractLsb' 14 5) (w.extractLsb' 11 3) (w.extractLsb' 10 1) (w.extractLsb' 2 4) (w.extractLsb' 0 2))
  else if w.extractLsb' 6 4 = 3#4 then
    some (.amoor (w.extractLsb' 19 5) (w.extractLsb' 14 5) (w.extractLsb' 11 3) (w.extractLsb' 10 1) (w.extractLsb' 2 4) (w.extractLsb' 0 2))
  else if w.extractLsb' 6 4 = 4#4 then
    some (.amoxor (w.extractLsb' 19 5) (w.extractLsb' 14 5) (w.extractLsb' 11 3) (w.extractLsb' 10 1) (w.extractLsb' 2 4) (w.extractLsb' 0 2))
  else if w.extractLsb' 6 4 = 5#4 then
    some (.amomin (w.extractLsb' 19 5) (w.extractLsb' 14 5) (w.extractLsb' 11 3) (w.extractLsb' 10 1) (w.extractLsb' 2 4) (w.extractLsb' 0 2))
  else if w.extractLsb' 6 4 = 6#4 then
    some (.amomax (w.extractLsb' 19 5) (w.extractLsb' 14 5) (w.extractLsb' 11 3) (w.extractLsb' 10 1) (w.extractLsb' 2 4) (w.extractLsb' 0 2))
  else if w.extractLsb' 6 4 = 7#4 then
    some (.amominu (w.extractLsb' 19 5) (w.extractLsb' 14 5) (w.extractLsb' 11 3) (w.extractLsb' 10 1) (w.extractLsb' 2 4) (w.extractLsb' 0 2))
  else if w.extractLsb' 6 4 = 8#4 then
    some (.amomaxu (w.extractLsb' 19 5) (w.extractLsb' 14 5) (w.extractLsb' 11 3) (w.extractLsb' 10 1) (w.extractLsb' 2 4) (w.extractLsb' 0 2))
  else if w.extractLsb' 6 4 = 9#4 then
    some (.cas (w.extractLsb' 19 5) (w.extractLsb' 14 5) (w.extractLsb' 11 3) (w.extractLsb' 10 1) (w.extractLsb' 2 4) (w.extractLsb' 0 2))
  else none

/-- Major opcode 0x3D: LD_ACQ, ST_REL, VLDS, VSTS. -/
def dec3D (w : BitVec 32) : Option Instr :=
  if w.extractLsb' 0 2 = 0#2 then
    some (.ldAcq (w.extractLsb' 19 5) (w.extractLsb' 14 5) (w.extractLsb' 11 3) (w.extractLsb' 6 5) (w.extractLsb' 2 4))
  else if w.extractLsb' 0 2 = 1#2 then
    some (.stRel (w.extractLsb' 19 5) (w.extractLsb' 14 5) (w.extractLsb' 11 3) (w.extractLsb' 6 5) (w.extractLsb' 2 4))
  else if w.extractLsb' 19 1 = 0#1 ∧ w.extractLsb' 11 3 = 0#3 ∧ w.extractLsb' 0 2 = 2#2 then
    some (.vlds (w.extractLsb' 20 4) (w.extractLsb' 14 5) (w.extractLsb' 6 5) (w.extractLsb' 2 4))
  else if w.extractLsb' 19 1 = 0#1 ∧ w.extractLsb' 11 3 = 0#3 ∧ w.extractLsb' 0 2 = 3#2 then
    some (.vsts (w.extractLsb' 20 4) (w.extractLsb' 14 5) (w.extractLsb' 6 5) (w.extractLsb' 2 4))
  else none

/-- Major opcode 0x3E: FENCE_ACQ, FENCE_ACQ_INV, FENCE_REL, FENCE_FULL, DRAIN, FFENCE, OBJDECL, LDV, STV, VRECL, and
OBJDROP by its decoder. -/
def dec3EBy (drop : BitVec 32 → Option Instr) (w : BitVec 32) : Option Instr :=
  if w.extractLsb' 14 10 = 0#10 ∧ w.extractLsb' 0 11 = 3#11 then
    some (.fenceAcq (w.extractLsb' 11 3))
  else if w.extractLsb' 14 10 = 0#10 ∧ w.extractLsb' 0 11 = 67#11 then
    some (.fenceAcqInv (w.extractLsb' 11 3))
  else if w.extractLsb' 14 10 = 0#10 ∧ w.extractLsb' 0 11 = 131#11 then
    some (.fenceRel (w.extractLsb' 11 3))
  else if w.extractLsb' 14 10 = 0#10 ∧ w.extractLsb' 0 11 = 195#11 then
    some (.fenceFull (w.extractLsb' 11 3))
  else if w.extractLsb' 0 24 = 259#24 then
    some (.drain)
  else if w.extractLsb' 0 24 = 323#24 then
    some (.ffence)
  else if w.extractLsb' 6 8 = 6#8 ∧ w.extractLsb' 0 2 = 3#2 then
    some (.objdecl (w.extractLsb' 19 5) (w.extractLsb' 14 5) (w.extractLsb' 2 4))
  else if w.extractLsb' 0 19 = 451#19 then
    drop w
  else if w.extractLsb' 0 2 = 0#2 then
    some (.ldv (w.extractLsb' 19 5) (w.extractLsb' 14 5) (w.extractLsb' 11 3) (w.extractLsb' 6 5) (w.extractLsb' 2 4))
  else if w.extractLsb' 6 5 = 0#5 ∧ w.extractLsb' 0 2 = 1#2 then
    some (.stv (w.extractLsb' 19 5) (w.extractLsb' 14 5) (w.extractLsb' 11 3) (w.extractLsb' 2 4))
  else if w.extractLsb' 6 8 = 0#8 ∧ w.extractLsb' 0 2 = 2#2 then
    some (.vrecl (w.extractLsb' 19 5) (w.extractLsb' 14 5) (w.extractLsb' 2 4))
  else none

/-- Major opcode 0x3F: WREC, WPLAY, WEND, WSTAT, and WDROP by its decoder. -/
def dec3FBy (drop : BitVec 32 → Option Instr) (w : BitVec 32) : Option Instr :=
  if w.extractLsb' 11 3 = 0#3 ∧ w.extractLsb' 0 2 = 0#2 then
    some (.wrec (w.extractLsb' 19 5) (w.extractLsb' 14 5) (w.extractLsb' 6 5) (w.extractLsb' 2 4))
  else if w.extractLsb' 11 8 = 1#8 ∧ w.extractLsb' 0 6 = 0#6 then
    some (.wplay (w.extractLsb' 19 5) (w.extractLsb' 6 5))
  else if w.extractLsb' 0 19 = 4096#19 then
    some (.wend (w.extractLsb' 19 5))
  else if w.extractLsb' 11 8 = 3#8 ∧ w.extractLsb' 0 6 = 0#6 then
    some (.wstat (w.extractLsb' 19 5) (w.extractLsb' 6 5))
  else if w.extractLsb' 11 8 = 4#8 ∧ w.extractLsb' 0 6 = 0#6 then
    drop w
  else none

/-- Major opcode 0x40: DONE. -/
def dec40 (w : BitVec 32) : Option Instr :=
  if w.extractLsb' 0 24 = 0#24 then
    some (.done)
  else none

/-- Major opcode 0x41: SEND. -/
def dec41 (w : BitVec 32) : Option Instr :=
  if w.extractLsb' 0 5 = 0#5 then
    some (.send (w.extractLsb' 19 5) (w.extractLsb' 14 5) (w.extractLsb' 12 2) (w.extractLsb' 7 5) (w.extractLsb' 5 2))
  else none

/-- Major opcode 0x42: SENDH. -/
def dec42 (w : BitVec 32) : Option Instr :=
  if w.extractLsb' 0 5 = 0#5 then
    some (.sendh (w.extractLsb' 19 5) (w.extractLsb' 14 5) (w.extractLsb' 12 2) (w.extractLsb' 7 5) (w.extractLsb' 5 2))
  else none

/-- Major opcode 0x43: SENDNZ. -/
def dec43 (w : BitVec 32) : Option Instr :=
  if w.extractLsb' 0 9 = 0#9 then
    some (.sendnz (w.extractLsb' 20 4) (w.extractLsb' 16 4) (w.extractLsb' 12 4) (w.extractLsb' 9 3))
  else none

/-- Major opcode 0x44: SPAWN. -/
def dec44 (w : BitVec 32) : Option Instr :=
  if w.extractLsb' 0 5 = 0#5 then
    some (.spawn (w.extractLsb' 19 5) (w.extractLsb' 14 5) (w.extractLsb' 12 2) (w.extractLsb' 7 5) (w.extractLsb' 5 2))
  else none

/-- Major opcode 0x45: PUSHT. -/
def dec45 (w : BitVec 32) : Option Instr :=
  if w.extractLsb' 0 5 = 0#5 then
    some (.pusht (w.extractLsb' 19 5) (w.extractLsb' 14 5) (w.extractLsb' 12 2) (w.extractLsb' 7 5) (w.extractLsb' 5 2))
  else none

/-- Major opcode 0x46: QSTAT, GRPQ, GRPQ_M, QPRI. -/
def dec46 (w : BitVec 32) : Option Instr :=
  if w.extractLsb' 3 16 = 0#16 then
    some (.qstat (w.extractLsb' 19 5) (w.extractLsb' 0 3))
  else if w.extractLsb' 17 2 = 1#2 ∧ w.extractLsb' 0 12 = 0#12 then
    some (.grpq (w.extractLsb' 19 5) (w.extractLsb' 12 5))
  else if w.extractLsb' 17 2 = 1#2 ∧ w.extractLsb' 0 12 = 1#12 then
    some (.grpqM (w.extractLsb' 19 5) (w.extractLsb' 12 5))
  else if w.extractLsb' 17 2 = 2#2 ∧ w.extractLsb' 0 12 = 0#12 then
    some (.qpri (w.extractLsb' 19 5) (w.extractLsb' 12 5))
  else none

/-- Major opcode 0x50: VFADD, VFSUB, VFMUL, VFMA, VFMIN, VFMAX, VFABS, VFNEG. -/
def dec50 (w : BitVec 32) : Option Instr :=
  if w.extractLsb' 9 3 = 0#3 ∧ w.extractLsb' 0 6 = 0#6 then
    some (.vfadd (w.extractLsb' 20 4) (w.extractLsb' 16 4) (w.extractLsb' 12 4) (w.extractLsb' 6 3))
  else if w.extractLsb' 9 3 = 0#3 ∧ w.extractLsb' 0 6 = 1#6 then
    some (.vfsub (w.extractLsb' 20 4) (w.extractLsb' 16 4) (w.extractLsb' 12 4) (w.extractLsb' 6 3))
  else if w.extractLsb' 9 3 = 0#3 ∧ w.extractLsb' 0 6 = 2#6 then
    some (.vfmul (w.extractLsb' 20 4) (w.extractLsb' 16 4) (w.extractLsb' 12 4) (w.extractLsb' 6 3))
  else if w.extractLsb' 9 3 = 0#3 ∧ w.extractLsb' 0 6 = 3#6 then
    some (.vfma (w.extractLsb' 20 4) (w.extractLsb' 16 4) (w.extractLsb' 12 4) (w.extractLsb' 6 3))
  else if w.extractLsb' 9 3 = 0#3 ∧ w.extractLsb' 0 6 = 4#6 then
    some (.vfmin (w.extractLsb' 20 4) (w.extractLsb' 16 4) (w.extractLsb' 12 4) (w.extractLsb' 6 3))
  else if w.extractLsb' 9 3 = 0#3 ∧ w.extractLsb' 0 6 = 5#6 then
    some (.vfmax (w.extractLsb' 20 4) (w.extractLsb' 16 4) (w.extractLsb' 12 4) (w.extractLsb' 6 3))
  else if w.extractLsb' 0 16 = 6#16 then
    some (.vfabs (w.extractLsb' 20 4) (w.extractLsb' 16 4))
  else if w.extractLsb' 0 16 = 7#16 then
    some (.vfneg (w.extractLsb' 20 4) (w.extractLsb' 16 4))
  else none

/-- Major opcode 0x51: VADD, VSUB, VMUL, VMIN, VMAX, VAND, VOR, VXOR, VSLL, VSRL, VSRA, VADDS, VSUBS. -/
def dec51 (w : BitVec 32) : Option Instr :=
  if w.extractLsb' 9 3 = 0#3 ∧ w.extractLsb' 0 6 = 0#6 then
    some (.vadd (w.extractLsb' 20 4) (w.extractLsb' 16 4) (w.extractLsb' 12 4) (w.extractLsb' 6 3))
  else if w.extractLsb' 9 3 = 0#3 ∧ w.extractLsb' 0 6 = 1#6 then
    some (.vsub (w.extractLsb' 20 4) (w.extractLsb' 16 4) (w.extractLsb' 12 4) (w.extractLsb' 6 3))
  else if w.extractLsb' 9 3 = 0#3 ∧ w.extractLsb' 0 6 = 2#6 then
    some (.vmul (w.extractLsb' 20 4) (w.extractLsb' 16 4) (w.extractLsb' 12 4) (w.extractLsb' 6 3))
  else if w.extractLsb' 9 3 = 0#3 ∧ w.extractLsb' 0 6 = 3#6 then
    some (.vmin (w.extractLsb' 20 4) (w.extractLsb' 16 4) (w.extractLsb' 12 4) (w.extractLsb' 6 3))
  else if w.extractLsb' 9 3 = 0#3 ∧ w.extractLsb' 0 6 = 4#6 then
    some (.vmax (w.extractLsb' 20 4) (w.extractLsb' 16 4) (w.extractLsb' 12 4) (w.extractLsb' 6 3))
  else if w.extractLsb' 9 3 = 0#3 ∧ w.extractLsb' 0 6 = 5#6 then
    some (.vand (w.extractLsb' 20 4) (w.extractLsb' 16 4) (w.extractLsb' 12 4) (w.extractLsb' 6 3))
  else if w.extractLsb' 9 3 = 0#3 ∧ w.extractLsb' 0 6 = 6#6 then
    some (.vor (w.extractLsb' 20 4) (w.extractLsb' 16 4) (w.extractLsb' 12 4) (w.extractLsb' 6 3))
  else if w.extractLsb' 9 3 = 0#3 ∧ w.extractLsb' 0 6 = 7#6 then
    some (.vxor (w.extractLsb' 20 4) (w.extractLsb' 16 4) (w.extractLsb' 12 4) (w.extractLsb' 6 3))
  else if w.extractLsb' 9 3 = 0#3 ∧ w.extractLsb' 0 6 = 8#6 then
    some (.vsll (w.extractLsb' 20 4) (w.extractLsb' 16 4) (w.extractLsb' 12 4) (w.extractLsb' 6 3))
  else if w.extractLsb' 9 3 = 0#3 ∧ w.extractLsb' 0 6 = 9#6 then
    some (.vsrl (w.extractLsb' 20 4) (w.extractLsb' 16 4) (w.extractLsb' 12 4) (w.extractLsb' 6 3))
  else if w.extractLsb' 9 3 = 0#3 ∧ w.extractLsb' 0 6 = 10#6 then
    some (.vsra (w.extractLsb' 20 4) (w.extractLsb' 16 4) (w.extractLsb' 12 4) (w.extractLsb' 6 3))
  else if w.extractLsb' 9 3 = 0#3 ∧ w.extractLsb' 0 6 = 11#6 then
    some (.vadds (w.extractLsb' 20 4) (w.extractLsb' 16 4) (w.extractLsb' 12 4) (w.extractLsb' 6 3))
  else if w.extractLsb' 9 3 = 0#3 ∧ w.extractLsb' 0 6 = 12#6 then
    some (.vsubs (w.extractLsb' 20 4) (w.extractLsb' 16 4) (w.extractLsb' 12 4) (w.extractLsb' 6 3))
  else none

/-- Major opcode 0x52: VFCMP, VICMP, VSEL. -/
def dec52 (w : BitVec 32) : Option Instr :=
  if w.extractLsb' 9 3 = 0#3 ∧ w.extractLsb' 2 4 = 0#4 then
    some (.vfcmp (w.extractLsb' 20 4) (w.extractLsb' 16 4) (w.extractLsb' 12 4) (w.extractLsb' 6 3) (w.extractLsb' 0 2))
  else if w.extractLsb' 9 3 = 0#3 ∧ w.extractLsb' 3 3 = 1#3 then
    some (.vicmp (w.extractLsb' 20 4) (w.extractLsb' 16 4) (w.extractLsb' 12 4) (w.extractLsb' 6 3) (w.extractLsb' 0 3))
  else if w.extractLsb' 9 3 = 0#3 ∧ w.extractLsb' 0 6 = 16#6 then
    some (.vsel (w.extractLsb' 20 4) (w.extractLsb' 16 4) (w.extractLsb' 12 4) (w.extractLsb' 6 3))
  else none

/-- Major opcode 0x53: VPERM, VBCAST, VBCASTL, VROT. -/
def dec53 (w : BitVec 32) : Option Instr :=
  if w.extractLsb' 0 12 = 0#12 then
    some (.vperm (w.extractLsb' 20 4) (w.extractLsb' 16 4) (w.extractLsb' 12 4))
  else if w.extractLsb' 16 4 = 0#4 ∧ w.extractLsb' 0 12 = 1#12 then
    some (.vbcast (w.extractLsb' 20 4) (w.extractLsb' 12 4))
  else if w.extractLsb' 12 4 = 0#4 ∧ w.extractLsb' 0 6 = 2#6 then
    some (.vbcastl (w.extractLsb' 20 4) (w.extractLsb' 16 4) (w.extractLsb' 6 6))
  else if w.extractLsb' 12 4 = 0#4 ∧ w.extractLsb' 0 6 = 3#6 then
    some (.vrot (w.extractLsb' 20 4) (w.extractLsb' 16 4) (w.extractLsb' 6 6))
  else none

/-- Major opcode 0x54: VRSUM, VRMAX, VRMIN, VRISUM, VRISUMS, VRIMAX, VRIMIN. -/
def dec54 (w : BitVec 32) : Option Instr :=
  if w.extractLsb' 12 4 = 0#4 ∧ w.extractLsb' 0 9 = 0#9 then
    some (.vrsum (w.extractLsb' 20 4) (w.extractLsb' 16 4) (w.extractLsb' 9 3))
  else if w.extractLsb' 12 4 = 0#4 ∧ w.extractLsb' 0 9 = 1#9 then
    some (.vrmax (w.extractLsb' 20 4) (w.extractLsb' 16 4) (w.extractLsb' 9 3))
  else if w.extractLsb' 12 4 = 0#4 ∧ w.extractLsb' 0 9 = 2#9 then
    some (.vrmin (w.extractLsb' 20 4) (w.extractLsb' 16 4) (w.extractLsb' 9 3))
  else if w.extractLsb' 12 4 = 0#4 ∧ w.extractLsb' 0 9 = 8#9 then
    some (.vrisum (w.extractLsb' 20 4) (w.extractLsb' 16 4) (w.extractLsb' 9 3))
  else if w.extractLsb' 12 4 = 0#4 ∧ w.extractLsb' 0 9 = 9#9 then
    some (.vrisums (w.extractLsb' 20 4) (w.extractLsb' 16 4) (w.extractLsb' 9 3))
  else if w.extractLsb' 12 4 = 0#4 ∧ w.extractLsb' 0 9 = 10#9 then
    some (.vrimax (w.extractLsb' 20 4) (w.extractLsb' 16 4) (w.extractLsb' 9 3))
  else if w.extractLsb' 12 4 = 0#4 ∧ w.extractLsb' 0 9 = 11#9 then
    some (.vrimin (w.extractLsb' 20 4) (w.extractLsb' 16 4) (w.extractLsb' 9 3))
  else none

/-- Major opcode 0x55: VCVT, VCVTD, VCVT_S, VCVTD_S. -/
def dec55 (w : BitVec 32) : Option Instr :=
  if w.extractLsb' 12 4 = 0#4 ∧ w.extractLsb' 4 5 = 0#5 then
    some (.vcvt (w.extractLsb' 20 4) (w.extractLsb' 16 4) (w.extractLsb' 9 3) (w.extractLsb' 0 4))
  else if w.extractLsb' 12 4 = 0#4 ∧ w.extractLsb' 4 3 = 1#3 then
    some (.vcvtd (w.extractLsb' 20 4) (w.extractLsb' 16 4) (w.extractLsb' 9 3) (w.extractLsb' 7 2) (w.extractLsb' 0 4))
  else if w.extractLsb' 4 3 = 2#3 then
    some (.vcvtS (w.extractLsb' 20 4) (w.extractLsb' 16 4) (w.extractLsb' 12 4) (w.extractLsb' 9 3) (w.extractLsb' 7 2) (w.extractLsb' 0 4))
  else if w.extractLsb' 4 3 = 3#3 then
    some (.vcvtdS (w.extractLsb' 20 4) (w.extractLsb' 16 4) (w.extractLsb' 12 4) (w.extractLsb' 9 3) (w.extractLsb' 7 2) (w.extractLsb' 0 4))
  else none

/-- Major opcode 0x56: VRCP, VRSQRT, VEXP2, VLOG2, VTANH, VSIGM, VFDIV, VFSQRT. -/
def dec56 (w : BitVec 32) : Option Instr :=
  if w.extractLsb' 0 16 = 0#16 then
    some (.vrcp (w.extractLsb' 20 4) (w.extractLsb' 16 4))
  else if w.extractLsb' 0 16 = 1#16 then
    some (.vrsqrt (w.extractLsb' 20 4) (w.extractLsb' 16 4))
  else if w.extractLsb' 0 16 = 2#16 then
    some (.vexp2 (w.extractLsb' 20 4) (w.extractLsb' 16 4))
  else if w.extractLsb' 0 16 = 3#16 then
    some (.vlog2 (w.extractLsb' 20 4) (w.extractLsb' 16 4))
  else if w.extractLsb' 0 16 = 4#16 then
    some (.vtanh (w.extractLsb' 20 4) (w.extractLsb' 16 4))
  else if w.extractLsb' 0 16 = 5#16 then
    some (.vsigm (w.extractLsb' 20 4) (w.extractLsb' 16 4))
  else if w.extractLsb' 0 12 = 6#12 then
    some (.vfdiv (w.extractLsb' 20 4) (w.extractLsb' 16 4) (w.extractLsb' 12 4))
  else if w.extractLsb' 0 16 = 7#16 then
    some (.vfsqrt (w.extractLsb' 20 4) (w.extractLsb' 16 4))
  else none

/-- Major opcode 0x57: VINS, VEXT. -/
def dec57 (w : BitVec 32) : Option Instr :=
  if w.extractLsb' 16 4 = 0#4 ∧ w.extractLsb' 0 6 = 0#6 then
    some (.vins (w.extractLsb' 20 4) (w.extractLsb' 12 4) (w.extractLsb' 6 6))
  else if w.extractLsb' 12 4 = 0#4 ∧ w.extractLsb' 0 6 = 1#6 then
    some (.vext (w.extractLsb' 20 4) (w.extractLsb' 16 4) (w.extractLsb' 6 6))
  else none

/-- Major opcode 0x60: XLEASE, XFREE, XCFG, XCFG_TAB, XWAIT, XSTAT, XSTAT_CLR. -/
def dec60 (w : BitVec 32) : Option Instr :=
  if w.extractLsb' 0 24 = 0#24 then
    some (.xlease)
  else if w.extractLsb' 21 3 = 0#3 ∧ w.extractLsb' 0 16 = 1#16 then
    some (.xfree (w.extractLsb' 16 5))
  else if w.extractLsb' 21 3 = 0#3 ∧ w.extractLsb' 0 16 = 2#16 then
    some (.xcfg (w.extractLsb' 16 5))
  else if w.extractLsb' 21 3 = 0#3 ∧ w.extractLsb' 0 16 = 3#16 then
    some (.xcfgTab (w.extractLsb' 16 5))
  else if w.extractLsb' 0 24 = 4#24 then
    some (.xwait)
  else if w.extractLsb' 0 16 = 5#16 then
    some (.xstat (w.extractLsb' 21 3) (w.extractLsb' 16 5))
  else if w.extractLsb' 0 16 = 6#16 then
    some (.xstatClr (w.extractLsb' 21 3) (w.extractLsb' 16 5))
  else none

/-- Major opcode 0x61: XLDA, XLDB, XLDSA, XLDSB, XUNF. -/
def dec61 (w : BitVec 32) : Option Instr :=
  if w.extractLsb' 21 3 = 0#3 ∧ w.extractLsb' 8 3 = 0#3 ∧ w.extractLsb' 0 6 = 0#6 then
    some (.xlda (w.extractLsb' 16 5) (w.extractLsb' 11 5) (w.extractLsb' 6 2))
  else if w.extractLsb' 21 3 = 0#3 ∧ w.extractLsb' 8 3 = 1#3 ∧ w.extractLsb' 0 6 = 0#6 then
    some (.xldb (w.extractLsb' 16 5) (w.extractLsb' 11 5) (w.extractLsb' 6 2))
  else if w.extractLsb' 21 3 = 0#3 ∧ w.extractLsb' 8 8 = 2#8 ∧ w.extractLsb' 0 6 = 0#6 then
    some (.xldsa (w.extractLsb' 16 5) (w.extractLsb' 6 2))
  else if w.extractLsb' 21 3 = 0#3 ∧ w.extractLsb' 8 8 = 3#8 ∧ w.extractLsb' 0 6 = 0#6 then
    some (.xldsb (w.extractLsb' 16 5) (w.extractLsb' 6 2))
  else if w.extractLsb' 21 3 = 0#3 ∧ w.extractLsb' 0 16 = 1024#16 then
    some (.xunf (w.extractLsb' 16 5))
  else none

/-- Major opcode 0x62: XMMA, XCMMA. -/
def dec62 (w : BitVec 32) : Option Instr :=
  if w.extractLsb' 10 11 = 0#11 ∧ w.extractLsb' 0 6 = 0#6 then
    some (.xmma (w.extractLsb' 21 3) (w.extractLsb' 8 2) (w.extractLsb' 6 2))
  else if w.extractLsb' 10 11 = 1#11 ∧ w.extractLsb' 0 6 = 0#6 then
    some (.xcmma (w.extractLsb' 21 3) (w.extractLsb' 8 2) (w.extractLsb' 6 2))
  else none

/-- Major opcode 0x63: XZERO, XZERO_F, XZERO_I, XDRN. -/
def dec63 (w : BitVec 32) : Option Instr :=
  if w.extractLsb' 0 21 = 0#21 then
    some (.xzero (w.extractLsb' 21 3))
  else if w.extractLsb' 15 6 = 0#6 ∧ w.extractLsb' 0 11 = 512#11 then
    some (.xzeroF (w.extractLsb' 21 3) (w.extractLsb' 11 4))
  else if w.extractLsb' 15 6 = 0#6 ∧ w.extractLsb' 0 11 = 1024#11 then
    some (.xzeroI (w.extractLsb' 21 3) (w.extractLsb' 11 4))
  else if w.extractLsb' 9 2 = 3#2 ∧ w.extractLsb' 0 1 = 0#1 then
    some (.xdrn (w.extractLsb' 21 3) (w.extractLsb' 16 5) (w.extractLsb' 11 5) (w.extractLsb' 5 4) (w.extractLsb' 3 2) (w.extractLsb' 2 1) (w.extractLsb' 1 1))
  else none

/-- Major opcode 0x68: CPY, CPY_NB, CPYST. -/
def dec68 (w : BitVec 32) : Option Instr :=
  if w.extractLsb' 0 12 = 0#12 then
    some (.cpy (w.extractLsb' 19 5) (w.extractLsb' 14 5) (w.extractLsb' 12 2))
  else if w.extractLsb' 0 12 = 1#12 then
    some (.cpyNb (w.extractLsb' 19 5) (w.extractLsb' 14 5) (w.extractLsb' 12 2))
  else if w.extractLsb' 12 7 = 0#7 ∧ w.extractLsb' 0 7 = 2#7 then
    some (.cpyst (w.extractLsb' 19 5) (w.extractLsb' 7 5))
  else none

/-- Major opcode 0x69: GATHER. -/
def dec69 (w : BitVec 32) : Option Instr :=
  if w.extractLsb' 0 5 = 0#5 then
    some (.gather (w.extractLsb' 19 5) (w.extractLsb' 14 5) (w.extractLsb' 12 2) (w.extractLsb' 7 5) (w.extractLsb' 5 2))
  else none

/-- Major opcode 0x6A: RAINIT, RAWAIT, RAREL. -/
def dec6A (w : BitVec 32) : Option Instr :=
  if w.extractLsb' 19 5 = 0#5 ∧ w.extractLsb' 0 5 = 0#5 then
    some (.rainit (w.extractLsb' 14 5) (w.extractLsb' 12 2) (w.extractLsb' 7 5) (w.extractLsb' 5 2))
  else if w.extractLsb' 0 5 = 1#5 then
    some (.rawait (w.extractLsb' 19 5) (w.extractLsb' 14 5) (w.extractLsb' 12 2) (w.extractLsb' 7 5) (w.extractLsb' 5 2))
  else if w.extractLsb' 19 5 = 0#5 ∧ w.extractLsb' 0 12 = 2#12 then
    some (.rarel (w.extractLsb' 14 5) (w.extractLsb' 12 2))
  else none

/-- Major opcode 0x6B: BARINIT, BARARR, BARXB, BARWAIT. -/
def dec6B (w : BitVec 32) : Option Instr :=
  if w.extractLsb' 19 5 = 0#5 ∧ w.extractLsb' 0 5 = 0#5 then
    some (.barinit (w.extractLsb' 14 5) (w.extractLsb' 12 2) (w.extractLsb' 7 5) (w.extractLsb' 5 2))
  else if w.extractLsb' 19 5 = 0#5 ∧ w.extractLsb' 0 5 = 1#5 then
    some (.bararr (w.extractLsb' 14 5) (w.extractLsb' 12 2) (w.extractLsb' 7 5) (w.extractLsb' 5 2))
  else if w.extractLsb' 19 5 = 0#5 ∧ w.extractLsb' 0 5 = 2#5 then
    some (.barxb (w.extractLsb' 14 5) (w.extractLsb' 12 2) (w.extractLsb' 7 5) (w.extractLsb' 5 2))
  else if w.extractLsb' 19 5 = 0#5 ∧ w.extractLsb' 0 5 = 3#5 then
    some (.barwait (w.extractLsb' 14 5) (w.extractLsb' 12 2) (w.extractLsb' 7 5) (w.extractLsb' 5 2))
  else none

/-- Major opcode 0x6C: SEQWAIT. -/
def dec6C (w : BitVec 32) : Option Instr :=
  if w.extractLsb' 19 5 = 0#5 ∧ w.extractLsb' 0 5 = 0#5 then
    some (.seqwait (w.extractLsb' 14 5) (w.extractLsb' 12 2) (w.extractLsb' 7 5) (w.extractLsb' 5 2))
  else none

/-- Major opcode 0x70: TRET, SLEEP, HALT. -/
def dec70 (w : BitVec 32) : Option Instr :=
  if w.extractLsb' 0 24 = 0#24 then
    some (.tret)
  else if w.extractLsb' 0 19 = 131072#19 then
    some (.sleep (w.extractLsb' 19 5))
  else if w.extractLsb' 0 24 = 262144#24 then
    some (.halt)
  else none

/-- Major opcode 0x71: KILLCTX. -/
def dec71 (w : BitVec 32) : Option Instr :=
  if w.extractLsb' 0 12 = 0#12 then
    some (.killctx (w.extractLsb' 19 5) (w.extractLsb' 14 5) (w.extractLsb' 12 2))
  else none

/-- Major opcode 0x72: TLBI, TLBSYNC. -/
def dec72 (w : BitVec 32) : Option Instr :=
  if w.extractLsb' 19 5 = 0#5 ∧ w.extractLsb' 0 5 = 0#5 then
    some (.tlbi (w.extractLsb' 14 5) (w.extractLsb' 12 2) (w.extractLsb' 7 5) (w.extractLsb' 5 2))
  else if w.extractLsb' 0 24 = 1#24 then
    some (.tlbsync)
  else none

/-- Major opcode 0x73: WATCH, SSTEP_OFF, SSTEP_ON, SSTEP_ONCE, SNAP. -/
def dec73 (w : BitVec 32) : Option Instr :=
  if w.extractLsb' 17 2 = 0#2 ∧ w.extractLsb' 0 6 = 0#6 then
    some (.watch (w.extractLsb' 19 5) (w.extractLsb' 15 2) (w.extractLsb' 11 4) (w.extractLsb' 6 5))
  else if w.extractLsb' 0 24 = 131072#24 then
    some (.sstepOff)
  else if w.extractLsb' 0 24 = 131073#24 then
    some (.sstepOn)
  else if w.extractLsb' 0 24 = 131075#24 then
    some (.sstepOnce)
  else if w.extractLsb' 0 19 = 262144#19 then
    some (.snap (w.extractLsb' 19 5))
  else none

/-- Major opcode 0x74: GUST, GUST_T, GUSTREL, QREAD. -/
def dec74 (w : BitVec 32) : Option Instr :=
  if w.extractLsb' 17 2 = 0#2 ∧ w.extractLsb' 0 12 = 0#12 then
    some (.gust (w.extractLsb' 19 5) (w.extractLsb' 12 5))
  else if w.extractLsb' 17 2 = 0#2 ∧ w.extractLsb' 0 12 = 1#12 then
    some (.gustT (w.extractLsb' 19 5) (w.extractLsb' 12 5))
  else if w.extractLsb' 0 19 = 131072#19 then
    some (.gustrel (w.extractLsb' 19 5))
  else if w.extractLsb' 3 16 = 32768#16 then
    some (.qread (w.extractLsb' 19 5) (w.extractLsb' 0 3))
  else none

/-- Major opcode 0x75: XRED, COLL, CWAIT. -/
def dec75 (w : BitVec 32) : Option Instr :=
  if w.extractLsb' 0 12 = 0#12 then
    some (.xred (w.extractLsb' 19 5) (w.extractLsb' 14 5) (w.extractLsb' 12 2))
  else if w.extractLsb' 0 12 = 1#12 then
    some (.coll (w.extractLsb' 19 5) (w.extractLsb' 14 5) (w.extractLsb' 12 2))
  else if w.extractLsb' 0 5 = 2#5 then
    some (.cwait (w.extractLsb' 19 5) (w.extractLsb' 14 5) (w.extractLsb' 12 2) (w.extractLsb' 7 5) (w.extractLsb' 5 2))
  else none

/-- Major opcode 0x76: RAMO_SWAP, RAMO_ADD, RAMO_AND, RAMO_OR, RAMO_XOR, RAMO_MIN, RAMO_MAX, RAMO_MINU, RAMO_MAXU, RAMO_CAS. -/
def dec76 (w : BitVec 32) : Option Instr :=
  if w.extractLsb' 0 4 = 0#4 then
    some (.ramoSwap (w.extractLsb' 19 5) (w.extractLsb' 14 5) (w.extractLsb' 12 2) (w.extractLsb' 7 5) (w.extractLsb' 5 2) (w.extractLsb' 4 1))
  else if w.extractLsb' 0 4 = 1#4 then
    some (.ramoAdd (w.extractLsb' 19 5) (w.extractLsb' 14 5) (w.extractLsb' 12 2) (w.extractLsb' 7 5) (w.extractLsb' 5 2) (w.extractLsb' 4 1))
  else if w.extractLsb' 0 4 = 2#4 then
    some (.ramoAnd (w.extractLsb' 19 5) (w.extractLsb' 14 5) (w.extractLsb' 12 2) (w.extractLsb' 7 5) (w.extractLsb' 5 2) (w.extractLsb' 4 1))
  else if w.extractLsb' 0 4 = 3#4 then
    some (.ramoOr (w.extractLsb' 19 5) (w.extractLsb' 14 5) (w.extractLsb' 12 2) (w.extractLsb' 7 5) (w.extractLsb' 5 2) (w.extractLsb' 4 1))
  else if w.extractLsb' 0 4 = 4#4 then
    some (.ramoXor (w.extractLsb' 19 5) (w.extractLsb' 14 5) (w.extractLsb' 12 2) (w.extractLsb' 7 5) (w.extractLsb' 5 2) (w.extractLsb' 4 1))
  else if w.extractLsb' 0 4 = 5#4 then
    some (.ramoMin (w.extractLsb' 19 5) (w.extractLsb' 14 5) (w.extractLsb' 12 2) (w.extractLsb' 7 5) (w.extractLsb' 5 2) (w.extractLsb' 4 1))
  else if w.extractLsb' 0 4 = 6#4 then
    some (.ramoMax (w.extractLsb' 19 5) (w.extractLsb' 14 5) (w.extractLsb' 12 2) (w.extractLsb' 7 5) (w.extractLsb' 5 2) (w.extractLsb' 4 1))
  else if w.extractLsb' 0 4 = 7#4 then
    some (.ramoMinu (w.extractLsb' 19 5) (w.extractLsb' 14 5) (w.extractLsb' 12 2) (w.extractLsb' 7 5) (w.extractLsb' 5 2) (w.extractLsb' 4 1))
  else if w.extractLsb' 0 4 = 8#4 then
    some (.ramoMaxu (w.extractLsb' 19 5) (w.extractLsb' 14 5) (w.extractLsb' 12 2) (w.extractLsb' 7 5) (w.extractLsb' 5 2) (w.extractLsb' 4 1))
  else if w.extractLsb' 0 4 = 9#4 then
    some (.ramoCas (w.extractLsb' 19 5) (w.extractLsb' 14 5) (w.extractLsb' 12 2) (w.extractLsb' 7 5) (w.extractLsb' 5 2) (w.extractLsb' 4 1))
  else none

/-- OBJDROP. -/
noncomputable def decObjdrop (w : BitVec 32) : Option Instr := some (.objdrop (w.extractLsb' 19 5))

/-- WDROP. -/
noncomputable def decWdrop (w : BitVec 32) : Option Instr := some (.wdrop (w.extractLsb' 19 5) (w.extractLsb' 6 5))

/-- Major opcodes 0x78 to 0x7F: the hint space (R78). -/
noncomputable def decHint (w : BitVec 32) : Option Instr :=
  some (.hint (w.extractLsb' 24 3) (w.extractLsb' 0 24))

/-- A 32-bit word by its major opcode, before the conditions of WellFormed (R75); the decoders of three opcodes are
arguments, so that compiled code can do without what it cannot build. -/
def decodeMajor (d3E d3F dHint : BitVec 32 → Option Instr) (w : BitVec 32) : Option Instr :=
  if w.extractLsb' 24 8 = 0x81#8 then dec01 w
  else if w.extractLsb' 24 8 = 0x82#8 then dec02 w
  else if w.extractLsb' 24 8 = 0x83#8 then dec03 w
  else if w.extractLsb' 24 8 = 0x84#8 then dec04 w
  else if w.extractLsb' 24 8 = 0x85#8 then dec05 w
  else if w.extractLsb' 24 8 = 0x86#8 then dec06 w
  else if w.extractLsb' 24 8 = 0x87#8 then dec07 w
  else if w.extractLsb' 24 8 = 0x88#8 then dec08 w
  else if w.extractLsb' 24 8 = 0x89#8 then dec09 w
  else if w.extractLsb' 24 8 = 0x8A#8 then dec0A w
  else if w.extractLsb' 24 8 = 0x8B#8 then dec0B w
  else if w.extractLsb' 24 8 = 0x8C#8 then dec0C w
  else if w.extractLsb' 24 8 = 0x90#8 then dec10 w
  else if w.extractLsb' 24 8 = 0x91#8 then dec11 w
  else if w.extractLsb' 24 8 = 0x92#8 then dec12 w
  else if w.extractLsb' 24 8 = 0x93#8 then dec13 w
  else if w.extractLsb' 24 8 = 0x94#8 then dec14 w
  else if w.extractLsb' 24 8 = 0x95#8 then dec15 w
  else if w.extractLsb' 24 8 = 0x96#8 then dec16 w
  else if w.extractLsb' 24 8 = 0x97#8 then dec17 w
  else if w.extractLsb' 24 8 = 0x98#8 then dec18 w
  else if w.extractLsb' 24 8 = 0xA0#8 then dec20 w
  else if w.extractLsb' 24 8 = 0xA1#8 then dec21 w
  else if w.extractLsb' 24 8 = 0xA2#8 then dec22 w
  else if w.extractLsb' 24 8 = 0xA3#8 then dec23 w
  else if w.extractLsb' 24 8 = 0xA4#8 then dec24 w
  else if w.extractLsb' 24 8 = 0xA5#8 then dec25 w
  else if w.extractLsb' 24 8 = 0xB0#8 then dec30 w
  else if w.extractLsb' 24 8 = 0xB1#8 then dec31 w
  else if w.extractLsb' 24 8 = 0xB2#8 then dec32 w
  else if w.extractLsb' 24 8 = 0xB3#8 then dec33 w
  else if w.extractLsb' 24 8 = 0xB4#8 then dec34 w
  else if w.extractLsb' 24 8 = 0xB5#8 then dec35 w
  else if w.extractLsb' 24 8 = 0xB6#8 then dec36 w
  else if w.extractLsb' 24 8 = 0xB7#8 then dec37 w
  else if w.extractLsb' 24 8 = 0xB8#8 then dec38 w
  else if w.extractLsb' 24 8 = 0xB9#8 then dec39 w
  else if w.extractLsb' 24 8 = 0xBA#8 then dec3A w
  else if w.extractLsb' 24 8 = 0xBB#8 then dec3B w
  else if w.extractLsb' 24 8 = 0xBC#8 then dec3C w
  else if w.extractLsb' 24 8 = 0xBD#8 then dec3D w
  else if w.extractLsb' 24 8 = 0xBE#8 then d3E w
  else if w.extractLsb' 24 8 = 0xBF#8 then d3F w
  else if w.extractLsb' 24 8 = 0xC0#8 then dec40 w
  else if w.extractLsb' 24 8 = 0xC1#8 then dec41 w
  else if w.extractLsb' 24 8 = 0xC2#8 then dec42 w
  else if w.extractLsb' 24 8 = 0xC3#8 then dec43 w
  else if w.extractLsb' 24 8 = 0xC4#8 then dec44 w
  else if w.extractLsb' 24 8 = 0xC5#8 then dec45 w
  else if w.extractLsb' 24 8 = 0xC6#8 then dec46 w
  else if w.extractLsb' 24 8 = 0xD0#8 then dec50 w
  else if w.extractLsb' 24 8 = 0xD1#8 then dec51 w
  else if w.extractLsb' 24 8 = 0xD2#8 then dec52 w
  else if w.extractLsb' 24 8 = 0xD3#8 then dec53 w
  else if w.extractLsb' 24 8 = 0xD4#8 then dec54 w
  else if w.extractLsb' 24 8 = 0xD5#8 then dec55 w
  else if w.extractLsb' 24 8 = 0xD6#8 then dec56 w
  else if w.extractLsb' 24 8 = 0xD7#8 then dec57 w
  else if w.extractLsb' 24 8 = 0xE0#8 then dec60 w
  else if w.extractLsb' 24 8 = 0xE1#8 then dec61 w
  else if w.extractLsb' 24 8 = 0xE2#8 then dec62 w
  else if w.extractLsb' 24 8 = 0xE3#8 then dec63 w
  else if w.extractLsb' 24 8 = 0xE8#8 then dec68 w
  else if w.extractLsb' 24 8 = 0xE9#8 then dec69 w
  else if w.extractLsb' 24 8 = 0xEA#8 then dec6A w
  else if w.extractLsb' 24 8 = 0xEB#8 then dec6B w
  else if w.extractLsb' 24 8 = 0xEC#8 then dec6C w
  else if w.extractLsb' 24 8 = 0xF0#8 then dec70 w
  else if w.extractLsb' 24 8 = 0xF1#8 then dec71 w
  else if w.extractLsb' 24 8 = 0xF2#8 then dec72 w
  else if w.extractLsb' 24 8 = 0xF3#8 then dec73 w
  else if w.extractLsb' 24 8 = 0xF4#8 then dec74 w
  else if w.extractLsb' 24 8 = 0xF5#8 then dec75 w
  else if w.extractLsb' 24 8 = 0xF6#8 then dec76 w
  else if w.extractLsb' 27 5 = 0x1F#5 then dHint w
  else none

/-- A 32-bit word before the conditions of WellFormed. -/
noncomputable def decodeRaw32 (w : BitVec 32) : Option Instr := 
  decodeMajor (dec3EBy decObjdrop) (dec3FBy decWdrop) decHint w

/-- A compact instruction by its opcode, before the conditions of WellFormed (R69, R71). -/
def decodeRaw16 (w : BitVec 16) : Option Instr :=
  if w.extractLsb' 11 5 = 1#5 ∧ w.extractLsb' 0 3 = 0#3 then some (.movC (w.extractLsb' 7 4) (w.extractLsb' 3 4))
  else if w.extractLsb' 11 5 = 1#5 ∧ w.extractLsb' 0 3 = 1#3 then some (.addC (w.extractLsb' 7 4) (w.extractLsb' 3 4))
  else if w.extractLsb' 11 5 = 1#5 ∧ w.extractLsb' 0 3 = 2#3 then some (.subC (w.extractLsb' 7 4) (w.extractLsb' 3 4))
  else if w.extractLsb' 11 5 = 1#5 ∧ w.extractLsb' 0 3 = 3#3 then some (.andC (w.extractLsb' 7 4) (w.extractLsb' 3 4))
  else if w.extractLsb' 11 5 = 1#5 ∧ w.extractLsb' 0 3 = 4#3 then some (.orC (w.extractLsb' 7 4) (w.extractLsb' 3 4))
  else if w.extractLsb' 11 5 = 1#5 ∧ w.extractLsb' 0 3 = 5#3 then some (.xorC (w.extractLsb' 7 4) (w.extractLsb' 3 4))
  else if w.extractLsb' 11 5 = 1#5 ∧ w.extractLsb' 0 3 = 6#3 then some (.sllC (w.extractLsb' 7 4) (w.extractLsb' 3 4))
  else if w.extractLsb' 11 5 = 1#5 ∧ w.extractLsb' 0 3 = 7#3 then some (.srlC (w.extractLsb' 7 4) (w.extractLsb' 3 4))
  else if w.extractLsb' 11 5 = 2#5 then some (.addiC (w.extractLsb' 7 4) (w.extractLsb' 0 7))
  else if w.extractLsb' 11 5 = 3#5 then some (.liC (w.extractLsb' 7 4) (w.extractLsb' 0 7))
  else if w.extractLsb' 11 5 = 4#5 ∧ w.extractLsb' 5 2 = 0#2 then some (.slliC (w.extractLsb' 7 4) (w.extractLsb' 0 5))
  else if w.extractLsb' 11 5 = 4#5 ∧ w.extractLsb' 5 2 = 1#2 then some (.srliC (w.extractLsb' 7 4) (w.extractLsb' 0 5))
  else if w.extractLsb' 11 5 = 4#5 ∧ w.extractLsb' 5 2 = 2#2 then some (.sraiC (w.extractLsb' 7 4) (w.extractLsb' 0 5))
  else if w.extractLsb' 11 5 = 5#5 then some (.ldC (w.extractLsb' 7 4) (w.extractLsb' 3 4) (w.extractLsb' 0 3))
  else if w.extractLsb' 11 5 = 6#5 then some (.stC (w.extractLsb' 7 4) (w.extractLsb' 3 4) (w.extractLsb' 0 3))
  else if w.extractLsb' 11 5 = 7#5 then some (.beqzC (w.extractLsb' 7 4) (w.extractLsb' 0 7))
  else if w.extractLsb' 11 5 = 8#5 then some (.bnezC (w.extractLsb' 7 4) (w.extractLsb' 0 7))
  else if w.extractLsb' 11 5 = 9#5 then some (.jC (w.extractLsb' 0 11))
  else if w.extractLsb' 11 5 = 10#5 ∧ w.extractLsb' 0 7 = 0#7 then some (.jrC (w.extractLsb' 7 4))
  else if w.extractLsb' 11 5 = 14#5 ∧ w.extractLsb' 0 4 = 0#4 then some (.fmt (w.extractLsb' 7 4) (w.extractLsb' 4 3))
  else none

/-- The instruction a 32-bit word stands for, none where it carries ILLEGAL (R76). -/
noncomputable def decode32 (w : BitVec 32) : Option Instr :=
  match decodeRaw32 w with
  | some i => if i.wf then some i else none
  | none => none

/-- The instruction a halfword with bit 15 clear stands for, none where it carries ILLEGAL (R76, R77). -/
def decode16 (w : BitVec 16) : Option Instr :=
  match decodeRaw16 w with
  | some i => if i.wf then some i else none
  | none => none

/-- The instruction a code word stands for. -/
noncomputable def decode : Code → Option Instr
  | .c16 w => decode16 w
  | .c32 w => decode32 w

/-- The word of an instruction; the events of the part have none. -/
def encode : Instr → Option Code
  | .add d a m b n => some (.c32 (cat 0x81#8 (cat d (cat a (cat m (cat b (cat n 0#5)))))))
  | .sub d a m b n => some (.c32 (cat 0x81#8 (cat d (cat a (cat m (cat b (cat n 1#5)))))))
  | .and d a m b n => some (.c32 (cat 0x81#8 (cat d (cat a (cat m (cat b (cat n 2#5)))))))
  | .or d a m b n => some (.c32 (cat 0x81#8 (cat d (cat a (cat m (cat b (cat n 3#5)))))))
  | .xor d a m b n => some (.c32 (cat 0x81#8 (cat d (cat a (cat m (cat b (cat n 4#5)))))))
  | .andn d a m b n => some (.c32 (cat 0x81#8 (cat d (cat a (cat m (cat b (cat n 5#5)))))))
  | .sll d a m b n => some (.c32 (cat 0x81#8 (cat d (cat a (cat m (cat b (cat n 6#5)))))))
  | .srl d a m b n => some (.c32 (cat 0x81#8 (cat d (cat a (cat m (cat b (cat n 7#5)))))))
  | .sra d a m b n => some (.c32 (cat 0x81#8 (cat d (cat a (cat m (cat b (cat n 8#5)))))))
  | .mul d a m b n => some (.c32 (cat 0x81#8 (cat d (cat a (cat m (cat b (cat n 9#5)))))))
  | .mulh d a m b n => some (.c32 (cat 0x81#8 (cat d (cat a (cat m (cat b (cat n 10#5)))))))
  | .mulhu d a m b n => some (.c32 (cat 0x81#8 (cat d (cat a (cat m (cat b (cat n 11#5)))))))
  | .min d a m b n => some (.c32 (cat 0x81#8 (cat d (cat a (cat m (cat b (cat n 12#5)))))))
  | .max d a m b n => some (.c32 (cat 0x81#8 (cat d (cat a (cat m (cat b (cat n 13#5)))))))
  | .minu d a m b n => some (.c32 (cat 0x81#8 (cat d (cat a (cat m (cat b (cat n 14#5)))))))
  | .maxu d a m b n => some (.c32 (cat 0x81#8 (cat d (cat a (cat m (cat b (cat n 15#5)))))))
  | .addw d a m b n => some (.c32 (cat 0x81#8 (cat d (cat a (cat m (cat b (cat n 16#5)))))))
  | .subw d a m b n => some (.c32 (cat 0x81#8 (cat d (cat a (cat m (cat b (cat n 17#5)))))))
  | .sextb d a m => some (.c32 (cat 0x81#8 (cat d (cat a (cat m 18#12)))))
  | .sexth d a m => some (.c32 (cat 0x81#8 (cat d (cat a (cat m 19#12)))))
  | .sextw d a m => some (.c32 (cat 0x81#8 (cat d (cat a (cat m 20#12)))))
  | .zextb d a m => some (.c32 (cat 0x81#8 (cat d (cat a (cat m 21#12)))))
  | .zexth d a m => some (.c32 (cat 0x81#8 (cat d (cat a (cat m 22#12)))))
  | .zextw d a m => some (.c32 (cat 0x81#8 (cat d (cat a (cat m 23#12)))))
  | .clz d a m => some (.c32 (cat 0x81#8 (cat d (cat a (cat m 24#12)))))
  | .popc d a m => some (.c32 (cat 0x81#8 (cat d (cat a (cat m 25#12)))))
  | .cmp d a m b n c => some (.c32 (cat 0x82#8 (cat d (cat a (cat m (cat b (cat n (cat 0#2 c))))))))
  | .sel d a m b n => some (.c32 (cat 0x82#8 (cat d (cat a (cat m (cat b (cat n 16#5)))))))
  | .div d a m b n => some (.c32 (cat 0x83#8 (cat d (cat a (cat m (cat b (cat n 0#5)))))))
  | .rem d a m b n => some (.c32 (cat 0x83#8 (cat d (cat a (cat m (cat b (cat n 1#5)))))))
  | .divu d a m b n => some (.c32 (cat 0x83#8 (cat d (cat a (cat m (cat b (cat n 2#5)))))))
  | .remu d a m b n => some (.c32 (cat 0x83#8 (cat d (cat a (cat m (cat b (cat n 3#5)))))))
  | .divw d a m b n => some (.c32 (cat 0x83#8 (cat d (cat a (cat m (cat b (cat n 4#5)))))))
  | .remw d a m b n => some (.c32 (cat 0x83#8 (cat d (cat a (cat m (cat b (cat n 5#5)))))))
  | .divuw d a m b n => some (.c32 (cat 0x83#8 (cat d (cat a (cat m (cat b (cat n 6#5)))))))
  | .remuw d a m b n => some (.c32 (cat 0x83#8 (cat d (cat a (cat m (cat b (cat n 7#5)))))))
  | .addi d a m i => some (.c32 (cat 0x84#8 (cat d (cat a (cat m i)))))
  | .andi d a m i => some (.c32 (cat 0x85#8 (cat d (cat a (cat m i)))))
  | .ori d a m i => some (.c32 (cat 0x86#8 (cat d (cat a (cat m i)))))
  | .xori d a m i => some (.c32 (cat 0x87#8 (cat d (cat a (cat m i)))))
  | .slli d a m s => some (.c32 (cat 0x88#8 (cat d (cat a (cat m (cat 0#6 s))))))
  | .srli d a m s => some (.c32 (cat 0x88#8 (cat d (cat a (cat m (cat 16#6 s))))))
  | .srai d a m s => some (.c32 (cat 0x88#8 (cat d (cat a (cat m (cat 32#6 s))))))
  | .cmpi d a m c i => some (.c32 (cat 0x89#8 (cat d (cat a (cat m (cat c i))))))
  | .li d i => some (.c32 (cat 0x8A#8 (cat d i)))
  | .lix d i => some (.c32 (cat 0x8B#8 (cat d i)))
  | .addpc d i => some (.c32 (cat 0x8C#8 (cat d i)))
  | .br c a b o => some (.c32 (cat 0x90#8 (cat c (cat a (cat b o)))))
  | .j o => some (.c32 (cat 0x91#8 o))
  | .call o => some (.c32 (cat 0x92#8 o))
  | .jr d a m i => some (.c32 (cat 0x93#8 (cat d (cat a (cat m i)))))
  | .blkmv d a b => some (.c32 (cat 0x94#8 (cat d (cat a (cat 0#2 (cat b 0#7))))))
  | .blkset d a b => some (.c32 (cat 0x94#8 (cat d (cat a (cat 0#2 (cat b 1#7))))))
  | .repn d => some (.c32 (cat 0x95#8 (cat d 0#19)))
  | .crr d n => some (.c32 (cat 0x96#8 (cat d (cat 0#7 n))))
  | .cwr s n => some (.c32 (cat 0x96#8 (cat 1#7 (cat s n))))
  | .mkempty d => some (.c32 (cat 0x97#8 (cat d 0#19)))
  | .rstate d s => some (.c32 (cat 0x97#8 (cat d (cat 1#2 (cat s 0#12)))))
  | .nop => some (.c32 (cat 0x98#8 0#24))
  | .trap c => some (.c32 (cat 0x98#8 (cat 2#8 c)))
  | .brk c => some (.c32 (cat 0x98#8 (cat 4#8 c)))
  | .fadd d a m b n => some (.c32 (cat 0xA0#8 (cat d (cat a (cat m (cat b (cat n 0#5)))))))
  | .fsub d a m b n => some (.c32 (cat 0xA0#8 (cat d (cat a (cat m (cat b (cat n 1#5)))))))
  | .fmul d a m b n => some (.c32 (cat 0xA0#8 (cat d (cat a (cat m (cat b (cat n 2#5)))))))
  | .fmin d a m b n => some (.c32 (cat 0xA0#8 (cat d (cat a (cat m (cat b (cat n 3#5)))))))
  | .fmax d a m b n => some (.c32 (cat 0xA0#8 (cat d (cat a (cat m (cat b (cat n 4#5)))))))
  | .fabs d a m => some (.c32 (cat 0xA0#8 (cat d (cat a (cat m 5#12)))))
  | .fneg d a m => some (.c32 (cat 0xA0#8 (cat d (cat a (cat m 6#12)))))
  | .fma d a m b n => some (.c32 (cat 0xA1#8 (cat d (cat a (cat m (cat b (cat n 0#5)))))))
  | .fmsub d a m b n => some (.c32 (cat 0xA1#8 (cat d (cat a (cat m (cat b (cat n 1#5)))))))
  | .fnma d a m b n => some (.c32 (cat 0xA1#8 (cat d (cat a (cat m (cat b (cat n 2#5)))))))
  | .fnms d a m b n => some (.c32 (cat 0xA1#8 (cat d (cat a (cat m (cat b (cat n 3#5)))))))
  | .fdiv d a m b n => some (.c32 (cat 0xA2#8 (cat d (cat a (cat m (cat b (cat n 0#5)))))))
  | .fsqrt d a m => some (.c32 (cat 0xA2#8 (cat d (cat a (cat m 1#12)))))
  | .fcmp d a m b n c => some (.c32 (cat 0xA3#8 (cat d (cat a (cat m (cat b (cat n (cat 0#3 c))))))))
  | .fclass d a m => some (.c32 (cat 0xA3#8 (cat d (cat a (cat m 16#12)))))
  | .cvt d a m e s => some (.c32 (cat 0xA4#8 (cat d (cat a (cat m (cat 0#1 (cat e (cat 0#3 s))))))))
  | .cvtd d a m e p s => some (.c32 (cat 0xA5#8 (cat d (cat a (cat m (cat 0#1 (cat e (cat p (cat 0#1 s)))))))))
  | .ld t b m h o => some (.c32 (cat 0xB0#8 (cat t (cat b (cat m (cat h o))))))
  | .ldw t b m h o => some (.c32 (cat 0xB1#8 (cat t (cat b (cat m (cat h o))))))
  | .ldh t b m h o => some (.c32 (cat 0xB2#8 (cat t (cat b (cat m (cat h o))))))
  | .ldb t b m h o => some (.c32 (cat 0xB3#8 (cat t (cat b (cat m (cat h o))))))
  | .st t b m h o => some (.c32 (cat 0xB4#8 (cat t (cat b (cat m (cat h o))))))
  | .stw t b m h o => some (.c32 (cat 0xB5#8 (cat t (cat b (cat m (cat h o))))))
  | .sth t b m h o => some (.c32 (cat 0xB6#8 (cat t (cat b (cat m (cat h o))))))
  | .stb t b m h o => some (.c32 (cat 0xB7#8 (cat t (cat b (cat m (cat h o))))))
  | .ldNc t b m h o => some (.c32 (cat 0xB8#8 (cat t (cat b (cat m (cat h o))))))
  | .ldA t b m h o => some (.c32 (cat 0xB9#8 (cat t (cat b (cat m (cat h o))))))
  | .vld v b m h o => some (.c32 (cat 0xBA#8 (cat v (cat 0#1 (cat b (cat m (cat h o)))))))
  | .vldNc v b m h o => some (.c32 (cat 0xBA#8 (cat v (cat 1#1 (cat b (cat m (cat h o)))))))
  | .vst v b m h o => some (.c32 (cat 0xBB#8 (cat v (cat 0#1 (cat b (cat m (cat h o)))))))
  | .amoswap d a s w h f => some (.c32 (cat 0xBC#8 (cat d (cat a (cat s (cat w (cat 0#4 (cat h f))))))))
  | .amoadd d a s w h f => some (.c32 (cat 0xBC#8 (cat d (cat a (cat s (cat w (cat 1#4 (cat h f))))))))
  | .amoand d a s w h f => some (.c32 (cat 0xBC#8 (cat d (cat a (cat s (cat w (cat 2#4 (cat h f))))))))
  | .amoor d a s w h f => some (.c32 (cat 0xBC#8 (cat d (cat a (cat s (cat w (cat 3#4 (cat h f))))))))
  | .amoxor d a s w h f => some (.c32 (cat 0xBC#8 (cat d (cat a (cat s (cat w (cat 4#4 (cat h f))))))))
  | .amomin d a s w h f => some (.c32 (cat 0xBC#8 (cat d (cat a (cat s (cat w (cat 5#4 (cat h f))))))))
  | .amomax d a s w h f => some (.c32 (cat 0xBC#8 (cat d (cat a (cat s (cat w (cat 6#4 (cat h f))))))))
  | .amominu d a s w h f => some (.c32 (cat 0xBC#8 (cat d (cat a (cat s (cat w (cat 7#4 (cat h f))))))))
  | .amomaxu d a s w h f => some (.c32 (cat 0xBC#8 (cat d (cat a (cat s (cat w (cat 8#4 (cat h f))))))))
  | .cas d a s w h f => some (.c32 (cat 0xBC#8 (cat d (cat a (cat s (cat w (cat 9#4 (cat h f))))))))
  | .ldAcq d a s e h => some (.c32 (cat 0xBD#8 (cat d (cat a (cat s (cat e (cat h 0#2)))))))
  | .stRel d a s e h => some (.c32 (cat 0xBD#8 (cat d (cat a (cat s (cat e (cat h 1#2)))))))
  | .vlds v a b h => some (.c32 (cat 0xBD#8 (cat v (cat 0#1 (cat a (cat 0#3 (cat b (cat h 2#2))))))))
  | .vsts v a b h => some (.c32 (cat 0xBD#8 (cat v (cat 0#1 (cat a (cat 0#3 (cat b (cat h 3#2))))))))
  | .fenceAcq s => some (.c32 (cat 0xBE#8 (cat 0#10 (cat s 3#11))))
  | .fenceAcqInv s => some (.c32 (cat 0xBE#8 (cat 0#10 (cat s 67#11))))
  | .fenceRel s => some (.c32 (cat 0xBE#8 (cat 0#10 (cat s 131#11))))
  | .fenceFull s => some (.c32 (cat 0xBE#8 (cat 0#10 (cat s 195#11))))
  | .drain => some (.c32 (cat 0xBE#8 259#24))
  | .ffence => some (.c32 (cat 0xBE#8 323#24))
  | .objdecl d a h => some (.c32 (cat 0xBE#8 (cat d (cat a (cat 6#8 (cat h 3#2))))))
  | .objdrop d => some (.c32 (cat 0xBE#8 (cat d 451#19)))
  | .ldv d a s b h => some (.c32 (cat 0xBE#8 (cat d (cat a (cat s (cat b (cat h 0#2)))))))
  | .stv d a s h => some (.c32 (cat 0xBE#8 (cat d (cat a (cat s (cat 0#5 (cat h 1#2)))))))
  | .vrecl d a h => some (.c32 (cat 0xBE#8 (cat d (cat a (cat 0#8 (cat h 2#2))))))
  | .wrec d a b h => some (.c32 (cat 0xBF#8 (cat d (cat a (cat 0#3 (cat b (cat h 0#2)))))))
  | .wplay d b => some (.c32 (cat 0xBF#8 (cat d (cat 1#8 (cat b 0#6)))))
  | .wend d => some (.c32 (cat 0xBF#8 (cat d 4096#19)))
  | .wstat d b => some (.c32 (cat 0xBF#8 (cat d (cat 3#8 (cat b 0#6)))))
  | .wdrop d b => some (.c32 (cat 0xBF#8 (cat d (cat 4#8 (cat b 0#6)))))
  | .done => some (.c32 (cat 0xC0#8 0#24))
  | .send d a m b n => some (.c32 (cat 0xC1#8 (cat d (cat a (cat m (cat b (cat n 0#5)))))))
  | .sendh d a m b n => some (.c32 (cat 0xC2#8 (cat d (cat a (cat m (cat b (cat n 0#5)))))))
  | .sendnz h v p s => some (.c32 (cat 0xC3#8 (cat h (cat v (cat p (cat s 0#9))))))
  | .spawn d a m b n => some (.c32 (cat 0xC4#8 (cat d (cat a (cat m (cat b (cat n 0#5)))))))
  | .pusht d a m b n => some (.c32 (cat 0xC5#8 (cat d (cat a (cat m (cat b (cat n 0#5)))))))
  | .qstat d q => some (.c32 (cat 0xC6#8 (cat d (cat 0#16 q))))
  | .grpq d s => some (.c32 (cat 0xC6#8 (cat d (cat 1#2 (cat s 0#12)))))
  | .grpqM d s => some (.c32 (cat 0xC6#8 (cat d (cat 1#2 (cat s 1#12)))))
  | .qpri d s => some (.c32 (cat 0xC6#8 (cat d (cat 2#2 (cat s 0#12)))))
  | .vfadd d a b c => some (.c32 (cat 0xD0#8 (cat d (cat a (cat b (cat 0#3 (cat c 0#6)))))))
  | .vfsub d a b c => some (.c32 (cat 0xD0#8 (cat d (cat a (cat b (cat 0#3 (cat c 1#6)))))))
  | .vfmul d a b c => some (.c32 (cat 0xD0#8 (cat d (cat a (cat b (cat 0#3 (cat c 2#6)))))))
  | .vfma d a b c => some (.c32 (cat 0xD0#8 (cat d (cat a (cat b (cat 0#3 (cat c 3#6)))))))
  | .vfmin d a b c => some (.c32 (cat 0xD0#8 (cat d (cat a (cat b (cat 0#3 (cat c 4#6)))))))
  | .vfmax d a b c => some (.c32 (cat 0xD0#8 (cat d (cat a (cat b (cat 0#3 (cat c 5#6)))))))
  | .vfabs d a => some (.c32 (cat 0xD0#8 (cat d (cat a 6#16))))
  | .vfneg d a => some (.c32 (cat 0xD0#8 (cat d (cat a 7#16))))
  | .vadd d a b c => some (.c32 (cat 0xD1#8 (cat d (cat a (cat b (cat 0#3 (cat c 0#6)))))))
  | .vsub d a b c => some (.c32 (cat 0xD1#8 (cat d (cat a (cat b (cat 0#3 (cat c 1#6)))))))
  | .vmul d a b c => some (.c32 (cat 0xD1#8 (cat d (cat a (cat b (cat 0#3 (cat c 2#6)))))))
  | .vmin d a b c => some (.c32 (cat 0xD1#8 (cat d (cat a (cat b (cat 0#3 (cat c 3#6)))))))
  | .vmax d a b c => some (.c32 (cat 0xD1#8 (cat d (cat a (cat b (cat 0#3 (cat c 4#6)))))))
  | .vand d a b c => some (.c32 (cat 0xD1#8 (cat d (cat a (cat b (cat 0#3 (cat c 5#6)))))))
  | .vor d a b c => some (.c32 (cat 0xD1#8 (cat d (cat a (cat b (cat 0#3 (cat c 6#6)))))))
  | .vxor d a b c => some (.c32 (cat 0xD1#8 (cat d (cat a (cat b (cat 0#3 (cat c 7#6)))))))
  | .vsll d a b c => some (.c32 (cat 0xD1#8 (cat d (cat a (cat b (cat 0#3 (cat c 8#6)))))))
  | .vsrl d a b c => some (.c32 (cat 0xD1#8 (cat d (cat a (cat b (cat 0#3 (cat c 9#6)))))))
  | .vsra d a b c => some (.c32 (cat 0xD1#8 (cat d (cat a (cat b (cat 0#3 (cat c 10#6)))))))
  | .vadds d a b c => some (.c32 (cat 0xD1#8 (cat d (cat a (cat b (cat 0#3 (cat c 11#6)))))))
  | .vsubs d a b c => some (.c32 (cat 0xD1#8 (cat d (cat a (cat b (cat 0#3 (cat c 12#6)))))))
  | .vfcmp d a b c k => some (.c32 (cat 0xD2#8 (cat d (cat a (cat b (cat 0#3 (cat c (cat 0#4 k))))))))
  | .vicmp d a b c k => some (.c32 (cat 0xD2#8 (cat d (cat a (cat b (cat 0#3 (cat c (cat 1#3 k))))))))
  | .vsel d a b c => some (.c32 (cat 0xD2#8 (cat d (cat a (cat b (cat 0#3 (cat c 16#6)))))))
  | .vperm d a b => some (.c32 (cat 0xD3#8 (cat d (cat a (cat b 0#12)))))
  | .vbcast d s => some (.c32 (cat 0xD3#8 (cat d (cat 0#4 (cat s 1#12)))))
  | .vbcastl d a l => some (.c32 (cat 0xD3#8 (cat d (cat a (cat 0#4 (cat l 2#6))))))
  | .vrot d a l => some (.c32 (cat 0xD3#8 (cat d (cat a (cat 0#4 (cat l 3#6))))))
  | .vrsum d a s => some (.c32 (cat 0xD4#8 (cat d (cat a (cat 0#4 (cat s 0#9))))))
  | .vrmax d a s => some (.c32 (cat 0xD4#8 (cat d (cat a (cat 0#4 (cat s 1#9))))))
  | .vrmin d a s => some (.c32 (cat 0xD4#8 (cat d (cat a (cat 0#4 (cat s 2#9))))))
  | .vrisum d a s => some (.c32 (cat 0xD4#8 (cat d (cat a (cat 0#4 (cat s 8#9))))))
  | .vrisums d a s => some (.c32 (cat 0xD4#8 (cat d (cat a (cat 0#4 (cat s 9#9))))))
  | .vrimax d a s => some (.c32 (cat 0xD4#8 (cat d (cat a (cat 0#4 (cat s 10#9))))))
  | .vrimin d a s => some (.c32 (cat 0xD4#8 (cat d (cat a (cat 0#4 (cat s 11#9))))))
  | .vcvt d a p e => some (.c32 (cat 0xD5#8 (cat d (cat a (cat 0#4 (cat p (cat 0#5 e)))))))
  | .vcvtd d a p o e => some (.c32 (cat 0xD5#8 (cat d (cat a (cat 0#4 (cat p (cat o (cat 1#3 e))))))))
  | .vcvtS d a b p o e => some (.c32 (cat 0xD5#8 (cat d (cat a (cat b (cat p (cat o (cat 2#3 e))))))))
  | .vcvtdS d a b p o e => some (.c32 (cat 0xD5#8 (cat d (cat a (cat b (cat p (cat o (cat 3#3 e))))))))
  | .vrcp d a => some (.c32 (cat 0xD6#8 (cat d (cat a 0#16))))
  | .vrsqrt d a => some (.c32 (cat 0xD6#8 (cat d (cat a 1#16))))
  | .vexp2 d a => some (.c32 (cat 0xD6#8 (cat d (cat a 2#16))))
  | .vlog2 d a => some (.c32 (cat 0xD6#8 (cat d (cat a 3#16))))
  | .vtanh d a => some (.c32 (cat 0xD6#8 (cat d (cat a 4#16))))
  | .vsigm d a => some (.c32 (cat 0xD6#8 (cat d (cat a 5#16))))
  | .vfdiv d a b => some (.c32 (cat 0xD6#8 (cat d (cat a (cat b 6#12)))))
  | .vfsqrt d a => some (.c32 (cat 0xD6#8 (cat d (cat a 7#16))))
  | .vins d s l => some (.c32 (cat 0xD7#8 (cat d (cat 0#4 (cat s (cat l 0#6))))))
  | .vext d a l => some (.c32 (cat 0xD7#8 (cat d (cat a (cat 0#4 (cat l 1#6))))))
  | .xlease => some (.c32 (cat 0xE0#8 0#24))
  | .xfree a => some (.c32 (cat 0xE0#8 (cat 0#3 (cat a 1#16))))
  | .xcfg a => some (.c32 (cat 0xE0#8 (cat 0#3 (cat a 2#16))))
  | .xcfgTab a => some (.c32 (cat 0xE0#8 (cat 0#3 (cat a 3#16))))
  | .xwait => some (.c32 (cat 0xE0#8 4#24))
  | .xstat c a => some (.c32 (cat 0xE0#8 (cat c (cat a 5#16))))
  | .xstatClr c a => some (.c32 (cat 0xE0#8 (cat c (cat a 6#16))))
  | .xlda a b r => some (.c32 (cat 0xE1#8 (cat 0#3 (cat a (cat b (cat 0#3 (cat r 0#6)))))))
  | .xldb a b r => some (.c32 (cat 0xE1#8 (cat 0#3 (cat a (cat b (cat 1#3 (cat r 0#6)))))))
  | .xldsa a r => some (.c32 (cat 0xE1#8 (cat 0#3 (cat a (cat 2#8 (cat r 0#6))))))
  | .xldsb a r => some (.c32 (cat 0xE1#8 (cat 0#3 (cat a (cat 3#8 (cat r 0#6))))))
  | .xunf a => some (.c32 (cat 0xE1#8 (cat 0#3 (cat a 1024#16))))
  | .xmma c m n => some (.c32 (cat 0xE2#8 (cat c (cat 0#11 (cat m (cat n 0#6))))))
  | .xcmma c m n => some (.c32 (cat 0xE2#8 (cat c (cat 1#11 (cat m (cat n 0#6))))))
  | .xzero c => some (.c32 (cat 0xE3#8 (cat c 0#21)))
  | .xzeroF c v => some (.c32 (cat 0xE3#8 (cat c (cat 0#6 (cat v 512#11)))))
  | .xzeroI c v => some (.c32 (cat 0xE3#8 (cat c (cat 0#6 (cat v 1024#11)))))
  | .xdrn c a b f p k r => some (.c32 (cat 0xE3#8 (cat c (cat a (cat b (cat 3#2 (cat f (cat p (cat k (cat r 0#1))))))))))
  | .cpy d a m => some (.c32 (cat 0xE8#8 (cat d (cat a (cat m 0#12)))))
  | .cpyNb d a m => some (.c32 (cat 0xE8#8 (cat d (cat a (cat m 1#12)))))
  | .cpyst d s => some (.c32 (cat 0xE8#8 (cat d (cat 0#7 (cat s 2#7)))))
  | .gather d a m b n => some (.c32 (cat 0xE9#8 (cat d (cat a (cat m (cat b (cat n 0#5)))))))
  | .rainit a m b n => some (.c32 (cat 0xEA#8 (cat 0#5 (cat a (cat m (cat b (cat n 0#5)))))))
  | .rawait d a m b n => some (.c32 (cat 0xEA#8 (cat d (cat a (cat m (cat b (cat n 1#5)))))))
  | .rarel a m => some (.c32 (cat 0xEA#8 (cat 0#5 (cat a (cat m 2#12)))))
  | .barinit a m b n => some (.c32 (cat 0xEB#8 (cat 0#5 (cat a (cat m (cat b (cat n 0#5)))))))
  | .bararr a m b n => some (.c32 (cat 0xEB#8 (cat 0#5 (cat a (cat m (cat b (cat n 1#5)))))))
  | .barxb a m b n => some (.c32 (cat 0xEB#8 (cat 0#5 (cat a (cat m (cat b (cat n 2#5)))))))
  | .barwait a m b n => some (.c32 (cat 0xEB#8 (cat 0#5 (cat a (cat m (cat b (cat n 3#5)))))))
  | .seqwait a m b n => some (.c32 (cat 0xEC#8 (cat 0#5 (cat a (cat m (cat b (cat n 0#5)))))))
  | .tret => some (.c32 (cat 0xF0#8 0#24))
  | .sleep s => some (.c32 (cat 0xF0#8 (cat s 131072#19)))
  | .halt => some (.c32 (cat 0xF0#8 262144#24))
  | .killctx d a m => some (.c32 (cat 0xF1#8 (cat d (cat a (cat m 0#12)))))
  | .tlbi a m b n => some (.c32 (cat 0xF2#8 (cat 0#5 (cat a (cat m (cat b (cat n 0#5)))))))
  | .tlbsync => some (.c32 (cat 0xF2#8 1#24))
  | .watch m n h s => some (.c32 (cat 0xF3#8 (cat m (cat 0#2 (cat n (cat h (cat s 0#6)))))))
  | .sstepOff => some (.c32 (cat 0xF3#8 131072#24))
  | .sstepOn => some (.c32 (cat 0xF3#8 131073#24))
  | .sstepOnce => some (.c32 (cat 0xF3#8 131075#24))
  | .snap d => some (.c32 (cat 0xF3#8 (cat d 262144#19)))
  | .gust d s => some (.c32 (cat 0xF4#8 (cat d (cat 0#2 (cat s 0#12)))))
  | .gustT d s => some (.c32 (cat 0xF4#8 (cat d (cat 0#2 (cat s 1#12)))))
  | .gustrel d => some (.c32 (cat 0xF4#8 (cat d 131072#19)))
  | .qread d s => some (.c32 (cat 0xF4#8 (cat d (cat 32768#16 s))))
  | .xred d a m => some (.c32 (cat 0xF5#8 (cat d (cat a (cat m 0#12)))))
  | .coll d a m => some (.c32 (cat 0xF5#8 (cat d (cat a (cat m 1#12)))))
  | .cwait d a m b n => some (.c32 (cat 0xF5#8 (cat d (cat a (cat m (cat b (cat n 2#5)))))))
  | .ramoSwap d a m b n w => some (.c32 (cat 0xF6#8 (cat d (cat a (cat m (cat b (cat n (cat w 0#4))))))))
  | .ramoAdd d a m b n w => some (.c32 (cat 0xF6#8 (cat d (cat a (cat m (cat b (cat n (cat w 1#4))))))))
  | .ramoAnd d a m b n w => some (.c32 (cat 0xF6#8 (cat d (cat a (cat m (cat b (cat n (cat w 2#4))))))))
  | .ramoOr d a m b n w => some (.c32 (cat 0xF6#8 (cat d (cat a (cat m (cat b (cat n (cat w 3#4))))))))
  | .ramoXor d a m b n w => some (.c32 (cat 0xF6#8 (cat d (cat a (cat m (cat b (cat n (cat w 4#4))))))))
  | .ramoMin d a m b n w => some (.c32 (cat 0xF6#8 (cat d (cat a (cat m (cat b (cat n (cat w 5#4))))))))
  | .ramoMax d a m b n w => some (.c32 (cat 0xF6#8 (cat d (cat a (cat m (cat b (cat n (cat w 6#4))))))))
  | .ramoMinu d a m b n w => some (.c32 (cat 0xF6#8 (cat d (cat a (cat m (cat b (cat n (cat w 7#4))))))))
  | .ramoMaxu d a m b n w => some (.c32 (cat 0xF6#8 (cat d (cat a (cat m (cat b (cat n (cat w 8#4))))))))
  | .ramoCas d a m b n w => some (.c32 (cat 0xF6#8 (cat d (cat a (cat m (cat b (cat n (cat w 9#4))))))))
  | .hint o h => some (.c32 (cat 31#5 (cat o h)))
  | .movC d a => some (.c16 (cat 1#5 (cat d (cat a 0#3))))
  | .addC d a => some (.c16 (cat 1#5 (cat d (cat a 1#3))))
  | .subC d a => some (.c16 (cat 1#5 (cat d (cat a 2#3))))
  | .andC d a => some (.c16 (cat 1#5 (cat d (cat a 3#3))))
  | .orC d a => some (.c16 (cat 1#5 (cat d (cat a 4#3))))
  | .xorC d a => some (.c16 (cat 1#5 (cat d (cat a 5#3))))
  | .sllC d a => some (.c16 (cat 1#5 (cat d (cat a 6#3))))
  | .srlC d a => some (.c16 (cat 1#5 (cat d (cat a 7#3))))
  | .addiC d i => some (.c16 (cat 2#5 (cat d i)))
  | .liC d i => some (.c16 (cat 3#5 (cat d i)))
  | .slliC d s => some (.c16 (cat 4#5 (cat d (cat 0#2 s))))
  | .srliC d s => some (.c16 (cat 4#5 (cat d (cat 1#2 s))))
  | .sraiC d s => some (.c16 (cat 4#5 (cat d (cat 2#2 s))))
  | .ldC d a o => some (.c16 (cat 5#5 (cat d (cat a o))))
  | .stC t a o => some (.c16 (cat 6#5 (cat t (cat a o))))
  | .beqzC a o => some (.c16 (cat 7#5 (cat a o)))
  | .bnezC a o => some (.c16 (cat 8#5 (cat a o)))
  | .jC o => some (.c16 (cat 9#5 o))
  | .jrC a => some (.c16 (cat 10#5 (cat a 0#7)))
  | .fmt f r => some (.c16 (cat 14#5 (cat f (cat r 0#4))))
  | .reset => none
  | .fillArrival _ _ _ _ _ => none
  | .deepMissNotice _ _ _ => none
  | .sidingRejoin _ => none
  | .missReturn _ => none
  | .trapEntry _ => none
  | .missSwitch _ => none
  | .asyncEventTaken _ => none
  | .forcedBoundary _ => none
  | .pipeSliceExpiry _ => none
  | .storePerformed _ _ => none
  | .dirtyMerge _ _ _ => none
  | .bankRefresh => none
  | .dispatch _ => none
  | .messageOffer _ _ => none
  | .messageReoffer _ _ => none
  | .hintWalk _ _ => none
  | .spawnRequest _ _ _ => none
  | .childStart _ _ => none
  | .stealProbe _ => none
  | .stealReply _ => none
  | .stealPauseExpiry _ => none
  | .spillMove _ _ => none
  | .startMessage _ => none
  | .launchComplete _ => none
  | .leaseGrant _ => none
  | .leaseClockExpiry _ => none
  | .arrayCommandExecute _ => none
  | .vectorIssue _ => none
  | .seal _ _ => none
  | .pushArrival _ _ => none
  | .pushTimeout _ _ => none
  | .roundClose _ _ => none
  | .engineChunk _ => none
  | .copyOp _ => none
  | .pack _ => none
  | .unpack _ => none
  | .fill _ => none
  | .ringReserve _ => none
  | .gatherRow _ _ _ => none
  | .commandCompletion _ => none
  | .tailPoll _ => none
  | .chainEntryCompletion _ => none
  | .root _ => none
  | .launch _ => none
  | .copy _ => none
  | .wait _ => none
  | .signal _ => none
  | .suspend _ => none
  | .resume _ => none
  | .remove _ => none
  | .window _ => none
  | .logcfg _ => none
  | .flush _ => none
  | .obscfg _ => none
  | .coreSuspend _ => none
  | .taskOverrun _ _ => none
  | .killFlood _ _ => none
  | .sweepEnd _ => none
  | .removalConfirmation _ => none
  | .doldrums _ => none
  | .controlIntervalBoundary _ => none
  | .gustLeaseExpiry _ => none
  | .energyMeterUpdate _ _ _ => none
  | .firmwareBudgetWrite _ _ _ => none
  | .firmwareWatchdog => none
  | .supplySag _ => none
  | .sagClear _ => none
  | .thermalTrip _ => none
  | .thermalRecover _ => none
  | .supplyLossWarning => none
  | .hostWrite _ _ _ => none
  | .chainRegistrationWrite _ _ => none
  | .hostRegisterWrite _ _ => none
  | .remotePacketArrival _ => none
  | .remoteAck _ _ => none
  | .flitReplay _ _ => none
  | .reductionResult _ _ _ => none
  | .collectiveChunk _ _ _ _ => none
  | .logEntryWrite _ => none
  | .isobarSample _ => none
  | .hostFlashTrigger => none
  | .snapshotLatch => none
  | .snapshotCopy => none
  | .breakpointClear _ => none
  | .taskStopWrite _ _ _ => none
  | .arrayCommandCompletion _ => none
  | .sleepExpiry _ _ => none
  | .replayEntryLoad _ _ => none
  | .resumeMessage _ => none
  | .powerFirmwareUpdate _ => none
  | .deviceIdAssignment _ => none
  | .illegalEncoding _ _ => none
  | .fetchBounds _ => none
  | .unknownChainEntryType _ => none

/-- The number of bytes of an instruction: 2 for a compact one, 4 for every other (R62). -/
def Instr.size (i : Instr) : Nat :=
  match encode i with
  | some (.c16 _) => 2
  | _ => 4

/-- The instruction of an opcode-table word: with 32 bits the number is the word as R62 numbers it, the first halfword
in bits 31 to 16; with 16 bits it is the halfword. A first halfword with bit 15 clear is a compact instruction. -/
noncomputable def decodeTableWord (nbits w : Nat) : Option Instr :=
  if nbits = 16 then
    if w.testBit 15 then none else decode16 (BitVec.ofNat 16 w)
  else if nbits = 32 then
    if w.testBit 31 then decode32 (BitVec.ofNat 32 w) else none
  else none

end Sys2Proof
end

