-- ==== Sys2Proof/Machine/Operands.lean ====
section
/-!
DEFINITION. What every instruction does around its own effect: the checks of R79 before it (prefix, mode, banks, source
states), and its retirement (R18 to R20, R29, R36, R72, R112, R357).
-/

namespace Sys2Proof.Machine

/-- A register an instruction names. -/
inductive RegName where
  | g (r : BitVec 5)
  | v (r : BitVec 4)
deriving DecidableEq, Repr

/-- What an entry says of its operands: the general sources with their modes in field order, every register named in
field order, the prefix formats accepted (codes of R37), whether it may be REPN's target, the modes it may be used in,
its size in bytes. -/
structure Form where
  srcs : List (BitVec 5 × BitVec 2) := []
  names : List RegName := []
  fmts : List Nat := []
  rep : Bool := true
  modes : List (BitVec 2) := [taskMode, trapMode, sysMode]
  size : Nat := 4
deriving DecidableEq, Repr

/-- d, a, b of F3 (R65). -/
def Form.f3 (d a : BitVec 5) (m : BitVec 2) (b : BitVec 5) (n : BitVec 2) : Form :=
  { srcs := [(a, m), (b, n)], names := [.g d, .g a, .g b] }
/-- d and a of F3 or FI. -/
def Form.f2 (d a : BitVec 5) (m : BitVec 2) : Form := { srcs := [(a, m)], names := [.g d, .g a] }
/-- d alone, written. -/
def Form.dst (d : BitVec 5) : Form := { names := [.g d] }
/-- The form of a general register in a 4-bit field. -/
def low (r : BitVec 4) : BitVec 5 := r.setWidth 5

/-- TRAPINFO of ILLEGAL (R76). -/
def codeInfo : Option Code → Word
  | some (.c16 w) => w.setWidth 64
  | some (.c32 w) => w.setWidth 64 ||| 0x100000000
  | none => 0

/-- The instruction carries ILLEGAL (R76). -/
def State.illegal (s : State) (i : Instr) : Out := s.fault Cause.illegal (codeInfo (encode i))

/-- The power state of a named register's bank: 0 ON, 1 RETAIN, 2 OFF (R15, R36). -/
def bankState (status : Word) : RegName → BitVec 2
  | .g r =>
    match gBankPos r with
    | none => 0
    | some p => status.extractLsb' p 2
  | .v r => status.extractLsb' (vBankPos r) 2

def RegName.bankPos : RegName → Option Nat
  | .g r => gBankPos r
  | .v r => some (vBankPos r)

/-- Every named bank in RETAIN becomes ON (R36). -/
def wake (status : Word) : List RegName → Word
  | [] => status
  | n :: l =>
    match n.bankPos with
    | some p => if status.extractLsb' p 2 = 1 then wake (setBits status p 2 0) l else wake status l
    | none => wake status l

/-- TRAPINFO of REG_FREE and BANK_OFF (R344). -/
def regInfo : RegName → Word
  | .g r => r.setWidth 64
  | .v r => r.setWidth 64 ||| 0x20

def RegState.isEmpty : RegState → Bool
  | .empty _ => true
  | _ => false

/-- The source awaits a fill at stage 2: it is EMPTY, or its producer was still without a slot there (R19). -/
def Ctx.awaits (t : Ctx) (r : BitVec 5) : Bool := (t.rst r).isEmpty || (r != 0 && t.late == some r)

/-- The fill tag a source is bound to whose fill came with an error mark (R26, R280). -/
def lostTag (old : List Fading) (r : BitVec 5) : Option (BitVec 4) := (old.find? fun e => e.reg == r).bind (·.lost)

/-- TRAPINFO of EMPTY_READ (R344). -/
def Ctx.emptyInfo (t : Ctx) (old : List Fading) (r : BitVec 5) : Word :=
  if t.late = some r then r.setWidth 64 ||| 0x200
  else
    match t.rst r with
    | .empty tag => r.setWidth 64 ||| (tag.setWidth 64 <<< 5)
    | _ => r.setWidth 64 ||| (((lostTag old r).getD 0).setWidth 64 <<< 5)

/-- The encoding, prefix and mode checks: step 2 of R79 (R72, R111, R383). -/
def Form.legal (f : Form) (t : Ctx) : Bool :=
  (!t.pfx || f.fmts.contains t.pfmt.toNat) && (t.rep.isNone || f.rep) && f.modes.contains t.mode

/-- The state in which the effect of an instruction that passed its bank checks is found: the banks it names are ON (R36), and of the
registers it names nothing younger waits at stage 2 for an old fill (R19, R27). The banks stay ON where the instruction then faults:
R36 makes the waking the bank's own, R32 speaks of the instruction's effects (DESIGN CHOICE, log entry 57). Only the oldest
instruction wakes banks: one named by a younger instruction that is annulled stays in RETAIN (DESIGN CHOICE, log entry 66). -/
def State.woken (s : State) (f : Form) : State :=
  s.updMe fun t => { t with
    status := wake t.status f.names
    filled := t.filled.filter fun e => !f.names.contains (.g e.reg) }

/-- Some source is FREE by a mark or an error fill that instructions decoded earlier have not seen (R25). -/
def Ctx.readsFading (t : Ctx) (f : Form) : Bool :=
  f.srcs.any fun a => t.rst a.1 == .free && t.fading.any fun e => e.reg == a.1

/-- The newest of the fading registers whose new state had not reached the foot when it decoded the instruction: how many is
free (R19, R25; log entry 58). -/
def State.footView (s : State) (f : Form) : List Fading × State :=
  if s.me.readsFading f then
    let (k, s) := s.pick (s.me.fading.length + 1)
    (s.me.fading.take k, s)
  else ([], s)

/-- Some source read in a trapping mode has been filled since the instruction may have reached stage 2 (R19). -/
def Ctx.readsFilled (t : Ctx) (f : Form) : Bool :=
  f.srcs.any fun a => a.2.getLsbD 0 && t.filled.any fun e => e.reg == a.1

/-- The newest of the fills that the instruction had not seen when it reached stage 2: how many is free (R19; log entry 58). -/
def State.fillView (s : State) (f : Form) : List Fading × State :=
  if s.me.readsFilled f then
    let (k, s) := s.pick (s.me.filled.length + 1)
    (s.me.filled.take k, s)
  else ([], s)

/-- The checks of R79 in order, then the instruction's own effect; the code is what ILLEGAL reports. With a bank OFF among those
it names, one in RETAIN does not wake (DESIGN CHOICE, log entry 57). -/
def issueCode (w : Option Code) (f : Form) (s : State) (k : State → Out) : Out :=
  if !f.legal s.me then s.fault Cause.illegal (codeInfo w)
  else
    match f.names.find? fun n => bankState s.me.status n == 2 with
    | some n => s.fault Cause.bankOff (regInfo n)
    | none =>
      let (unseen, s) := s.fillView f
      let (old, s) := (s.woken f).footView f
      match f.srcs.find? fun a => s.me.rst a.1 == .free && !old.any fun e => e.reg == a.1 with
      | some (r, _) => s.fault Cause.regFree (regInfo (.g r))
      | none =>
        let lost (r : BitVec 5) : Bool := s.me.rst r == .free && (lostTag old r).isSome
        match f.srcs.find? fun a => (s.me.awaits a.1 || lost a.1 || unseen.any fun e => e.reg == a.1) && a.2.getLsbD 0 with
        | some (r, _) => s.fault Cause.emptyRead (s.me.emptyInfo (old ++ unseen) r)
        | none =>
          let waits := f.srcs.filter fun a => (s.me.rst a.1).isEmpty
          if f.srcs.any fun a => lost a.1 then s.waitFor .lost
          else if waits.isEmpty then k s else s.waitFor (.source (waits.map (·.1)))

/-- The checks of R79 in order, then the instruction's own effect. -/
def issue (i : Instr) (f : Form) (s : State) (k : State → Out) : Out := issueCode (encode i) f s k

/-- Nothing of R79 stops the instruction: its form is legal here, no bank it names is OFF, every source is FULL, and no source
read in a trapping mode awaits its producer's slot, or has just been filled. -/
def Form.ready (f : Form) (s : State) : Prop :=
  f.legal s.me = true ∧ (∀ n ∈ f.names, bankState s.me.status n ≠ 2) ∧
    (∀ a ∈ f.srcs, s.me.rst a.1 = .full ∧
      (a.2.getLsbD 0 = true → s.me.awaits a.1 = false ∧ ∀ e ∈ s.me.filled, e.reg ≠ a.1))

/-- A FREE mark that instructions already decoded do not see: the instruction itself, 15 others that are unretired with it, and up to six
that the foot decodes before the commit has come down seven stages (R23, R25, R29; log entry 58). -/
def Ctx.mark (t : Ctx) (r : BitVec 5) : Ctx := { t.free r with fading := ⟨r, 22, none⟩ :: t.fading }

/-- Sources under mode bit 1 become FREE (R19, R20). -/
def freeMarked (t : Ctx) : List (BitVec 5 × BitVec 2) → Ctx
  | [] => t
  | (r, m) :: l => freeMarked (if m.getLsbD 1 then t.mark r else t) l

/-- Fading registers after one more retirement (R25). -/
def Ctx.fade (t : Ctx) : List Fading :=
  t.fading.filterMap fun e => if e.left ≤ 1 ∨ t.rst e.reg ≠ .free then none else some { e with left := e.left - 1 }

/-- Filled registers after one more retirement (R19). -/
def Ctx.settle (t : Ctx) : List Fading := t.filled.filterMap fun e => if e.left ≤ 1 then none else some { e with left := e.left - 1 }

/-- Every commit of an older instruction has reached the foot before the next one is decoded (R17, R117). -/
def Ctx.serial (t : Ctx) : Ctx := { t with fading := [], filled := [] }

/-- TRAPINFO of a task stop (R358, R442). -/
def stopInfo (n : Nat) : Word := BitVec.ofNat 64 (6 * 2 ^ 61 + n)

/-- A single step, or a stop, is posted unless one is pending (R349, R357). -/
def Async.addStep (a : Async) (info : Word) : Async := { a with step := a.step.or (some info) }

/-- A stop at PC is posted when its packet is the oldest unretired one and the context is not in its handler (R442); it acts
once for each dispatch (R441). -/
def Async.stopCheck (a : Async) (pc : Word) (mode : BitVec 2) : Async :=
  match a.stopAt.find? fun e => e.2 == pc && mode != trapMode with
  | some (n, _) => { a.addStep (stopInfo n) with stopAt := a.stopAt.filter fun e => e.2 != pc }
  | none => a

def Ctx.stopCheck (t : Ctx) : Ctx := { t with async := t.async.stopCheck t.pc t.mode }

/-- The address after a retirement: REPN's after its target (R112). -/
def Ctx.nextPc (old : Ctx) (next : Word) : Word :=
  match old.rep with
  | some r => r.pc
  | none => next

/-- STATUS after a retirement: the prefix the instruction had is cleared (R72). -/
def Ctx.nextStatus (old : Ctx) (status : Word) : Word := if old.pfx then clearPrefix status else status

/-- The asynchronous events after a retirement: a single step is posted where STEPCTL asks for it, a stop where the next
address is its own (R357, R442). -/
def Ctx.nextAsync (old t : Ctx) (next info : Word) : Async :=
  (if t.stepCtl.getLsbD 0 ∧ old.mode ≠ trapMode then t.async.addStep info else t.async).stopCheck (old.nextPc next)
    (modeOf (old.nextStatus t.status))

/-- The end of a retirement: a prefix the instruction had is cleared, the next address is taken (REPN's after its
target), and a single step is posted (R72, R112, R357). `old` is the context before the instruction. -/
def Ctx.finish (old t : Ctx) (next info : Word) : Ctx :=
  { t with
    status := old.nextStatus t.status
    pc := old.nextPc next
    rep := if old.rep.isSome then none else t.rep
    wait := none
    held := none
    desc := none
    napping := none
    slotWait := false
    late := if old.slotWait then t.late else none
    fading := t.fade
    filled := t.settle
    async := old.nextAsync t next info }

/-- Retirement with a next address: FREE marks, then the writes, then `finish`. -/
def State.retireTo (s : State) (f : Form) (next : Word) (info : Word) (upd : Ctx → Ctx) : State :=
  s.setMe (s.me.finish (upd (freeMarked s.me f.srcs)) next info)

/-- Retirement in sequence. -/
def State.retire (s : State) (f : Form) (upd : Ctx → Ctx) : State :=
  s.retireTo f (s.me.pc + BitVec.ofNat 64 f.size) 0 upd

/-- An instruction that computes one result from the context and raises no flag: the shape of the quick operations. -/
def quick (i : Instr) (f : Form) (d : BitVec 5) (val : Ctx → Word) (s : State) : Out :=
  issue i f s fun s => .next (s.retire f fun t => t.wr d (val s.me))

/-- A bank that leaves ON or RETAIN for OFF, or OFF for another state: its general registers are FREE and its vector
registers zero (R18, R36). The rules speak of OFF to ON; the model takes OFF to RETAIN to do the same (DESIGN CHOICE, log entry 66). -/
def Ctx.clearBanks (t : Ctx) (old new : Word) : Ctx :=
  let changed (p : Nat) : Bool := (field old p 2 == 2) != (field new p 2 == 2)
  let g (r : Nat) : Bool := decide (8 ≤ r) && changed (32 + 2 * (r / 8 - 1))
  let v (r : Nat) : Bool := changed (38 + 2 * (r / 4))
  { t with
    g := Vector.ofFn fun i => if g i.val then 0 else t.g[i]
    gs := Vector.ofFn fun i => if g i.val then .free else t.gs[i]
    v := Vector.ofFn fun i => if v i.val then 0 else t.v[i] }

/-! ### The vector unit (R150) -/

/-- An operation goes through its core's dispatch lane: at once while the quad's lanes are empty, else it waits there until
the unit has issued it (R150, R178). -/
def State.throughLane (s : State) (k : State → Out) : Out :=
  let c := s.cur.1
  let x := s.cur.2
  let q := s.quad (quadOf c)
  let lane := q.lanes[inQuad c]
  let set (s : State) (l : List LaneOp) : State := s.updQuad (quadOf c) fun q => { q with lanes := q.lanes.set (inQuad c) l }
  match lane.find? fun o => o.ctx == x with
  | some o => if o.issued then k (set s (lane.filter fun o => o.ctx != x)) else s.waitFor .vector
  | none =>
    if (List.finRange 4).all fun i => q.lanes[i].isEmpty then
      k (s.updQuad (quadOf c) fun q => { q with lastLane := inQuad c })
    else if lane.length < 4 then (set s (lane ++ [⟨x, false⟩])).waitFor .vector
    else s.waitFor .vector

end Sys2Proof.Machine
end

