-- ==== Sys2Proof/Machine/Integer.lean ====
section
/-!
DEFINITION. Integer arithmetic, compares, selects, immediates, constants and divides (R90 to R97), and the compact
instructions that are quick operations (R70).
-/

namespace Sys2Proof.Machine

def b64 (b : Bool) : Word := if b then 1 else 0

/-- A signed number as a 64-bit pattern. -/
def ofI (z : Int) : Word := BitVec.ofInt 64 z

/-- The low 32 bits of a word, sign-extended (R90, R96). -/
def sext32 (w : Word) : Word := (w.setWidth 32).signExtend 64

/-- High half of a 128-bit product (R90). -/
def mulHigh (x y : Int) : Word := ofI ((x * y) / 2 ^ 64)

/-- Leading zero bits of a word (R90). -/
def leadingZeros (w : Word) : Nat := if w = 0 then 64 else 63 - w.toNat.log2

/-- One bits of a word, counted over its n low bits (R90). -/
def onesBelow (w : Word) : Nat → Nat
  | 0 => 0
  | n + 1 => onesBelow w n + (if w.getLsbD n then 1 else 0)

/-- The shape of a two-source quick operation of major 0x01. -/
def alu (i : Instr) (d a : BitVec 5) (m : BitVec 2) (b : BitVec 5) (n : BitVec 2) (op : Word → Word → Word)
    (s : State) : Out :=
  quick i (.f3 d a m b n) d (fun t => op (t.rd a) (t.rd b)) s

/-- The shape of a one-source quick operation. -/
def alu1 (i : Instr) (d a : BitVec 5) (m : BitVec 2) (op : Word → Word) (s : State) : Out :=
  quick i (.f2 d a m) d (fun t => op (t.rd a)) s

/-- ADD: modulo 2^64 (R90). -/
def execAdd (d a : BitVec 5) (m : BitVec 2) (b : BitVec 5) (n : BitVec 2) (s : State) : Out :=
  alu (.add d a m b n) d a m b n (fun x y => x + y) s

/-- SUB: modulo 2^64 (R90). -/
def execSub (d a : BitVec 5) (m : BitVec 2) (b : BitVec 5) (n : BitVec 2) (s : State) : Out :=
  alu (.sub d a m b n) d a m b n (fun x y => x - y) s

/-- AND (R90). -/
def execAnd (d a : BitVec 5) (m : BitVec 2) (b : BitVec 5) (n : BitVec 2) (s : State) : Out :=
  alu (.and d a m b n) d a m b n (fun x y => x &&& y) s

/-- OR (R90). -/
def execOr (d a : BitVec 5) (m : BitVec 2) (b : BitVec 5) (n : BitVec 2) (s : State) : Out :=
  alu (.or d a m b n) d a m b n (fun x y => x ||| y) s

/-- XOR (R90). -/
def execXor (d a : BitVec 5) (m : BitVec 2) (b : BitVec 5) (n : BitVec 2) (s : State) : Out :=
  alu (.xor d a m b n) d a m b n (fun x y => x ^^^ y) s

/-- ANDN: S(a) and not S(b) (R90). -/
def execAndn (d a : BitVec 5) (m : BitVec 2) (b : BitVec 5) (n : BitVec 2) (s : State) : Out :=
  alu (.andn d a m b n) d a m b n (fun x y => x &&& ~~~y) s

/-- SLL: by S(b)[5:0] (R90). -/
def execSll (d a : BitVec 5) (m : BitVec 2) (b : BitVec 5) (n : BitVec 2) (s : State) : Out :=
  alu (.sll d a m b n) d a m b n (fun x y => x <<< (y.toNat % 64)) s

/-- SRL: logical (R90). -/
def execSrl (d a : BitVec 5) (m : BitVec 2) (b : BitVec 5) (n : BitVec 2) (s : State) : Out :=
  alu (.srl d a m b n) d a m b n (fun x y => x >>> (y.toNat % 64)) s

/-- SRA: arithmetic (R90). -/
def execSra (d a : BitVec 5) (m : BitVec 2) (b : BitVec 5) (n : BitVec 2) (s : State) : Out :=
  alu (.sra d a m b n) d a m b n (fun x y => x.sshiftRight (y.toNat % 64)) s

/-- MUL: low 64 bits (R90). -/
def execMul (d a : BitVec 5) (m : BitVec 2) (b : BitVec 5) (n : BitVec 2) (s : State) : Out :=
  alu (.mul d a m b n) d a m b n (fun x y => x * y) s

/-- MULH: high 64 bits, signed (R90). -/
def execMulh (d a : BitVec 5) (m : BitVec 2) (b : BitVec 5) (n : BitVec 2) (s : State) : Out :=
  alu (.mulh d a m b n) d a m b n (fun x y => mulHigh x.toInt y.toInt) s

/-- MULHU: high 64 bits, unsigned (R90). -/
def execMulhu (d a : BitVec 5) (m : BitVec 2) (b : BitVec 5) (n : BitVec 2) (s : State) : Out :=
  alu (.mulhu d a m b n) d a m b n (fun x y => mulHigh x.toNat y.toNat) s

/-- MIN: signed (R90). -/
def execMin (d a : BitVec 5) (m : BitVec 2) (b : BitVec 5) (n : BitVec 2) (s : State) : Out :=
  alu (.min d a m b n) d a m b n (fun x y => if y.slt x then y else x) s

/-- MAX: signed (R90). -/
def execMax (d a : BitVec 5) (m : BitVec 2) (b : BitVec 5) (n : BitVec 2) (s : State) : Out :=
  alu (.max d a m b n) d a m b n (fun x y => if x.slt y then y else x) s

/-- MINU: unsigned (R90). -/
def execMinu (d a : BitVec 5) (m : BitVec 2) (b : BitVec 5) (n : BitVec 2) (s : State) : Out :=
  alu (.minu d a m b n) d a m b n (fun x y => if y.ult x then y else x) s

/-- MAXU: unsigned (R90). -/
def execMaxu (d a : BitVec 5) (m : BitVec 2) (b : BitVec 5) (n : BitVec 2) (s : State) : Out :=
  alu (.maxu d a m b n) d a m b n (fun x y => if x.ult y then y else x) s

/-- ADDW: 32-bit sum, sign-extended (R90). -/
def execAddw (d a : BitVec 5) (m : BitVec 2) (b : BitVec 5) (n : BitVec 2) (s : State) : Out :=
  alu (.addw d a m b n) d a m b n (fun x y => sext32 (x + y)) s

/-- SUBW: 32-bit difference, sign-extended (R90). -/
def execSubw (d a : BitVec 5) (m : BitVec 2) (b : BitVec 5) (n : BitVec 2) (s : State) : Out :=
  alu (.subw d a m b n) d a m b n (fun x y => sext32 (x - y)) s

/-- SEXTB (R90). -/
def execSextb (d a : BitVec 5) (m : BitVec 2) (s : State) : Out :=
  alu1 (.sextb d a m) d a m (fun x => (x.setWidth 8).signExtend 64) s

/-- SEXTH (R90). -/
def execSexth (d a : BitVec 5) (m : BitVec 2) (s : State) : Out :=
  alu1 (.sexth d a m) d a m (fun x => (x.setWidth 16).signExtend 64) s

/-- SEXTW (R90). -/
def execSextw (d a : BitVec 5) (m : BitVec 2) (s : State) : Out :=
  alu1 (.sextw d a m) d a m (fun x => sext32 x) s

/-- ZEXTB (R90). -/
def execZextb (d a : BitVec 5) (m : BitVec 2) (s : State) : Out :=
  alu1 (.zextb d a m) d a m (fun x => (x.setWidth 8).setWidth 64) s

/-- ZEXTH (R90). -/
def execZexth (d a : BitVec 5) (m : BitVec 2) (s : State) : Out :=
  alu1 (.zexth d a m) d a m (fun x => (x.setWidth 16).setWidth 64) s

/-- ZEXTW (R90). -/
def execZextw (d a : BitVec 5) (m : BitVec 2) (s : State) : Out :=
  alu1 (.zextw d a m) d a m (fun x => (x.setWidth 32).setWidth 64) s

/-- CLZ: 64 for zero (R90). -/
def execClz (d a : BitVec 5) (m : BitVec 2) (s : State) : Out :=
  alu1 (.clz d a m) d a m (fun x => BitVec.ofNat 64 (leadingZeros x)) s

/-- POPC (R90). -/
def execPopc (d a : BitVec 5) (m : BitVec 2) (s : State) : Out :=
  alu1 (.popc d a m) d a m (fun x => BitVec.ofNat 64 (onesBelow x 64)) s

/-- CMP: 1 when the condition holds, else 0 (R91). -/
def execCmp (d a : BitVec 5) (m : BitVec 2) (b : BitVec 5) (n : BitVec 2) (c : BitVec 3) (s : State) : Out :=
  alu (.cmp d a m b n c) d a m b n (fun x y => b64 (condHolds c x y)) s

/-- SEL: reads g[d] in mode 00; S(a) when it is not zero, else S(b) (R91). -/
def execSel (d a : BitVec 5) (m : BitVec 2) (b : BitVec 5) (n : BitVec 2) (s : State) : Out :=
  quick (.sel d a m b n) { srcs := [(d, 0), (a, m), (b, n)], names := [.g d, .g a, .g b] } d
    (fun t => if t.rd d ≠ 0 then t.rd a else t.rd b) s

/-- CMPI: CMP with a 9-bit signed immediate (R92). -/
def execCmpi (d a : BitVec 5) (m : BitVec 2) (c : BitVec 3) (i : BitVec 9) (s : State) : Out :=
  alu1 (.cmpi d a m c i) d a m (fun x => b64 (condHolds c x (i.signExtend 64))) s

/-- ADDI: sign-extended immediate (R93). -/
def execAddi (d a : BitVec 5) (m : BitVec 2) (i : BitVec 12) (s : State) : Out :=
  alu1 (.addi d a m i) d a m (fun x => x + i.signExtend 64) s

/-- ANDI: sign-extended immediate (R93). -/
def execAndi (d a : BitVec 5) (m : BitVec 2) (i : BitVec 12) (s : State) : Out :=
  alu1 (.andi d a m i) d a m (fun x => x &&& i.signExtend 64) s

/-- ORI: zero-extended immediate (R93). -/
def execOri (d a : BitVec 5) (m : BitVec 2) (i : BitVec 12) (s : State) : Out :=
  alu1 (.ori d a m i) d a m (fun x => x ||| i.setWidth 64) s

/-- XORI: zero-extended immediate (R93). -/
def execXori (d a : BitVec 5) (m : BitVec 2) (i : BitVec 12) (s : State) : Out :=
  alu1 (.xori d a m i) d a m (fun x => x ^^^ i.setWidth 64) s

/-- SLLI (R94). -/
def execSlli (d a : BitVec 5) (m : BitVec 2) (h : BitVec 6) (s : State) : Out :=
  alu1 (.slli d a m h) d a m (fun x => x <<< h.toNat) s

/-- SRLI (R94). -/
def execSrli (d a : BitVec 5) (m : BitVec 2) (h : BitVec 6) (s : State) : Out :=
  alu1 (.srli d a m h) d a m (fun x => x >>> h.toNat) s

/-- SRAI (R94). -/
def execSrai (d a : BitVec 5) (m : BitVec 2) (h : BitVec 6) (s : State) : Out :=
  alu1 (.srai d a m h) d a m (fun x => x.sshiftRight h.toNat) s

/-- LI: a 19-bit signed immediate (R95). -/
def execLi (d : BitVec 5) (i : BitVec 19) (s : State) : Out :=
  quick (.li d i) (.dst d) d (fun _ => i.signExtend 64) s

/-- LIX: g[d], read in mode 00, shifted left by 19 with the immediate inserted (R95). -/
def execLix (d : BitVec 5) (i : BitVec 19) (s : State) : Out :=
  quick (.lix d i) { srcs := [(d, 0)], names := [.g d] } d (fun t => (t.rd d <<< 19) ||| i.setWidth 64) s

/-- ADDPC: the instruction's own address plus a signed immediate (R95). -/
def execAddpc (d : BitVec 5) (i : BitVec 19) (s : State) : Out :=
  quick (.addpc d i) (.dst d) d (fun t => t.pc + i.signExtend 64) s

/-- The shape of a divide: DIVZERO when the divisor is zero (R96, R97). `arg` reads an operand, `op` divides. -/
def divide (i : Instr) (d a : BitVec 5) (m : BitVec 2) (b : BitVec 5) (n : BitVec 2) (arg : Word → Int)
    (op : Int → Int → Word) (s : State) : Out :=
  let f := Form.f3 d a m b n
  issue i f s fun s =>
    if arg (s.me.rd b) = 0 then s.fault Cause.divZero 0
    else .next (s.retire f fun t => t.wr d (op (arg (s.me.rd a)) (arg (s.me.rd b))))

def signed32 (w : Word) : Int := (w.setWidth 32).toInt
def unsigned32 (w : Word) : Int := (w.setWidth 32).toNat

/-- DIV: signed, truncating (R96). -/
def execDiv (d a : BitVec 5) (m : BitVec 2) (b : BitVec 5) (n : BitVec 2) (s : State) : Out :=
  divide (.div d a m b n) d a m b n (fun w => w.toInt) (fun p q => ofI (p.tdiv q)) s

/-- REM: takes the sign of the dividend (R96). -/
def execRem (d a : BitVec 5) (m : BitVec 2) (b : BitVec 5) (n : BitVec 2) (s : State) : Out :=
  divide (.rem d a m b n) d a m b n (fun w => w.toInt) (fun p q => ofI (p.tmod q)) s

/-- DIVU (R96). -/
def execDivu (d a : BitVec 5) (m : BitVec 2) (b : BitVec 5) (n : BitVec 2) (s : State) : Out :=
  divide (.divu d a m b n) d a m b n (fun w => w.toNat) (fun p q => ofI (p.tdiv q)) s

/-- REMU (R96). -/
def execRemu (d a : BitVec 5) (m : BitVec 2) (b : BitVec 5) (n : BitVec 2) (s : State) : Out :=
  divide (.remu d a m b n) d a m b n (fun w => w.toNat) (fun p q => ofI (p.tmod q)) s

/-- DIVW: 32-bit, sign-extended (R96). -/
def execDivw (d a : BitVec 5) (m : BitVec 2) (b : BitVec 5) (n : BitVec 2) (s : State) : Out :=
  divide (.divw d a m b n) d a m b n (signed32) (fun p q => sext32 (ofI (p.tdiv q))) s

/-- REMW (R96). -/
def execRemw (d a : BitVec 5) (m : BitVec 2) (b : BitVec 5) (n : BitVec 2) (s : State) : Out :=
  divide (.remw d a m b n) d a m b n (signed32) (fun p q => sext32 (ofI (p.tmod q))) s

/-- DIVUW: 32-bit, zero-extended (R96). -/
def execDivuw (d a : BitVec 5) (m : BitVec 2) (b : BitVec 5) (n : BitVec 2) (s : State) : Out :=
  divide (.divuw d a m b n) d a m b n (unsigned32) (fun p q => ofI (p.tdiv q)) s

/-- REMUW (R96). -/
def execRemuw (d a : BitVec 5) (m : BitVec 2) (b : BitVec 5) (n : BitVec 2) (s : State) : Out :=
  divide (.remuw d a m b n) d a m b n (unsigned32) (fun p q => ofI (p.tmod q)) s

/-- The shape of a two-address compact operation: g[d] is also a source (R69, R70). -/
def compact2 (i : Instr) (d a : BitVec 4) (op : Word → Word → Word) (s : State) : Out :=
  quick i { srcs := [(low d, 0), (low a, 0)], names := [.g (low d), .g (low a)], rep := false, size := 2 } (low d)
    (fun t => op (t.rd (low d)) (t.rd (low a))) s

/-- The shape of a compact operation on g[d] and an immediate. -/
def compactImm (i : Instr) (d : BitVec 4) (op : Word → Word) (s : State) : Out :=
  quick i { srcs := [(low d, 0)], names := [.g (low d)], rep := false, size := 2 } (low d)
    (fun t => op (t.rd (low d))) s

/-- MOV.c: does not read g[d] (R70). -/
def execMovC (d a : BitVec 4) (s : State) : Out :=
  quick (.movC d a) { srcs := [(low a, 0)], names := [.g (low d), .g (low a)], rep := false, size := 2 } (low d)
    (fun t => t.rd (low a)) s

/-- ADD.c (R70). -/
def execAddC (d a : BitVec 4) (s : State) : Out :=
  compact2 (.addC d a) d a (fun x y => x + y) s

/-- SUB.c (R70). -/
def execSubC (d a : BitVec 4) (s : State) : Out :=
  compact2 (.subC d a) d a (fun x y => x - y) s

/-- AND.c (R70). -/
def execAndC (d a : BitVec 4) (s : State) : Out :=
  compact2 (.andC d a) d a (fun x y => x &&& y) s

/-- OR.c (R70). -/
def execOrC (d a : BitVec 4) (s : State) : Out :=
  compact2 (.orC d a) d a (fun x y => x ||| y) s

/-- XOR.c (R70). -/
def execXorC (d a : BitVec 4) (s : State) : Out :=
  compact2 (.xorC d a) d a (fun x y => x ^^^ y) s

/-- SLL.c (R70). -/
def execSllC (d a : BitVec 4) (s : State) : Out :=
  compact2 (.sllC d a) d a (fun x y => x <<< (y.toNat % 64)) s

/-- SRL.c (R70). -/
def execSrlC (d a : BitVec 4) (s : State) : Out :=
  compact2 (.srlC d a) d a (fun x y => x >>> (y.toNat % 64)) s

/-- ADDI.c (R70). -/
def execAddiC (d : BitVec 4) (i : BitVec 7) (s : State) : Out :=
  compactImm (.addiC d i) d (fun x => x + i.signExtend 64) s

/-- LI.c: does not read g[d] (R70). -/
def execLiC (d : BitVec 4) (i : BitVec 7) (s : State) : Out :=
  quick (.liC d i) { names := [.g (low d)], rep := false, size := 2 } (low d) (fun _ => i.signExtend 64) s

/-- SLLI.c (R70). -/
def execSlliC (d : BitVec 4) (h : BitVec 5) (s : State) : Out :=
  compactImm (.slliC d h) d (fun x => x <<< h.toNat) s

/-- SRLI.c (R70). -/
def execSrliC (d : BitVec 4) (h : BitVec 5) (s : State) : Out :=
  compactImm (.srliC d h) d (fun x => x >>> h.toNat) s

/-- SRAI.c (R70). -/
def execSraiC (d : BitVec 4) (h : BitVec 5) (s : State) : Out :=
  compactImm (.sraiC d h) d (fun x => x.sshiftRight h.toNat) s

end Sys2Proof.Machine
end

