-- ==== Sys2Proof/Machine/Access.lean ====
section
/-!
DEFINITION. The checks of an access: handle, alignment, bound, space and policy (R104, R211 to R215, R277, R418),
translation (R216, R217, R352, R353, R407), watchpoints (R354 to R356).
-/

namespace Sys2Proof.Machine

/-- A check: the cause and TRAPINFO of the first failure, or what the access goes on with. -/
abbrev Chk (α : Type) := Except (BitVec 8 × Word) α

/-- The outcome of a check that failed is the synchronous fault it names. -/
def State.orFault (s : State) (r : Chk α) (k : α → Out) : Out :=
  match r with
  | .ok a => k a
  | .error (c, i) => s.fault c i

/-! ### Handle-table entries (R212, R213, R418) -/

def hBase (h : BitVec 256) : Nat := field h 0 48
def hBound (h : BitVec 256) : Nat := field h 48 48
def hSpace (h : BitVec 256) : Nat := field h 97 3
def hPolicy (h : BitVec 256) : Nat := field h 100 2
def hRo (h : BitVec 256) : Bool := h.getLsbD 102
def hRec (h : BitVec 256) : Bool := h.getLsbD 103
def hObj (h : BitVec 256) : Option Nat := if h.getLsbD 118 then some (field h 104 14) else none
def hMerge (h : BitVec 256) : Nat := field h 120 8
def hRdev (h : BitVec 256) : Nat := field h 128 12
def hTag (h : BitVec 256) : Option Nat := if h.getLsbD 140 then some (field h 141 48) else none
def hRlid (h : BitVec 256) : Nat := field h 189 16

/-- Codes of the spaces (R213, R418). -/
def spGlobal : Nat := 0
def spQuad : Nat := 1
def spWeight : Nat := 2
def spSync : Nat := 3
def spOrdered : Nat := 4
def spIstore : Nat := 5
def spRemote : Nat := 6

/-- LOCAL of a QUAD or WEIGHT entry (R213). -/
def hLocal (h : BitVec 256) : Bool := h.getLsbD 32
/-- The quad a QUAD entry names for an access of core c. -/
def hQuad (h : BitVec 256) (c : Nat) : Nat := if hLocal h then quadOf c else field h 21 11
/-- The die a WEIGHT entry names. -/
def hDie (h : BitVec 256) (c : Nat) : Nat := if hLocal h then dieOf c else field h 30 2

/-- The cores of a group of a launch; none if the group is empty (R140). -/
def Launch.group (l : Launch) (n : Nat) : List Nat := (l.groups.find n).getD []

/-- The launch a core belongs to (R143). -/
def State.launchOf (s : State) (c : Nat) : Option (Nat × Launch) :=
  match (s.core c).launch with
  | none => none
  | some n => (s.launch n).map fun l => (n, l)

/-- A launch that is running or suspended, of another id, has a core of its group 0 that a test accepts. -/
def State.otherLaunch (s : State) (n : Nat) (p : Nat → Bool) : Bool :=
  s.launches.any fun (m, l) => m != n && (l.group 0).any p

/-- Some launch includes a core of the die (R206, R215). -/
def State.dieInLaunch (s : State) (die : Nat) : Bool :=
  s.launches.any fun (_, l) => (l.group 0).any fun c => dieOf c == die

/-- The entry is valid for an access of core c (R211, R213, R418). -/
def State.handleValid (s : State) (c n : Nat) (l : Launch) (h : BitVec 256) : Bool :=
  h.getLsbD 96 &&
  match hSpace h with
  | 1 =>
    decide (field h 0 20 + hBound h ≤ 2 ^ 20) &&
    (l.group 0).any (fun k => quadOf k == hQuad h c) && !s.otherLaunch n (fun k => quadOf k == hQuad h c)
  | 2 => decide (field h 0 30 + hBound h ≤ 2 ^ 30)
  | 5 => decide (field h 0 16 + hBound h ≤ 2 ^ 16) && (l.group 0).contains (field h 16 13)
  | 6 => hRdev h != s.devid.toNat && hRdev h != 0xFFF
  | 7 => false
  | _ => true

/-- TRAPINFO of HANDLE: binding, entry, V = 0, reason (R104, R215). -/
def handleInfo (n : BitVec 4) (b : Word) (v0 : Bool) (reason : Nat) : Word :=
  n.setWidth 64 ||| ((b.extractLsb' 0 12).setWidth 64 <<< 4) ||| (if v0 then 0x10000 else 0) |||
  (BitVec.ofNat 64 reason <<< 17)

/-- Step 1 of R104 with a set of bindings: the entry. -/
def State.chkHandle (s : State) (c : Nat) (hbs : Vector Word 16) (n : BitVec 4) : Chk (BitVec 256) :=
  let b := hbs[n.toNat]'(vreg_lt n)
  if b.getLsbD 12 = false then .error (Cause.handle, handleInfo n b true 0)
  else
    match s.launchOf c with
    | none => .error (Cause.handle, handleInfo n b false 0)
    | some (id, l) =>
      match l.handles.find (field b 0 12) with
      | none => .error (Cause.handle, handleInfo n b false 0)
      | some h => if s.handleValid c id l h then .ok h else .error (Cause.handle, handleInfo n b false 0)

/-- Step 2 of R104. -/
def chkAlign (off : Int) (align : Nat) : Chk Unit :=
  if off % align ≠ 0 then .error (Cause.align, BitVec.ofInt 64 off) else .ok ()

/-- Step 3 of R104, with the message area of R128 closed to writes. -/
def chkBounds (h : BitVec 256) (off : Int) (size : Nat) (write : Bool) : Chk Unit :=
  if off < 0 ∨ off + size > hBound h ∨ (write ∧ hSpace h = spQuad ∧ (field h 0 20 : Int) + off + size > 0xE0000)
  then .error (Cause.bounds, BitVec.ofInt 64 off) else .ok ()

/-- What an entry says of an access: whether it writes, the spaces it accepts, whether reasons 3 and 4 of R215 apply
(R277, R311, R330), and its size. -/
structure Kind where
  write : Bool
  spaces : List Nat
  size : Nat
  core : Bool := true
deriving DecidableEq, Repr

/-- Step 4 of R104: the reasons of R215 in their order, then reason 5 of R277. Reasons 1 and 3 are
those of entries that accept the space at all: a read-modify-write through WEIGHT faults by reason 5 (R287), VLD and VLDS through
ISTORE by reason 4 (R281, R282), LDV and STV through either by reason 5 (R292, R293). An entry that accepts SYNC and not ISTORE, as
a read-modify-write does, has reason 4 for SYNC alone (R287). -/
def State.chkSpace (s : State) (c : Nat) (hbs : Vector Word 16) (n : BitVec 4) (h : BitVec 256) (k : Kind) : Chk Unit :=
  let bad (r : Nat) : Chk Unit := .error (Cause.handle, handleInfo n (hbs[n.toNat]'(vreg_lt n)) false r)
  let sp := hSpace h
  if k.write ∧ sp = spWeight ∧ k.spaces.contains spWeight ∧ s.dieInLaunch (hDie h c) then bad 1
  else if k.write ∧ hRo h then bad 2
  else if k.core ∧ k.write = false ∧ sp = spIstore ∧ k.spaces.contains spIstore then bad 3
  else if k.core ∧ k.size ≠ 8 ∧ (sp = spSync ∨ (sp = spIstore ∧ (k.spaces.contains spIstore ∨ !k.spaces.contains spSync))) then bad 4
  else if !k.spaces.contains sp then bad 5
  else .ok ()

/-- Steps 1 to 4 of R104 for one access. -/
def State.chkAccess (s : State) (c : Nat) (hbs : Vector Word 16) (n : BitVec 4) (off : Int) (align : Nat) (k : Kind) :
    Chk (BitVec 256) := do
  let h ← s.chkHandle c hbs n
  chkAlign off align
  chkBounds h off k.size k.write
  s.chkSpace c hbs n h k
  return h

/-! ### Translation (R216, R217, R352, R407) -/

/-- Main memory of the package (R2, R407). -/
def mainCapacity : Nat := 768 * 2 ^ 30
/-- The installed second tier, at most 8 TiB (R407). -/
def secondCapacity : Nat := min Config.secondTierBytes (8 * 2 ^ 40)

/-- log2 of the page a leaf of a level maps (R216). -/
def pageBits (level : Nat) : Nat := if level = 4 then 16 else if level = 3 then 21 else if level = 2 then 30 else 39

/-- The index of a virtual address in a table of a level (R216). -/
def tableIndex (level va : Nat) : Nat :=
  if level = 4 then va / 2 ^ 16 % 32 else va / 2 ^ pageBits level % 512

/-- Address bits [51:12] of a page-table entry (R217). -/
def ptePa (e : Nat) : Nat := e / 4096 % 2 ^ 40 * 4096

/-- The walk from a level on, `n` levels left: the leaf with its level, or the reason and level of the failure (R352). -/
def walkFrom (m : List Host.Cell) (va : Nat) : Nat → Nat → Nat → Except (Nat × Nat) (Nat × Nat)
  | 0, level, _ => .error (3, level)
  | n + 1, level, table =>
    let e := Memory.nat m (physKey 0 (table + 8 * tableIndex level va)) 8
    let leaf := e / 2 % 2 = 1
    if e % 2 = 0 then .error (1, level)
    else if leaf ∧ level = 1 then .error (2, level)
    else if ¬ leaf ∧ level = 4 then .error (3, level)
    else if leaf then
      if ptePa e % 2 ^ pageBits level ≠ 0 then .error (4, level) else .ok (level, e)
    else walkFrom m va n (level + 1) (ptePa e)

/-- A walk of the whole table. -/
def walk (m : List Host.Cell) (root va : Nat) : Except (Nat × Nat) (Nat × Nat) := walkFrom m va 4 1 root

/-- The tests on a leaf (R352): reserved target, capacity, ORDERED to main memory, W. -/
def leafTest (level e : Nat) (ordered write : Bool) : Option Nat :=
  let target := e / 16 % 4
  let last := ptePa e + 2 ^ pageBits level
  if target = 3 then some 6
  else if (target = 0 ∧ last > mainCapacity) ∨ (target = 1 ∧ last > secondCapacity) then some 7
  else if ordered ∧ target = 0 then some 8
  else if write ∧ e / 4 % 2 = 0 then some 5
  else none

/-- TRAPINFO of TRANSLATION (R352), DST left 0. -/
def translationInfo (write : Bool) (reason level va : Nat) : Word :=
  BitVec.ofNat 64 ((if write then 2 ^ 55 else 0) + reason * 2 ^ 51 + (level - 1) * 2 ^ 48 + va % 2 ^ 48)

/-- Where a virtual byte lies: its key, the bytes left in its page, the LOG bit of the page (R408). -/
structure Place where
  key : Nat
  left : Nat
  log : Bool
deriving DecidableEq, Repr

/-- A leaf applied to an address. -/
def leafPlace (level e va : Nat) : Place :=
  let size := 2 ^ pageBits level
  ⟨physKey (e / 16 % 4) (ptePa e + va % size), size - va % size, decide (e / 64 % 2 = 1)⟩

/-- The key of a cached translation: the page of an address, and the level of its leaf. -/
def tlbKey (level va : Nat) : Nat := va / 2 ^ pageBits level * 8 + level

/-- The cached leaf of an address, whatever the size of its page, or a walk (R216). -/
def findLeaf (m : List Host.Cell) (tlb : NatMap (Nat × Word)) (root va : Nat) : Except (Nat × Nat) (Nat × Nat) :=
  match ((tlb.find (tlbKey 4 va)).or (tlb.find (tlbKey 3 va))).or (tlb.find (tlbKey 2 va)) with
  | some (level, e) => .ok (level, e.toNat)
  | none => walk m root va

/-- Translation of one byte with a translation cache; the cache after it. -/
def translateByte (m : List Host.Cell) (tlb : NatMap (Nat × Word)) (root va : Nat) (ordered write : Bool) :
    Chk (Place × NatMap (Nat × Word)) :=
  let bad (r level : Nat) := Except.error (Cause.translation, translationInfo write r level va)
  match findLeaf m tlb root va with
  | .error (r, level) => bad r level
  | .ok (level, e) =>
    match leafTest level e ordered write with
    | some r => bad r level
    | none => .ok (leafPlace level e va, tlb.put (tlbKey level va) (level, BitVec.ofNat 64 e))

/-- Bytes in a row of the memory map: first key, length, LOG bit. -/
structure Span where
  key : Nat
  len : Nat
  log : Bool
deriving DecidableEq, Repr

/-- Translation of `len` bytes from an address, page by page, at most `n` pages. -/
def translateRange (m : List Host.Cell) (root : Nat) (ordered write : Bool) :
    Nat → NatMap (Nat × Word) → Nat → Nat → Chk (List Span × NatMap (Nat × Word))
  | 0, tlb, _, _ => .ok ([], tlb)
  | n + 1, tlb, va, len =>
    if len = 0 then .ok ([], tlb)
    else do
      let (p, tlb) ← translateByte m tlb root (va % 2 ^ 48) ordered write
      let k := min len p.left
      let (rest, tlb) ← translateRange m root ordered write n tlb (va + k) (len - k)
      return (⟨p.key, k, p.log⟩ :: rest, tlb)

/-- Pages that `len` bytes can touch. -/
def pagesOf (len : Nat) : Nat := len / 2 ^ 16 + 2

/-- The physical bytes of an access that steps 1 to 4 have passed (R213), for core c of a launch with this root; the
translation cache after it. -/
def placeAccess (m : List Host.Cell) (root : Nat) (tlb : NatMap (Nat × Word)) (c : Nat) (h : BitVec 256) (off len : Nat)
    (write : Bool) : Chk (List Span × NatMap (Nat × Word)) :=
  match hSpace h with
  | 1 => .ok ([⟨quadKey (hQuad h c) (field h 0 20 + off), len, false⟩], tlb)
  | 2 => .ok ([⟨weightKey (hDie h c) (field h 0 30 + off), len, false⟩], tlb)
  | 5 => .ok ([⟨istoreKey (field h 16 13) (field h 0 16 + off), len, false⟩], tlb)
  | 6 => .ok ([⟨hBase h + off, len, false⟩], tlb)
  | sp => translateRange m root (sp = spOrdered) write (pagesOf len) tlb (hBase h + off) len

/-- Root of the launch a core belongs to. -/
def State.rootOf (s : State) (c : Nat) : Nat :=
  match s.launchOf c with
  | some (_, l) => l.root
  | none => 0

/-- A core's access translated on entry to the M siding (R353); the state has the core's new translations. -/
def State.placeCore (s : State) (c : Nat) (h : BitVec 256) (off len : Nat) (write : Bool) : Chk (List Span × State) :=
  match placeAccess s.mem (s.rootOf c) (s.core c).tlb c h off len write with
  | .error e => .error e
  | .ok (sp, tlb) => .ok (sp, s.updCore c fun k => { k with tlb := tlb })

/-- An engine's or command processor's translation, afresh for each chunk (R353). -/
def State.placeFresh (s : State) (root c : Nat) (h : BitVec 256) (off len : Nat) (write : Bool) : Chk (List Span) :=
  (placeAccess s.mem root [] c h off len write).map (·.1)

/-- Virtual bytes of an address space. -/
def State.placeVirtual (s : State) (root va len : Nat) (write : Bool) : Chk (List Span) :=
  (translateRange s.mem root false write (pagesOf len) [] va len).map (·.1)

/-- Spans cut at lines of 64 bytes, with their bytes. -/
def cutLine : Nat → Nat → Nat → List (Nat × Nat)
  | 0, _, _ => []
  | n + 1, key, len =>
    if len = 0 then []
    else
      let k := min len (64 - key % 64)
      (key, k) :: cutLine n (key + k) (len - k)

/-- The line pieces of spans: key, length, LOG bit. -/
def linePieces : List Span → List Span
  | [] => []
  | p :: l => (cutLine (p.len / 64 + 2) p.key p.len).map (fun (k, n) => ⟨k, n, p.log⟩) ++ linePieces l

/-- Spans with the bytes that go to them. -/
def withBytes : List Span → List Byte → List (Span × List Byte)
  | [], _ => []
  | p :: l, b => (p, b.take p.len) :: withBytes l (b.drop p.len)

/-! ### Watchpoints (R354 to R356) -/

/-- The bytes of a watchpoint's granule that a write meets, as a mask; 0 for no hit. Only GLOBAL, SYNC and ORDERED
bytes have a physical address. -/
def watchMask (w : Word) (key len : Nat) : Nat :=
  if key ≥ 3 * 2 ^ 52 then 0
  else
    let lo := field w 0 48 * 16
    let pa := key % 2 ^ 52
    (List.range 16).foldl (fun a i =>
      if w.getLsbD (48 + i) ∧ pa ≤ lo + i ∧ lo + i < pa + len then a + 2 ^ i else a) 0

/-- The bytes of a granule that a write touches, whether watched or not (R356, BYTES). -/
def granuleBytes (w : Word) (key len : Nat) : Nat :=
  let lo := field w 0 48 * 16
  let pa := key % 2 ^ 52
  (List.range 16).foldl (fun a i => if pa ≤ lo + i ∧ lo + i < pa + len then a + 2 ^ i else a) 0

/-- The first watchpoint of a context that a write of these spans hits: number and BYTES (R355). -/
def Ctx.watchHit (t : Ctx) (spans : List Span) : Option (Nat × Nat) :=
  let hit (n : Nat) (w : Word) : Option (Nat × Nat) :=
    if spans.any fun p => watchMask w p.key p.len != 0 then
      some (n, spans.foldl (fun a p => a ||| granuleBytes w p.key p.len) 0)
    else none
  (hit 0 t.watch[0]).or <| (hit 1 t.watch[1]).or <| (hit 2 t.watch[2]).or (hit 3 t.watch[3])

/-- TRAPINFO of WATCH (R356), imprecise when `imp`. -/
def watchInfo (n bytes : Nat) (imp : Bool) (kind id : Nat) : Word :=
  BitVec.ofNat 64 (n + (if imp then 4 else 0) + bytes % 2 ^ 16 * 16 + kind * 2 ^ 20 + id % 2 ^ 13 * 2 ^ 24)

/-- A write of the watching context itself carries WATCH (R355). -/
def Ctx.chkWatch (t : Ctx) (spans : List Span) : Chk Unit :=
  match t.watchHit spans with
  | some (n, b) => .error (Cause.watch, watchInfo n b false 0 0)
  | none => .ok ()

/-- A hit reported to a context: the first as WATCH, later ones as LOST (R349, R356). -/
def Ctx.postWatch (t : Ctx) (info : Word) : Ctx :=
  { t with async := { t.async with watch := some (match t.async.watch with
    | some w => w ||| 8
    | none => info) } }

/-- A saturating 48-bit count (R327, R438). -/
def sat48 (n : Nat) : Nat := min n (2 ^ 48 - 1)

/-- A hit at core k, context x: reported when a task runs there, else counted (R356). -/
def Core.watchHit (k : Core) (x : Fin 8) (info : Word) : Core :=
  if (k.ctx x).cstate = .running then (k.setCtx x ((k.ctx x).postWatch info).notice).feed
  else { k with lostHits := sat48 (k.lostHits + 1) }

/-- The contexts of one core checked against a write from another source, `skip` being the writer's own. -/
def Core.watchAll (k : Core) (spans : List Span) (kind id : Nat) (skip : Option Nat) : Core :=
  (List.finRange 8).foldl (fun k x =>
    if skip = some x.val then k
    else
      (List.range 4).foldl (fun (k : Core) n =>
        let w := ((k.ctx x).watch[n]?).getD 0
        if spans.any fun p => watchMask w p.key p.len != 0 then
          k.watchHit x (watchInfo n (spans.foldl (fun a p => a ||| granuleBytes w p.key p.len) 0) true kind id)
        else k) k) k

/-! ### Writes of a recording's buffer (R257, R273) -/

/-- Bytes [off, off + len) of rows. -/
def rowRange : List (Nat × Nat × Bool) → Nat → Nat → List Span
  | [], _, _ => []
  | (key, n, log) :: l, off, len =>
    if len = 0 then []
    else if off ≥ n then rowRange l (off - n) len
    else
      let m := min len (n - off)
      ⟨key + off, m, log⟩ :: rowRange l 0 (len - m)

/-- Bytes of a buffer are among those of spans. -/
def rowsMeet (rows : List (Nat × Nat × Bool)) (off len : Nat) (spans : List Span) : Bool :=
  (rowRange rows off len).any fun p => spans.any fun q => decide (p.key < q.key + q.len ∧ q.key < p.key + p.len)

/-- A transfer entry of unconstrained fields. -/
def State.freeTransfer (s : State) : Transfer × State :=
  let (a, s) := s.free
  let (b, s) := s.free
  (⟨field a 48 14, field a 0 46, field b 0 11, field b 16 11, field b 32 8, field b 40 24, false⟩, s)

/-- Entries from place i on, those whose bytes are written unconstrained. -/
def State.spoilEntries (s : State) (rows : List (Nat × Nat × Bool)) (spans : List Span) :
    Nat → List Transfer → List Transfer × State
  | _, [] => ([], s)
  | i, e :: l =>
    let (e, s) := if rowsMeet rows (64 + 16 * i) 16 spans then s.freeTransfer else (e, s)
    let (l, s) := s.spoilEntries rows spans (i + 1) l
    (e :: l, s)

/-- A write by another than the recorder into the buffer of a recording that is not EMPTY: the entries it meets are unpredictable
(R273). -/
def State.foreignWrite (s : State) (spans : List Span) : State :=
  s.launches.foldl (fun s (n, l) => l.recs.foldl (fun (s : State) (k, r) =>
    if r.state ≠ .empty ∧ rowsMeet r.buffer 64 (16 * r.entries.length) spans = true then
      let (entries, s) := s.spoilEntries r.buffer spans 0 r.entries
      match s.launch n with
      | some l => s.setLaunch n (l.setRec k { r with entries := entries })
      | none => s
    else s) s) s

/-- Every watchpoint of the package checked where a write is performed (R356), and what the write makes of a recording's buffer
(R273). -/
def State.watchWrite (s : State) (spans : List Span) (kind id : Nat) (skip : Option (Nat × Nat)) : State :=
  ({ s with cores := s.cores.map fun (c, k) =>
      (c, k.watchAll spans kind id (match skip with
        | some (d, x) => if d = c then some x else none
        | none => none)) } : State).foreignWrite spans

end Sys2Proof.Machine
end

