-- ==== Sys2Proof/Machine/Cache.lean ====
section
/-!
DEFINITION. Quad caches and homes: merges, recalls, drains and fetches (R203 to R206, R219 to R222, R229), the
dirty-range log (R408 to R411), L2 data (R198, R214), what recorders and replays do at a home (R262 to R270), the L1 (R199 to R201).
-/

namespace Sys2Proof.Machine

/-! ### Lines -/

/-- n bytes of a line from byte o. -/
def lineBytes (d : BitVec 512) (o n : Nat) : List Byte := (List.range n).map fun i => d.extractLsb' (8 * (o + i)) 8

/-- Bytes put into a line from byte o. -/
def setLine (d : BitVec 512) (o : Nat) : List Byte → BitVec 512
  | [] => d
  | b :: l => setLine (setBits d (8 * o) 8 b) (o + 1) l

/-- The mask of n bytes from byte o. -/
def byteMask (o n : Nat) : BitVec 64 := BitVec.ofNat 64 ((2 ^ n - 1) * 2 ^ o)

/-- A line with the bytes of a mask taken from another. -/
def underMask (base upper : BitVec 512) (mask : BitVec 64) : BitVec 512 :=
  (List.range 64).foldl (fun d i => if mask.getLsbD i then setBits d (8 * i) 8 (upper.extractLsb' (8 * i) 8) else d) base

/-- A line as its home holds it. -/
def State.homeLine (s : State) (line : Nat) : BitVec 512 := BitVec.ofNat 512 (Memory.nat s.mem (line * 64) 64)

/-- Bytes written at their home. -/
def State.putMem (s : State) (key : Nat) (b : List Byte) : State := { s with mem := Memory.store s.mem key b }

/-- An 8-byte number at its home. -/
def State.memWord (s : State) (key : Nat) : Word := BitVec.ofNat 64 (Memory.nat s.mem key 8)
def State.putWord (s : State) (key : Nat) (v : Word) : State := s.putMem key (leBytes 8 v.toNat)

/-- Bytes written into a core's instruction store; what its halfwords held before may still be fetched until its next FFENCE
(R246). -/
def State.putIstore (s : State) (key : Nat) (b : List Byte) : State :=
  let c := (key - istoreKey 0 0) / 2 ^ 16
  let a := key % 2 ^ 16 / 2 * 2
  let old := (List.range ((key % 2 + b.length + 1) / 2)).map fun i =>
    (a + 2 * i, BitVec.ofNat 16 (Memory.nat s.mem (istoreKey c (a + 2 * i)) 2))
  (s.updCore c fun k => { k with stale := old ++ k.stale }).putMem key b

/-- Waits on the words of lines that their homes have just written: one whose value is now large enough is over, whatever follows
before the context runs again (R339, R342). -/
def State.metLines (s : State) (inside : Nat → Bool) : State :=
  let met (t : Ctx) : Ctx :=
    match t.wait with
    | some (.word key v) | some (.sync key (.atLeast v)) =>
      if inside (key / 64) = true ∧ v.ule (s.memWord key) = true then { t with held := t.held.or (some 0) } else t
    | _ => t
  { s with cores := s.cores.mapVals fun _ k => { k with ctxs := mapVec met k.ctxs } }

/-- The same for one line. -/
def State.metWords (s : State) (line : Nat) : State := s.metLines (· == line)

/-! ### Homes (R204) and the dirty-range log (R408 to R411) -/

def homeDie (pa : Nat) : Nat := (pa / 2 ^ 6 % 4) ^^^ (pa / 2 ^ 16 % 4)
def homeSlice (pa : Nat) : Nat := (pa / 2 ^ 8 % 128) ^^^ (pa / 2 ^ 18 % 128)

/-- The home slice of a line, of the 512 of the package. -/
def lineSlice (line : Nat) : Nat := homeDie (line * 64 % 2 ^ 52) * 128 + homeSlice (line * 64 % 2 ^ 52)

/-- A home logs a line: the slice's open entry is extended, or closed and another opened (R410). -/
def LogRing.add (g : LogRing) (launch line : Nat) : LogRing :=
  let target := line * 64 / 2 ^ 52
  let first := line * 64 % 2 ^ 52 / 64
  let slice := lineSlice line
  match g.openEntries.find slice with
  | some (la, t, f, n) =>
    if la = launch ∧ t = target ∧ f + n = first ∧ n < 4096 then
      { g with openEntries := g.openEntries.put slice (la, t, f, n + 1) }
    else
      { g with
        openEntries := g.openEntries.put slice (launch, target, first, 1)
        closed := g.closed ++ [(slice, (la, t, f, n))] }
  | none => { g with openEntries := g.openEntries.put slice (launch, target, first, 1) }

/-- Lines an L2 slice has room for: 1.5 MiB (R198). -/
def sliceLines : Nat := 24576

/-- An L2 slice takes the dirty data of a line; where all its lines are dirty a chosen one goes to its target (R198; log entry
12). -/
def State.l2Keep (s : State) (line : Nat) : State :=
  if s.l2dirty.contains line then s
  else
    let ways := s.l2dirty.filter fun l => lineSlice l == lineSlice line
    if ways.length < sliceLines then { s with l2dirty := line :: s.l2dirty }
    else
      let (i, s) := s.pick ways.length
      { s with l2dirty := line :: s.l2dirty.filter fun l => ways[i]? != some l }

/-- The slices take the dirty data of many lines at once, those of one slice together within its room, else one after another (R2,
R198). -/
def State.l2KeepAll (s : State) (lines : List Nat) : State :=
  let rest := s.l2dirty.filter fun l => !lines.contains l
  if rest.length + lines.length ≤ sliceLines then { s with l2dirty := rest ++ lines } else lines.foldl State.l2Keep s

/-- L2 data of a line goes to its target: a slice's replacement, or a policy that keeps none (R198, R214). -/
def State.l2Drop (s : State) (line : Nat) : State := { s with l2dirty := s.l2dirty.filter fun l => l != line }

/-- Windows of tile reads of a line close (R223). -/
def State.closeTiles (s : State) (line : Nat) : State := { s with tileReads := s.tileReads.filter fun w => !w.lines.contains line }

/-- A write reaches a line's home: its L2 copy is dirty, unless L2 keeps no data of the line; where there was no dirty copy the
line is logged when the page says so (R214, R410). Tile reads of the line are served afresh (R223), after a write performed at the
home as after a merge, since a later reader must see either (R233, R242; log entry 60). -/
def State.dirtyLine (s : State) (launch line : Nat) (log keep : Bool) : State :=
  if line * 64 ≥ 3 * 2 ^ 52 then s
  else
    let s := s.closeTiles line
    let s := if log ∧ s.l2dirty.contains line = false then { s with log := s.log.map (·.add launch line) } else s
    if keep then s.l2Keep line else s.l2Drop line

/-! ### Quad caches (R203, R205) -/

/-- Set of a line among the 256 of a quad cache (log entry 12). -/
def cacheSet (line : Nat) : Nat := line % 256

def State.cacheLine (s : State) (q line : Nat) : Option CacheLine := (s.quad q).cache.find line
def State.putLine (s : State) (q line : Nat) (e : CacheLine) : State :=
  s.updQuad q fun k => { k with cache := k.cache.put line e }
def State.dropLine (s : State) (q line : Nat) : State := s.updQuad q fun k => { k with cache := k.cache.del line }

/-- A recording of a launch; none when the launch has left. -/
def State.recording (s : State) (launch n : Nat) : Option Recording := (s.launch launch).map fun l => l.recording n
def State.setRec (s : State) (launch n : Nat) (r : Recording) : State :=
  match s.launch launch with
  | some l => s.setLaunch launch (l.setRec n r)
  | none => s

/-- The home keeps the tag of the last tagged merge of a line, whatever its launch, while some recording has a record round open
(R263). -/
def State.keepTag (s : State) (line : Nat) (t : Option Tag) : State :=
  match t with
  | none => s
  | some g => if s.recordsOpen then { s with tags := s.tags.put line g } else s

/-- Pushes of lines still on their way carry a value that a later merge or write overtakes (R237). -/
def State.staleLines (s : State) (inside : Nat → Bool) : State :=
  let mark (k : Quad) : Quad :=
    { k with pushes := k.pushes.map fun p => if inside p.line then { p with stale := true } else p }
  { s with quads := s.quads.mapVals fun _ k => mark k }

/-- The same for one line. -/
def State.stalePushes (s : State) (line : Nat) : State := s.staleLines (· == line)

/-- Bytes written by other than a ring's or a barrier's own operations leave the object's state unpredictable (R320, R322). -/
def State.spoil (s : State) (key len : Nat) : State :=
  { s with syncObjs := s.syncObjs.mapVals fun o b =>
      if o * 32 < key + len ∧ key < o * 32 + 32 then { b with wild := true } else b }

/-- The same for the dirty bytes of a line. -/
def State.spoilLine (s : State) (line : Nat) (dirty : BitVec 64) : State :=
  let half (s : State) (i : Nat) : State := if (dirty.extractLsb' (32 * i) 32 : BitVec 32) = 0 then s else s.spoil (line * 64 + 32 * i) 32
  half (half s 0) 1

/-- A write reaches words while no launch runs: each is at version 0, with the value written, and no object's word any more (R301; log
entries 13, 64). -/
def State.resetWords (s : State) (inside : Nat → Bool) : State :=
  if s.launches.all fun (_, l) => l.state == .suspended then
    { s with
      vwords := s.vwords.filter fun (w, _) => !inside w
      syncObjs := s.syncObjs.filter fun (o, _) => !(List.range 4).any fun i => inside (4 * o + i) }
  else s

/-- The same for the words that hold bytes of spans. -/
def State.resetSpans (s : State) (spans : List Span) : State :=
  s.resetWords fun w => spans.any fun p => decide (8 * w < p.key + p.len ∧ p.key < 8 * w + 8)

/-- The same for the dirty bytes of a line. -/
def State.resetLine (s : State) (line : Nat) (dirty : BitVec 64) : State :=
  s.resetWords fun w => w / 8 == line && (dirty.extractLsb' (8 * (w % 8)) 8 : BitVec 8) != 0

/-- One quad's dirty bytes of a line merge at the home; the quad's copy stays, Shared (the spec does not say whether it does: DESIGN
CHOICE, log entry 66). -/
def State.mergeOne (s : State) (q line : Nat) : State :=
  match s.cacheLine q line with
  | none => s
  | some e =>
    if e.dirty = 0 then s.putLine q line { e with writable := false }
    else
      let s := s.putMem (line * 64) (lineBytes (underMask (s.homeLine line) e.data e.dirty) 0 64)
      let s := ((s.dirtyLine e.launch line e.log !e.noL2).keepTag line e.tag).stalePushes line
      let s := ((s.metWords line).spoilLine line e.dirty).resetLine line e.dirty
      s.putLine q line { e with writable := false, dirty := 0, objs := [], tag := none, log := false }

/-- A quad holds dirty bytes of a line. -/
def Quad.dirtyAt (k : Quad) (line : Nat) : Bool :=
  match k.cache.find line with
  | some e => e.dirty != 0
  | none => false

/-- Every other quad's copy of a line returns its dirty bytes and is invalidated (R205). -/
def State.invalidateOthers (s : State) (q line : Nat) : State :=
  (s.quads.filter fun (p, k) => p != q && (k.cache.find line).isSome).foldl
    (fun s (p, _) => (s.mergeOne p line).dropLine p line) s

/-- A merge of a quad's dirty bytes (R205). The quad keeps its line unless another quad's bytes merged after its own. -/
def State.mergeLine (s : State) (q line : Nat) : State :=
  let stale := s.quads.any fun (p, k) => p != q && k.dirtyAt line
  let s := (s.mergeOne q line).invalidateOthers q line
  if stale then s.dropLine q line else s

/-- A merge of an evicted line's dirty bytes: the other quads' dirty bytes merge after them and their copies go, but the
invalidations of clean copies are still on their way (R205, R243). -/
def State.mergeLate (s : State) (q line : Nat) : State :=
  let s := s.mergeOne q line
  let s := (s.quads.filter fun (p, k) => p != q && k.dirtyAt line).foldl
    (fun s (p, _) => (s.mergeOne p line).dropLine p line) s
  { s with quads := s.quads.mapVals fun p k =>
      if p = q then k
      else
        match k.cache.find line with
        | some e => { k with cache := k.cache.put line { e with doomed := true } }
        | none => k }

/-- Every invalidation on its way has arrived and been acknowledged (R220, R290). -/
def State.acknowledged (s : State) : State :=
  { s with quads := s.quads.mapVals fun _ k => { k with cache := k.cache.filter fun e => !((k.cache.find e.1).map (·.doomed)).getD false } }

/-- A home recalls a line: every quad's dirty bytes merge and every copy is invalidated (R222, R229). -/
def State.recall (s : State) (line : Nat) : State :=
  let s := s.stalePushes line
  (s.quads.filter fun (_, k) => (k.cache.find line).isSome).foldl
    (fun s (p, _) => (s.mergeOne p line).dropLine p line) s

/-- Recalls of every line that spans touch. -/
def State.recallSpans (s : State) (spans : List Span) : State :=
  (linePieces spans).foldl (fun s p => s.recall (p.key / 64)) s

/-- A read at a line's home: the quads' dirty bytes merge first, and their merge takes the other quads' copies; where none holds any,
nothing changes (R205, R229). -/
def State.mergeHome (s : State) (line : Nat) : State :=
  match s.quads.find? fun (_, k) => k.dirtyAt line with
  | some (q, _) => s.mergeLine q line
  | none => s

/-- The same for every line that spans touch. -/
def State.mergeSpans (s : State) (spans : List Span) : State :=
  (linePieces spans).foldl (fun s p => s.mergeHome (p.key / 64)) s

/-- L2 keeps no data of lines accessed at their homes through a GLOBAL handle whose policy says so (R214). -/
def State.l2Leave (s : State) (h : BitVec 256) (spans : List Span) : State :=
  if hSpace h = spGlobal ∧ hPolicy h = 3 then (linePieces spans).foldl (fun s p => s.l2Drop (p.key / 64)) s else s

/-- A quad drained: the dirty lines that hold bytes of the objects named, or all of them (R219, R220, R290). -/
def State.drainQuad (s : State) (q : Nat) (objs : Option (List Nat)) : State :=
  ((s.quad q).cache.filter fun (_, e) => e.dirty != 0 && match objs with
    | none => true
    | some l => e.objs.any l.contains).foldl (fun s (line, _) => s.mergeLine q line) s

/-- The same with every invalidation that merges have caused acknowledged (R220, R289, R290). -/
def State.drainAll (s : State) (q : Nat) (objs : Option (List Nat)) : State := (s.drainQuad q objs).acknowledged

/-- Room made in a set of a full quad cache: a stream line first, else a chosen one; its dirty bytes merge (R203,
R214). -/
def State.makeRoom (s : State) (q line : Nat) : State :=
  let ways := (s.quad q).cache.filter fun (l, _) => cacheSet l == cacheSet line
  if ways.length < 16 then s
  else
    let (i, s) := s.pick ways.length
    let victim := (findPlace (fun (e : Nat × CacheLine) => e.2.stream) ways).map (·.1) |>.getD i
    match ways[victim]? with
    | none => s
    | some (l, e) =>
      let s := if e.dirty ≠ 0 then s.mergeLate q l else s
      s.dropLine q l

/-- A line placed in a quad cache. -/
def State.allocate (s : State) (q line : Nat) (e : CacheLine) : State := (s.makeRoom q line).putLine q line e

/-! ### Coherence objects (R218) -/

/-- The launch's default object. -/
def defaultObj (launch : Nat) : Nat := 16384 + launch

/-- Lowest and highest sum that dimensions can add to an element's offset. -/
def reach : List (Nat × Int) → Int × Int
  | [] => (0, 0)
  | (n, st) :: l =>
    let (lo, hi) := reach l
    let far := ((n : Int) - 1) * st
    (lo + min 0 far, hi + max 0 far)

/-- Some element of a shape meets the bytes from lo up to hi. -/
def shapeMeets (lo hi size : Int) : List (Nat × Int) → Int → Bool
  | [], a => decide (a < hi ∧ lo < a + size)
  | (n, st) :: l, a =>
    let (mn, mx) := reach l
    if st = 0 then decide (0 < n) && shapeMeets lo hi size l a
    else
      -- indices i with x ≤ i * st ≤ y
      let x := lo - size - mx - a + 1
      let y := hi - 1 - mn - a
      let first : Int := if st > 0 then -((-x) / st) else -(y / (-st))
      let last : Int := if st > 0 then y / st else (-x) / (-st)
      let i0 := (max first 0).toNat
      let i1 := (min last (n - 1)).toNat
      decide (first ≤ last ∧ 0 ≤ last ∧ first < n) &&
        (List.range (i1 + 1 - i0)).any fun k => shapeMeets lo hi size l (a + ((i0 + k : Nat) : Int) * st)

/-- The dimensions of a shape record: extents and strides. -/
def shapeDims (sh : BitVec 512) : List (Nat × Int) :=
  (List.range (field sh 16 8)).map fun k => (field sh (64 + 32 * k) 32, (sh.extractLsb' (192 + 64 * k) 64).toInt)

/-- log2 of the element size, as bytes. -/
def shapeSize (sh : BitVec 512) : Nat := 2 ^ field sh 24 2

/-- An element of a shape whose handle has this base meets the 64 bytes from an address. -/
def shapeAt (shape : BitVec 512) (base a : Nat) : Bool :=
  shapeMeets a (a + 64) (shapeSize shape) (shapeDims shape) (base + field shape 32 32 : Nat)

/-- A test holds for some virtual address of a line, among the pages of n granules of 64 KiB from one on (R216). -/
def aliasAny (m : List Host.Cell) (root line : Nat) (p : Nat → Bool) : Nat → Nat → Bool
  | 0, _ => false
  | n + 1, g =>
    (match translateByte m [] root (g * 2 ^ 16 % 2 ^ 48) false false with
      | .ok (pl, _) => pl.key / 2 ^ 16 == line * 64 / 2 ^ 16 && p (g * 2 ^ 16 + line * 64 % 2 ^ 16)
      | .error _ => false) || aliasAny m root line p n (g + 1)

/-- The object an access through a handle is tracked under: the handle's object, declared by this launch, when the
access's line holds a byte of one of its elements, at the address of the access or at another one of the same physical line; else
the default object (R218, R295). -/
def State.objOf (s : State) (launch : Nat) (l : Launch) (h : BitVec 256) (va line : Nat) : Nat :=
  match hObj h with
  | none => defaultObj launch
  | some o =>
    match s.objects.find o with
    | none => defaultObj launch
    | some d =>
      match l.handles.find (field d.shape 0 12) with
      | none => defaultObj launch
      | some sh =>
        let (lo, hi) := reach (shapeDims d.shape)
        let origin : Int := (hBase sh + field d.shape 32 32 : Nat)
        let first := (origin + lo).toNat / 2 ^ 16
        let last := (origin + hi + shapeSize d.shape).toNat / 2 ^ 16
        let at_ (a : Nat) : Bool := shapeAt d.shape (hBase sh) a
        if d.launch = launch ∧ (at_ (va / 64 * 64) || aliasAny s.mem l.root line at_ (last + 1 - first) first) = true then o
        else defaultObj launch

/-! ### Recorders and departures (R264, R265, R269, R270) -/

def sat32 (n : Nat) : Nat := min n (2 ^ 32 - 1)

/-- The open round departs once more; past THRESH the recording falls back (R269, R270). -/
def Recording.depart (r : Recording) (n : Nat) : Recording :=
  let r := { r with rdep := r.rdep + n, tdep := sat32 (r.tdep + n) }
  if r.rdep > r.thresh ∧ r.state = .replaying then { r with state := .fallback, fb := true } else r

/-- A transfer offered to a recording: held already, of an object bound elsewhere, with no room, or recorded; and whether
its object becomes bound (R264, R265). -/
def Recording.offer (r : Recording) (n : Nat) (bound : Option Nat) (e : Transfer) : Recording × Bool :=
  if r.entries.any fun k => { k with dead := e.dead } == e then (r, false)
  else
    match bound with
    | some m =>
      if m ≠ n then
        ({ r with dropped := sat32 (r.dropped + 1), conflict := true, ovfl := r.ovfl || decide (r.entries.length ≥ r.cap) }, false)
      else if r.entries.length ≥ r.cap then ({ r with dropped := sat32 (r.dropped + 1), ovfl := true }, false)
      else ({ r with entries := r.entries ++ [e] }, false)
    | none =>
      if r.entries.length ≥ r.cap then ({ r with dropped := sat32 (r.dropped + 1), ovfl := true }, false)
      else ({ r with entries := r.entries ++ [e], objs := r.objs ++ [e.obj] }, true)

/-- A read from quad q reaches a GLOBAL line's home through a handle with REC = 1, tracked under a declared object. -/
def State.homeRead (s : State) (q line launch obj : Nat) : State :=
  match s.objects.find obj with
  | none => s
  | some d =>
    let s :=
      match s.tags.find line with
      | some g =>
        if g.launch = launch ∧ g.quad ≠ q then
          match s.recording launch g.recNo with
          | some r =>
            if r.state = .recording then
              let (r, binds) := r.offer g.recNo d.boundTo ⟨obj, line, g.quad, q, g.stream, g.ordinal, false⟩
              let s := s.setRec launch g.recNo r
              if binds then { s with objects := s.objects.put obj { d with boundTo := some g.recNo } } else s
            else s
          | none => s
        else s
      | none => s
    match d.boundTo with
    | some n =>
      match s.recording launch n with
      | some r =>
        if r.state = .replaying ∧ !(r.entries.any fun e => e.line == line && e.cquad == q) ∧
            (r.pushers.find? fun p => p.1 == line).map (·.2) ≠ some q
        then s.setRec launch n (r.depart 1) else s
      | none => s
    | none => s

/-! ### Reads (R199 to R203, R222) -/

/-- What a read finds: its bytes, a reason to wait, or an uncorrectable error, with what the read has done up to there. -/
inductive Found (α : Type) where
  | ok (s : State) (a : α)
  | wait (w : Wait)
  | bad (s : State)

/-- Bytes of a span hold an uncorrectable error (R104, R202, R209); `poison` lists keys of 8-byte units. -/
def State.poisoned (s : State) (key len : Nat) : Bool :=
  s.poison.any fun u => decide (u * 8 < key + len ∧ key < u * 8 + 8)

/-- A push is consumed: USED counts it while its recording lasts, and it is no departure of its round (R268, R271). -/
def Recording.use (r : Recording) (p : PushId) : Recording :=
  let r := if p.round > r.since then { r with used := sat32 (r.used + 1) } else r
  match p.obj with
  | some o =>
    if p.round = r.roundCtr then
      { r with unconsumed := r.unconsumed - 1, unusedBy := r.unusedBy.put o ((r.unusedBy.find o).getD 0 - 1) }
    else r
  | none => r

/-- The first read by a core that a pushed copy serves consumes the push (R268). -/
def State.consume (s : State) (q line : Nat) (e : CacheLine) : State :=
  match e.pushed with
  | none => s
  | some p =>
    let s := s.putLine q line { e with pushed := none }
    match s.recording p.launch p.recNo with
    | some r => s.setRec p.launch p.recNo (r.use p)
    | none => s

/-- What a read knows of its handle: launch, object if the handle records, stream policy, a policy that keeps no L2 data; whether the
access it belongs to has reached an earlier line; and whether an engine makes it, which consumes no push (R268). -/
structure ReadInfo where
  launch : Nat
  obj : Option Nat
  stream : Bool
  noL2 : Bool
  begun : Bool := false
  engine : Bool := false

/-- The home takes note of a read of a line from a quad, through a handle that records (R264, R269). -/
def State.noteRead (s : State) (q line : Nat) (i : ReadInfo) : State :=
  match i.obj with
  | some obj => s.homeRead q line i.launch obj
  | none => s

/-- The weight-store bank in refresh: WSPHASE of R208 (R207). -/
def State.refreshBank (s : State) : Nat := s.mesh / 240 % 32

/-- A line of a weight store whose bank is in its refresh window (R206, R207). An access of many lines, of the lanes of VLDS or of an
engine's chunk, waits so for the first; the model lets it reach the others in one step, whose cycles outlast any window (log
entry 65). -/
def State.refreshing (s : State) (line : Nat) : Bool :=
  decide (8 * 2 ^ 52 ≤ line * 64 ∧ line * 64 < 16 * 2 ^ 52) && line % 32 == s.refreshBank

/-- The first of these bytes reaches a bank in its window. -/
def State.refreshAt (s : State) (spans : List Span) : Bool := (spans.head?.map fun p => s.refreshing (p.key / 64)).getD false

/-- A line read at a quad's cache, fetched from its home where the cache lacks the bytes [o, o + n). -/
def State.quadRead (s : State) (q line o n : Nat) (i : ReadInfo) : Found (BitVec 512) :=
  let need := byteMask o n
  let fetch (old : Option CacheLine) : Found (BitVec 512) :=
    if (s.owners.find line).isSome then .wait (.miss line)
    else if !i.begun && s.refreshing line then .wait .refresh
    else if s.poisoned (line * 64 + o) n then .bad s
    else
      let data :=
        match old with
        | some e => underMask (s.homeLine line) e.data e.dirty
        | none => s.homeLine line
      let s := s.noteRead q line i
      let s := if i.noL2 then s.l2Drop line else s
      if s.poisoned (line * 64) 64 then .ok s data
      else
        match old with
        | some e => .ok (s.putLine q line { e with data := data, valid := BitVec.allOnes 64, doomed := false }) data
        | none =>
          .ok (s.allocate q line ⟨false, data, BitVec.allOnes 64, 0, [], none, false, i.launch, none, i.stream, i.noL2, false⟩) data
  match s.cacheLine q line with
  | some e =>
    if e.valid &&& need = need then .ok (if i.engine then s else s.consume q line e) e.data else fetch (some e)
  | none => fetch none

/-- The stores of a context that are released and not performed, laid over a line (R233). -/
def overlay (stores : List StoreRec) (x line : Nat) (d : BitVec 512) : BitVec 512 :=
  stores.foldl (fun d r =>
    match r.dest with
    | .cached .. => if r.ctx = x ∧ r.addr / 64 = line then setLine d (r.addr % 64) r.bytes else d
    | _ => d) d

/-- A read of a line waits for a released store to it of another context of the core, which the fill would miss, and for one of
its own that is performed at a home (R233, R234). -/
def readWaits (stores : List StoreRec) (x line : Nat) : Bool :=
  stores.any fun r => r.addr / 64 == line && match r.dest with
    | .cached .. => r.ctx != x
    | .home .. => true
    | .remote .. => false

/-- Set of a line among the 128 of an L1 (log entry 12). -/
def l1Set (line : Nat) : Nat := line % 128

/-- A line allocated in a core's L1 over a chosen one of a full set (R199, R200). -/
def State.l1Allocate (s : State) (c line : Nat) (d : BitVec 512) : State :=
  let ways := (s.core c).l1.filter fun (l, _) => l1Set l == l1Set line
  let (i, s) := if ways.length < 4 then (ways.length, s) else s.pick ways.length
  s.updCore c fun k =>
    let l1 := match ways[i]? with
      | some (l, _) => k.l1.del l
      | none => k.l1
    { k with l1 := l1.put line ⟨d, false⟩ }

/-- The L1's copy of a line; a line with a parity error is a miss, invalidated and counted (R201). -/
def State.l1Lookup (s : State) (c line : Nat) : Option (BitVec 512) × State :=
  match (s.core c).l1.find line with
  | none => (none, s)
  | some e =>
    if e.bad then
      (none, s.updCore c fun k =>
        { k with l1 := k.l1.del line, parityRefetches := sat48 (k.parityRefetches + 1) })
    else (some e.data, s)

/-- A load of bytes of one GLOBAL or WEIGHT line by a core's context. `nc` is LD.nc's treatment of the L1, which policy
L1-bypass gives to every load; the stream policy does not allocate there (R107, R199, R214). -/
def State.loadLine (s : State) (c : Nat) (x : Fin 8) (p : Span) (policy : Nat) (nc : Bool) (i : ReadInfo) :
    Found (List Byte) :=
  let line := p.key / 64
  let o := p.key % 64
  let nc := nc || policy == 1
  let (hit, s) := if nc then (none, s) else s.l1Lookup c line
  match hit with
  | some d => .ok s (lineBytes d o p.len)
  | none =>
    if readWaits (s.core c).stores x.val line then .wait .drain
    else
      match s.quadRead (quadOf c) line o p.len i with
      | .wait w => .wait w
      | .bad s => .bad s
      | .ok s d =>
        let d := overlay (s.core c).stores x.val line d
        let s := if nc || policy == 2 || s.poisoned (line * 64) 64 then s else s.l1Allocate c line d
        .ok s (lineBytes d o p.len)

/-- Bytes that a core's store writes through its L1, where it holds the line (R199). -/
def Core.l1Write (k : Core) (key : Nat) (b : List Byte) : Core :=
  match k.l1.find (key / 64) with
  | some e => { k with l1 := k.l1.put (key / 64) { e with data := setLine e.data (key % 64) b } }
  | none => k

/-- Every line of a core's L1 invalidated (R200). -/
def Core.l1Clear (k : Core) : Core := { k with l1 := [] }

/-! ### Releases and acquires (R219 to R221, R229) -/

/-- The objects a quad holds dirty. -/
def Quad.dirtyObjs (k : Quad) : List Nat :=
  (k.cache.foldl (fun l (_, e) => if e.dirty ≠ 0 then l ++ e.objs else l) []).eraseDups

/-- The home of a word records a release by quad q; a ninth quad drains the oldest one listed (R219). -/
def State.recordRelease (s : State) (word q : Nat) : State :=
  let objs := (s.quad q).dirtyObjs
  let l := ((s.releases.find word).map (·.quads)).getD []
  match findPlace (fun (e : Nat × List Nat) => e.1 == q) l with
  | some (i, e) =>
    { s with releases := s.releases.put word ⟨setPlace l i (q, (e.2 ++ objs).eraseDups)⟩ }
  | none =>
    match l with
    | (p, os) :: rest =>
      if l.length ≥ 8 then
        let s := s.drainAll p (some os)
        { s with releases := s.releases.put word ⟨rest ++ [(q, objs)]⟩ }
      else { s with releases := s.releases.put word ⟨l ++ [(q, objs)]⟩ }
    | [] => { s with releases := s.releases.put word ⟨[(q, objs)]⟩ }

/-- The same for every word of an object that an update has written: an acquire may read any of them (R231). -/
def State.recordReleases (s : State) (key len q : Nat) : State :=
  (List.range ((len + 7) / 8)).foldl (fun s i => s.recordRelease (key / 8 + i) q) s

/-- An acquire of a word from quad q: every other quad listed drains its recorded objects and leaves the record, and the
invalidations that merges have caused are acknowledged (R220). -/
def State.acquire (s : State) (word q : Nat) : State :=
  match s.releases.find word with
  | none => s.acknowledged
  | some r =>
    let s := ((r.quads.filter fun e => e.1 != q).foldl (fun s e => s.drainQuad e.1 (some e.2)) s).acknowledged
    let left := r.quads.filter fun e => e.1 == q
    { s with releases := if left.isEmpty then s.releases.del word else s.releases.put word ⟨left⟩ }

/-- A write performed at the homes of its bytes: dirty copies are recalled, every copy is invalidated, the bytes are written and
logged, and L2 keeps the lines or, by the policy of the access, does not (R205, R214, R222, R229). -/
def State.writeHomes (s : State) (spans : List Span) (b : List Byte) (launch : Nat) (keep : Bool) : State :=
  let s := s.recallSpans spans
  let s := (withBytes spans b).foldl (fun s (p, b) => (s.putMem p.key b).spoil p.key b.length) s
  (linePieces spans).foldl (fun s p => (s.dirtyLine launch (p.key / 64) p.log keep).metWords (p.key / 64)) s

/-- A write of the memory system itself. -/
def State.quietWrite (s : State) (spans : List Span) (b : List Byte) (launch : Nat) : State := s.writeHomes spans b launch true

/-- A write of a core or an engine through a handle whose policy may keep no L2 data: it is also watched (R214, R356). -/
def State.policyWrite (s : State) (spans : List Span) (b : List Byte) (launch policy kind id : Nat) (skip : Option (Nat × Nat)) :
    State :=
  (s.writeHomes spans b launch (policy != 3)).watchWrite spans kind id skip

/-- A write of an engine, a link, a command processor or the host: it is also watched (R356). -/
def State.homeWrite (s : State) (spans : List Span) (b : List Byte) (launch kind id : Nat) (skip : Option (Nat × Nat)) :
    State :=
  (s.quietWrite spans b launch).watchWrite spans kind id skip

/-! ### The entries of the dirty-range log (R410) -/

/-- The entry that a slice writes next: the oldest closed one, else the open one. -/
def LogRing.due (g : LogRing) (slice : Nat) : Option (Nat × Nat × Nat × Nat) :=
  ((g.closed.find? fun e => e.1 == slice).map (·.2)).or (g.openEntries.find slice)

/-- The log without that entry. -/
def LogRing.taken (g : LogRing) (slice : Nat) : LogRing :=
  match findPlace (fun (e : Nat × (Nat × Nat × Nat × Nat)) => e.1 == slice) g.closed with
  | some (i, _) => { g with closed := dropPlace g.closed i }
  | none => { g with openEntries := g.openEntries.del slice }

/-- The bytes of a log entry (R410). -/
def logEntry (launch target line lines : Nat) : List Byte :=
  leBytes 16 (target * 2 ^ 4 + line % 2 ^ 46 * 2 ^ 6 + (lines - 1) * 2 ^ 52 + launch * 2 ^ 64)

end Sys2Proof.Machine
end

