-- ==== Sys2Proof/Machine/Sync.lean ====
section
/-!
DEFINITION. Versioned words (R240, R293, R294, R301), ring objects (R319, R320, R336), barrier objects (R241, R321, R322,
R338), and the performing of a released store (R203, R213, R229, R284), with the push it may fire (R263, R267).
-/

namespace Sys2Proof.Machine

/-! ### Versioned words -/

/-- The version record of a SYNC word; a new word is at version 0, holding what its place holds (R240, R301). -/
def State.vword (s : State) (key : Nat) : VWordRec :=
  (s.vwords.find (key / 8)).getD ⟨0, [(0, s.memWord key)], []⟩

/-- A value goes to a fill slot that waits for it. -/
def Ctx.deliver (t : Ctx) (slot : Nat) (v : Word) (err : Bool) : Ctx :=
  match t.fills.find slot with
  | some f => { t with fills := t.fills.put slot { f with value := some v, err := err } }
  | none => t

/-- The versions held once version n, the latest, has value v: the oldest of four retires, and one below n − 3 is held no more (R240). -/
def heldWith (held : List (BitVec 32 × Word)) (n : BitVec 32) (v : Word) : List (BitVec 32 × Word) :=
  ((if held.length ≥ 4 then held.drop 1 else held).filter fun e => decide ((n - e.1).toNat ≤ 3)) ++ [(n, v)]

/-- The next version is created; requests for it get its value (R240). -/
def State.createVersion (s : State) (key : Nat) (v : Word) : State :=
  let w := s.vword key
  let n := w.last + 1
  let held := heldWith w.held n v
  let due := w.waiting.filter fun r => r.2.2.2 == n
  let s := s.putWord key v
  let s := { s with vwords := s.vwords.put (key / 8) ⟨n, held, w.waiting.filter fun r => r.2.2.2 != n⟩ }
  due.foldl (fun s r => s.updCtx r.1 (Fin.ofNat 8 r.2.1) fun t => t.deliver r.2.2.1 v false) s

/-- VRECL: every held version below its operand retires (R294). -/
def State.retireVersions (s : State) (key : Nat) (n : BitVec 32) : State :=
  let w := s.vword key
  let below (m : BitVec 32) : Bool := decide (1 ≤ (n - m).toNat ∧ (n - m).toNat ≤ 2 ^ 31 - 1)
  { s with vwords := s.vwords.put (key / 8) { w with held := w.held.filter fun e => !below e.1 } }

/-! ### Ring and barrier objects -/

def State.syncObj (s : State) (key : Nat) : Option SyncObj := s.syncObjs.find (key / 32)

def SyncKind.isRing : SyncKind → Bool
  | .ring _ => true
  | .barrier => false

/-- An operation of rings on a barrier object, or of barriers on a ring, is a foreign write of it. -/
def State.meet (s : State) (key : Nat) (ring : Bool) : State :=
  match s.syncObj key with
  | some o => if o.kind.isRing = ring then s else s.spoil key 1
  | none => s

/-- A place that holds an object of the other kind, or one in an unpredictable state, has no known state for an operation; nor, by
the model's choice, has one that no RAINIT or BARINIT has made an object, or that a write has reset while no launch ran (log entry
64). -/
def State.unknown (s : State) (key : Nat) (ring : Bool) : Bool :=
  match s.syncObj key with
  | some o => o.wild || o.kind.isRing != ring
  | none => true

/-- Four words of an object, for an operation of its kind: unconstrained ones when its state is unpredictable. -/
def State.objWords (s : State) (key : Nat) (ring : Bool) : (Word × Word × Word × Word) × State :=
  if s.unknown key ring then
    let (a, s) := s.free
    let (b, s) := s.free
    let (c, s) := s.free
    let (d, s) := s.free
    ((a, b, c, d), s)
  else ((s.memWord key, s.memWord (key + 8), s.memWord (key + 16), s.memWord (key + 24)), s)

def State.putWords (s : State) (key : Nat) (a b c d : Word) : State :=
  (((s.putWord key a).putWord (key + 8) b).putWord (key + 16) c).putWord (key + 24) d

def lowHalf (w : Word) : BitVec 32 := w.setWidth 32
def highHalf (w : Word) : BitVec 32 := w.extractLsb' 32 32
def joinHalves (hi lo : BitVec 32) : Word := hi ++ lo

/-- RAINITs that a place has had. -/
def State.ringGen (s : State) (key : Nat) : Nat := ((s.syncObj key).map (·.gen)).getD 0

/-- Filled slots of a ring that WR has not passed. -/
def State.ringFilled (s : State) (key : Nat) : List (BitVec 32) :=
  match s.syncObj key with
  | some ⟨.ring f, _, _⟩ => f
  | _ => []

def State.setFilled (s : State) (key : Nat) (filled : List (BitVec 32)) : State :=
  match s.syncObj key with
  | some ⟨.ring _, g, w⟩ => { s with syncObjs := s.syncObjs.put (key / 32) ⟨.ring filled, g, w⟩ }
  | _ => s

/-- (x − y) mod 2^32 lies from 1 to 2^31 − 1. -/
def passed (x y : BitVec 32) : Bool := decide (1 ≤ (x - y).toNat ∧ (x - y).toNat ≤ 2 ^ 31 - 1)

/-- Slots of a ring (R319). -/
def ringSlots (w3 : Word) : Nat := field w3 24 16 + 1
/-- The offset of a slot (R320). -/
def slotOffset (w2 w3 : Word) (n : Nat) : Nat := field w2 0 48 + n % ringSlots w3 * field w3 0 24

/-- What RAWAIT on a slot retires with (R335). -/
def ringValue (w1 w2 w3 : Word) (slot : BitVec 32) : Word :=
  BitVec.ofNat 64 (field w1 32 1 * 2 ^ 63 + slotOffset w2 w3 slot.toNat)

/-- Waits at an object that its home has just updated: one whose phase or slot has come is over (R320, R339). -/
def State.metObject (s : State) (key : Nat) : State :=
  let met (t : Ctx) : Ctx :=
    match t.wait with
    | some (.sync k (.phase n)) =>
      if k = key ∧ s.unknown key false = false ∧ passed (lowHalf (s.memWord key)) n = true then { t with held := t.held.or (some 0) }
      else t
    | some (.sync k (.slot n)) =>
      if k = key ∧ s.unknown key true = false ∧ passed (lowHalf (s.memWord key)) n = true then
        { t with held := t.held.or (some (ringValue (s.memWord (key + 8)) (s.memWord (key + 16)) (s.memWord (key + 24)) n)) }
      else t
    | _ => t
  { s with cores := s.cores.mapVals fun _ k => { k with ctxs := mapVec met k.ctxs } }

/-- RAINIT (R335, R336). -/
def State.raInit (s : State) (key : Nat) (base w3 : Word) : State :=
  ({ s.putWords key 0 0 base w3 with
    syncObjs := s.syncObjs.put (key / 32) ⟨.ring [], s.ringGen key + 1, false⟩ } : State).metObject key

/-- RAREL: RD rises, or, on an empty ring, ERR is set (R320, R336). -/
def State.raRel (s : State) (key : Nat) : State :=
  let ((a, b, _, _), s) := (s.meet key true).objWords key true
  if lowHalf b = lowHalf a then s.putWord (key + 8) (b ||| 0x100000000)
  else s.putWord (key + 8) (joinHalves (highHalf b) (lowHalf b + 1))

/-- A reservation: the slot, its ring's generation, its offset and the slot size; none when the ring is full (R320). -/
def State.ringReserve (s : State) (key : Nat) : Option ((Nat × Nat × Nat) × Nat) × State :=
  let ((a, b, c, d), s) := (s.meet key true).objWords key true
  let res := highHalf a
  if (res - lowHalf b).toNat < ringSlots d then
    let s := s.putWord key (joinHalves (res + 1) (lowHalf a))
    (some ((res.toNat, s.ringGen key, slotOffset c d res.toNat), field d 0 24), s)
  else (none, s)

/-- WR past every filled slot that follows it (R320). -/
def ringAdvance : Nat → BitVec 32 → List (BitVec 32) → BitVec 32 × List (BitVec 32)
  | 0, wr, f => (wr, f)
  | n + 1, wr, f => if f.contains wr then ringAdvance n (wr + 1) (f.filter (· != wr)) else (wr, f)

/-- A slot's filled mark; a mark of a ring that has been rewritten is discarded and sets ERR (R314, R320, R336). -/
def State.ringFill (s : State) (key slot gen : Nat) (err : Bool) : State :=
  let ((a, b, _, _), s) := (s.meet key true).objWords key true
  if s.ringGen key ≠ gen then s.putWord (key + 8) (b ||| 0x100000000)
  else
    let f := s.ringFilled key ++ [BitVec.ofNat 32 slot]
    let (wr, f) := ringAdvance f.length (lowHalf a) f
    let s := s.putWord key (joinHalves (highHalf a) wr)
    let s := if err then s.putWord (key + 8) (b ||| 0x100000000) else s
    (s.setFilled key f).metObject key

/-- BARINIT (R321, R337). -/
def State.barInit (s : State) (key : Nat) (arr bytes : Word) : State :=
  let s := s.putWords key 0 (joinHalves (lowHalf arr) (lowHalf arr)) (bytes &&& 0xFFFFFFFFFFFF) (bytes &&& 0xFFFFFFFFFFFF)
  ({ s with syncObjs := s.syncObjs.put (key / 32) ⟨.barrier, s.ringGen key, false⟩ } : State).metObject key

/-- An update of a barrier object: n arrivals or n bytes subtracted, OVR on an excess, ERR on an error, and the advance
when both pending counts are zero (R241, R322). -/
def State.barUpdate (s : State) (key : Nat) (arrivals bytes : Nat) (err : Bool) : State :=
  let ((a, b, c, d), s) := (s.meet key false).objWords key false
  let pa := (highHalf b).toNat
  let pb := field d 0 48
  let excess := arrivals > pa ∨ bytes > pb
  let pa := pa - arrivals
  let pb := pb - bytes
  let a := a ||| (if excess then 0x100000000 else 0) ||| (if err then 0x200000000 else 0)
  if pa = 0 ∧ pb = 0 then
    (s.putWords key (joinHalves (highHalf a) (lowHalf a + 1)) (joinHalves (lowHalf b) (lowHalf b)) c
      (BitVec.ofNat 64 (field c 0 48))).metObject key
  else s.putWords key a (joinHalves (BitVec.ofNat 32 pa) (lowHalf b)) c (BitVec.ofNat 64 pb)

/-- An expectation added to PENDB, which stops at 2^48 − 1 with OVR (R322, R338). -/
def State.barExpect (s : State) (key n : Nat) : State :=
  let ((a, _, _, d), s) := (s.meet key false).objWords key false
  let v := field d 0 48 + n
  if v > 2 ^ 48 - 1 then (s.putWord key (a ||| 0x100000000)).putWord (key + 24) (BitVec.ofNat 64 (2 ^ 48 - 1))
  else s.putWord (key + 24) (BitVec.ofNat 64 v)

/-- An 8-byte write to a SYNC word: it creates a version, but within an object it is a foreign write (R293, R320,
R322). -/
def State.syncWrite (s : State) (key : Nat) (v : Word) : State :=
  let s :=
    match s.syncObj key with
    | some _ => (s.spoil key 8).putWord key v
    | none => s.createVersion key v
  s.metWords (key / 64)

/-- A write that reaches SYNC words while no launch runs makes each version 0; within a launch such a write replaces the latest value
(R301; log entry 13). -/
def State.plainWriteSync (s : State) (spans : List Span) : State :=
  let words := spans.flatMap fun p => (List.range ((p.key + p.len + 7) / 8 - p.key / 8)).map fun i => p.key / 8 + i
  words.foldl (fun (s : State) w =>
    match s.vwords.find w with
    | some r =>
      let v := s.memWord (w * 8)
      { s with vwords := s.vwords.put w { r with held := r.held.map fun e => if e.1 = r.last then (e.1, v) else e } }
    | none => s) (s.resetSpans spans)

/-- The same for a range of whole words, all at once; where no launch runs an object's record goes with its words' versions (R301, R320,
R322; DESIGN CHOICE, log entry 64). -/
def State.plainRange (s : State) (key len : Nat) : State :=
  let first := key / 8
  let last := (key + len + 7) / 8
  let inside (w : Nat) : Bool := decide (first ≤ w ∧ w < last)
  let obj (o : Nat) : Bool := decide (first / 4 ≤ o ∧ 4 * o < last)
  if s.launches.all fun (_, l) => l.state == .suspended then s.resetWords inside
  else
    { s with
      syncObjs := s.syncObjs.mapVals fun o b => if obj o then { b with wild := true } else b
      vwords := s.vwords.mapVals fun w r =>
        if inside w then { r with held := r.held.map fun e => if e.1 = r.last then (e.1, s.memWord (w * 8)) else e } else r }

/-- A write of the memory system itself, with what it does to SYNC words it reaches (R301). -/
def State.ownWrite (s : State) (spans : List Span) (b : List Byte) : State := (s.quietWrite spans b 0).plainWriteSync spans

/-! ### Writing the dirty-range log (R410, R411) -/

/-- A log entry is written and PRODUCER then advanced, or, with the ring full, the entry is lost with OVF set; the homes write
both words themselves, so the release at .sys has nothing to drain (R410, R411). -/
def State.writeLog (s : State) (g : LogRing) (launch target line lines : Nat) : State :=
  let control : Span := ⟨g.control, 8, false⟩
  let s := s.mergeSpans [⟨g.control, 16, false⟩]
  let p := (s.memWord g.control).toNat
  let n := p % 2 ^ 63
  let ovf := p / 2 ^ 63 * 2 ^ 63
  if n - (s.memWord (g.control + 8)).toNat % 2 ^ 63 = g.count then
    s.ownWrite [control] (leBytes 8 (n + 2 ^ 63))
  else
    let s := s.ownWrite [⟨physKey 0 (g.base + 16 * (n % g.count)), 16, false⟩] (logEntry launch target line lines)
    s.ownWrite [control] (leBytes 8 (ovf + (n + 1) % 2 ^ 63))

/-- The next entry of a slice written (R410). -/
def State.flushLog (s : State) (slice : Nat) : State :=
  match s.log with
  | none => s
  | some g =>
    match g.due slice with
    | none => s
    | some (la, t, first, n) => ({ s with log := some (g.taken slice) } : State).writeLog g la t first n

/-! ### Performing a released store -/

/-- Stores of a context that its core has released and that are not performed, remote ones not acknowledged included. -/
def State.ownStores (s : State) (c x : Nat) : Bool :=
  ((s.core c).stores.any fun r => r.ctx == x) ||
  s.remotes.any fun r => r.core == c && r.ctx == x && r.slot.isNone

/-- Stores that a release of their context has gone by: a release fence at .ctx or .core, or a release store, which is still to be
performed itself but is seen in the core before (R228, R229, R289). -/
def passedStores : List StoreRec → List StoreRec
  | [] => []
  | r :: l => if r.fences != 0 || l.any fun b => b.ctx == r.ctx && b.rel then r :: passedStores l else passedStores l

/-- Some of these stores, or a remote one of the core on its way, is another context's that a release of it has gone by: a later release
of context x, which may follow that one in happens-before, waits for it (R231, R232). -/
def State.passedOpen (s : State) (c x : Nat) (stores : List StoreRec) : Bool :=
  ((passedStores stores).any fun r => r.ctx != x) ||
  s.remotes.any fun q => q.core == c && q.ctx != x && q.slot.isNone &&
    (q.fences != 0 || stores.any fun b => b.ctx == q.ctx && b.rel)

/-- A release of the context may not be made yet: a store of its own, or one of another context of the core that comes before it in
happens-before, is still to be performed (R132, R229, R232). -/
def State.storesOpen (s : State) (c x : Nat) : Bool := s.ownStores c x || s.passedOpen c x (s.core c).stores

/-- A store through an ORDERED handle. -/
def StoreDest.ordered : StoreDest → Bool
  | .home sp _ => sp == spOrdered
  | _ => false

/-- Two stores that must be performed in order: of one line, both ORDERED of one context, lanes of one VSTS, a release after an older
store of its context, or stores with a release fence between them (R213, R228, R229, R233, R282, R421). -/
def StoreRec.before (a b : StoreRec) : Bool :=
  let sameHome := match a.dest, b.dest with
    | .remote d _ _ _, .remote e _ _ _ => d == e
    | .remote .., _ => false
    | _, .remote .. => false
    | _, _ => true
  (sameHome && a.addr / 64 == b.addr / 64) ||
  (a.ctx == b.ctx &&
    (b.rel || (a.dest.ordered && b.dest.ordered) || (a.vsts.isSome && a.vsts == b.vsts) || decide (b.fences < a.fences)))

/-- The remote store of a context, on its way, that a store of it waits for: any for a release, else one with a fence between them
(R228, R421). -/
def RemoteReq.goesBefore (q : RemoteReq) (c : Nat) (r : StoreRec) : Bool :=
  q.core == c && q.ctx == r.ctx && q.slot.isNone && (r.rel || decide (r.fences < q.fences))

/-- A claim is that of a copy command of the core accepted after a store was released, which waits for the store (R312): the
engine's ownership does not hold that store up. -/
def StoreRec.olderThan (r : StoreRec) (core : Nat) : Claim → Bool
  | .copy c n => c == core && decide (r.copies < n)
  | _ => false

/-- The store's place takes it: no engine owns its line, unless the owner is a command that waits for the store, nor is its weight-store
bank in the refresh window (R207, R222, R312). -/
def State.placeTakes (s : State) (c : Nat) (r : StoreRec) : Bool :=
  let line := r.addr / 64
  let free := (((s.owners.find line).getD []).head?.map (r.olderThan c)).getD true
  match r.dest with
  | .remote .. => true
  | .home .. => free && !s.refreshing line
  | .cached .. => free

/-- A store may be performed: nothing older goes before it, no older LD.a or RAMO waits for its read, and its place takes it (R222,
R228, R230, R232, R280, R421). -/
def State.storeReady (s : State) (c i : Nat) : Bool :=
  match (s.core c).stores[i]? with
  | none => false
  | some r =>
    !(((s.core c).stores.take i).any fun a => a.before r) && r.after.isEmpty && s.placeTakes c r &&
      !(s.remotes.any fun q => q.goesBefore c r) && !(r.rel && s.passedOpen c r.ctx ((s.core c).stores.take i))

/-- Sends one push of a line to the consumer quad of an entry (R267, R268). -/
def State.sendPush (s : State) (launch n line : Nat) (e : Transfer) : State :=
  match s.recording launch n with
  | none => s
  | some r =>
    let p : Push := ⟨line, s.homeLine line, ⟨launch, n, r.roundCtr, some e.obj⟩, false⟩
    let s := s.updQuad e.cquad fun q => { q with pushes := q.pushes ++ [p] }
    s.setRec launch n
      { r with
        pushes := sat32 (r.pushes + 1)
        unsettled := r.unsettled + 1
        unconsumed := r.unconsumed + 1
        unusedBy := r.unusedBy.put e.obj ((r.unusedBy.find e.obj).getD 0 + 1) }

/-- Loaded entries whose TRIGGER lies below an ordinal leave their window, and those of the list given (R267). -/
def Recording.leave (r : Recording) (w : RoundWindow) (ordinal : Nat) (fires : List Nat) : RoundWindow :=
  { w with
    fired := w.fired ++ fires
    loaded := w.loaded.filter fun i => !fires.contains i && ((r.entries[i]?.map fun e => decide (e.trigger ≥ ordinal)).getD false) }

/-- A producing store of a window is performed: in the quad cache (`near`) the window's loaded entries for it fire; the entries
below its ordinal leave (R267, R270, R272). -/
def State.firePushes (s : State) (c : Nat) (line : Nat) (g : Tag) (near : Bool) : State :=
  match s.recording g.launch g.recNo with
  | none => s
  | some r =>
    match r.windows.find g.window with
    | none => s
    | some w =>
      let hit (e : Transfer) : Bool := e.trigger == g.ordinal && e.line == line && !e.dead
      let fires := if near ∧ r.state = .replaying then w.loaded.filter fun i => (r.entries[i]?.map hit).getD false else []
      let s := s.setRec g.launch g.recNo { r with windows := r.windows.put g.window (r.leave w g.ordinal fires) }
      if fires.isEmpty then s
      else
        let q := quadOf c
        let s := s.mergeLine q line
        let s :=
          match s.recording g.launch g.recNo with
          | some r => s.setRec g.launch g.recNo
              { r with pushers := (line, q) :: r.pushers.filter fun p => p.1 != line }
          | none => s
        fires.foldl (fun s i =>
          match r.entries[i]? with
          | some e => s.sendPush g.launch g.recNo line e
          | none => s) s

/-- A store's bytes put into its quad's cache under write permission (R203, R263). The policy of the latest store's handle governs the
line, whose stream and no-L2 marks it sets (R214; DESIGN CHOICE, log entry 66). -/
def State.storeCached (s : State) (c : Nat) (r : StoreRec) (obj : Nat) (log : Bool) (policy : Nat) : State :=
  let q := quadOf c
  let line := r.addr / 64
  let o := r.addr % 64
  let m := byteMask o r.bytes.length
  let put (e : CacheLine) : CacheLine :=
    { e with
      writable := true
      data := setLine e.data o r.bytes
      valid := e.valid ||| m
      dirty := e.dirty ||| m
      objs := if e.objs.contains obj then e.objs else e.objs ++ [obj]
      tag := r.tag.or e.tag
      log := e.log || log
      launch := r.launch
      stream := policy == 2
      noL2 := policy == 3 }
  -- the home's permission comes after an invalidation it has sent before
  match (s.cacheLine q line).filter fun e => !e.doomed with
  | some e => s.putLine q line (put e)
  | none => (s.dropLine q line).allocate q line (put ⟨false, 0, 0, 0, [], none, false, r.launch, none, false, false, false⟩)

/-- The link a core's packets to a device take: fixed for the pair while it is up, else another one (R413, R415; log
entry 14). -/
def State.linkOf (s : State) (c rdev : Nat) : Nat :=
  let up (l : Nat) : Bool := ((s.links.find (l % 36)).map (·.up)).getD true
  ((firstFrom up 36 ((c + rdev) % 36)).getD (c + rdev)) % 36

/-- A word at a home is about to be read there: its line's dirty bytes merge. Lines of quad memories and instruction stores are in no
cache (R229). -/
def State.atHome (s : State) (space line : Nat) : State :=
  if space = spSync ∨ space = spOrdered then s.mergeHome line else s

/-- What a store does at its home, by its operation; the write carries the LOG bit of its page (R229, R408). -/
def State.homeOp (s : State) (r : StoreRec) (space : Nat) (log : Bool) : State :=
  let s := if space = spSync ∨ space = spOrdered then s.recall (r.addr / 64) else s
  let s := s.dirtyLine r.launch (r.addr / 64) log false
  let v := BitVec.ofNat 64 (leNat r.bytes)
  match r.op with
  | .write =>
    if space = spSync then s.syncWrite r.addr v
    else if space = spIstore then s.putIstore r.addr r.bytes
    else ((s.putMem r.addr r.bytes).spoil r.addr r.bytes.length).metWords (r.addr / 64)
  | .stv => s.syncWrite r.addr v
  | .vrecl n => s.retireVersions r.addr n
  | .rainit => s.raInit r.addr v (BitVec.ofNat 64 (leNat (r.bytes.drop 8)))
  | .rarel => s.raRel r.addr
  | .barinit => s.barInit r.addr (v &&& 0xFFFFFFFF) (BitVec.ofNat 64 (leNat (r.bytes.drop 8)))
  | .bararr n => s.barUpdate r.addr n 0 false
  | .barxb n => s.barExpect r.addr n

/-- Bytes at the home that a store touches. -/
def StoreRec.span (r : StoreRec) : Span :=
  match r.op with
  | .write | .stv | .vrecl _ => ⟨r.addr, r.bytes.length, false⟩
  | _ => ⟨r.addr, 32, false⟩

/-- Another lane of the same VSTS on the same line is still to be performed. -/
def Core.moreLanes (k : Core) (r : StoreRec) : Bool :=
  r.vsts.isSome && k.stores.any fun a => a.vsts == r.vsts && a.addr / 64 == r.addr / 64

/-- A released store performed, its record already removed. -/
def State.perform (s : State) (c : Nat) (r : StoreRec) : State :=
  match r.dest with
  | .cached obj log policy =>
    let line := r.addr / 64
    let s :=
      if r.wide then
        let s := (s.recall line).recordReleases r.addr r.bytes.length (quadOf c)
        s.policyWrite [⟨r.addr, r.bytes.length, log⟩] r.bytes r.launch policy 1 c (some (c, r.ctx))
      else (s.storeCached c r obj log policy).watchWrite [r.span] 1 c (some (c, r.ctx))
    match r.tag with
    | some g => if (s.core c).moreLanes r then s else s.firePushes c line g !r.wide
    | none => s
  | .home space log =>
    let s := if r.wide then s.recordReleases r.span.key r.span.len (quadOf c) else s
    (s.homeOp r space log).watchWrite [r.span] 1 c (some (c, r.ctx))
  | .remote rdev rlid offset tag =>
    let id := ((s.ctx c (Fin.ofNat 8 r.ctx)).task.map (·.task.taskId)).getD 0
    { s with remotes := s.remotes ++
        [⟨c, r.ctx, r.launch, rdev, rlid, offset, s.linkOf c rdev, .store r.bytes tag, none, id, r.fences, r.full, r.copies⟩] }

/-- STORE_PERFORMED: a store that may be performed is. -/
def State.performStore (s : State) (c i : Nat) : State :=
  if s.storeReady c i then
    match (s.core c).stores[i]? with
    | some r => (s.updCore c fun k => { k with stores := dropPlace k.stores i }).perform c r
    | none => s
  else s

end Sys2Proof.Machine
end

