-- ==== Sys2Proof/Machine/Mem.lean ====
section
/-!
DEFINITION. What loads and stores share: scopes (R227, R277, R278), a load from any space, the release of a store at
retirement (R29, R30, R262), fill slots (R18), and the shapes of load and store instructions.
-/

namespace Sys2Proof.Machine

/-! ### Scopes -/

/-- The scope of a form covers more than the issuing quad: 011 .die, 100 .pkg, 101 .sys, and .grp for a group that is
not within it (R227, R278). -/
def State.wideScope (s : State) (c : Nat) (x : Fin 8) (sc : BitVec 3) : Bool :=
  if sc.toNat ≤ 2 then false
  else if sc ≠ 6 then true
  else
    let g := field (s.ctx c x).scopeGrp 0 8
    let members := match s.launchOf c with
      | some (_, l) => l.group g
      | none => []
    !(members.contains c && members.all fun k => quadOf k == quadOf c)

/-- The scope of a form is .sys, or .grp widened to it: its group does not hold the core (R278). -/
def State.sysScope (s : State) (c : Nat) (x : Fin 8) (sc : BitVec 3) : Bool :=
  sc == 5 || (sc == 6 && match s.launchOf c with
    | some (_, l) => !(l.group (field (s.ctx c x).scopeGrp 0 8)).contains c
    | none => true)

/-! ### Waits of the M siding -/

/-- A future version requested by LDV has not arrived: no later access of the context is performed until its fill has (R240,
R292). -/
def FillSlot.futureVersion (f : FillSlot) : Bool :=
  match f.kind with
  | .version .. => !f.orphan
  | _ => false
def Ctx.versionPending (t : Ctx) : Bool := t.fills.any fun (_, f) => f.futureVersion

/-- The reads of older LD.a, LDV and read-modify-writes have been performed (R289). -/
def Ctx.readsDone (t : Ctx) : Bool :=
  t.fills.all fun (_, f) => match f.kind with
    | .version .. | .remote | .held .. => f.orphan
    | _ => true

/-- The stores that a release of the context waits for performed, and the reads of older LD.a, LDV and read-modify-writes (R232,
R289). -/
def State.quiet (s : State) (c : Nat) (x : Fin 8) : Bool := !s.storesOpen c x.val && (s.ctx c x).readsDone

/-- A store is performed beyond its core's quad cache and the quad's own memory (R229, R289). -/
def StoreRec.far (r : StoreRec) (c : Nat) : Bool :=
  match r.dest with
  | .cached .. => r.wide
  | .home .. => r.addr / 2 ^ 20 != quadKey (quadOf c) 0 / 2 ^ 20
  | .remote .. => true

/-- The same but for stores beyond the quad: a fence at .ctx or .core does not wait for those (R289). -/
def State.quietNear (s : State) (c : Nat) (x : Fin 8) : Bool :=
  (s.core c).stores.all (fun r => r.ctx != x.val || r.far c) && (s.ctx c x).readsDone

/-- A release fence goes by stores of its context that it does not wait for: those after it wait for them, and, after FENCE.full, so do
reads (R228, R289). -/
def State.passFence (s : State) (c : Nat) (x : Fin 8) (full : Bool) : State :=
  let s := s.updCore c fun k =>
    { k with stores := k.stores.map fun r =>
        if r.ctx = x.val then { r with fences := r.fences + 1, full := r.full || full } else r }
  { s with remotes := s.remotes.map fun q =>
      if q.core = c ∧ q.ctx = x.val ∧ q.slot.isNone = true then { q with fences := q.fences + 1, full := q.full || full } else q }

/-- A store of the context that a release fence has gone by, or only a FENCE.full, is still to be performed (R228). -/
def State.fenceOpen (s : State) (c : Nat) (x : Fin 8) : Bool :=
  ((s.core c).stores.any fun r => r.ctx == x.val && r.fences != 0) ||
  s.remotes.any fun q => q.core == c && q.ctx == x.val && q.slot.isNone && q.fences != 0
def State.fullOpen (s : State) (c : Nat) (x : Fin 8) : Bool :=
  ((s.core c).stores.any fun r => r.ctx == x.val && r.full) ||
  s.remotes.any fun q => q.core == c && q.ctx == x.val && q.slot.isNone && q.full

/-- An older LD.a of the context still waits to read one of these lines: a later access to them waits for it (R280). -/
def Ctx.heldAt (t : Ctx) (spans : List Span) : Bool :=
  t.fills.any fun (_, f) => match f.kind with
    | .held _ _ key _ => !f.orphan && (linePieces spans).any fun p => p.key / 64 == key / 64
    | _ => false

/-- The slots of older reads of the context that a read through a handle waits for: future versions (R240), LD.a still to be performed
of one of its lines (R280), and, for an ORDERED read, ORDERED ones (R213). -/
def Ctx.goFirst (t : Ctx) (h : BitVec 256) (spans : List Span) : List Nat :=
  (t.fills.filter fun (_, f) => !f.orphan && match f.kind with
    | .version .. => true
    | .held g _ key _ =>
      (hSpace h == spOrdered && hSpace g == spOrdered) || (linePieces spans).any fun p => p.key / 64 == key / 64
    | _ => false).map (·.1)

/-- Fill slots whose reads a store of the context has to wait for (R230, R280). -/
def Ctx.unread (t : Ctx) : List Nat :=
  (t.fills.filter fun (_, f) => match f.kind with
    | .remote | .held .. => !f.orphan
    | _ => false).map (·.1)

/-- No older read of the context, and no store that a release fence has gone by, holds a read-modify-write up (R228, R230). -/
def State.mayWrite (s : State) (c : Nat) (x : Fin 8) : Bool := (s.ctx c x).unread.isEmpty && !s.fenceOpen c x

/-- A store that a read of these lines at their homes would miss is still to be performed: one of the context, or another one's that a
release of it has gone by; or one that a FENCE.full of the context has gone by (R228, R231, R233). -/
def State.ownStoreAt (s : State) (c : Nat) (x : Fin 8) (spans : List Span) : Bool :=
  let meets (r : StoreRec) : Bool := match r.dest with
    | .remote .. => false
    | _ => (linePieces spans).any fun p => p.key / 64 == r.addr / 64
  s.fullOpen c x || ((s.core c).stores.any fun r => r.ctx == x.val && meets r) || (passedStores (s.core c).stores).any meets

/-- An ORDERED store of the context is still to be performed (R213). -/
def State.orderedPending (s : State) (c : Nat) (x : Fin 8) : Bool :=
  (s.core c).stores.any fun r => r.ctx == x.val && r.dest.ordered

/-- Lines that an engine owns, among those of spans. -/
def State.ownedLine (s : State) (spans : List Span) : Option Nat :=
  ((linePieces spans).find? fun p => (s.owners.find (p.key / 64)).isSome).map fun p => p.key / 64

/-! ### Loads -/

/-- What a read knows of a handle for an access at a virtual address, and its line. -/
def State.readInfo (s : State) (c : Nat) (h : BitVec 256) (va line : Nat) : ReadInfo :=
  match s.launchOf c with
  | some (n, l) =>
    ⟨n, if hSpace h = spGlobal ∧ hRec h then some (s.objOf n l h va line) else none, hPolicy h == 2,
      hSpace h == spGlobal && hPolicy h == 3, false, false⟩
  | none => ⟨0, none, false, false, false, false⟩

/-- The pieces of a cached read, in order; `va` is the virtual address of the first, `begun` that the access has read a line before. -/
def State.loadPieces (s : State) (c : Nat) (x : Fin 8) (h : BitVec 256) (nc : Bool) :
    List Span → Nat → List Byte → Bool → Found (List Byte)
  | [], _, acc, _ => .ok s acc
  | p :: l, va, acc, begun =>
    match s.loadLine c x p (hPolicy h) nc { s.readInfo c h va (p.key / 64) with begun := begun } with
    | .ok s b => s.loadPieces c x h nc l (va + p.len) (acc ++ b) true
    | .wait w => .wait w
    | .bad s => .bad s

/-- Bytes read at their home: quad memory, SYNC and ORDERED words, whose lines' dirty bytes merge first. A word of an unpredictable
object reads unconstrained (R202, R213, R229, R320, R322). -/
def State.loadHome (s : State) (c : Nat) (x : Fin 8) (space : Nat) (spans : List Span) : Found (List Byte) :=
  if s.ownStoreAt c x spans || (space == spOrdered && s.orderedPending c x) then .wait .drain
  else
    match s.ownedLine spans with
    | some line => .wait (.miss line)
    | none =>
      let s := spans.foldl (fun (s : State) p => s.atHome space (p.key / 64)) s
      if spans.any fun p => s.poisoned p.key p.len then .bad s
      else
        let wild := space == spSync && spans.any fun p => ((s.syncObj p.key).map (·.wild)).getD false
        if wild then
          let (v, s) := s.free
          .ok s (leBytes 8 v.toNat)
        else .ok s (spans.flatMap fun p => Memory.bytes s.mem p.key p.len)

/-- The read of a context through a handle where its space has it performed, its bytes in address order. -/
def State.readFor (s : State) (c : Nat) (x : Fin 8) (h : BitVec 256) (off : Nat) (spans : List Span) (nc begun : Bool) :
    Found (List Byte) :=
  if hSpace h = spGlobal ∨ hSpace h = spWeight then s.loadPieces c x h nc (linePieces spans) (hBase h + off) [] begun
  else s.loadHome c x (hSpace h) spans

/-- A read of the running context waits for older accesses of it: the reads that go first, and the stores that its FENCE.full has gone
by (R213, R228, R240, R280). -/
def State.readHeld (s : State) (h : BitVec 256) (spans : List Span) : Bool :=
  !(s.me.goFirst h spans).isEmpty || s.fullOpen s.cur.1 s.cur.2

/-- A load of the running context, or a lane of one that has begun. -/
def State.loadOn (s : State) (h : BitVec 256) (off : Nat) (spans : List Span) (nc begun : Bool) : Found (List Byte) :=
  if s.readHeld h spans then .wait .drain else s.readFor s.cur.1 s.cur.2 h off spans nc begun
def State.load (s : State) (h : BitVec 256) (off : Nat) (spans : List Span) (nc : Bool) : Found (List Byte) :=
  s.loadOn h off spans nc false

/-- A load's outcome: wait, EXT_ERROR with the offset (R344), or its bytes. -/
def State.found (s : State) (r : Found α) (off : Nat) (k : State → α → Out) : Out :=
  match r with
  | .ok s a => k s a
  | .wait w => s.waitFor w
  | .bad s => s.fault Cause.extError (BitVec.ofNat 64 (off % 2 ^ 48))

/-- Bindings of the running context. -/
def State.hbs (s : State) : Vector Word 16 := s.me.hb

/-- Spaces of scalar loads: not ISTORE (reason 3), not REMOTE (R105, R419). -/
def loadSpaces : List Nat := [0, 1, 2, 3, 4, 5]
/-- Spaces of scalar stores (R105, R419). -/
def storeSpaces : List Nat := [0, 1, 2, 3, 4, 5, 6]
/-- Spaces of VLD, VLDS and VSTS; VST accepts REMOTE as well (R281, R282, R419). -/
def vectorSpaces : List Nat := [0, 1, 2, 4]

/-- The checks and the read of a load, from its offset on. -/
def State.loadAt (s : State) (n : BitVec 4) (off size : Nat) (spaces : List Nat) (nc : Bool)
    (k : State → List Byte → Out) : Out :=
  s.orFault (s.chkAccess s.cur.1 s.hbs n off size ⟨false, spaces, size, true⟩) fun h =>
    s.orFault (s.placeCore s.cur.1 h off size false) fun (spans, s) => s.found (s.load h off spans nc) off k

/-- A number of n bytes, sign-extended to a register (R105). -/
def loadValue (n : Nat) (b : List Byte) : Word :=
  let v := leNat b
  if v ≥ 2 ^ (8 * n - 1) then BitVec.ofInt 64 ((v : Int) - 2 ^ (8 * n)) else BitVec.ofNat 64 v

/-! ### Stores -/

/-- The next ordinal of an open window for a producing store, and the tag it makes (R262, R263). -/
def State.takeOrdinal (s : State) (c : Nat) (x : Fin 8) (h : BitVec 256) : Option Tag × State :=
  match (s.ctx c x).window, (s.core c).launch with
  | some w, some n =>
    if hSpace h = spGlobal ∧ hRec h ∧ w.ordinal ≤ 16777215 then
      (some ⟨n, w.recNo, w.stream, w.ordinal, quadOf c, w.id⟩,
        s.updCtx c x fun t => { t with window := some { w with ordinal := w.ordinal + 1 } })
    else (none, s)
  | _, _ => (none, s)

/-- What a store through a handle acts on, at an offset of the handle, in a line. -/
def State.storeDest (s : State) (c : Nat) (h : BitVec 256) (off line : Nat) (log : Bool) : StoreDest :=
  match hSpace h with
  | 0 =>
    match s.launchOf c with
    | some (n, l) => .cached (s.objOf n l h (hBase h + off) line) log (hPolicy h)
    | none => .cached 0 log 0
  | 6 => .remote (hRdev h) (hRlid h) (hBase h + off) (hTag h)
  | sp => .home sp log

/-- The operation writes the bytes the store carries at its own address. -/
def HomeOp.plain : HomeOp → Bool
  | .write | .stv => true
  | _ => false

/-- A store leaves its core at retirement: its bytes go through the L1 and it joins the stores to be performed; `vsts` names the
VSTS it is a lane of (R29, R30, R199, R282). -/
def State.releaseLane (s : State) (c : Nat) (x : Fin 8) (h : BitVec 256) (off : Nat) (spans : List Span)
    (b : List Byte) (op : HomeOp) (tag : Option Tag) (rel wide : Bool) (vsts : Option Nat) : State :=
  let launch := (s.core c).launch.getD 0
  let pieces := withBytes (linePieces spans) b
  let pieces : List (Nat × Span × List Byte) :=
    (pieces.foldl (fun (acc : Nat × List (Nat × Span × List Byte)) p =>
      (acc.1 + p.1.len, acc.2 ++ [(acc.1, p.1, p.2)])) (0, [])).2
  pieces.foldl (fun s (d, p, b) =>
    let dest := s.storeDest c h (off + d) (p.key / 64) p.log
    s.updCore c fun k =>
      let k := if hSpace h ≠ spRemote ∧ op.plain then k.l1Write p.key b else k
      { k with stores := k.stores ++
          [⟨x.val, launch, p.key, b, dest, op, tag, rel, wide, (k.ctx x).unread, vsts, 0, false, k.fifoAccepted⟩] }) s

/-- The same for a store that is no lane. -/
def State.releaseStore (s : State) (c : Nat) (x : Fin 8) (h : BitVec 256) (off : Nat) (spans : List Span)
    (b : List Byte) (op : HomeOp) (tag : Option Tag) (rel wide : Bool) : State :=
  s.releaseLane c x h off spans b op tag rel wide none

/-- The checks of a store, and then what follows with its handle and place (R104, R355). -/
def State.storeAt (s : State) (n : BitVec 4) (off size : Nat) (align : Nat) (spaces : List Nat)
    (k : State → BitVec 256 → List Span → Out) : Out :=
  s.orFault (s.chkAccess s.cur.1 s.hbs n off align ⟨true, spaces, size, true⟩) fun h =>
    s.orFault (s.placeCore s.cur.1 h off size true) fun (spans, s) =>
      if s.me.versionPending then s.waitFor .drain
      else s.orFault (s.me.chkWatch (if hSpace h = spRemote then [] else spans)) fun _ => k s h spans

/-- A plain store retires: it takes its ordinal and is released. -/
def State.retireStore (s : State) (f : Form) (h : BitVec 256) (off : Nat) (spans : List Span) (b : List Byte) : Out :=
  let c := s.cur.1
  let x := s.cur.2
  let s := s.retire f id
  let (tag, s) := s.takeOrdinal c x h
  .next (s.releaseStore c x h off spans b .write tag false false)

/-! ### Shapes of the FM instructions (R67, R105) -/

/-- Offset of an FM instruction: the base register plus the scaled offset, exact. -/
def fmOff (t : Ctx) (b : BitVec 5) (o : BitVec 8) (size : Nat) : Nat := (t.rd b).toNat + o.toNat * size

/-- A scalar load into a general register. -/
def scalarLoad (i : Instr) (t b : BitVec 5) (m : BitVec 2) (h : BitVec 4) (o : BitVec 8) (size : Nat) (nc : Bool)
    (s : State) : Out :=
  let f : Form := { srcs := [(b, m)], names := [.g t, .g b] }
  issue i f s fun s =>
    s.loadAt h (fmOff s.me b o size) size loadSpaces nc fun s bs =>
      .next (s.retire f fun k => k.wr t (loadValue size bs))

/-- A scalar store of a general register, read in mode 00. -/
def scalarStore (i : Instr) (t b : BitVec 5) (m : BitVec 2) (h : BitVec 4) (o : BitVec 8) (size : Nat) (s : State) :
    Out :=
  let f : Form := { srcs := [(t, 0), (b, m)], names := [.g t, .g b] }
  issue i f s fun s =>
    let off := fmOff s.me b o size
    s.storeAt h off size size storeSpaces fun s hd spans =>
      s.retireStore f hd off spans (leBytes size (s.me.rd t).toNat)

/-! ### Fill slots (R18) -/

/-- The lowest free fill slot of a context. -/
def Ctx.freeSlot (t : Ctx) : Option (Fin 16) :=
  (firstFrom (fun i => (t.fills.find i).isNone) 16 0).map (Fin.ofNat 16)

/-- A long-latency producer takes a slot, or waits at stage 3. -/
def State.withSlot (s : State) (k : Fin 16 → Out) : Out :=
  match s.me.freeSlot with
  | some n => k n
  | none => s.updMe (fun t => { t with slotWait := true }) |>.waitFor .fillSlot

/-- The commit of a long-latency producer: its slot is busy and its destination EMPTY with the slot's tag. -/
def Ctx.produce (t : Ctx) (d : BitVec 5) (slot : Fin 16) (k : FillKind) (v : Option Word) (err : Bool) : Ctx :=
  { t.mkEmpty d (BitVec.ofFin slot) with fills := t.fills.put slot.val ⟨d, k, v, err, false, false⟩, late := some d }

end Sys2Proof.Machine
end

