-- ==== Sys2Proof/Machine/Tradewind.lean ====
section
/-!
DEFINITION. Tradewind: the instructions of R297 to R299 and the events of seals, pushes, loading and rounds (R256 to
R275, R304, R305).
-/

namespace Sys2Proof.Machine

/-! ### The buffer (R257, R258, R266) -/

/-- FLAGS of the header. -/
def Recording.flags (r : Recording) : Nat :=
  (if r.ovfl then 1 else 0) + (if r.conflict then 2 else 0) + (if r.fb then 4 else 0) + (if r.sealed then 8 else 0)

/-- The header from COUNT on. -/
def Recording.header (r : Recording) : List Byte :=
  [r.entries.length, r.rounds, r.rdep, r.tdep, r.pushes, r.used, r.unfired, r.dropped, r.flags].flatMap
    (fun n => leBytes 4 (sat32 n)) ++ List.replicate 20 0

/-- Bytes [o, o + b.length) of a recording's buffer written by the hardware; of SYNC words that they meet while no launch runs the versions
go (R257, R301). -/
def State.writeBuffer (s : State) (launch : Nat) (r : Recording) (o : Nat) (b : List Byte) : State :=
  let spans := rowRange r.buffer o b.length
  (s.quietWrite spans b launch).resetSpans spans

/-- The header written from COUNT on. -/
def State.writeHeader (s : State) (launch : Nat) (r : Recording) : State := s.writeBuffer launch r 8 r.header

/-- An engine owns a line of those bytes, whose home then holds the write (R222). -/
def State.bufferOwned (s : State) (r : Recording) (o len : Nat) : Bool := (s.ownedLine (rowRange r.buffer o len)).isSome

/-- A transfer entry (R258). -/
def Transfer.bits (e : Transfer) : Nat :=
  e.line % 2 ^ 46 + e.obj % 2 ^ 14 * 2 ^ 48 + e.pquad % 2 ^ 11 * 2 ^ 64 + e.cquad % 2 ^ 11 * 2 ^ 80 +
  e.stream % 2 ^ 8 * 2 ^ 96 + e.trigger % 2 ^ 24 * 2 ^ 104

/-- The order of a sealed buffer, as one number: STREAM, TRIGGER, LINE, CQUAD (R266). -/
def Transfer.rank (e : Transfer) : Nat :=
  ((e.stream * 2 ^ 24 + e.trigger) * 2 ^ 46 + e.line % 2 ^ 46) * 2 ^ 11 + e.cquad

/-- An entry put into a sorted list; entries of one rank, which differ in PQUAD or OBJ alone, keep the order of their recording (DESIGN
CHOICE, log entry 66). -/
def insertTransfer (e : Transfer) : List Transfer → List Transfer
  | [] => [e]
  | f :: l => if e.rank ≤ f.rank then e :: f :: l else f :: insertTransfer e l

/-- Entries in buffer order. -/
def sortTransfers : List Transfer → List Transfer
  | [] => []
  | e :: l => insertTransfer e (sortTransfers l)

/-- The objects of a recording unbound (R256, R261, R272). -/
def State.unbind (s : State) (launch n : Nat) : State :=
  { s with objects := s.objects.mapVals fun _ o =>
      if o.launch = launch ∧ o.boundTo = some n then { o with boundTo := none } else o }

/-- A recording set EMPTY, its numbers of windows and rounds going on. -/
def Recording.emptied (r : Recording) : Recording :=
  { Recording.reset with windowCtr := r.windowCtr, roundCtr := r.roundCtr, since := r.roundCtr }

/-- A drop: the header is written as it stands, the objects are unbound, the recording is EMPTY (R261, R305). -/
def State.dropRecording (s : State) (launch n : Nat) : State :=
  match s.recording launch n with
  | none => s
  | some r =>
    let s := if r.state = .empty then s else s.writeHeader launch r
    (s.unbind launch n).setRec launch n r.emptied

/-! ### Rounds and windows (R259, R261) -/

/-- A round opens. -/
def Recording.openRound (r : Recording) (replay : Bool) : Recording :=
  { r with
    roundCtr := r.roundCtr + 1
    rdep := 0
    openCount := 0
    replayRound := replay
    unsettled := 0
    unconsumed := 0
    unusedBy := []
    closing := false
    windows := []
    pushers := [] }

/-- A window joins the open round; its number. -/
def Recording.join (r : Recording) (stream : Nat) : Recording × Nat :=
  ({ r with
      openCount := r.openCount + 1
      windows := r.windows.put r.windowCtr ⟨stream, [], []⟩
      windowCtr := r.windowCtr + 1 }, r.windowCtr)

/-- The running context's window opens on a recording, whose open round it joins. -/
def State.openWindow (s : State) (launch n : Nat) (r : Recording) (stream : Nat) (replay : Bool) : State :=
  let (r, id) := r.join stream
  (s.setRec launch n r).updMe fun t => { t with window := some ⟨n, stream, 1, replay, id⟩ }

/-- Some context has a window open on a recording. -/
def State.windowOpen (s : State) (launch n : Nat) : Bool :=
  s.cores.any fun (_, k) => k.launch == some launch && (List.finRange 8).any fun x =>
    match (k.ctx x).window with
    | some w => w.recNo == n
    | none => false

/-- Number of the recording and of the stream in g[b] (R297). -/
def twNumber (w : Word) : Nat := field w 0 10
def twStream (w : Word) : Nat := field w 16 8

/-- Status codes of R260. -/
def twOk : Word := 0
def twState : Word := 1
def twWindow : Word := 2
def twBusy : Word := 3
def twBuffer : Word := 4

/-- The form of an instruction that reads g[b] and writes g[d]. -/
def Form.tw (d b : BitVec 5) : Form := { srcs := [(b, 0)], names := [.g d, .g b] }

/-- WREC, WPLAY and WEND retire with a status; they are serialising (R17, R297). -/
def Ctx.twStatus (t : Ctx) (d : BitVec 5) (v : Word) : Ctx := (t.wr d v).serial

/-- The launch of the running context and a recording of it; an EMPTY one outside a launch. -/
def State.myRecording (s : State) (n : Nat) : Nat × Recording :=
  match s.launchOf s.cur.1 with
  | some (launch, l) => (launch, l.recording n)
  | none => (0, Recording.reset)

/-- Reading and checking a new recording's buffer (R257, R298): the status BUFFER, or what starts the recording. By the model's choice a
handle with RO = 1 passes, and windows still open on a FALLBACK recording are none of the new round's (log entry 64). -/
def State.wrecStart (s : State) (f : Form) (d : BitVec 5) (h : BitVec 4) (off n stream : Nat) : Out :=
  let c := s.cur.1
  let kind (size : Nat) : Kind := ⟨false, [spGlobal], size, false⟩
  s.orFault (s.chkAccess c s.hbs h off 64 (kind 64)) fun hd =>
    s.orFault (s.placeCore c hd off 64 true) fun (spans, s) =>
      s.found (s.load hd off (rowRange (spans.map fun p => (p.key, p.len, p.log)) 0 8) true) off fun s b =>
        let cap := leNat (b.take 4)
        let thresh := leNat (b.drop 4)
        if cap < 1 ∨ cap > 65536 ∨ thresh ≥ 2 ^ 16 then .next (s.retire f fun k => k.twStatus d twBuffer)
        else
          let size := 64 + 16 * cap
          s.orFault (s.chkAccess c s.hbs h off 64 (kind size)) fun hd =>
            s.orFault (s.placeCore c hd off size true) fun (spans, s) =>
              let (launch, r) := s.myRecording n
              let s := ((s.retire f fun k => k.twStatus d twOk).unbind launch n).dropTags launch n
              let fresh : Recording := { Recording.reset with
                state := .recording
                buffer := spans.map fun p => (p.key, p.len, p.log)
                cap := cap
                thresh := thresh
                windowCtr := r.windowCtr
                roundCtr := r.roundCtr
                since := r.roundCtr }
              .next (s.openWindow launch n (fresh.openRound false) stream false)

/-- WREC (R261, R297, R298, R304). A window already open answers WINDOW whatever the recording's state: the rule does not order WINDOW and
STATE (DESIGN CHOICE, log entry 66). -/
def execWrec (d a b : BitVec 5) (h : BitVec 4) (s : State) : Out :=
  let f : Form := { srcs := [(a, 0), (b, 0)], names := [.g d, .g a, .g b] }
  issue (.wrec d a b h) f s fun s =>
    let n := twNumber (s.me.rd b)
    let stream := twStream (s.me.rd b)
    let (launch, r) := s.myRecording n
    let answer (v : Word) : Out := .next (s.retire f fun k => k.twStatus d v)
    if s.me.window.isSome then answer twWindow
    else if r.closing then s.waitFor (.recording n)
    else
      match r.state with
      | .sealing | .replaying => answer twState
      | .recording => .next ((s.retire f fun k => k.twStatus d twOk).openWindow launch n r stream false)
      | .empty | .ready | .fallback => s.wrecStart f d h (s.me.rd a).toNat n stream

/-- WPLAY (R261, R299, R304); WINDOW comes before STATE as for WREC (DESIGN CHOICE, log entry 66). -/
def execWplay (d b : BitVec 5) (s : State) : Out :=
  let f := Form.tw d b
  issue (.wplay d b) f s fun s =>
    let n := twNumber (s.me.rd b)
    let stream := twStream (s.me.rd b)
    let (launch, r) := s.myRecording n
    let answer (v : Word) : Out := .next (s.retire f fun k => k.twStatus d v)
    let play (r : Recording) : Out := .next ((s.retire f fun k => k.twStatus d twOk).openWindow launch n r stream true)
    if s.me.window.isSome then answer twWindow
    else if r.closing then s.waitFor (.recording n)
    else
      match r.state with
      | .empty | .recording => answer twState
      | .sealing => s.waitFor (.recording n)
      | .ready => play { r.openRound true with state := .replaying }
      | .replaying => play r
      | .fallback => play (if r.openCount = 0 then r.openRound false else r)

/-- WEND (R259, R299). -/
def execWend (d : BitVec 5) (s : State) : Out :=
  let f := Form.dst d
  issue (.wend d) f s fun s =>
    if s.me.window.isNone then .next (s.retire f fun k => k.twStatus d twWindow)
    else .next ((s.retire f fun k => k.twStatus d twOk).closeWindow s.cur.1 s.cur.2)

/-- Codes of STATE in R274. -/
def RecState.code : RecState → Nat
  | .empty => 0
  | .recording => 1
  | .sealing => 2
  | .ready => 3
  | .replaying => 4
  | .fallback => 5

/-- What WSTAT reads (R274). -/
def Recording.stat (r : Recording) : Word :=
  BitVec.ofNat 64 (r.state.code + (if r.fb then 8 else 0) + (if r.ovfl then 16 else 0) + (if r.conflict then 32 else 0) +
    min r.rdep 65535 * 2 ^ 14 + r.openCount % 2 ^ 17 * 2 ^ 30 + r.entries.length % 2 ^ 17 * 2 ^ 47)

/-- WSTAT (R274, R299). -/
def execWstat (d b : BitVec 5) (s : State) : Out :=
  let f := Form.tw d b
  issue (.wstat d b) f s fun s =>
    let (_, r) := s.myRecording (twNumber (s.me.rd b))
    .next (s.retire f fun k => k.wr d r.stat)

/-- WDROP (R261, R299, R304, R305). -/
def execWdrop (d b : BitVec 5) (s : State) : Out :=
  let f := Form.tw d b
  issueCode (some (.c32 (cat 0xBF#8 (cat d (cat 4#8 (cat b 0#6)))))) f s fun s =>
    let n := twNumber (s.me.rd b)
    let (launch, r) := s.myRecording n
    if s.windowOpen launch n then .next (s.retire f fun k => k.wr d twBusy)
    else if r.closing ∨ r.state = .sealing ∨ (r.state ≠ .empty ∧ s.bufferOwned r 8 56 = true) then s.waitFor (.recording n)
    else .next ((s.retire f fun k => k.wr d twOk).dropRecording launch n)

/-! ### Events -/

/-- SEAL: the entries are written in order, then the header, once no engine owns a line of theirs (R222, R266). -/
def State.seal (s : State) (launch n : Nat) : State :=
  match s.recording launch n with
  | none => s
  | some r =>
    if r.state ≠ .sealing ∨ s.bufferOwned r 8 (56 + 16 * r.entries.length) = true then s
    else
      let r := { r with entries := sortTransfers r.entries, sealed := true, state := .ready }
      let s := (s.setRec launch n r).writeBuffer launch r 64 (r.entries.flatMap fun e => leBytes 16 e.bits)
      s.writeHeader launch r

/-- SEAL (R266). -/
def execSeal (launch rec : Nat) (s : State) : Out := .next (s.seal launch rec)

/-- A push leaves a quad's list: its round no longer waits for it, and it may count as consumed (R268). -/
def State.settle (s : State) (p : PushId) (consumed : Bool) : State :=
  match s.recording p.launch p.recNo with
  | none => s
  | some r =>
    let r := if p.round = r.roundCtr then { r with unsettled := r.unsettled - 1 } else r
    s.setRec p.launch p.recNo (if consumed then r.use p else r)

def State.removePush (s : State) (q i : Nat) : State := s.updQuad q fun k => { k with pushes := dropPlace k.pushes i }

/-- Where a push can be placed: in an Invalid way, or over the Shared line that the set would evict next: one of the stream
policy, else one of its choice; none while every way is Writable (R214, R268). -/
def Quad.pushRoom (k : Quad) (line : Nat) : Option (List Nat) :=
  let ways := k.cache.filter fun (l, _) => cacheSet l == cacheSet line
  if ways.length < 16 then some []
  else
    let shared := ways.filter fun (_, e) => !e.writable
    match shared.find? fun (_, e) => e.stream with
    | some (l, _) => some [l]
    | none => if shared.isEmpty then none else some (shared.map (·.1))

/-- A push can be discarded for its time: nothing of its quad has room for it, or the quad's 16 places for pushes are taken
(R268). -/
def Quad.pushBlocked (k : Quad) (idx : Nat) : Bool :=
  match k.pushes[idx]? with
  | some p => (k.pushRoom p.line).isNone || decide (16 ≤ idx)
  | none => false

/-- A miss of a quad for a line is in flight: a load or an LD.a that its home holds (R222, R268). -/
def State.missAt (s : State) (q line : Nat) : Bool :=
  (List.range 4).any fun i => (List.finRange 8).any fun x =>
    let t := s.ctx (4 * q + i) x
    t.wait == some (.miss line) || t.fills.any fun (_, f) => match f.kind with
      | .held _ _ key after => after.isEmpty && key / 64 == line
      | _ => false

/-- PUSH_ARRIVAL (R237, R268). -/
def execPushArrival (quad idx : Nat) (s : State) : Out :=
  match (s.quad quad).pushes[idx]? with
  | none => .next s
  | some p =>
    let place (s : State) : State :=
      s.putLine quad p.line
        ⟨false, p.data, BitVec.allOnes 64, 0, [], none, false, p.id.launch, some p.id, false, false, false⟩
    if ((s.quad quad).cache.find p.line).isSome || s.missAt quad p.line then .next ((s.removePush quad idx).settle p.id true)
    else if p.stale then .next ((s.removePush quad idx).settle p.id false)
    else
      match (s.quad quad).pushRoom p.line with
      | none => .next s
      | some [] => .next (place ((s.removePush quad idx).settle p.id false))
      | some victims =>
        let (i, s) := s.pick victims.length
        .next (place (((s.removePush quad idx).settle p.id false).dropLine quad (victims[i]?.getD p.line)))

/-- PUSH_TIMEOUT: discarded unconsumed (R268). -/
def execPushTimeout (quad idx : Nat) (s : State) : Out :=
  match (s.quad quad).pushes[idx]? with
  | none => .next s
  | some p => .next ((s.removePush quad idx).settle p.id false)

/-- Entries of a window's stream that it has not fired (R267). -/
def Recording.missed (r : Recording) (w : RoundWindow) : Nat :=
  ((r.entries.zipIdx.filter fun (e, i) => e.stream == w.stream && !w.fired.contains i)).length

/-- The counters at a replay round's close (R267, R270, R271). -/
def Recording.closeRound (r : Recording) : Recording :=
  let r := if r.state = .replaying then r.depart r.unconsumed else r
  { r with
    unfired := if r.replayRound then sat32 (r.unfired + (r.windows.map fun (_, w) => r.missed w).sum) else r.unfired
    rdep := if r.replayRound then r.rdep else 0
    rounds := r.rounds + 1
    state := if r.state = .replaying then .ready else r.state
    closing := false
    windows := [] }

/-- ROUND_CLOSE (R222, R271). -/
def execRoundClose (launch rec : Nat) (s : State) : Out :=
  match s.recording launch rec with
  | none => .next s
  | some r =>
    if r.closing = false ∨ r.unsettled ≠ 0 ∨ s.bufferOwned r 8 56 = true then .next s
    else
      let r := r.closeRound
      .next ((s.setRec launch rec r).writeHeader launch r)

/-- The place of the next entry a window may load: of its stream, not fired, not loaded, not below its next ordinal. -/
def Recording.nextLoad (r : Recording) (w : RoundWindow) (ordinal : Nat) : Option Nat :=
  (r.entries.zipIdx.find? fun (e, i) =>
    e.stream == w.stream && !w.fired.contains i && !w.loaded.contains i && decide (e.trigger ≥ ordinal)).map (·.2)

/-- REPLAY_ENTRY_LOAD: 128 places for each of the 32 windows a quad can have (R267). -/
def execReplayEntryLoad (core ctx : Nat) (s : State) : Out :=
  match (s.ctx core (Fin.ofNat 8 ctx)).window, (s.core core).launch with
  | some w, some launch =>
    match s.recording launch w.recNo with
    | none => .next s
    | some r =>
      match r.windows.find w.id with
      | none => .next s
      | some v =>
        if w.replay = false ∨ r.state ≠ .replaying ∨ v.loaded.length ≥ 128 then .next s
        else
          match r.nextLoad v w.ordinal with
          | none => .next s
          | some i =>
            .next (s.setRec launch w.recNo { r with windows := r.windows.put w.id { v with loaded := v.loaded ++ [i] } })
  | _, _ => .next s

end Sys2Proof.Machine
end

