-- ==== Sys2Proof/Machine/Tasks.lean ====
section
/-!
DEFINITION. Tasks, messages and the queries of a core's queues and groups: what creates work (R122, R123, R131, R147, R168
to R174), DONE (R171) and the release of a send buffer (R132), queues and deques with their spill rings (R127, R128,
R136, R137), admission (R370, R371), the state a task starts in (R125, R126).
-/

namespace Sys2Proof.Machine

/-! ### Task records (R122) -/

def recBudget (r : BitVec 256) : Nat := field r 232 24
def recEnergy (r : BitVec 256) : Nat := field r 216 16
def recPkcls (r : BitVec 256) : Nat := field r 212 4
def recGroup (r : BitVec 256) : Nat := field r 204 8
def recDrift (r : BitVec 256) : Nat := field r 200 4
def recHdie (r : BitVec 256) : Nat := field r 198 2
def recHx (r : BitVec 256) : Nat := field r 194 4
def recHy (r : BitVec 256) : Nat := field r 189 5
def recQueue (r : BitVec 256) : Nat := field r 186 3
def recPlen (r : BitVec 256) : Nat := field r 181 5
def recClass (r : BitVec 256) : Nat := field r 128 8
def recArg (r : BitVec 256) (n : Nat) : Nat := field r (32 * n) 32

/-- The header word (R168). -/
def hdrDest (h : Word) : Nat := field h 16 13
def hdrPlen (h : Word) : Nat := field h 11 5
def hdrQueue (h : Word) : Nat := field h 8 3
def hdrClass (h : Word) : Nat := field h 0 8

/-- Four argument words of a record, from two 64-bit values. -/
def recArgs (lo hi : Word) : BitVec 256 := lo.setWidth 256 ||| (hi.setWidth 256 <<< 64)

/-- A number at a bit of a record. -/
def recBits (v lo : Nat) : BitVec 256 := BitVec.ofNat 256 (v * 2 ^ lo)

/-- The record that a header word and a budget describe (R122, R168): HDIE, HX and HY are DEST[12:2]. -/
def headerRecord (h : Word) (budget : Nat) (args : BitVec 256) : BitVec 256 :=
  args ||| recBits (hdrClass h) 128 ||| recBits (hdrPlen h) 181 ||| recBits (hdrQueue h) 186 |||
  recBits (hdrDest h / 4) 189 ||| recBits (field h 32 4) 200 ||| recBits (field h 36 8) 204 |||
  recBits (field h 44 4) 212 ||| recBits (field h 48 16) 216 ||| recBits budget 232

/-- Bits 47 and below of a TASKID made by a core, with its launch (R123). -/
def taskIdOf (launch core n : Nat) : Word :=
  BitVec.ofNat 64 (launch % 2 ^ 16 * 2 ^ 48 + core % 2 ^ 13 * 2 ^ 34 + n % 2 ^ 34)

/-- A MSGID (R123). -/
def msgIdOf (launch core q n : Nat) : Word :=
  BitVec.ofNat 64 (launch % 2 ^ 16 * 2 ^ 48 + core % 2 ^ 13 * 2 ^ 34 + q % 8 * 2 ^ 31 + n % 2 ^ 31)

/-! ### The message area (R128) -/

def inboxOffset (c q e : Nat) : Nat := 0xE0000 + 0x4000 * (c % 4) + 0x800 * q + 0x80 * e
def inboxKey (c q e : Nat) : Nat := quadKey (quadOf c) (inboxOffset c q e)
def slotKey (c x n : Nat) : Nat := quadKey (quadOf c) (0xF0000 + 0x4000 * (c % 4) + 0x800 * x + 0x80 * n)

/-- Payload slots of a context in use. -/
def Ctx.slotsUsed (t : Ctx) : List Nat := t.send.filterMap (·.slot)
/-- The lowest free one. -/
def Ctx.freePayload (t : Ctx) : Option Nat := firstFrom (fun n => !t.slotsUsed.contains n) 16 0

/-- Bytes of the core's quad memory as its context sees them: its own stores on the way laid over (R202, R233). -/
def State.ownQuadBytes (s : State) (c x : Nat) (key n : Nat) : List Byte :=
  let m := (s.core c).stores.foldl (fun m r =>
    if r.ctx = x ∧ r.dest = .home spQuad false ∧ r.op = .write then Memory.store m r.addr r.bytes else m) s.mem
  Memory.bytes m key n

/-! ### Checks of the send buffer (R131, R170) -/

/-- BOUNDS with a reason of R131 or R170. -/
def State.sendFault (s : State) (reason : Nat) : Out := s.fault Cause.bounds (BitVec.ofNat 64 (0xFFFF000000000000 + reason))

/-- Records a deque holds, hardware and spill. -/
def Deque.held (d : Deque) : Nat := d.hw.length + d.spillCount

/-- The class names a valid entry of the launch's handler table. -/
def State.classEntry (s : State) (c cls : Nat) : Option (BitVec 512) :=
  match s.launchOf c with
  | none => none
  | some (_, l) =>
    match l.handlers.find cls with
    | some e => if e.getLsbD 0 then some e else none
    | none => none

/-- A core is a member of group 0 of the launch of another. -/
def State.inGroup0 (s : State) (c dest : Nat) : Bool :=
  match s.launchOf c with
  | some (_, l) => (l.group 0).contains dest
  | none => false

/-- A quad holds a core of group 0. -/
def State.quadInGroup0 (s : State) (c quad : Nat) : Bool :=
  match s.launchOf c with
  | some (_, l) => (l.group 0).any fun k => quadOf k == quad
  | none => false

/-- Kinds of the instructions that a header word describes. -/
inductive SendForm where
  | send
  | hint
  | push
  | nz
deriving DecidableEq, Repr

/-- The first reason of R131 and R170 that a header and control word meet. -/
def State.sendReason (s : State) (k : SendForm) (hdr ctl : Word) : Option Nat :=
  let c := s.cur.1
  let t := s.me
  let plen := hdrPlen hdr
  let psrc := field ctl 32 20
  let d := (s.core c).deque
  let noDest := match k with
    | .send | .nz => !s.inGroup0 c (hdrDest hdr)
    | .hint => !s.quadInGroup0 c (hdrDest hdr / 4)
    | .push => false
  if t.send.length ≥ 32 then some 1
  else if plen ≠ 0 ∧ t.freePayload.isNone then some 2
  else if plen > 16 then some 3
  else if k = .push ∧ d.held + d.reserved ≥ 4160 then some 4
  else if (s.classEntry c (hdrClass hdr)).isNone then some 5
  else if noDest then some 6
  else if k ≠ .nz ∧ plen ≠ 0 ∧ (psrc % 8 ≠ 0 ∨ psrc + 8 * plen > 0x100000) then some 7
  else if field hdr 29 3 ≠ 0 ∨ field ctl 52 12 ≠ 0 ∨ field ctl 24 8 ≠ 0 ∨ ((k = .push ∨ k = .nz) ∧ plen ≠ 0) then some 8
  else none

/-- The core's next TASKID, and the count after it (R123). -/
def State.nextTaskId (s : State) (c : Nat) : Word :=
  taskIdOf ((s.core c).launch.getD 0) c ((s.core c).created + 1)

/-- TRAPINFO of a step over an instruction that creates tasks: zero when it creates none (R358). -/
def createInfo (id : Word) (n : Nat) : Word := if n = 0 then 0 else BitVec.ofNat 64 (3 * 2 ^ 61 + field id 0 34)

/-- An entry joins the running context's send buffer; n TASKIDs are used (R123, R131). -/
def State.addSend (s : State) (e : SendEntry) (n : Nat) : State :=
  (s.updCore s.cur.1 fun k => { k with created := k.created + n }).updMe fun t => { t with send := t.send ++ [e] }

/-- Retirement of an instruction that creates n tasks. -/
def State.retireSend (s : State) (f : Form) (n : Nat) (upd : Ctx → Ctx) : State :=
  s.retireTo f (s.me.pc + BitVec.ofNat 64 f.size) (createInfo (s.nextTaskId s.cur.1) n) upd

/-! ### SEND, SENDH, PUSHT, SENDNZ, SPAWN -/

/-- g[r + k]. -/
def regPlus (r : BitVec 5) (k : Nat) : BitVec 5 := r + BitVec.ofNat 5 k

/-- The operands of SEND, SENDH and PUSHT (R172). -/
def Form.sendForm (d a : BitVec 5) (m : BitVec 2) (b : BitVec 5) (n : BitVec 2) : Form :=
  if b = 0 then { srcs := [(d, 0), (a, m)], names := [.g d, .g a] }
  else { srcs := [(d, 0), (a, m), (b, n), (regPlus b 1, n)], names := [.g d, .g a, .g b, .g (regPlus b 1)] }

/-- SEND, SENDH and PUSHT: checks, then one entry at retirement, its payload copied into the lowest free slot; a read of quad memory,
it waits for an engine's line, for a future version and for what a FENCE.full has gone by (R131, R172, R222, R228, R240). -/
def sendInstr (i : Instr) (k : SendForm) (d a : BitVec 5) (m : BitVec 2) (b : BitVec 5) (n : BitVec 2) (s : State) : Out :=
  let f := Form.sendForm d a m b n
  issue i f s fun s =>
    let t := s.me
    let ctl := t.rd d
    let hdr := t.rd a
    let src : List Span := if hdrPlen hdr = 0 then [] else [⟨quadKey (quadOf s.cur.1) (field ctl 32 20), 8 * hdrPlen hdr, false⟩]
    match s.sendReason k hdr ctl, s.ownedLine src with
    | some r, _ => s.sendFault r
    | none, some line => s.waitFor (.miss line)
    | none, none =>
      let c := s.cur.1
      if !src.isEmpty && (t.versionPending || t.heldAt src || s.fullOpen c s.cur.2) then s.waitFor .drain
      else
        let args := if b = 0 then 0 else recArgs (t.rd b) (t.rd (regPlus b 1))
        let slot := if hdrPlen hdr = 0 then none else t.freePayload
        let kind : SendKind := match k with
          | .hint => .hint
          | .push => .push
          | _ => .msg (hdrDest hdr)
        let task : Task := ⟨headerRecord hdr (field ctl 0 24) args, s.nextTaskId c, 0, 0, none⟩
        let s := s.retireSend f 1 id
        let s := match slot with
          | some n =>
            s.putMem (slotKey c s.cur.2.val n)
              (s.ownQuadBytes c s.cur.2.val (quadKey (quadOf c) (field ctl 32 20)) (8 * hdrPlen hdr))
          | none => s
        let s := if k = .push then s.updCore c fun q => { q with deque := { q.deque with reserved := q.deque.reserved + 1 } }
          else s
        .next (s.addSend ⟨kind, task, slot⟩ 1)

/-- SEND (R172). -/
def execSend (d a : BitVec 5) (m : BitVec 2) (b : BitVec 5) (n : BitVec 2) (s : State) : Out :=
  sendInstr (.send d a m b n) .send d a m b n s
/-- SENDH (R172). -/
def execSendh (d a : BitVec 5) (m : BitVec 2) (b : BitVec 5) (n : BitVec 2) (s : State) : Out :=
  sendInstr (.sendh d a m b n) .hint d a m b n s
/-- PUSHT (R172). -/
def execPusht (d a : BitVec 5) (m : BitVec 2) (b : BitVec 5) (n : BitVec 2) (s : State) : Out :=
  sendInstr (.pusht d a m b n) .push d a m b n s

/-- Element width of SENDNZ's formats, and whether the sign bit alone is zero too (R173). -/
def nzFormat (sel : BitVec 3) : Nat × Bool :=
  match sel.toNat with
  | 0 => (32, false)
  | 1 => (32, true)
  | 2 | 3 => (16, true)
  | 4 => (8, false)
  | 5 | 6 => (8, true)
  | _ => (4, true)

/-- The non-zero elements of a captured vector, with their numbers, ascending (R147, R173). -/
def nonZero (sel : BitVec 3) (v : VWord) : List (Nat × Nat) :=
  let (w, signed) := nzFormat sel
  (List.range (1024 / w)).filterMap fun e =>
    let x := field v (w * e) w
    if x = 0 ∨ (signed ∧ x = 2 ^ (w - 1)) then none else some (e, x)

/-- SENDNZ: the vector is captured, and takes one entry and a TASKID for each message it will offer (R147, R173, R358). -/
def execSendnz (h v p : BitVec 4) (sel : BitVec 3) (s : State) : Out :=
  let gh := low h
  let gp := low p
  let f : Form := { srcs := [(gh, 0), (gp, 0), (regPlus gp 1, 0)], names := [.g gh, .v v, .g gp, .g (regPlus gp 1)] }
  issue (.sendnz h v p sel) f s fun s =>
    let t := s.me
    let hdr := t.rd gh
    match s.sendReason .nz hdr 0 with
    | some r => s.sendFault r
    | none =>
      let c := s.cur.1
      let base := lowHalf (t.rd gp)
      let record := headerRecord hdr 0 (recArgs 0 (t.rd (regPlus gp 1)))
      let task : Task := ⟨record, s.nextTaskId c, 0, 0, none⟩
      let n := (nonZero sel (t.vrd v)).length
      s.throughLane fun s =>
        .next ((s.retireSend f n id).addSend ⟨.nz (hdrDest hdr) (t.vrd v) sel base, task, none⟩ n)

/-- The messages a SENDNZ entry offers (R147). -/
def nzMessages (t : Task) (v : VWord) (sel : BitVec 3) (base : BitVec 32) : List Task :=
  (nonZero sel v).zipIdx.map fun ((e, x), k) =>
    let arg0 := (base + BitVec.ofNat 32 e).toNat
    { t with
      record := t.record ||| recBits arg0 0 ||| recBits x 32
      taskId := setBits t.taskId 0 34 (t.taskId.setWidth 34 + BitVec.ofNat 34 k) }

/-- SPAWN: checks, a fill slot, and a conditional entry; the request is on its way (R135, R174). The child's DRIFT, of which R174 says
nothing, is 0 by the model's choice (log entry 64). -/
def execSpawn (d a : BitVec 5) (m : BitVec 2) (b : BitVec 5) (n : BitVec 2) (s : State) : Out :=
  let args := (List.range 4).map fun k => regPlus b k
  let f : Form := { srcs := (a, m) :: args.map fun r => (r, n), names := .g d :: .g a :: args.map .g }
  issue (.spawn d a m b n) f s fun s =>
    let t := s.me
    let w := t.rd a
    let c := s.cur.1
    let dest := field w 0 13
    let pc := w.extractLsb' 16 16
    if t.send.length ≥ 32 then s.sendFault 1
    else if !s.inGroup0 c dest then s.sendFault 6
    else if field w 13 3 ≠ 0 ∨ field w 32 32 ≠ 0 then s.sendFault 8
    else if pc.getLsbD 0 then s.fault Cause.align (pc.setWidth 64)
    else
      s.withSlot fun slot =>
        let parent := ((t.task.map (·.task.record)).getD 0)
        let record := recArgs (joinHalves (lowHalf (t.rd (regPlus b 1))) (lowHalf (t.rd b)))
            (joinHalves (lowHalf (t.rd (regPlus b 3))) (lowHalf (t.rd (regPlus b 2)))) |||
          recBits (recClass parent) 128 ||| recBits (dest / 4) 189 ||| recBits (recGroup parent) 204 |||
          recBits (recPkcls parent) 212 ||| recBits (recEnergy parent) 216
        let task : Task := ⟨record, s.nextTaskId c, 0, pc, none⟩
        .next ((s.retireSend f 1 fun k => k.produce d slot .spawn none false).addSend
          ⟨.child dest slot.val none, task, none⟩ 1)

/-! ### Queries (R175 to R177) -/

/-- QSTAT (R176). -/
def execQstat (d : BitVec 5) (q : BitVec 3) (s : State) : Out :=
  quick (.qstat d q) (Form.dst d) d (fun _ =>
    let u := (s.core s.cur.1).queues[q.toNat]'q.isLt
    let waiting := (u.hw.filter fun e => !e.dispatched).length + u.spillCount
    BitVec.ofNat 64 (u.hw.length + u.spillCount + waiting * 2 ^ 9 + if u.spillCount = 0 then 0 else 2 ^ 18)) s

/-- QPRI: the mask is sampled and set at one retirement (R176). -/
def execQpri (d r : BitVec 5) (s : State) : Out :=
  let f : Form := { srcs := [(r, 0)], names := [.g d, .g r] }
  issue (.qpri d r) f s fun s =>
    let mask := (s.core s.cur.1).hold
    let v := (s.me.rd r).setWidth 8
    .next ((s.retire f fun k => k.wr d (mask.setWidth 64)).updCore s.cur.1 fun k => { k with hold := v })

/-- Members of a group in ascending COREID; group tables are kept so (R140, R177). -/
def State.members (s : State) (c n : Nat) : List Nat :=
  match s.launchOf c with
  | some (_, l) => l.group n
  | none => []

/-- GRPQ (R177). -/
def execGrpq (d r : BitVec 5) (s : State) : Out :=
  let f : Form := { srcs := [(r, 0)], names := [.g d, .g r] }
  issue (.grpq d r) f s fun s =>
    let l := s.members s.cur.1 (field (s.me.rd r) 0 8)
    let v := match findPlace (fun k => k == s.cur.1) l with
      | some (i, _) => l.length + 2 ^ 14 + i * 2 ^ 15
      | none => l.length
    .next (s.retire f fun k => k.wr d (BitVec.ofNat 64 v))

/-- GRPQ.m (R177). -/
def execGrpqM (d r : BitVec 5) (s : State) : Out :=
  let f : Form := { srcs := [(r, 0)], names := [.g d, .g r] }
  issue (.grpqM d r) f s fun s =>
    let l := s.members s.cur.1 (field (s.me.rd r) 0 8)
    let v : Word := match l[field (s.me.rd r) 8 14]? with
      | some k => BitVec.ofNat 64 (k % 2 ^ 13)
      | none => BitVec.allOnes 64
    .next (s.retire f fun k => k.wr d v)

/-! ### Spill rings (R127, R136, R137) -/

/-- A virtual range of a launch's address space read, if it translates and no engine owns a line of it; the hardware's own accesses
(R222). -/
def State.readVirtual (s : State) (l : Launch) (va n : Nat) : Option (List Byte) :=
  match s.placeVirtual l.root va n false with
  | .ok spans =>
    if (s.ownedLine spans).isSome then none
    else some (spans.flatMap fun p => Memory.bytes (s.mergeSpans spans).mem p.key p.len)
  | .error _ => none

/-- The same range written; nothing when it does not translate (R222; log entry 15). -/
def State.writeVirtual (s : State) (n : Nat) (l : Launch) (va : Nat) (b : List Byte) : Option State :=
  match s.placeVirtual l.root va b.length true with
  | .ok spans => if (s.ownedLine spans).isSome then none else some (s.quietWrite spans b n)
  | .error _ => none

/-- An engine owns a line of a range of an address space, whose home holds what comes to it (R222). -/
def State.virtualHeld (s : State) (root va n : Nat) : Bool :=
  !s.owners.isEmpty && match s.placeVirtual root va n false with
    | .ok spans => (s.ownedLine spans).isSome
    | .error _ => false

/-- The bytes of a spilled queue entry. -/
def queueEntryBytes (t : Task) (payload : List Byte) : List Byte :=
  leBytes 32 t.record.toNat ++ leBytes 8 t.taskId.toNat ++ leBytes 8 t.msgId.toNat ++ leBytes 8 t.childPc.toNat ++
  List.replicate 72 0 ++ payload

/-- A record read back from memory: its reserved bits are zero, whatever stands there (R6, R122). -/
def recordOf (b : List Byte) : BitVec 256 := setBits (BitVec.ofNat 256 (leNat (b.take 32))) 136 45 0

/-- A queue entry read back. -/
def queueEntryOf (b : List Byte) (rel : Released) : Task × List Byte :=
  (⟨recordOf b, BitVec.ofNat 64 (leNat ((b.drop 32).take 8)),
    BitVec.ofNat 64 (leNat ((b.drop 40).take 8)), BitVec.ofNat 16 (leNat ((b.drop 48).take 2)), rel⟩, (b.drop 128).take 128)

def dequeEntryBytes (r : DequeRec) : List Byte :=
  leBytes 32 r.record.toNat ++ leBytes 8 r.taskId.toNat ++ List.replicate 24 0

def dequeEntryOf (b : List Byte) (rel : Released) : DequeRec :=
  ⟨recordOf b, BitVec.ofNat 64 (leNat ((b.drop 32).take 8)), rel⟩

/-- Place of a spilled queue entry (R127); places are used round the ring (log entry 15). -/
def queueSpillAddr (l : Launch) (c q place : Nat) : Nat := l.qspill.toNat + (8 * c + q) * (240 * 256) + place % 240 * 256
/-- Place of a spilled deque record (R136). -/
def dequeSpillAddr (l : Launch) (c place : Nat) : Nat := l.dspill.toNat + 4096 * 64 * c + place % 4096 * 64

/-- The lowest free hardware entry of a queue. -/
def Queue.freeEntry (u : Queue) : Option Nat := firstFrom (fun e => !(u.hw.any fun m => m.entry == e)) 16 0

/-- A queue's spill ring that an offer would meet is held for an engine at its ends: the offer waits there (R127, R222). -/
def State.queueHeld (s : State) (c : Nat) (q : Fin 8) : Bool :=
  let u := (s.core c).queues[q]
  match s.launchOf c with
  | none => false
  | some (_, l) =>
    let held (place : Nat) : Bool := s.virtualHeld l.root (queueSpillAddr l c q.val place) 256
    (u.spillCount != 0 || u.freeEntry.isNone) && (held u.spillHead || held (u.spillHead + u.spillCount))

/-- A core's deque has a spill ring in use, some of whose places near its ends are held for an engine: pushes, pops and steals wait
(R136, R222). -/
def State.dequeHeld (s : State) (c : Nat) : Bool :=
  let d := (s.core c).deque
  match s.launchOf c with
  | none => false
  | some (_, l) =>
    let held (place : Nat) : Bool := s.virtualHeld l.root (dequeSpillAddr l c place) 64
    (decide (64 ≤ d.hw.length) || d.spillCount != 0) &&
      ((List.range 64).any (fun i => held (d.spillBottom + 4064 + i)) || held (d.spillBottom + d.spillCount + 4095) ||
        held (d.spillBottom + d.spillCount))

/-- A message takes a hardware entry, its payload in the inbox slot followed by zeros (R127, R128). -/
def State.takeEntry (s : State) (c : Nat) (q : Fin 8) (e : Nat) (t : Task) (payload : List Byte) (dispatched : Bool) : State :=
  let s := s.putMem (inboxKey c q.val e) (payload ++ List.replicate (128 - payload.length) 0)
  s.updCore c fun k =>
    let u := k.queues[q]
    { k with queues := k.queues.set q { u with hw := u.hw ++ [⟨e, t, dispatched⟩] } }

/-- The oldest spilled message of a queue moves into a free hardware entry (R127). -/
def State.unspill (s : State) (c : Nat) (q : Fin 8) : State :=
  let u := (s.core c).queues[q]
  match s.launchOf c, u.freeEntry with
  | some (_, l), some e =>
    if u.spillCount = 0 then s
    else
      match s.readVirtual l (queueSpillAddr l c q.val u.spillHead) 256 with
      | none => s
      | some b =>
        let (t, payload) := queueEntryOf b ((u.spillRel.head?).getD none)
        (s.takeEntry c q e t payload false).updCore c fun k =>
          let u := k.queues[q]
          let u := { u with
            spillHead := (u.spillHead + 1) % 240
            spillCount := u.spillCount - 1
            spillRel := u.spillRel.drop 1 }
          { k with queues := k.queues.set q u }
  | _, _ => s

/-- A spill ring that is full makes room when a hardware entry is free: its oldest message moves, as it does when the entry
falls free (R127). -/
def State.roomInRing (s : State) (c : Nat) (q : Fin 8) : State :=
  if ((s.core c).queues[q]).spillCount ≥ 240 then s.unspill c q else s

/-- A queue accepts an offer: the message gets its MSGID and a hardware entry, or the tail of the spill ring (R123, R127,
R133). None is a refusal. -/
def State.accept (s : State) (launch : Nat) (l : Launch) (c : Nat) (t : Task) (payload : List Byte) : Option State :=
  let q : Fin 8 := Fin.ofNat 8 (recQueue t.record)
  let s := s.roomInRing c q
  let k := s.core c
  let u := k.queues[q]
  if k.launch ≠ some launch ∨ !k.started ∨ u.hw.length + u.spillCount ≥ 256 ∨ u.spillCount ≥ 240 then none
  else
    let t := { t with msgId := msgIdOf launch c q.val (u.accepted + 1) }
    let count (s : State) : State := s.updCore c fun k =>
      let u := k.queues[q]
      { k with queues := k.queues.set q { u with accepted := u.accepted + 1 }, released := false }
    match if u.spillCount = 0 then u.freeEntry else none with
    | some e => some (count (s.takeEntry c q e t payload false))
    | none =>
      let b := queueEntryBytes { t with childPc := 0 } (payload ++ List.replicate (128 - payload.length) 0)
      (s.writeVirtual launch l (queueSpillAddr l c q.val (u.spillHead + u.spillCount)) b).map fun s =>
        count (s.updCore c fun k =>
          let u := k.queues[q]
          let u := { u with spillCount := u.spillCount + 1, spillRel := u.spillRel ++ [t.rel] }
          { k with queues := k.queues.set q u })

/-- Records of a deque written to places of its spill ring from one on, going up. -/
def State.writeDequePlaces (s : State) (launch : Nat) (l : Launch) (c : Nat) : Nat → List DequeRec → Option State
  | _, [] => some s
  | place, r :: rest =>
    match s.writeVirtual launch l (dequeSpillAddr l c place) (dequeEntryBytes r) with
    | some s => s.writeDequePlaces launch l c (place + 1) rest
    | none => none

/-- The 32 records nearest the top of a full hardware part move to the bottom of the spill ring, or as many as it has room for
(R136; log entry 59). -/
def State.spillDeque (s : State) (c : Nat) : State :=
  let d := (s.core c).deque
  match s.launchOf c with
  | none => s
  | some (launch, l) =>
    if d.hw.length < 64 then s
    else
      let n := min 32 (4096 - d.spillCount)
      let top := d.hw.drop (d.hw.length - n)
      let bottom := (d.spillBottom + 4096 - n) % 4096
      match s.writeDequePlaces launch l c bottom top with
      | none => s
      | some s => s.updCore c fun k =>
          let e := k.deque
          let e := { e with
            hw := d.hw.take (d.hw.length - n)
            spillBottom := bottom
            spillCount := d.spillCount + n
            spillRel := top.map (·.rel) ++ d.spillRel }
          { k with deque := e }

/-- Records read from places of the ring going up. -/
def State.readDequePlaces (s : State) (l : Launch) (c place : Nat) : List Released → Option (List DequeRec)
  | [] => some []
  | rel :: rest =>
    match s.readVirtual l (dequeSpillAddr l c place) 64, s.readDequePlaces l c (place + 1) rest with
    | some b, some tail => some (dequeEntryOf b rel :: tail)
    | _, _ => none

/-- The n spilled records nearest the bottom move back to the top of the hardware part (R136). -/
def State.takeBack (s : State) (c n : Nat) : State :=
  let d := (s.core c).deque
  match s.launchOf c with
  | none => s
  | some (_, l) =>
      match s.readDequePlaces l c d.spillBottom (d.spillRel.take n) with
      | none => s
      | some rs => s.updCore c fun k =>
          let e := k.deque
          let e := { e with
            hw := d.hw ++ rs
            spillBottom := (d.spillBottom + n) % 4096
            spillCount := d.spillCount - n
            spillRel := d.spillRel.drop n }
          { k with deque := e }

/-- An empty hardware part takes back the 32 spilled records nearest the bottom, or all of them (R136). -/
def State.refillDeque (s : State) (c : Nat) : State :=
  let d := (s.core c).deque
  if d.hw.isEmpty ∧ d.spillCount ≠ 0 then s.takeBack c (min 32 d.spillCount) else s

/-- A push at the bottom. -/
def State.pushBottom (s : State) (c : Nat) (r : DequeRec) : State :=
  (s.spillDeque c).updCore c fun k => { k with deque := { k.deque with hw := r :: k.deque.hw }, released := false }

/-- A push at the top: at the spill ring's top while it holds records (R136). A full ring gives its bottom record back to the
hardware part first (log entry 59). None when the ring cannot be written. -/
def State.pushTop (s : State) (c : Nat) (r : DequeRec) : Option State :=
  let s := s.spillDeque c
  let s := if (s.core c).deque.spillCount ≥ 4096 then s.takeBack c 1 else s
  let d := (s.core c).deque
  if d.spillCount ≥ 4096 then none
  else if d.spillCount = 0 then
    some (s.updCore c fun k => { k with deque := { k.deque with hw := k.deque.hw ++ [r] }, released := false })
  else
    match s.launchOf c with
    | none => none
    | some (launch, l) =>
      (s.writeDequePlaces launch l c (d.spillBottom + d.spillCount) [r]).map fun s => s.updCore c fun k =>
        let e := k.deque
        let e := { e with spillCount := e.spillCount + 1, spillRel := e.spillRel ++ [r.rel] }
        { k with deque := e, released := false }

/-- A pop at the bottom; the hardware part is refilled when it empties. -/
def State.popBottom (s : State) (c : Nat) : State :=
  (s.updCore c fun k => { k with deque := { k.deque with hw := k.deque.hw.drop 1 } }).refillDeque c

/-- The top record of a deque, and the state without it (R136, R138). -/
def State.takeTop (s : State) (c : Nat) : Option (DequeRec × State) :=
  let d := (s.core c).deque
  if d.spillCount = 0 then
    d.hw.getLast?.map fun r => (r, s.updCore c fun k => { k with deque := { k.deque with hw := k.deque.hw.dropLast } })
  else
    match s.launchOf c with
    | none => none
    | some (_, l) =>
      match s.readDequePlaces l c (d.spillBottom + d.spillCount - 1) (d.spillRel.drop (d.spillCount - 1)) with
      | some [r] => some (r, s.updCore c fun k =>
          let e := k.deque
          let e := { e with spillCount := e.spillCount - 1, spillRel := e.spillRel.dropLast }
          { k with deque := e })
      | _ => none

/-! ### DONE (R171) and the release of the send buffer (R132) -/

/-- A context's copy and gather commands not yet completed (R315). -/
def State.commandsOpen (s : State) (c x : Nat) : Bool :=
  ((s.core c).fifo.any fun f => f.ctx == x) ||
  s.gathers.any fun (_, g) => (List.finRange 4).any fun i => g.streams[i].any fun k => k.core == c && k.ctx == x

/-- A context's accepted array commands not yet completed. -/
def State.arrayOpen (s : State) (c : Nat) (x : Fin 8) : Bool :=
  (s.quad (quadOf c)).array.queue.any fun k => k.op != .grant && k.core == inQuad c && k.ctx == x

/-- What DONE waits for (R171, R315). -/
def State.doneReady (s : State) (c : Nat) (x : Fin 8) : Bool :=
  (s.ctx c x).fills.isEmpty && !s.arrayOpen c x && !s.commandsOpen c x.val

/-- The release made with a record: its core, and what its quad then holds dirty. -/
def State.releaseOf (s : State) (c : Nat) : Released := some (c, (s.quad (quadOf c)).dirtyObjs)

/-- A released entry as the messages it offers, in order. -/
def SendEntry.drains (e : SendEntry) : List Drain :=
  match e.kind with
  | .msg dest => [⟨.msg dest, e.task, e.slot, false⟩]
  | .hint => [⟨.hint, e.task, e.slot, false⟩]
  | .push => [⟨.push, e.task, none, false⟩]
  | .nz dest v sel base => (nzMessages e.task v sel base).map fun t => ⟨.msg dest, t, none, false⟩
  | .child dest _ (some y) => [⟨.child dest y, e.task, none, false⟩]
  | .child _ _ none => []

/-- A core with no context RUNNING or DRAINING looks at the pre-emption flag (R360). -/
def Core.look (k : Core) : Core :=
  let busy := (List.finRange 8).any fun x => (k.ctx x).cstate == .running || (k.ctx x).cstate == .draining
  if busy then k else { k with seen := k.seen || k.preempt }

/-- A DRAINING context with nothing left is DORMANT (R121). -/
def State.settleDrain (s : State) (c : Nat) (x : Fin 8) : State :=
  (s.updCtx c x fun t => if t.cstate = .draining ∧ t.drain.isEmpty then { t with cstate := .dormant } else t).updCore c
    Core.look

/-- Pushes go to the core's own deque and children to their reserved contexts, once every store that the release waits for has been
performed (R132, R135, R222). -/
def State.releaseLocal (s : State) (c : Nat) (x : Fin 8) : State :=
  let local_ (d : Drain) : Bool := match d.kind with
    | .push | .child .. => true
    | _ => false
  if s.storesOpen c x.val || (s.dequeHeld c && (s.ctx c x).drain.any local_) then s
  else
    let rel := s.releaseOf c
    let go (s : State) (d : Drain) : State := match d.kind with
      | .push =>
        (s.updCore c fun k => { k with deque := { k.deque with reserved := k.deque.reserved - 1 } }).pushBottom c
          ⟨d.task.record, d.task.taskId, rel⟩
      | .child dest y => s.updCtx dest (Fin.ofNat 8 y) fun t =>
          { t with reservation := t.reservation.map fun r => { r with child := some { d.task with rel := rel } } }
      | _ => s
    let l := (s.ctx c x).drain
    let s := (l.filter local_).foldl go s
    (s.updCtx c x fun t => { t with drain := l.filter fun d => !local_ d }).settleDrain c x

/-- The message of a finished task gives up its hardware entry (R127). -/
def Core.freeMessage (k : Core) (o : Origin) : Core :=
  match o with
  | .queue q e =>
    let i : Fin 8 := Fin.ofNat 8 q
    let u := k.queues[i]
    { k with queues := k.queues.set i { u with hw := u.hw.filter fun m => m.entry != e } }
  | _ => k

/-- DONE: waits for the context's outstanding work; then the window closes, the send buffer is released, tiles and lease
end, and the context is DRAINING or DORMANT (R171, R259, R315, R370, R373). -/
def execDone (s : State) : Out :=
  let f : Form := {}
  issue .done f s fun s =>
    let c := s.cur.1
    let x := s.cur.2
    if !s.doneReady c x then s.waitFor .done
    else
      let pc := s.me.faultPc
      let origin := s.me.task.map (·.origin)
      let s := (s.retire f id).endTask c x pc false
      let s := s.updCtx c x fun t =>
        { t with drain := t.send.flatMap SendEntry.drains, send := [], task := none, cstate := .draining }
      let s := (s.settleDrain c x).releaseLocal c x
      .next (s.updCore c fun k =>
        (match origin with
          | some o => k.freeMessage o
          | none => k).leave x)

/-! ### Admission (R370, R371) -/

/-- A task is admitted, or refused; a refusal for ENERGY or PKCLS is noted for R371 under the task's TASKID. Contexts barred
by R373 are not offered. -/
def State.admission (s : State) (c : Nat) (record : BitVec 256) (id : Word) : Bool × State :=
  let n := clusterOf c
  let k := s.cluster n
  if !k.starved.isEmpty ∧ k.starved.head? ≠ some id then (false, s)
  else if recEnergy record > k.remE ∨ recPkcls record > k.currentLeft then
    (false, s.setCluster n { k with refusedNow := if k.refusedNow.contains id then k.refusedNow else k.refusedNow ++ [id] })
  else
    (true, s.setCluster n { k with
      remE := k.remE - recEnergy record
      usedI := k.usedI + recPkcls record
      starved := k.starved.filter (· != id)
      refusedNow := k.refusedNow.filter (· != id)
      refusedLast := k.refusedLast.filter (· != id) })

/-- A candidate leaves a cluster unadmitted, and its marks with it (R371). -/
def Cluster.unmark (k : Cluster) (id : Word) : Cluster :=
  { k with
    starved := k.starved.filter (· != id)
    kept := k.kept.filter (· != id)
    refusedNow := k.refusedNow.filter (· != id)
    refusedLast := k.refusedLast.filter (· != id) }

/-- It leaves every cluster but one. -/
def State.unmarkBut (s : State) (n : Nat) (id : Word) : State :=
  { s with clusters := s.clusters.mapVals fun m k => if m = n then k else k.unmark id }

/-! ### The state a task starts in (R125, R126) -/

/-- Budget of a task: the record's, or the entry's, 0 meaning 2^24 (R124, R125). -/
def startBudget (record : BitVec 256) (entry : BitVec 512) : Nat :=
  if recBudget record ≠ 0 then recBudget record
  else if field entry 34 24 ≠ 0 then field entry 34 24
  else 2 ^ 24

/-- STATUS at a task's start. A reserved RND or bank code of the entry is loaded as it stands: R15 speaks of writes by
instructions only (DESIGN CHOICE, log entry 57). -/
def startStatus (entry : BitVec 512) : Word :=
  BitVec.ofNat 64 ((if entry.getLsbD 58 then 0x80 else 0) + 0x20 + (if entry.getLsbD 19 then 4 else 0) +
    field entry 16 3 * 2 ^ 13 + field entry 20 14 * 2 ^ 32)

/-- A context given a task (R125). -/
def Ctx.start (t : Ctx) (c : Nat) (task : Task) (origin : Origin) (entry : BitVec 512) : Ctx :=
  let r := task.record
  let inbox := match origin with
    | .queue q e => if recPlen r = 0 then 0 else inboxOffset c q e
    | _ => 0
  let value (n : Nat) : Word := BitVec.ofNat 64 <|
    match n with
    | 1 | 2 | 3 | 4 => recArg r (n - 1)
    | 5 => inbox
    | 6 => 8 * recPlen r
    | 7 => field r 128 64
    | _ => 0
  let budget := startBudget r entry
  let pc := match origin with
    | .child => task.childPc.setWidth 64
    | _ => BitVec.ofNat 64 (field entry 1 15 * 2)
  { t with
    cstate := .running
    g := Vector.ofFn fun i => value i.val
    v := (t.clearBanks t.status (startStatus entry)).v
    gs := Vector.ofFn fun i => if i.val < 8 then .full else .free
    hb := Vector.ofFn fun i => BitVec.ofNat 64 (field entry (64 + 13 * i.val) 13)
    pc := pc
    status := startStatus entry
    budget := BitVec.ofNat 64 budget
    taskId := task.taskId
    rep := none
    wait := none
    held := none
    desc := none
    napping := none
    token := none
    async := Async.empty
    slotWait := false
    late := none
    fading := []
    filled := []
    parked := none
    sleep := none
    send := []
    drain := []
    window := none
    reservation := none
    task := some ⟨task, origin, entry.getLsbD 58, entry, budget⟩ }

/-- The implied acquire of a dispatch: the releasing core's quad drains what it released, if it is another quad, and the
L1 is invalidated, if it is another core (R132, R200, R220, R221). -/
def State.dispatchAcquire (s : State) (c : Nat) (rel : Released) : State :=
  match rel with
  | none => s
  | some (p, objs) =>
    let s := if quadOf p = quadOf c then s else s.drainAll (quadOf p) (some objs)
    if p = c then s else s.updCore c Core.l1Clear

/-- A stop has reached a core: from 2 µs after its write on, and before that from a moment of choice on (R441, R443; log entry 29). -/
def State.stopReaches (s : State) (n : Nat) (k : TaskStop) (c : Nat) : Bool × State :=
  if k.since + 4000 ≤ s.mesh ∨ k.cores.contains c then (true, s)
  else
    let (i, s) := s.pick 2
    if i = 0 then (true, { s with taskStops := s.taskStops.put n { k with cores := c :: k.cores } }) else (false, s)

/-- The task stops of R441 on a task that is dispatched, by ACT: a STEP before its first retirement, a stop at PC, the flash
trigger (R442). -/
def State.taskStop (s : State) (c : Nat) (x : Fin 8) (id : Word) : State :=
  s.taskStops.foldl (fun (s : State) (n, k) =>
    if k.taskId = id ∧ k.word1.getLsbD 0 then
      let (reached, s) := s.stopReaches n k c
      if !reached then s
      else match field k.word1 2 2 with
      | 0 => s.updCtx c x fun t => { t with async := { t.async with step := t.async.step.or (some (stopInfo n)) } }
      | 1 => s.updCtx c x fun t =>
          ({ t with async := { t.async with stopAt := t.async.stopAt ++ [(n, BitVec.ofNat 64 (field k.word1 4 15 * 2))] } } : Ctx).stopCheck
      | 2 => s.fireTrigger
      | _ => s
    else s) s

/-- A task starts on a context, which joins its core's ready ones. A deque record with a payload length has no payload
slot for g5 to name: its value is open (log entry 16). -/
def State.startTask (s : State) (c : Nat) (x : Fin 8) (task : Task) (origin : Origin) (entry : BitVec 512) : State :=
  let s := ((s.dispatchAcquire c task.rel).updCtx c x fun t => t.start c task origin entry).updCore c Core.feed
  let s := s.taskStop c x task.taskId
  match origin with
  | .deque =>
    if recPlen task.record = 0 then s
    else
      let (v, s) := s.free
      s.updCtx c x fun t => t.wr 5 v
  | _ => s

end Sys2Proof.Machine
end

