-- ==== Sys2Proof/Machine/Array.lean ====
section
/-!
DEFINITION. The shared array (R148, R151 to R166, R187 to R196): its leases, the acceptance of its commands, and what each
does when its turn comes (R44, R45, R57 to R60).
-/

namespace Sys2Proof.Machine

/-! ### The array configuration register (R155, R156) -/

def cfgA (w : Word) : Nat := field w 12 4
def cfgB (w : Word) : Nat := field w 8 4
def cfgComplex (w : Word) : Bool := w.getLsbD 7
def cfgSat (w : Word) : Bool := w.getLsbD 6
def cfgSkip (w : Word) : Bool := w.getLsbD 5
def cfgUnfold (w : Word) : Bool := w.getLsbD 4
/-- AFMT is an integer format. -/
def cfgInt (w : Word) : Bool := cfgA w == fINT8 || cfgA w == fUINT8

def fCB16 : Nat := 9

/-- The format pairs of R156. -/
def arrayPair (a b : Nat) : Bool :=
  if a = fE4M3 ∨ a = fE5M2 then b == fE4M3 || b == fE5M2
  else if a = fINT8 ∨ a = fUINT8 then b == fINT8 || b == fUINT8
  else if a = fE2M1 then b == fE2M1 || b == fCB16
  else a == fBF16 && b == fBF16

/-- A value that XCFG may write (R155). -/
def cfgValid (w : Word) : Bool :=
  arrayPair (cfgA w) (cfgB w) && !(cfgComplex w && cfgB w == fCB16) &&
  !(cfgUnfold w && (cfgInt w || cfgA w == fBF16)) && field w 16 48 == 0 && field w 0 4 == 0

/-- The depth of one XMMA (R156). -/
def arrayDepth (a : Nat) : Nat := if a = fE2M1 then 64 else if a = fBF16 then 16 else 32

/-- The kind a configuration gives a tile. -/
def cfgKind (w : Word) : TileKind := if cfgInt w then .int else .float

/-! ### Buffers -/

/-- Bytes put into a buffer of a size at a place; a short list ends in zeros. -/
def putBuffer (zero : α) (size : Nat) (l : List α) (at_ : Nat) (b : List α) : List α :=
  let l := l ++ List.replicate (size - l.length) zero
  l.take at_ ++ b ++ l.drop (at_ + b.length)

/-- Element k of a row of elements of w bits, E2M1 low nibble first. -/
def elemOf (w : Nat) (row : List Byte) (k : Nat) : Nat := leNat row / 2 ^ (w * k) % 2 ^ w

/-- The bytes of a row of A, or of a column of B. -/
def rowOf (buf : List Byte) (i : Nat) : List Byte := (buf.drop (32 * i)).take 32

/-! ### The unfolding unit (R161) -/

def uBase (d : BitVec 256) : Nat := field d 0 32
def uH (d : BitVec 256) : Nat := field d 32 16
def uW (d : BitVec 256) : Nat := field d 48 16
def uC (d : BitVec 256) : Nat := field d 64 16
def uKH (d : BitVec 256) : Nat := field d 80 4 + 1
def uKW (d : BitVec 256) : Nat := field d 84 4 + 1
def uSH (d : BitVec 256) : Nat := field d 88 4
def uSW (d : BitVec 256) : Nat := field d 92 4
def uPH (d : BitVec 256) : Nat := field d 96 4
def uPW (d : BitVec 256) : Nat := field d 100 4
def uDH (d : BitVec 256) : Nat := field d 104 4
def uDW (d : BitVec 256) : Nat := field d 108 4
def uOW (d : BitVec 256) : Nat := field d 112 16
def uRow0 (d : BitVec 256) : Nat := field d 128 32
def uK0 (d : BitVec 256) : Nat := field d 160 32

/-- Every field is in its range. Bytes 24 to 31, which the table gives as zero, have no field and are not looked at (DESIGN CHOICE,
log entry 57). -/
def unfoldValid (d : BitVec 256) : Bool :=
  let dim (n : Nat) : Bool := decide (1 ≤ n ∧ n ≤ 4096)
  let step (n : Nat) : Bool := decide (1 ≤ n ∧ n ≤ 8)
  dim (uH d) && dim (uW d) && dim (uC d) && dim (uOW d) && step (uSH d) && step (uSW d) && step (uDH d) && step (uDW d)

/-- The byte in quad memory of an input element of w bits. -/
def unfoldByte (d : BitVec 256) (w n : Nat) : Nat := uBase d + n * w / 8

/-- The last element of the input lies beyond quad memory (reason 3). Where H, W or C is 0, which R161 does not admit, the row, column or
channel 0 stands for the last one (DESIGN CHOICE, log entry 66). -/
def unfoldOutside (d : BitVec 256) (w : Nat) : Bool :=
  decide (unfoldByte d w (((uH d - 1) * uW d + (uW d - 1)) * uC d + (uC d - 1)) + (w + 7) / 8 > 2 ^ 20)

/-- The input element that virtual element (i, k) reads: none in the padding. -/
def unfoldPlace (d : BitVec 256) (i k : Nat) : Option Nat :=
  let p := uRow0 d + i
  let oy := p / uOW d
  let ox := p % uOW d
  let kk := uK0 d + k
  let c := kk % uC d
  let t := kk / uC d
  let kx := t % uKW d
  let ky := t / uKW d
  let iy : Int := oy * uSH d - uPH d + ky * uDH d
  let ix : Int := ox * uSW d - uPW d + kx * uDW d
  if ky ≥ uKH d ∨ iy < 0 ∨ iy ≥ uH d ∨ ix < 0 ∨ ix ≥ uW d then none
  else some ((iy.toNat * uW d + ix.toNat) * uC d + c)

/-- A virtual element. What the spec leaves open, an element of a descriptor out of its ranges or beyond quad memory, is
a free value, fresh for each place (log entry 17). -/
def unfoldElem (m : List Host.Cell) (quad : Nat) (d : BitVec 256) (w free i k : Nat) : Nat :=
  let open_ := (Config.freeWord free).toNat % 2 ^ w
  if !unfoldValid d then open_
  else
    match unfoldPlace d i k with
    | none => 0
    | some n =>
      let b := unfoldByte d w n
      if b + (w + 7) / 8 > 2 ^ 20 then open_
      else if w = 4 then Memory.nat m (quadKey quad b) 1 / 2 ^ (4 * (n % 2)) % 16
      else Memory.nat m (quadKey quad b) (w / 8)

/-- The descriptor after an XMMA of M rows (R161). -/
def unfoldNext (d : BitVec 256) (depth rows : Nat) : BitVec 256 :=
  let k := uK0 d + depth
  if k ≥ uKH d * uKW d * uC d then
    setBits (setBits d 160 32 0) 128 32 (BitVec.ofNat 32 (uRow0 d + rows))
  else setBits d 160 32 (BitVec.ofNat 32 k)

/-! ### Operands (R41, R45, R157) -/

/-- An element with its block's scale. -/
def scaled (v : FVal) (scale : Nat) : FVal := (mulVal v (unpackE8 scale)).1

/-- The eight E2M1 codes of a CB16 index, and whether it selects the second scale (R45). -/
def decodeCB16 (idx : Nat) (entry : BitVec 24) : List Nat × Bool :=
  let sign (j : Nat) : Nat := idx / 2 ^ (j + 1) % 2
  let neg := (List.range 7).foldl (fun a j => a + sign j) 0
  ((List.range 7).map (fun j => sign j * 8 + field entry (3 * j) 3) ++ [neg % 2 * 8 + field entry 21 3], idx % 2 == 1)

/-- The 64 weights of a codebook column. -/
def cb16Column (table : List (BitVec 24)) (row : List Byte) (scale : BitVec 16) : List FVal :=
  (List.range 8).flatMap fun t =>
    let idx := elemOf 16 row t
    let (codes, second) := decodeCB16 idx ((table[idx / 256]?).getD 0)
    codes.map fun c => scaled (unpack (floatFmt fE2M1) c) (field scale (if second then 8 else 0) 8)

/-- A row of raw elements as values under a pair of block scales. -/
def rowValues (f : Nat) (raw : List Nat) (scale : BitVec 16) : List FVal :=
  raw.zipIdx.map fun (x, k) =>
    let v := unpack (floatFmt f) x
    if f = fBF16 then v else scaled v (field scale (8 * (k / 32)) 8)

/-- A raw integer element. -/
def rawInt (f x : Nat) : Int := if f = fINT8 then (BitVec.ofNat 8 x).toInt else (x % 256 : Nat)

/-- The raw A elements of a command, row by row. -/
def ArrayUnit.rawA (u : ArrayUnit) (m : List Host.Cell) (quad free : Nat) (cfg : Word) (rows : Nat) : List (List Nat) :=
  let f := cfgA cfg
  let depth := arrayDepth f
  (List.range rows).map fun i => (List.range depth).map fun k =>
    if cfgUnfold cfg then unfoldElem m quad u.unfolded (fmtWidth f) (free + i * depth + k) i k
    else elemOf (fmtWidth f) (rowOf u.a i) k

/-- The A values of a float command; through the unfolding unit every scale is 1 (R157). -/
def ArrayUnit.valuesA (u : ArrayUnit) (cfg : Word) (raw : List (List Nat)) : List (List FVal) :=
  raw.zipIdx.map fun (r, i) =>
    rowValues (cfgA cfg) r (if cfgUnfold cfg then 0x7F7F else (u.scaleA[i]?).getD 0)

/-- The B values of a float command, column by column. -/
def ArrayUnit.valuesB (u : ArrayUnit) (cfg : Word) (cols : Nat) : List (List FVal) :=
  (List.range cols).map fun j =>
    let scale := (u.scaleB[j]?).getD 0
    if cfgB cfg = fCB16 then cb16Column u.table (rowOf u.b j) scale
    else rowValues (cfgB cfg)
      ((List.range (arrayDepth (cfgA cfg))).map fun k => elemOf (fmtWidth (cfgB cfg)) (rowOf u.b j) k) scale

/-! ### One cell (R57 to R60) -/

/-- The product of two scaled operands as an A26 value (R57). -/
def arrayProduct (x y : FVal) : FVal × Flags :=
  match (mulVal x y).1 with
  | .nan => (.nan, { inv := true })
  | .inf n => (.inf n, {})
  | .fin n m e =>
    if m = 0 then (.fin n 0 0, {})
    else if e + m.log2 ≥ 128 then (.inf n, { ovf := true, inx := true })
    else if e + m.log2 < -126 then (.fin n 0 0, { unf := true, inx := true })
    else (.fin n m e, {})

/-- A value rounded to A26: RNE, nothing below the normals kept (R40, R46). -/
def roundA26 (v : FVal) : Nat × Flags :=
  match v with
  | .nan => (fmtA26.nanBits, {})
  | .inf n => (fmtA26.signed n fmtA26.infBits, {})
  | .fin n m e =>
    if m = 0 then (fmtA26.signed n 0, {})
    else
      let r := roundMag fmtA26 .rne 0 n m e false
      if r.tiny then (fmtA26.signed n 0, { unf := true, inx := true })
      else if r.bits > fmtA26.maxBits then (fmtA26.signed n fmtA26.infBits, { ovf := true, inx := true })
      else (fmtA26.signed n r.bits, { inx := r.inexact })

/-- One addition into a partial, or one subtraction (R58, R60). -/
def Cell.add (c : Cell) (x y : FVal) (sub : Bool) : Cell × Flags :=
  let (p, f) := arrayProduct x y
  let (v, inv) := addVal .rne (unpack fmtA26 c.p.toNat) (if sub then p.neg else p)
  let (b, g) := roundA26 v
  ({ c with p := BitVec.ofNat 26 b, pending := true }, (f.or g).or { inv := inv })

/-- The partial goes into the shadow (R58). -/
def Cell.promote (c : Cell) : Cell × Flags :=
  let r := fAdd (floatFmt fFP32) .rne 0 (unpack (floatFmt fFP32) c.s.toNat) (unpack fmtA26 c.p.toNat)
  (⟨0, BitVec.ofNat 32 r.bits, false⟩, r.flags)

/-- A cell whose partial holds an accumulation promotes it (R58, R159). -/
def Cell.settle (c : Cell) : Cell × Flags := if c.pending then c.promote else (c, {})

/-- A cell through the k-steps of a command, each an addition or none; at step P of the tile's counter it promotes. -/
def runCell (interval : Nat) : List (Option (FVal × FVal × Bool)) → Nat → Cell → Flags → Cell × Flags
  | [], _, c, f => (c, f)
  | t :: l, steps, c, f =>
    let (c, g) := match t with
      | some (x, y, sub) => c.add x y sub
      | none => (c, {})
    if steps + 1 = interval then
      let (c, h) := c.promote
      runCell interval l 0 c ((f.or g).or h)
    else runCell interval l (steps + 1) c (f.or g)

/-- An INT32 sum in wrap or saturate mode (R59). -/
def addInt (sat : Bool) (acc : BitVec 32) (x : Int) : BitVec 32 :=
  let z := acc.toInt + x
  if sat then (if z < -2 ^ 31 then 0x80000000 else if z > 2 ^ 31 - 1 then 0x7FFFFFFF else BitVec.ofInt 32 z)
  else BitVec.ofInt 32 z

/-- The steps of cell (i, j) of a real command: pairs of k for A and B with its column, subtracted or not; none where the
block of A is skipped (R58, R162). -/
def realSteps (depth j : Nat) (skip : Nat → Bool) : List (Option (Nat × Nat × Nat × Bool)) :=
  (List.range depth).map fun k => if skip k then none else some (k, k, j, false)

/-- The steps of a cell of a complex command: an even column holds real parts, an odd one imaginary (R60, R192). -/
def complexSteps (depth j : Nat) (skip : Nat → Bool) : List (Option (Nat × Nat × Nat × Bool)) :=
  (List.range (depth / 2)).flatMap fun m =>
    let r := 2 * m
    let q := 2 * m + 1
    let use (k : Nat) (t : Nat × Nat × Nat × Bool) := if skip k then none else some t
    if j % 2 = 0 then [use r (r, r, j, false), use q (q, q, j, true), none, none]
    else [none, none, use r (r, q, j - 1, false), use q (q, r, j - 1, false)]

def cellSteps (cfg : Word) (j : Nat) (skip : Nat → Bool) : List (Option (Nat × Nat × Nat × Bool)) :=
  if cfgComplex cfg then complexSteps (arrayDepth (cfgA cfg)) j skip else realSteps (arrayDepth (cfgA cfg)) j skip

/-! ### Tiles -/

def Cell.zero : Cell := ⟨0, 0, false⟩
def Tile.cell (t : Tile) (i j : Nat) : Cell := (t.cells[32 * i + j]?).getD Cell.zero
/-- Every cell computed from its row and column, flags gathered. -/
def Tile.mapCells (t : Tile) (f : Nat → Nat → Cell → Cell × Flags) : Tile :=
  let r := (List.range 1024).map fun n => f (n / 32) (n % 32) (t.cell (n / 32) (n % 32))
  let g := r.foldl (fun (a : Flags) c => a.or c.2) {}
  { t with
    cells := r.map (·.1), inv := t.inv || g.inv, ovf := t.ovf || g.ovf, unf := t.unf || g.unf, inx := t.inx || g.inx }
def Tile.raise (t : Tile) (g : Flags) : Tile :=
  { t with inv := t.inv || g.inv, ovf := t.ovf || g.ovf, unf := t.unf || g.unf, inx := t.inx || g.inx }

/-- A claim: cells, counter, kind and status flags cleared (R158). -/
def Tile.claim (t : Tile) : Tile :=
  { t with
    kind := .none, steps := 0, cells := [], inv := false, ovf := false, unf := false, inx := false, cvt := false, cidx := 0 }

/-- Every cell with an accumulation promotes; the counter starts again (R58, R159). -/
def Tile.promote (t : Tile) : Tile :=
  if t.kind = .float then { t.mapCells (fun _ _ c => c.settle) with steps := 0 } else { t with steps := 0 }

/-- A block of A, 8 rows by 8 k, is zero (R162). -/
def zeroBlock (cfg : Word) (raw : List (List Nat)) (s b : Nat) : Bool :=
  let minus := if cfgInt cfg then 0 else 2 ^ (fmtWidth (cfgA cfg) - 1)
  ((raw.drop (8 * s)).take 8).all fun r => ((r.drop (8 * b)).take 8).all fun x => x == 0 || x == minus

/-- XMMA and XCMMA on a tile (R58 to R60, R159, R162). -/
def ArrayUnit.multiply (u : ArrayUnit) (t : Tile) (cfg : Word) (interval : Nat) (raw : List (List Nat))
    (rows cols : Nat) : Tile :=
  let depth := arrayDepth (cfgA cfg)
  let t := if t.kind = .none then { t with kind := cfgKind cfg } else t
  let t := if t.kind = .float ∧ t.steps ≥ interval then t.promote else t
  let zero (s b : Nat) : Bool := cfgSkip cfg && zeroBlock cfg raw s b
  let skips := (List.range (rows / 8)).foldl (fun a s =>
    (List.range (depth / 8)).foldl (fun a b => if zero s b then a + 1 else a) a) 0
  let t := { t with skip := min 15 skips }
  if cfgInt cfg then
    let b := (List.range cols).map fun j => (List.range depth).map fun k => rawInt (cfgB cfg) (elemOf 8 (rowOf u.b j) k)
    let a := raw.map fun r => r.map (rawInt (cfgA cfg))
    t.mapCells fun i j c =>
      if i < rows ∧ j < cols then
        ({ c with s := (cellSteps cfg j fun k => zero (i / 8) (k / 8)).foldl (fun acc step =>
            match step with
            | none => acc
            | some (ka, kb, col, sub) =>
              let x := ((a[i]?.getD [])[ka]?).getD 0 * ((b[col]?.getD [])[kb]?).getD 0
              addInt (cfgSat cfg) acc (if sub then -x else x)) c.s }, {})
      else (c, {})
  else
    let a := u.valuesA cfg raw
    let b := u.valuesB cfg cols
    let steps := t.steps
    let n := if cfgComplex cfg then 2 * depth else depth
    let t := t.mapCells fun i j c =>
      if i < rows ∧ j < cols then
        runCell interval ((cellSteps cfg j fun k => zero (i / 8) (k / 8)).map fun step => step.map fun (ka, kb, col, sub) =>
          (((a[i]?.getD [])[ka]?).getD .nan, ((b[col]?.getD [])[kb]?).getD .nan, sub)) steps c {}
      else (c, {})
    { t with steps := (steps + n) % interval }

/-- XZERO: every cell zero, or lane j of a bias in its column (R160). -/
def Tile.zeroed (t : Tile) (kind : TileKind) (bias : Option VWord) : Tile :=
  let cells := match bias with
    | none => []
    | some v => (List.range 1024).map fun n => ⟨0, v.extractLsb' (32 * (n % 32)) 32, false⟩
  { t with kind := kind, steps := 0, cells := cells }

/-! ### The drain (R164, R194) -/

/-- Nearest integer to x / d, a tie away from zero. -/
def roundHalfAway (x : Int) (d : Nat) : Int :=
  let q : Int := (2 * x.natAbs + d) / (2 * d)
  if x < 0 then -q else q

/-- The requantised value of an accumulator under an entry of the table. -/
def requantise (acc : BitVec 32) (e : BitVec 64) : Int :=
  roundHalfAway (acc.toInt * (e.extractLsb' 0 32).toInt) (2 ^ (31 + field e 32 6)) + (e.extractLsb' 40 16).toInt

/-- A drain's request. -/
structure Drained where
  fmt : Nat
  policy : Nat
  rows : Nat
  cols : Nat
  raw : Bool
  mode : Mode
deriving DecidableEq, Repr

/-- One element under the policy; one that overflows under policy 11 takes the policy-00 value (R164). Of an integer tile the flags are
those of converting the rounded integer: RoundHalfAway itself raises none, which R55 and R164 leave open (DESIGN CHOICE, log entry
64). -/
def Drained.element (d : Drained) (t : Tile) (table : List (BitVec 64)) (i j draw : Nat) : Conv :=
  let c := t.cell i j
  let conv (policy : Nat) : Conv :=
    match t.kind with
    | .none => ⟨0, {}, none⟩
    | .float => roundTo (floatFmt d.fmt) d.mode draw policy (unpack (floatFmt fFP32) c.s.toNat)
    | .int =>
      if d.raw then ⟨c.s.toNat, {}, none⟩
      else toInteger d.fmt .rne 0 policy (FVal.ofInt (requantise c.s ((table[j]?).getD 0)))
  let r := conv d.policy
  if r.trap.isSome then { conv 0 with trap := r.trap } else r

/-- Every element in row-major order, each with its draw (R50). -/
def Drained.elements (d : Drained) (t : Tile) (table : List (BitVec 64)) : List (Nat × Nat) → BitVec 32 → List Conv
  | [], _ => []
  | (i, j) :: l, g =>
    let g := drawNext g
    d.element t table i j (drawOf g) :: d.elements t table l g

/-- A drain of a promoted tile: its rows of bytes, and the tile with the drain's flags. -/
def Drained.run (d : Drained) (t : Tile) (table : List (BitVec 64)) (g : BitVec 32) : List (List Byte) × Tile :=
  let places := (List.range (d.rows * d.cols)).map fun n => (n / d.cols, n % d.cols)
  let r := d.elements t table places g
  let t := t.raise (r.foldl (fun (a : Flags) c => a.or c.flags) {})
  let t := match findPlace (fun (c : Conv) => c.trap.isSome) r with
    | some (n, _) => if t.cvt then t else { t with cvt := true, cidx := n % 1024 }
    | none => t
  let w := fmtWidth d.fmt
  let row (i : Nat) : List Byte :=
    leBytes (d.cols * w / 8) (((r.drop (i * d.cols)).take d.cols).zipIdx.foldl (fun a (c, j) => a + c.bits % 2 ^ w * 2 ^ (w * j)) 0)
  ((List.range d.rows).map row, t)

/-- Layout of g[b] (R194). -/
def drainStride (w : Word) : Nat := field w 0 20
def drainTable (w : Word) : Nat := field w 20 20
def drainRows (w : Word) : Nat := (field w 40 2 + 1) * 8
def drainCols (w : Word) : Nat := (field w 42 2 + 1) * 8

/-- The target is a float format. -/
def drainFloat (f : Nat) : Bool := decide (f ≤ 5)

/-! ### Execution (R151, R187) -/

def State.arrayOf (s : State) (q : Nat) : ArrayUnit := (s.quad q).array
def State.setArray (s : State) (q : Nat) (u : ArrayUnit) : State := s.updQuad q fun k => { k with array := u }
def ArrayUnit.setTile (u : ArrayUnit) (n : Fin 8) (t : Tile) : ArrayUnit := { u with tiles := u.tiles.set n t }

/-- A grant in its turn: buffers zero (R152). -/
def ArrayUnit.granted (u : ArrayUnit) : ArrayUnit := { u with a := [], b := [], scaleA := [], scaleB := [], unfolded := 0 }

/-- Grants at the head of the queue take effect at once. -/
def ArrayUnit.settle (u : ArrayUnit) : List ArrayCmd → ArrayUnit
  | [] => { u with queue := [] }
  | k :: l => if k.op = .grant then u.granted.settle l else { u with queue := k :: l }

/-- Rows of quad memory. -/
def State.quadRows (s : State) (q base stride rows size : Nat) : List (List Byte) :=
  (List.range rows).map fun i => Memory.bytes s.mem (quadKey q (base + i * stride)) size

/-- The tile a command works on; a claim clears its cells, kind and flags when the command executes, though its owner stands from
acceptance on (R158; DESIGN CHOICE, log entry 66). -/
def ArrayUnit.tileFor (u : ArrayUnit) (k : ArrayCmd) (n : Fin 8) : Tile := if k.claim then u.tiles[n].claim else u.tiles[n]

/-- Quad-memory bytes that a command reads or writes as it executes: offset and length of each row. -/
def ArrayUnit.regions (u : ArrayUnit) (k : ArrayCmd) : List (Nat × Nat) :=
  match k.op with
  | .grant | .cfg | .free | .unfold _ | .zero .. => []
  | .table off => [(off, 768)]
  | .loadA base stride rows => (List.range rows).map fun i => (base + i * stride, 32)
  | .loadB base stride cols => (List.range cols).map fun i => (base + i * stride, if cfgB k.cfg = fCB16 then 16 else 32)
  | .scaleA base rows => [(base, 2 * rows)]
  | .scaleB base cols => [(base, 2 * cols)]
  | .mma .. =>
    let d := u.unfolded
    if cfgUnfold k.cfg then [(uBase d, unfoldByte d (fmtWidth (cfgA k.cfg)) (uH d * uW d * uC d) + 1 - uBase d)] else []
  | .drain _ dest layout fmt _ _ raw =>
    (List.range (drainRows layout)).map (fun i => (dest + i * drainStride layout, drainCols layout * fmtWidth fmt.toNat / 8)) ++
      if raw then [] else [(drainTable layout, 8 * drainCols layout)]

/-- An engine owns a line of quad memory that these bytes meet: the memory holds the access until it has been written (R222). -/
def State.quadHeld (s : State) (q : Nat) (l : List (Nat × Nat)) : Bool :=
  s.owners.any fun (line, _) => l.any fun (o, n) =>
    decide (n ≠ 0 ∧ line * 64 < quadKey q o + n ∧ quadKey q o < line * 64 + 64)

/-- What an accepted command does. An XCMMA with VA = 1 advances K0 and ROW0 as an XMMA does: R161 names XMMA alone (DESIGN
CHOICE, log entry 57). -/
def State.runArray (s : State) (q : Nat) (k : ArrayCmd) : State :=
  let u := s.arrayOf q
  match k.op with
  | .grant => s.setArray q u.granted
  | .cfg | .free => s
  | .table off =>
    s.setArray q { u with table := (s.quadRows q off 3 256 3).map fun b => BitVec.ofNat 24 (leNat b) }
  | .loadA base stride rows =>
    let l := (s.quadRows q base stride rows 32).flatten
    s.setArray q { u with a := putBuffer 0 1024 u.a 0 l }
  | .loadB base stride cols =>
    let size := if cfgB k.cfg = fCB16 then 16 else 32
    let b := (s.quadRows q base stride cols size).zipIdx.foldl (fun b (row, j) => putBuffer 0 1024 b (32 * j) row) u.b
    s.setArray q { u with b := b }
  | .scaleA base rows =>
    let l := (s.quadRows q base 2 rows 2).map fun b => BitVec.ofNat 16 (leNat b)
    s.setArray q { u with scaleA := putBuffer 0 32 u.scaleA 0 l }
  | .scaleB base cols =>
    let l := (s.quadRows q base 2 cols 2).map fun b => BitVec.ofNat 16 (leNat b)
    s.setArray q { u with scaleB := putBuffer 0 32 u.scaleB 0 l }
  | .unfold desc => s.setArray q { u with unfolded := desc }
  | .mma n _ rows cols =>
    let raw := u.rawA s.mem q s.freeCtr k.cfg rows
    let t := u.multiply (u.tileFor k n) k.cfg k.promo raw rows cols
    let depth := arrayDepth (cfgA k.cfg)
    if cfgUnfold k.cfg then
      let u := { u with unfolded := unfoldNext u.unfolded depth rows }
      ({ s with freeCtr := s.freeCtr + rows * depth } : State).setArray q (u.setTile n t)
    else s.setArray q (u.setTile n t)
  | .zero n bias =>
    let kind : TileKind := match bias with
      | some (true, _) => .int
      | some (false, _) => .float
      | none => cfgKind k.cfg
    s.setArray q (u.setTile n ((u.tileFor k n).zeroed kind (bias.map (·.2))))
  | .drain n dest layout fmt policy keep raw =>
    let t := (u.tileFor k n).promote
    let d : Drained := ⟨fmt.toNat, policy.toNat, drainRows layout, drainCols layout, raw, Mode.ofRnd k.rnd⟩
    let table := (s.quadRows q (drainTable layout) 8 d.cols 8).map fun b => BitVec.ofNat 64 (leNat b)
    let (rows, t) := d.run t table k.srgen
    let t := if keep then t else { t with kind := .none, cells := [] }
    let s := rows.zipIdx.foldl (fun s (b, i) => s.putMem (quadKey q (dest + i * drainStride layout)) b) s
    s.setArray q (u.setTile n t)

/-- ARRAY_COMMAND_EXECUTE: the oldest accepted command executes (R151). -/
def execArrayCommandExecute (quad : Nat) (s : State) : Out :=
  match (s.arrayOf quad).queue with
  | [] => .next s
  | k :: l =>
    if k.executed ∨ s.quadHeld quad ((s.arrayOf quad).regions k) then .next s
    else
      let s := s.runArray quad k
      .next (s.setArray quad { s.arrayOf quad with queue := { k with executed := true } :: l })

/-- ARRAY_COMMAND_COMPLETION: the executed command leaves the queue (R187). -/
def execArrayCommandCompletion (quad : Nat) (s : State) : Out :=
  match (s.arrayOf quad).queue with
  | [] => .next s
  | k :: l => .next (if k.executed then s.setArray quad ((s.arrayOf quad).settle l) else s)

/-! ### Leases (R151 to R153) -/

/-- Commands accepted and not yet completed. -/
def ArrayUnit.queued (u : ArrayUnit) : Nat := (u.queue.filter fun k => k.op != .grant).length

/-- A core's request for the lease. -/
def State.requestLease (s : State) (c : Nat) : State :=
  let u := s.arrayOf (quadOf c)
  if u.requests.contains (inQuad c) then s else s.setArray (quadOf c) { u with requests := u.requests ++ [inQuad c] }

/-- A core of a quad, by its number there. -/
def coreOf (quad : Nat) (i : Fin 4) : Nat := 4 * quad + i.val

/-- A context of the core still waits for the lease. -/
def Core.wantsLease (k : Core) : Bool := (List.finRange 8).any fun x => (k.ctx x).wait == some .lease

/-- LEASE_GRANT: the lease falls to the next requesting core after the last holder (R152). -/
def execLeaseGrant (quad : Nat) (s : State) : Out :=
  let u := s.arrayOf quad
  let live := u.requests.filter fun i => (s.core (coreOf quad i)).wantsLease
  if u.lease.isSome then .next s
  else
    match firstFrom (fun i => live.contains (Fin.ofNat 4 i)) 4 (u.lastHolder.val + 1) with
    | none => .next (s.setArray quad { u with requests := live })
    | some n =>
      let i : Fin 4 := Fin.ofNat 4 n
      let grant : ArrayCmd := ⟨i, 0, .grant, false, 0, 0, 0, 0, false⟩
      let u := { u with
        lease := some i
        lastHolder := i
        count := 16
        clock := 4096
        requests := live.filter (· != i)
        cfg := 0x3300
        unfolding := false }
      .next (s.setArray quad (u.settle (u.queue ++ [grant])))

/-- The lease ends. -/
def ArrayUnit.endLease (u : ArrayUnit) : ArrayUnit := { u with lease := none }

/-- LEASE_CLOCK_EXPIRY: what is left of the 4,096 cycles passes, and the lease ends (R152). -/
def execLeaseClockExpiry (quad : Nat) (s : State) : Out :=
  let u := s.arrayOf quad
  .next (if u.lease.isSome then s.setArray quad { u.endLease with clock := 0 } else s)

/-! ### Acceptance (R151, R152, R158, R188, R189) -/

/-- BOUNDS with a reason of R158 or R188. -/
def State.arrayFault (s : State) (tile reason : Nat) : Out :=
  s.fault Cause.bounds (BitVec.ofNat 64 (0xFFFE000000000000 + tile * 16 + reason))

/-- What a command does to quad memory. -/
inductive ArrayUse where
  | none
  | reads
  | writes
  | both
deriving DecidableEq, Repr

def ArrayUse.isRead (a : ArrayUse) : Bool := a == .reads || a == .both
def ArrayUse.isWrite (a : ArrayUse) : Bool := a == .writes || a == .both

/-- Older accesses of the running context that a command waits for: the context's own stores, where it reads quad memory (R189); a
future version, or what a FENCE.full has gone by, where it reads or writes (R228, R240); older reads still to be performed, and what a
release fence has gone by, where it writes (R228, R230). -/
def State.arrayWaits (s : State) (a : ArrayUse) : Bool :=
  let (c, x) := s.cur
  (a.isRead && s.ownStores c x.val) || (a != .none && (s.me.versionPending || s.fullOpen c x)) || (a.isWrite && !s.mayWrite c x)

/-- A command at its lane head: the lease, room in the queue, and the older accesses that it waits for (R151, R189). -/
def State.atArray (s : State) (a : ArrayUse) (k : ArrayUnit → Out) : Out :=
  let c := s.cur.1
  let u := s.arrayOf (quadOf c)
  if u.lease ≠ some (inQuad c) ∨ u.clock = 0 then (s.requestLease c).waitFor .lease
  else if u.queued ≥ 8 then s.waitFor .arrayRoom
  else if s.arrayWaits a then s.waitFor .arrayDone
  else k u

/-- TRAPINFO of a step over an array command (R358). -/
def arrayInfo (tile : Nat) : Word := BitVec.ofNat 64 (5 * 2 ^ 61 + tile)

/-- A command is accepted: it joins the queue with the values it samples, counts against the lease, and retires (R148,
R151, R152). -/
def State.acceptArray (s : State) (f : Form) (u : ArrayUnit) (op : ArrayOp) (claim ends : Bool) (tile : Nat)
    (upd : Ctx → Ctx) : Out :=
  let t := s.me
  let q := quadOf s.cur.1
  let cmd : ArrayCmd := ⟨inQuad s.cur.1, s.cur.2, op, claim, u.cfg, field t.promo 0 7, t.rnd, t.srgen.setWidth 32, false⟩
  let u := { u with queue := u.queue ++ [cmd], count := u.count - 1 }
  let u := if ends ∨ u.count = 0 then u.endLease else u
  .next ((s.setArray q u).retireTo f (t.pc + 4) (arrayInfo tile) upd)

/-- A command that names a tile: another context's tile is reason 1; a tile without owner is claimed (R158), its owner set now and its
cells, kind and flags cleared when the command executes (DESIGN CHOICE, log entry 66). -/
def State.withTile (s : State) (u : ArrayUnit) (n : BitVec 3) (k : ArrayUnit → Tile → Bool → Out) : Out :=
  let i : Fin 8 := n.toFin
  let me := (inQuad s.cur.1, s.cur.2)
  let t := u.tiles[i]
  match t.owner with
  | some o => if o = me then k u t false else s.arrayFault n.toNat 1
  | none =>
    let t := { t with owner := some me, next := .none }
    k (u.setTile i t) t true

/-! ### Lease, configuration, wait and status (R190) -/

/-- XLEASE (R190). -/
def execXlease (s : State) : Out :=
  issue .xlease {} s fun s =>
    let u := s.arrayOf (quadOf s.cur.1)
    if u.lease = some (inQuad s.cur.1) ∧ u.clock ≠ 0 then .next (s.retire {} id)
    else (s.requestLease s.cur.1).waitFor .lease

def Form.xa (a : BitVec 5) : Form := { srcs := [(a, 0)], names := [.g a] }
def Form.xab (a b : BitVec 5) : Form := { srcs := [(a, 0), (b, 0)], names := [.g a, .g b] }

/-- XFREE: the context's tiles named in the mask lose their owner, at acceptance (DESIGN CHOICE, log entry 66), and the lease ends (R152,
R190). -/
def execXfree (a : BitVec 5) (s : State) : Out :=
  issue (.xfree a) (.xa a) s fun s =>
    s.atArray .none fun u =>
      let mask := s.me.rd a
      let me := (inQuad s.cur.1, s.cur.2)
      let tiles := Vector.ofFn fun i : Fin 8 =>
        let t := u.tiles[i]
        if mask.getLsbD i.val ∧ t.owner = some me then { t with owner := none } else t
      s.acceptArray (.xa a) { u with tiles := tiles } .free false true 0 id

/-- XCFG (R155, R190). -/
def execXcfg (a : BitVec 5) (s : State) : Out :=
  issue (.xcfg a) (.xa a) s fun s =>
    s.atArray .none fun u =>
      if cfgValid (s.me.rd a) then s.acceptArray (.xa a) { u with cfg := s.me.rd a } .cfg false false 0 id
      else s.illegal (.xcfg a)

/-- XCFG.tab (R163, R190). -/
def execXcfgTab (a : BitVec 5) (s : State) : Out :=
  issue (.xcfgTab a) (.xa a) s fun s =>
    s.atArray .reads fun u =>
      let off := (s.me.rd a).toNat
      if off % 4 ≠ 0 ∨ off + 768 > 2 ^ 20 then s.arrayFault 0 4
      else s.acceptArray (.xa a) u (.table off) false false 0 id

/-- XWAIT, serialising (R190). -/
def execXwait (s : State) : Out :=
  issue .xwait {} s fun s =>
    if s.arrayOpen s.cur.1 s.cur.2 then s.waitFor .arrayDone else .next (s.retire {} Ctx.serial)

def TileKind.code : TileKind → Nat
  | .none => 0
  | .float => 1
  | .int => 2

def bit (b : Bool) (p : Nat) : Nat := if b then 2 ^ p else 0

/-- XSTAT's layout (R165). CYC, CMDS and LCORE while no core holds the lease, and OCORE and OCTX of a tile without owner, read as
zero: R165 gives no value there (DESIGN CHOICE, log entry 57). -/
def ArrayUnit.status (u : ArrayUnit) (n : Fin 8) : Word :=
  let t := u.tiles[n]
  let owner := match t.owner with
    | some (c, x) => 2 ^ 34 + c.val * 2 ^ 32 + x.val * 2 ^ 29
    | none => 0
  let lease := match u.lease with
    | some c => min u.clock 4096 * 2 ^ 16 + u.count % 32 * 2 ^ 11 + 2 ^ 10 + c.val * 2 ^ 8
    | none => 0
  BitVec.ofNat 64 (t.cidx % 1024 * 2 ^ 42 + bit t.cvt 41 + bit t.inv 40 + bit t.ovf 39 + bit t.unf 38 + bit t.inx 37 +
    t.kind.code * 2 ^ 35 + owner + lease + u.queued % 16 * 16 + t.skip)

/-- The sticky fields of a tile cleared (R165). -/
def Tile.unstick (t : Tile) : Tile :=
  { t with inv := false, ovf := false, unf := false, inx := false, cvt := false, cidx := 0 }

/-- XSTAT and XSTAT.clr (R165, R190). They claim no tile, and XSTAT.clr clears the sticky fields of one without owner: R158 speaks
of commands that name a tile, R190 of tiles that another context owns (DESIGN CHOICE, log entry 57). -/
def xstatInstr (i : Instr) (clears : Bool) (n : BitVec 3) (a : BitVec 5) (s : State) : Out :=
  issue i (.dst a) s fun s =>
    if s.arrayOpen s.cur.1 s.cur.2 then s.waitFor .arrayDone
    else
      let q := quadOf s.cur.1
      let u := s.arrayOf q
      let k : Fin 8 := n.toFin
      let t := u.tiles[k]
      let foreign := match t.owner with
        | some o => o != (inQuad s.cur.1, s.cur.2)
        | none => false
      let s := s.retire (.dst a) fun c => c.wr a (u.status k)
      .next (if clears ∧ !foreign then s.setArray q (u.setTile k t.unstick) else s)

/-- XSTAT (R190). -/
def execXstat (c : BitVec 3) (a : BitVec 5) (s : State) : Out := xstatInstr (.xstat c a) false c a s
/-- XSTAT.clr (R190). -/
def execXstatClr (c : BitVec 3) (a : BitVec 5) (s : State) : Out := xstatInstr (.xstatClr c a) true c a s

/-! ### Operand loads (R191) -/

/-- Rows of a load. -/
def rowsOf (r : BitVec 2) : Nat := (r.toNat + 1) * 8

/-- XLDA and XLDB from their checks on. -/
def xloadInstr (i : Instr) (a b : BitVec 5) (r : BitVec 2) (isB : Bool) (s : State) : Out :=
  issue i (.xab a b) s fun s =>
    s.atArray .reads fun u =>
      let base := (s.me.rd a).toNat
      let stride := (s.me.rd b).toNat
      let rows := rowsOf r
      let size := if isB ∧ cfgB u.cfg = fCB16 then 16 else 32
      if base % size ≠ 0 ∨ stride % size ≠ 0 ∨ stride < size ∨ base + (rows - 1) * stride + size > 2 ^ 20 then
        s.arrayFault 0 4
      else s.acceptArray (.xab a b) u (if isB then .loadB base stride rows else .loadA base stride rows) false false 0 id

/-- XLDA (R191). -/
def execXlda (a b : BitVec 5) (r : BitVec 2) (s : State) : Out := xloadInstr (.xlda a b r) a b r false s
/-- XLDB (R191). -/
def execXldb (a b : BitVec 5) (r : BitVec 2) (s : State) : Out := xloadInstr (.xldb a b r) a b r true s

/-- XLDSA and XLDSB from their checks on. -/
def xscaleInstr (i : Instr) (a : BitVec 5) (r : BitVec 2) (isB : Bool) (s : State) : Out :=
  issue i (.xa a) s fun s =>
    s.atArray .reads fun u =>
      let base := (s.me.rd a).toNat
      let rows := rowsOf r
      if base % 2 ≠ 0 ∨ base + 2 * rows > 2 ^ 20 then s.arrayFault 0 4
      else s.acceptArray (.xa a) u (if isB then .scaleB base rows else .scaleA base rows) false false 0 id

/-- XLDSA (R191). -/
def execXldsa (a : BitVec 5) (r : BitVec 2) (s : State) : Out := xscaleInstr (.xldsa a r) a r false s
/-- XLDSB (R191). -/
def execXldsb (a : BitVec 5) (r : BitVec 2) (s : State) : Out := xscaleInstr (.xldsb a r) a r true s

/-- A drain in the queue is still to write some of these bytes, which an XUNF reads. -/
def ArrayUnit.drainsAt (u : ArrayUnit) (o n : Nat) : Bool := u.queue.any fun k => match k.op with
  | .drain _ dest w f .. => !k.executed && (List.range (drainRows w)).any fun i =>
      let at_ := dest + i * drainStride w
      decide (at_ < o + n ∧ o < at_ + drainCols w * fmtWidth f.toNat / 8)
  | _ => false

/-- XUNF: the descriptor is read when no older drain is still to write it (R151, R161, R191). A misaligned address that
can be read reports reason 3 where its 32 bytes meet it, the lower of the two; bytes beyond quad memory are not read, and report
reason 4 alone (R188; DESIGN CHOICE, log entry 57). -/
def execXunf (a : BitVec 5) (s : State) : Out :=
  issue (.xunf a) (.xa a) s fun s =>
    s.atArray .reads fun u =>
      let base := (s.me.rd a).toNat
      if base + 32 > 2 ^ 20 then s.arrayFault 0 4
      else if u.drainsAt base 32 ∨ s.quadHeld (quadOf s.cur.1) [(base, 32)] then s.waitFor .arrayRoom
      else
        let d : BitVec 256 := BitVec.ofNat 256 (Memory.nat s.mem (quadKey (quadOf s.cur.1) base) 32)
        if unfoldOutside d (fmtWidth (cfgA u.cfg)) then s.arrayFault 0 3
        else if base % 32 ≠ 0 then s.arrayFault 0 4
        else s.acceptArray (.xa a) { u with unfolding := true } (.unfold d) false false 0 id

/-! ### Multiply-accumulate (R192), zeroing (R193) and draining (R194) -/

/-- XMMA and XCMMA from their checks on; with VA = 1 they read quad memory (R189). -/
def xmmaInstr (i : Instr) (c : BitVec 3) (m n : BitVec 2) (complex : Bool) (s : State) : Out :=
  issue i {} s fun s =>
    s.atArray (if cfgUnfold (s.arrayOf (quadOf s.cur.1)).cfg then .reads else .none) fun u =>
      s.withTile u c fun u t claim =>
        let kind := cfgKind u.cfg
        if t.next ≠ .none ∧ t.next ≠ kind then s.arrayFault c.toNat 2
        else if cfgComplex u.cfg ≠ complex ∨ (cfgUnfold u.cfg ∧ !u.unfolding) then s.arrayFault c.toNat 5
        else s.acceptArray {} (u.setTile c.toFin { t with next := kind }) (.mma c.toFin complex (rowsOf m) (rowsOf n)) claim
          false c.toNat id

/-- XMMA (R192). -/
def execXmma (c : BitVec 3) (m n : BitVec 2) (s : State) : Out := xmmaInstr (.xmma c m n) c m n false s
/-- XCMMA (R192). -/
def execXcmma (c : BitVec 3) (m n : BitVec 2) (s : State) : Out := xmmaInstr (.xcmma c m n) c m n true s

/-- The XZERO forms from their checks on. -/
def xzeroInstr (i : Instr) (f : Form) (c : BitVec 3) (kind : Word → TileKind) (bias : Ctx → Option (Bool × VWord))
    (s : State) : Out :=
  issue i f s fun s =>
    s.atArray .none fun u =>
      s.withTile u c fun u t claim =>
        s.acceptArray f (u.setTile c.toFin { t with next := kind u.cfg }) (.zero c.toFin (bias s.me)) claim false c.toNat id

/-- XZERO (R193). Without a bias the kind is that of AFMT: R160 gives it for an integer AFMT alone, and a float one makes the tile
float (DESIGN CHOICE, log entry 57). -/
def execXzero (c : BitVec 3) (s : State) : Out := xzeroInstr (.xzero c) {} c cfgKind (fun _ => none) s
/-- XZERO.f (R193). -/
def execXzeroF (c : BitVec 3) (v : BitVec 4) (s : State) : Out :=
  xzeroInstr (.xzeroF c v) { names := [.v v] } c (fun _ => .float) (fun t => some (false, t.vrd v)) s
/-- XZERO.i (R193). -/
def execXzeroI (c : BitVec 3) (v : BitVec 4) (s : State) : Out :=
  xzeroInstr (.xzeroI c v) { names := [.v v] } c (fun _ => .int) (fun t => some (true, t.vrd v)) s

/-- A store of the running context to these bytes of its quad's memory is still to be performed: a drain's write of them follows it
(R233). -/
def State.ownQuadStores (s : State) (l : List (Nat × Nat)) : Bool :=
  (s.core s.cur.1).stores.any fun r => r.ctx == s.cur.2.val && l.any fun (o, n) =>
    decide (r.addr < quadKey (quadOf s.cur.1) o + n ∧ quadKey (quadOf s.cur.1) o < r.addr + r.bytes.length)

/-- The target and raw bit that a tile of a kind accepts (R194). -/
def drainAccepts (kind : TileKind) (f : Nat) (raw : Bool) : Bool :=
  let target := match kind with
    | .float => drainFloat f
    | .int => !drainFloat f
    | .none => true
  target && (!raw || (kind != .float && f == fINT32))

/-- XDRN (R50, R164, R194). Of the requantisation table the entries of the columns drained are its region for reason 4 (R196). For a
drain that reads no table the table's offset must be aligned, and its bound is not checked (DESIGN CHOICE, log entry 66). -/
def execXdrn (c : BitVec 3) (a b : BitVec 5) (f : BitVec 4) (p : BitVec 2) (k r : BitVec 1) (s : State) : Out :=
  issue (.xdrn c a b f p k r) (.xab a b) s fun s =>
    let w := s.me.rd b
    let raw := r == 1
    let tile := (s.arrayOf (quadOf s.cur.1)).tiles[c.toFin]
    let table := tile.owner.isSome && tile.next == .int && !raw
    s.atArray (if table then .both else .writes) fun u =>
      s.withTile u c fun u t claim =>
        let dest := (s.me.rd a).toNat
        let bytes := drainCols w * fmtWidth f.toNat / 8
        if dest % 4 ≠ 0 ∨ drainStride w % 4 ≠ 0 ∨ drainStride w < bytes ∨ drainTable w % 8 ≠ 0 ∨
            dest + (drainRows w - 1) * drainStride w + bytes > 0xE0000 ∨
            (t.next = .int ∧ raw = false ∧ drainTable w + 8 * drainCols w > 2 ^ 20) then s.arrayFault c.toNat 4
        else if field w 44 20 ≠ 0 ∨ !drainAccepts t.next f.toNat raw then s.arrayFault c.toNat 5
        else if s.ownQuadStores ((List.range (drainRows w)).map fun i => (dest + i * drainStride w, bytes)) then s.waitFor .arrayDone
        else
          let draws := if s.me.rnd = 4 ∧ drainFloat f.toNat then drainRows w * drainCols w else 0
          s.acceptArray (.xab a b) (u.setTile c.toFin { t with next := if k = 1 then t.next else .none })
            (.drain c.toFin dest w f p (k == 1) raw) claim false c.toNat fun x =>
              { x with srgen := (lfsrSteps (16 * draws) (x.srgen.setWidth 32)).setWidth 64 }

end Sys2Proof.Machine
end

