-- ==== Sys2Proof/Machine/Branch.lean ====
section
/-!
DEFINITION. Control transfers (R64, R98, R99), REPN (R111, R112), the format prefix (R71), register-state instructions
(R117), TRAP, BRK, NOP (R118), hints (R78), and what a packet without an instruction carries (R63, R76).
-/

namespace Sys2Proof.Machine

/-- A taken transfer: its target is checked, then the link is written and the target becomes the next address (R64). -/
def jumpTo (s : State) (f : Form) (target : Word) (link : Ctx → Ctx) : Out :=
  if target.getLsbD 0 then s.fault Cause.align target
  else if target.toNat > 0xFFFE then s.fault Cause.bounds target
  else .next (s.retireTo f target 0 link)

/-- A signed offset in halfwords from the instruction's own address (R67). -/
def relTarget (pc : Word) (o : BitVec n) : Word := pc + (o.signExtend 64 <<< 1)

/-- BR: the target is checked only when the branch is taken (R64, R99). -/
def execBr (c : BitVec 3) (a b : BitVec 5) (o : BitVec 11) (s : State) : Out :=
  let f : Form := { srcs := [(a, 0), (b, 0)], names := [.g a, .g b], rep := false }
  issue (.br c a b o) f s fun s =>
    if condHolds c (s.me.rd a) (s.me.rd b) then jumpTo s f (relTarget s.me.pc o) id else .next (s.retire f id)

/-- J (R99). -/
def execJ (o : BitVec 24) (s : State) : Out :=
  let f : Form := { rep := false }
  issue (.j o) f s fun s => jumpTo s f (relTarget s.me.pc o) id

/-- CALL: the link goes to g31 (R99). -/
def execCall (o : BitVec 24) (s : State) : Out :=
  let f : Form := { names := [.g 31], rep := false }
  issue (.call o) f s fun s => jumpTo s f (relTarget s.me.pc o) fun t => t.wr 31 (s.me.pc + 4)

/-- JR: S(a) is read before the link is written (R99). -/
def execJr (d a : BitVec 5) (m : BitVec 2) (i : BitVec 12) (s : State) : Out :=
  let f := { Form.f2 d a m with rep := false }
  issue (.jr d a m i) f s fun s =>
    jumpTo s f (s.me.rd a + i.signExtend 64) fun t => t.wr d (s.me.pc + 4)

/-- BEQZ.c (R70). -/
def execBeqzC (a : BitVec 4) (o : BitVec 7) (s : State) : Out :=
  let f : Form := { srcs := [(low a, 0)], names := [.g (low a)], rep := false, size := 2 }
  issue (.beqzC a o) f s fun s =>
    if s.me.rd (low a) = 0 then jumpTo s f (relTarget s.me.pc o) id else .next (s.retire f id)

/-- BNEZ.c (R70). -/
def execBnezC (a : BitVec 4) (o : BitVec 7) (s : State) : Out :=
  let f : Form := { srcs := [(low a, 0)], names := [.g (low a)], rep := false, size := 2 }
  issue (.bnezC a o) f s fun s =>
    if s.me.rd (low a) ≠ 0 then jumpTo s f (relTarget s.me.pc o) id else .next (s.retire f id)

/-- J.c (R70). -/
def execJC (o : BitVec 11) (s : State) : Out :=
  let f : Form := { rep := false, size := 2 }
  issue (.jC o) f s fun s => jumpTo s f (relTarget s.me.pc o) id

/-- JR.c (R70). -/
def execJrC (a : BitVec 4) (s : State) : Out :=
  let f : Form := { srcs := [(low a, 0)], names := [.g (low a)], rep := false, size := 2 }
  issue (.jrC a) f s fun s => jumpTo s f (s.me.rd (low a)) id

/-- REPN: with the count zero a taken transfer past the target; otherwise the count is decremented and the target is
next, the pair retiring with it (R111, R112). -/
def execRepn (d : BitVec 5) (s : State) : Out :=
  let f : Form := { srcs := [(d, 0)], names := [.g d], rep := false }
  issue (.repn d) f s fun s =>
    let c := s.me.rd d
    if c = 0 then jumpTo s f (s.me.pc + 8) id
    else .next (s.updMe fun t => { (t.wr d (c - 1)) with rep := some ⟨t.pc, d, c⟩, pc := t.pc + 4, wait := none, late := none })

/-- FMT: sets PFX, PFMT and PRND at its retirement; with its target it is one step (R71, R74). -/
def execFmt (f : BitVec 4) (r : BitVec 3) (s : State) : Out :=
  issue (.fmt f r) { rep := false, size := 2 } s fun s =>
    .next (s.updMe fun t =>
      ({ t with status := setBits (setBits (setBits t.status 20 4 f) 17 3 r) 16 1 1, pc := t.pc + 2, wait := none, late := none, fading := t.fade, filled := t.settle } :
        Ctx).stopCheck)

/-- MKEMPTY: FREE whatever is outstanding (R117). -/
def execMkempty (d : BitVec 5) (s : State) : Out :=
  let f := { Form.dst d with rep := false }
  issue (.mkempty d) f s fun s => .next (s.retire f fun t => (t.free d).serial)

/-- The state code RSTATE reads (R117). -/
def stateCode : RegState → Word
  | .full => 0
  | .empty tag => 1 ||| (tag.setWidth 64 <<< 2)
  | .free => 2

/-- RSTATE: neither waits nor traps on the state of gs (R117). -/
def execRstate (d r : BitVec 5) (s : State) : Out :=
  let f : Form := { names := [.g d, .g r], rep := false }
  issue (.rstate d r) f s fun s => .next (s.retire f fun t => (t.wr d (stateCode (s.me.rst r))).serial)

/-- NOP (R118). -/
def execNop (s : State) : Out :=
  issue .nop {} s fun s => .next (s.retire {} id)

/-- TRAP: BREAK with the code (R118). -/
def execTrap (c : BitVec 16) (s : State) : Out :=
  issue (.trap c) { rep := false } s fun s => s.fault Cause.break_ (c.setWidth 64)

/-- BRK: BREAK with the code and TRAPINFO[16] = 1 (R118). -/
def execBrk (c : BitVec 16) (s : State) : Out :=
  issue (.brk c) { rep := false } s fun s => s.fault Cause.break_ (c.setWidth 64 ||| 0x10000)

/-- HINT: a no-op that consumes a prefix without checking it; no target of REPN (R72, R78, R111). Its ILLEGAL under REPN
is that of its own word. -/
def execHint (o : BitVec 3) (h : BitVec 24) (s : State) : Out :=
  let f : Form := { rep := false, fmts := List.range 16, modes := [0, 1, 2, 3] }
  issueCode (some (.c32 (cat 0x1F#5 (cat o h)))) f s fun s => .next (s.retire f id)

/-- A word that is no instruction carries ILLEGAL (R76, R77). -/
def execIllegalEncoding (bits : BitVec 32) (wide : Bool) (s : State) : Out :=
  s.fault Cause.illegal (bits.setWidth 64 ||| if wide then 0x100000000 else 0)

/-- A packet whose halfwords do not all lie inside the store carries BOUNDS with the first address outside (R63). -/
def execFetchBounds (outside : Word) (s : State) : Out := s.fault Cause.bounds outside

end Sys2Proof.Machine
end

