-- ==== Sys2Proof/Machine/Schedule.lean ====
section
/-!
DEFINITION. The scheduler's events: dispatch (R129), offers and walks (R132 to R134), SPAWN requests and children (R135),
steals (R138), spill moves (R127), start messages and the completion of a launch (R143, R206, R256, R296, R305, R365).
-/

namespace Sys2Proof.Machine

/-! ### Dispatch (R129) -/

/-- A thermal trip has paused the clock of a core (R381). -/
def State.paused (s : State) (c : Nat) : Bool := (s.cluster (clusterOf c)).tripped

/-- The core belongs to a launch, has its start message, is not being suspended, paused or stopped by a loss of supply
(R133, R360, R380, R381). -/
def State.mayDispatch (s : State) (c : Nat) : Bool :=
  let k := s.core c
  k.launch.isSome && k.started && !k.seen && !s.paused c && !s.supplyLost

/-- The lowest-numbered DORMANT context that R373 does not bar (R129, R370). -/
def Core.dormant (k : Core) : Option (Fin 8) :=
  (List.finRange 8).find? fun x => (k.ctx x).cstate == .dormant && !(k.ctx x).barred

/-- The oldest undispatched message of a queue. -/
def Queue.waiting (u : Queue) : Option QEntry := u.hw.find? fun e => !e.dispatched

/-- The queues that a dispatch looks at, in order: step 1 on every eighth, else step 2; held ones are passed by (R129,
R176). -/
def Core.queueOrder (k : Core) : List (Fin 8) :=
  let order := if k.dispatches % 8 = 7 then (List.range 8).map fun i => Fin.ofNat 8 (k.lastQueue.val + 1 + i)
    else List.finRange 8
  order.filter fun q => !k.hold.getLsbD q.val

/-- The first message of these queues that is admitted. -/
def State.firstMessage (s : State) (c : Nat) : List (Fin 8) → Option (Fin 8 × QEntry) × State
  | [] => (none, s)
  | q :: l =>
    match ((s.core c).queues[q]).waiting with
    | none => s.firstMessage c l
    | some e =>
      let (ok, s) := s.admission c e.task.record e.task.taskId
      if ok then (some (q, e), s) else s.firstMessage c l

/-- The handler-table entry of a record's class; an all-zero one where that class has V = 0, which no test of a LAUNCH and no
reason of R131 keeps from a start task (R143, R325: DESIGN CHOICE, log entry 57). -/
def State.entryOf (s : State) (c : Nat) (r : BitVec 256) : BitVec 512 := (s.classEntry c (recClass r)).getD 0

/-- A record of a deque as a task. -/
def DequeRec.task (r : DequeRec) : Task := ⟨r.record, r.taskId, 0, 0, r.rel⟩

/-- A chosen task starts, and the dispatch is counted. -/
def State.begin (s : State) (c : Nat) (x : Fin 8) (t : Task) (o : Origin) : State :=
  (s.updCore c fun k => { k with dispatches := k.dispatches + 1 }).startTask c x t o (s.entryOf c t.record)

/-- Step 4: a stolen record, admitted when the steal took it (R129, R138, R370). -/
def State.dispatchStolen (s : State) (c : Nat) (x : Fin 8) : State :=
  match (s.core c).stolen with
  | none => s
  | some r => (s.updCore c fun k => { k with stolen := none }).begin c x r.task .deque

/-- One dispatch (R129); records in a spill ring whose home holds them for an engine are waited for (R222). -/
def State.dispatch (s : State) (c : Nat) (x : Fin 8) : State :=
  let step1 := (s.core c).dispatches % 8 = 7
  let (m, s) := s.firstMessage c (s.core c).queueOrder
  match m with
  | some (q, e) =>
    let s := s.updCore c fun k =>
      let u := k.queues[q]
      { k with
        queues := k.queues.set q
          { u with hw := u.hw.map fun m => if m.entry = e.entry then { m with dispatched := true } else m }
        lastQueue := if step1 then q else k.lastQueue }
    s.begin c x e.task (.queue q.val e.entry)
  | none =>
    if s.dequeHeld c then s
    else
      let s := s.refillDeque c
      match (s.core c).deque.hw.head? with
      | none => s.dispatchStolen c x
      | some r =>
        let (ok, s) := s.admission c r.record r.taskId
        if ok then (s.popBottom c).begin c x r.task .deque else s.dispatchStolen c x

/-- DISPATCH (R129). -/
def execDispatch (core : Nat) (s : State) : Out :=
  match (s.core core).dormant with
  | none => .next s
  | some x => .next (if s.mayDispatch core then s.dispatch core x else s)

/-- A dispatch of the core would start a task now. -/
def State.hasCandidate (s : State) (c : Nat) : Bool :=
  let d := (s.core c).deque
  (s.firstMessage c (s.core c).queueOrder).1.isSome ||
  (match d.hw.head? with
    | some r => (s.admission c r.record r.taskId).1
    | none => d.spillCount != 0)

/-- The core has a candidate of R129, whether or not it is admitted now and a context may take it. -/
def Core.hasWork (k : Core) : Bool :=
  (k.queueOrder.any fun q => (k.queues[q]).waiting.isSome || (k.queues[q]).spillCount != 0) || !k.deque.hw.isEmpty ||
  k.deque.spillCount != 0 || k.stolen.isSome

/-! ### Offers and walks (R132 to R134, R398) -/

/-- Places of the drains of a kind that may be offered now, refused ones or not: none behind an earlier message of the task
for the same queue (R132). -/
def Ctx.offers (t : Ctx) (refused : Bool) (hint : Option Bool) : List Nat :=
  (t.drain.zipIdx.filter fun (d, i) =>
    d.refused == refused &&
    match d.kind with
    | .msg dest =>
      hint != some true && !((t.drain.take i).any fun e => e.kind == .msg dest && recQueue e.task.record == recQueue d.task.record)
    | .hint => hint != some false
    | _ => false).map (·.2)

/-- The payload a message carries in its send-buffer slot. -/
def State.payloadOf (s : State) (c x : Nat) (d : Drain) : List Byte :=
  match d.slot with
  | some n => Memory.bytes s.mem (slotKey c x n) (8 * recPlen d.task.record)
  | none => []

/-- A drain leaves: its message has been accepted, claimed or pushed. -/
def State.dropDrain (s : State) (c : Nat) (x : Fin 8) (i : Nat) : State :=
  (s.updCtx c x fun t => { t with drain := dropPlace t.drain i }).settleDrain c x

/-- A drain waits for its next offer. -/
def State.refuseDrain (s : State) (c : Nat) (x : Fin 8) (i : Nat) : State :=
  s.updCtx c x fun t =>
    match t.drain[i]? with
    | some d => { t with drain := setPlace t.drain i { d with refused := true } }
    | none => t

/-- A message is offered to its queue, whose spill ring its homes may hold for an engine (R133, R222). -/
def State.offer (s : State) (c : Nat) (x : Fin 8) (i dest : Nat) (d : Drain) : State :=
  match s.launchOf c with
  | none => s
  | some (n, l) =>
    if s.queueHeld dest (Fin.ofNat 8 (recQueue d.task.record)) then s
    else
      match s.accept n l dest { d.task with rel := s.releaseOf c } (s.payloadOf c x.val d) with
      | some s => s.dropDrain c x i
      | none => s.refuseDrain c x i

/-- Numbers from one to another, both included, in that order. -/
def between (a b : Nat) : List Nat :=
  if a ≤ b then (List.range (b - a + 1)).map (a + ·) else (List.range (a - b + 1)).map (a - ·)

/-- The quads of a walk: X first, then Y, from the creator's own x and y (R134, R398). -/
def walkRoute (x y hx hy : Nat) : List (Nat × Nat) :=
  (between x hx).map (fun i => (i, y)) ++ ((between y hy).drop 1).map fun j => (hx, j)

/-- Hops between two quads of a die. -/
def hops (x y hx hy : Nat) : Nat := (x - hx) + (hx - x) + ((y - hy) + (hy - y))

/-- A COREID from its parts (R16). -/
def coreAt (die x y n : Nat) : Nat := die * 2048 + x * 128 + y * 4 + n

/-- The cores a walk tries, in order. -/
def walkCores (c : Nat) (r : BitVec 256) : List Nat :=
  ((walkRoute (xOf c) (yOf c) (recHx r) (recHy r)).filter fun (x, y) =>
    decide (hops x y (recHx r) (recHy r) ≤ recDrift r)).flatMap fun (x, y) =>
      (List.range 4).map fun n => coreAt (recHdie r) x y n

/-- A core could claim a walk, admission apart (R134, R176). -/
def State.mayClaim (s : State) (launch c q : Nat) : Bool :=
  let k := s.core c
  let u := k.queues[(Fin.ofNat 8 q : Fin 8)]
  k.launch == some launch && s.mayDispatch c && k.dormant.isSome && u.freeEntry.isSome && u.spillCount == 0 &&
    !k.hold.getLsbD q

/-- The first core that claims. -/
def State.firstClaim (s : State) (launch : Nat) (t : Task) : List Nat → Option Nat × State
  | [] => (none, s)
  | c :: l =>
    if !s.mayClaim launch c (recQueue t.record) then s.firstClaim launch t l
    else
      let (ok, s) := s.admission c t.record t.taskId
      if ok then (some c, s) else s.firstClaim launch t l

/-- A claimed task takes an entry of the queue and starts at once (R134). -/
def State.claim (s : State) (launch c : Nat) (t : Task) (payload : List Byte) : State :=
  let q : Fin 8 := Fin.ofNat 8 (recQueue t.record)
  let k := s.core c
  match k.queues[q].freeEntry, k.dormant with
  | some e, some x =>
    let t := { t with msgId := msgIdOf launch c q.val (k.queues[q].accepted + 1) }
    let s := (s.takeEntry c q e t payload true).updCore c fun k =>
      let u := k.queues[q]
      { k with queues := k.queues.set q { u with accepted := u.accepted + 1 } }
    s.startTask c x t (.queue q.val e) (s.entryOf c t.record)
  | _, _ => s

/-- The core of the hint quad that takes an unclaimed task: the one with the fewest records, then the lowest (R134). -/
def State.hintCore (s : State) (launch : Nat) (l : Launch) (r : BitVec 256) : Option Nat :=
  let cores := ((List.range 4).map fun n => coreAt (recHdie r) (recHx r) (recHy r) n).filter fun c =>
    (l.group 0).contains c && (s.core c).launch == some launch && (s.core c).started
  cores.foldl (fun best c =>
    match best with
    | none => some c
    | some b => if (s.core c).deque.held < (s.core b).deque.held then some c else best) none

/-- A walk ends: claimed, pushed on a deque of the hint quad, or refused. Marks that it, or an earlier offer of it, has left in clusters
other than the one where it ends are lost (R134, R371). -/
def State.walk (s : State) (c : Nat) (x : Fin 8) (i : Nat) (d : Drain) : State :=
  match s.launchOf c with
  | none => s
  | some (n, l) =>
    let t := { d.task with rel := s.releaseOf c }
    let (who, s) := s.firstClaim n t (walkCores c t.record)
    let hint := clusterOf (coreAt (recHdie t.record) (recHx t.record) (recHy t.record) 0)
    match who with
    | some b => ((s.unmarkBut (clusterOf b) t.taskId).claim n b t (s.payloadOf c x.val d)).dropDrain c x i
    | none =>
      let s := s.unmarkBut hint t.taskId
      match s.hintCore n l t.record with
      | none => s.refuseDrain c x i
      | some b =>
        if (s.core b).deque.held + (s.core b).deque.reserved ≥ 4160 then s.refuseDrain c x i
        else if s.dequeHeld b then s
        else
          match s.pushTop b ⟨t.record, t.taskId, t.rel⟩ with
          | some s => s.dropDrain c x i
          | none => s.refuseDrain c x i

/-- One of the drains that may be offered now is, chosen freely; none leaves before the task's stores have been performed
(R132). -/
def State.offerSome (s : State) (c : Nat) (x : Fin 8) (refused : Bool) (hint : Option Bool) : State :=
  if s.storesOpen c x.val then s
  else
    let s := s.releaseLocal c x
    let l := (s.ctx c x).offers refused hint
    let (k, s) := if l.isEmpty then (0, s) else s.pick l.length
    match l[k]? with
    | none => s
    | some i =>
      match (s.ctx c x).drain[i]? with
      | none => s
      | some d =>
        match d.kind with
        | .msg dest => s.offer c x i dest d
        | _ => s.walk c x i d

/-- MESSAGE_OFFER (R132, R133). -/
def execMessageOffer (core ctx : Nat) (s : State) : Out :=
  .next (s.offerSome core (Fin.ofNat 8 ctx) false (some false))

/-- MESSAGE_REOFFER: a refused message or walk is offered again (R132, R134). -/
def execMessageReoffer (core ctx : Nat) (s : State) : Out :=
  .next (s.offerSome core (Fin.ofNat 8 ctx) true none)

/-- HINT_WALK (R134). -/
def execHintWalk (core ctx : Nat) (s : State) : Out :=
  .next (s.offerSome core (Fin.ofNat 8 ctx) false (some true))

/-! ### SPAWN (R135) -/

/-- The lowest DORMANT context of a core, whatever its quota. -/
def Core.lowestDormant (k : Core) : Option (Fin 8) := (List.finRange 8).find? fun x => (k.ctx x).cstate == .dormant

/-- SPAWN_REQUEST: the named core reserves a context or not, and the reply is on its way (R135, R174). -/
def execSpawnRequest (core ctx slot : Nat) (s : State) : Out :=
  let x : Fin 8 := Fin.ofNat 8 ctx
  let t := s.ctx core x
  match t.fills.find slot with
  | some ⟨_, .spawn, none, _, _, _⟩ =>
    let mine (e : SendEntry) : Bool := match e.kind with
      | .child _ n none => n == slot
      | _ => false
    match findPlace mine t.send with
    | none => .next (s.updCtx core x fun t => t.deliver slot 0 false)
    | some (i, e) =>
      match e.kind with
      | .child dest _ _ =>
        let k := s.core dest
        let room := if k.launch = (s.core core).launch ∧ k.started then k.lowestDormant else none
        match room, t.task with
        | some y, some parent =>
          let s := s.updCtx dest y fun u =>
            { u with cstate := .reserved, reservation := some ⟨parent.entry, parent.sys, none⟩ }
          let s := s.updCore dest fun k => { k with released := false }
          .next (s.updCtx core x fun t =>
            { t with send := setPlace t.send i { e with kind := .child dest slot (some y.val) } }.deliver slot 1 false)
        | _, _ =>
          .next (s.updCtx core x fun t => { t with send := dropPlace t.send i }.deliver slot 0 false)
      | _ => .next s
  | _ => .next s

/-- CHILD_START: a released child starts on its reserved context once admitted (R135, R174, R370). -/
def execChildStart (core ctx : Nat) (s : State) : Out :=
  let x : Fin 8 := Fin.ofNat 8 ctx
  let t := s.ctx core x
  match t.cstate, t.reservation with
  | .reserved, some ⟨entry, _, some task⟩ =>
    if t.barred ∨ s.paused core ∨ s.supplyLost then .next s
    else
      let (ok, s) := s.admission core task.record task.taskId
      .next (if ok then s.startTask core x task .child entry else s)
  | _, _ => .next s

/-! ### Steals (R138) -/

/-- A number put into a list sorted by a key. -/
def insertBy (key : Nat → Nat) (a : Nat) : List Nat → List Nat
  | [] => [a]
  | b :: l => if key a ≤ key b then a :: b :: l else b :: insertBy key a l

/-- The cores of its die that a core may steal from: ascending distance, then ascending COREID. -/
def State.victims (s : State) (c : Nat) : List Nat :=
  match s.launchOf c with
  | none => []
  | some (_, l) =>
    let key (v : Nat) : Nat := hops (xOf v) (yOf v) (xOf c) (yOf c) * 8192 + v
    ((l.group 0).filter fun v => v != c && dieOf v == dieOf c).foldr (insertBy key) []

/-- STEAL_PROBE: a core with a DORMANT context and no candidate sends its next probe. -/
def execStealProbe (core : Nat) (s : State) : Out :=
  let k := s.core core
  let l := s.victims core
  if k.steal ≠ .idle ∨ k.stolen.isSome ∨ k.dormant.isNone ∨ !s.mayDispatch core ∨ s.hasCandidate core then .next s
  else
    match l[k.stealPtr % l.length]? with
    | none => .next s
    | some v => .next (s.updCore core fun k => { k with steal := .probing v, stealPtr := (k.stealPtr + 1) % l.length })

/-- The victim's answer: its top record, when the record's group is one of the thief's; none once the victim has saved its
records, or the supply is lost (R360, R380). -/
def State.giveTop (s : State) (c v : Nat) : Option (DequeRec × State) :=
  match s.launchOf c with
  | none => none
  | some (n, l) =>
    if (s.core v).launch ≠ some n ∨ !(s.core v).started ∨ (s.core v).released ∨ s.supplyLost then none
    else
      match s.takeTop v with
      | none => none
      | some (r, s) => if (l.group (recGroup r.record)).contains c then some (r, s) else none

/-- A record that a steal has taken: admitted, it waits for its dispatch; else, and where no DORMANT context that R373 does not bar is
left to run it, it goes to the bottom of the own deque (R138, R370). By the model's choice it does so also where that deque holds its
4,160 records, the hardware part then holding more than 64 (log entry 64). -/
def State.takeStolen (s : State) (c : Nat) (r : DequeRec) : State :=
  if (s.core c).dormant.isNone then s.pushBottom c r
  else
    let (ok, s) := s.admission c r.record r.taskId
    if ok then s.updCore c fun k => { k with stolen := some r } else s.pushBottom c r

/-- STEAL_REPLY (R138, R222, R370, R371). -/
def execStealReply (core : Nat) (s : State) : Out :=
  match (s.core core).steal with
  | .probing v =>
    if s.dequeHeld v || s.dequeHeld core then .next s
    else
      match s.giveTop core v with
      | some (r, s) =>
        let s := s.unmarkBut (clusterOf core) r.taskId
        .next ((s.updCore core fun k => { k with steal := .idle, stealMiss := 0 }).takeStolen core r)
      | none =>
        let n := (s.victims core).length
        .next (s.updCore core fun k =>
          if k.stealMiss + 1 ≥ n then { k with steal := .paused, stealMiss := 0 }
          else { k with steal := .idle, stealMiss := k.stealMiss + 1 })
  | _ => .next s

/-- STEAL_PAUSE_EXPIRY (R138). -/
def execStealPauseExpiry (core : Nat) (s : State) : Out :=
  .next (s.updCore core fun k => if k.steal = .paused then { k with steal := .idle } else k)

/-- SPILL_MOVE (R127). -/
def execSpillMove (core queue : Nat) (s : State) : Out := .next (s.unspill core (Fin.ofNat 8 queue))

/-! ### Start messages and completion (R143) -/

/-- The start task of a core: its TASKID is a command processor's, ARG3 the core's ordinal (R123, R143). -/
def startTaskOf (launch : Nat) (l : Launch) (c : Nat) : Task :=
  let ordinal := ((findPlace (fun k => k == c) (l.group 0)).map (·.1)).getD 0
  let args := recArgs (joinHalves l.args[1] l.args[0]) (joinHalves (BitVec.ofNat 32 ordinal) l.args[2])
  let id := taskIdOf launch c 1 ||| (1#64 <<< 47)
  ⟨args ||| recBits (field l.startWord 0 8) 128 ||| recBits (field l.startWord 8 3) 186, id, 0, 0, none⟩

/-- START_MESSAGE: the core may take part, and its start task is accepted (R133, R143). -/
def execStartMessage (core : Nat) (s : State) : Out :=
  match s.launchOf core with
  | none => .next s
  | some (n, l) =>
    if !l.toStart.contains core ∨ l.resuming then .next s
    else
      let l' := { l with toStart := l.toStart.filter (· != core) }
      let s := (s.setLaunch n l').updCore core fun k => { k with started := true, stale := [] }
      match s.accept n l' core (startTaskOf n l core) [] with
      | some s => .next s
      | none => .next s

/-- A collective's descriptor (R429): GROUP, LEN, bytes of a chunk, chunks. -/
def collGroup (d : BitVec 512) : Nat := field d 20 8
def collLen (d : BitVec 512) : Nat := field d 192 32
def collChunk (d : BitVec 512) : Nat := 2 ^ (field d 224 3 + 6)
def collChunks (d : BitVec 512) : Nat := (collLen d + collChunk d - 1) / collChunk d

/-- Every chunk of a member's collective is performed, or it has failed. -/
def Collective.finished (r : Collective) : Bool := r.err.isSome || decide (r.chunksDone.length ≥ collChunks r.desc)

/-- The members' parts of the collective that a part belongs to (R430). -/
def State.collMates (s : State) (r : Collective) : List Collective :=
  s.collectives.filter fun m =>
    !m.ended && !m.finished && m.launch == r.launch && m.key == r.key && collGroup m.desc == collGroup r.desc

/-- Every member of the group has issued its COLL. -/
def State.collJoined (s : State) (r : Collective) : Bool :=
  match s.launch r.launch with
  | none => false
  | some l => (l.group (collGroup r.desc)).all fun c => (s.collMates r).any fun m => m.core == c

/-- A request of a context that is not answered, or an answer on its way: a SPAWN's, an LD.a's, a version's fill; future versions still
awaited, and reads that wait for them, are none (R365). -/
def FillSlot.packet (f : FillSlot) : Bool :=
  match f.kind with
  | .version .. => f.value.isSome
  | .held _ _ _ after => after.isEmpty
  | _ => true

/-- Packets of a launch outstanding: stores, requests and their answers, engine commands, remote requests, pushes, reductions and
collectives (R143, R365). -/
def State.packets (s : State) (n : Nat) (l : Launch) : Bool :=
  (l.group 0).any (fun c =>
    let k := s.core c
    !k.stores.isEmpty || !k.fifo.isEmpty || k.stolen.isSome || (match k.steal with
      | .probing _ => true
      | _ => false) || (List.finRange 8).any fun x => (k.ctx x).fills.any fun (_, f) => f.packet) ||
  s.gathers.any (fun (_, g) => (List.finRange 4).any fun i => g.streams[i].any fun k => k.launch == n) ||
  s.remotes.any (fun r => r.launch == n) || s.reductions.any (fun r => r.launch == n) ||
  s.collectives.any (fun r => r.launch == n && !r.ended && (r.finished || s.collJoined r)) || s.quads.any fun (_, q) => q.pushes.any fun p => p.id.launch == n

/-- Every core of the launch is quiescent: contexts DORMANT, queues, deques and spill rings empty (R143). -/
def State.quiescent (s : State) (l : Launch) : Bool :=
  l.toStart.isEmpty && (l.group 0).all fun c =>
    let k := s.core c
    (List.finRange 8).all (fun x => (k.ctx x).cstate == .dormant) &&
    (List.finRange 8).all (fun q => k.queues[q].hw.isEmpty && k.queues[q].spillCount == 0) &&
    k.deque.held == 0

/-- Every recording has finished its seal and its round, and its header can be written (R222, R256, R305). -/
def State.recsSettled (s : State) (l : Launch) : Bool :=
  l.recs.all fun (_, r) => r.state != .sealing && !r.closing && (r.state == .empty || !s.bufferOwned r 8 56)

/-- The cores that belong to a launch now; a suspended one has none (R143, R360). -/
def State.coresOf (s : State) (n : Nat) (l : Launch) : List Nat := (l.group 0).filter fun c => (s.core c).launch == some n

/-- Caches and L1s of cores drained and invalidated (R200, R206, R363). -/
def State.flushCaches (s : State) (cores : List Nat) : State :=
  let s := ((cores.map quadOf).eraseDups).foldl (fun s q => (s.drainAll q none).updQuad q fun k => { k with cache := [] }) s
  cores.foldl (fun s c => s.updCore c Core.l1Clear) s

/-- Every object a launch declared is dropped, and every recording (R256, R296, R305). -/
def State.dropAll (s : State) (n : Nat) (l : Launch) : State :=
  let s := l.recs.foldl (fun s (r, _) => s.dropRecording n r) s
  (s.objects.filter fun (_, o) => o.launch == n).foldl (fun s (o, _) => { s with objects := s.objects.del o }) s

/-- Leases held by contexts of cores end with LAST = 5 (R378). -/
def State.endLeases (s : State) (cores : List Nat) : State :=
  { s with clusters := s.clusters.mapVals fun _ k =>
      match k.gust with
      | some g => if cores.contains g.core then { k with gust := none, lastEnd := 5 } else k
      | none => k }

/-- Cores belong to no launch. -/
def State.freeCores (s : State) (cores : List Nat) : State :=
  cores.foldl (fun s c => s.updCore c fun k =>
    { k with launch := none, started := false, grpMask := 0, preempt := false, seen := false, released := false }) s

/-- The tasks of a launch lose their marks in a cluster (R371); TASKID[63:48] names it (R123). -/
def Cluster.unmarkLaunch (k : Cluster) (n : Nat) : Cluster :=
  let keep (l : List Word) : List Word := l.filter fun id => field id 48 16 != n
  { k with
    starved := keep k.starved
    kept := keep k.kept
    refusedNow := keep k.refusedNow
    refusedLast := keep k.refusedLast }

/-- The tasks of a launch lose their marks (R371). -/
def State.unmarkLaunch (s : State) (n : Nat) : State :=
  { s with clusters := s.clusters.mapVals fun _ k => k.unmarkLaunch n }

/-- A launch leaves the package; its LAUNCH entry completes with a status (R143, R206, R325, R363). -/
def State.endLaunch (s : State) (n : Nat) (l : Launch) (status : Nat) : State :=
  let cores := s.coresOf n l
  let s := ((((s.flushCaches cores).dropAll n l).endLeases cores).freeCores cores).unmarkLaunch n
  let parts := s.collectives.filter fun r => r.launch == n
  let claims := parts.map fun r => Claim.coll r.engine r.core r.key.toNat
  let s : State := { s with
    owners := (s.owners.mapVals fun _ (l : List Claim) => l.filter fun o => !claims.contains o).filter fun (_, l) => !l.isEmpty
    collectives := s.collectives.filter fun r => r.launch != n }
  let s : State := { s with launches := s.launches.del n, tags := s.tags.filter fun (_, g) => g.launch != n }
  let h : Chain := s.chain l.chain
  if h.current.isSome ∧ h.status.isNone then s.setChain l.chain { h with status := some status } else s

/-- LAUNCH_COMPLETE (R143, R365). -/
def execLaunchComplete (launch : Nat) (s : State) : Out :=
  match s.launch launch with
  | none => .next s
  | some l =>
    if l.state ≠ .running ∨ !s.quiescent l ∨ s.packets launch l ∨ !s.recsSettled l then .next s
    else .next (s.endLaunch launch l 0)

end Sys2Proof.Machine
end

