-- ==== Sys2Proof/Machine/System.lean ====
section
/-!
DEFINITION. Control registers and bindings (R14 to R17, R114 to R116, R119, R126, R208, R278, R346, R374, R377, R417),
and the system and energy instructions (R383 to R395).
-/

namespace Sys2Proof.Machine

/-! ### Control registers -/

/-- MELT of a core's cluster (R374). -/
def State.melt (s : State) (c : Nat) : Word :=
  let k := s.cluster (clusterOf c)
  BitVec.ofNat 64 (k.permil % 1024 + (if k.refrz then 0x400 else 0) + (if s.fwUpdate then 0x800 else 0) +
    clusterOf c % 64 * 2 ^ 16 + dieOf c % 4 * 2 ^ 22)

/-- The context holds the lease of its cluster, or a grant pending (R376). -/
def Gust.mine (g : Gust) (c : Nat) (x : Fin 8) : Bool := g.core == c && g.ctx == x.val

/-- Whole milliseconds left of a lease: from its boundary in control intervals, 125 to the millisecond, less what has passed
of the present one; of a grant that is pending, all of it (R376, R377). -/
def State.leaseLeft (s : State) (g : Gust) : Nat :=
  if g.pending then g.remain / 2000000 else (g.remain - s.mesh % 16000) / 2000000

/-- LEASE (R377); a millisecond is 125 control intervals. -/
def State.lease (s : State) (c : Nat) (x : Fin 8) : Word :=
  let k := s.cluster (clusterOf c)
  let last := k.lastEnd.toNat * 16
  match k.gust with
  | none => BitVec.ofNat 64 last
  | some g =>
    BitVec.ofNat 64 (last + (if g.pending then 2 else 1) + (if g.mine c x then 256 else 0) +
      s.leaseLeft g % 2 ^ 16 * 2 ^ 16 + g.core % 2 ^ 13 * 2 ^ 32 + g.ctx % 8 * 2 ^ 45)

/-- WSPHASE (R207, R208): the rotation is timed by the mesh clock, 240 mesh cycles a window, 7,680 a period. -/
def State.wsPhase (s : State) : Word :=
  BitVec.ofNat 64 (s.mesh % 7680 / 240 + s.mesh % 240 * 32 + s.mesh / 7680 % 2 ^ 32 * 2 ^ 32)

/-- The value of a control register, none for an unassigned number (R14, R48, R114, R119, R208, R278, R346, R417). -/
def State.crRead (s : State) (c : Nat) (x : Fin 8) (n : BitVec 12) : Option Word :=
  let t := s.ctx c x
  match n.toNat with
  | 0x000 => some t.status
  | 0x001 => some t.trapCause
  | 0x002 => some t.trapPc
  | 0x003 => some t.trapInfo
  | 0x004 => some t.trapMsg
  | 0x005 => some t.trapVec
  | 0x006 => some t.tstatus
  | 0x008 => some t.taskId
  | 0x009 => some (BitVec.ofNat 64 x.val)
  | 0x00A => some (BitVec.ofNat 64 (c % 2 ^ 13))
  | 0x00B => some (s.core c).grpMask
  | 0x00C => some (s.core c).cycle
  | 0x010 => some t.budget
  | 0x011 => some t.enquota
  | 0x018 => some (s.melt c)
  | 0x019 => some (s.lease c x)
  | 0x020 => some t.watch[0]
  | 0x021 => some t.watch[1]
  | 0x022 => some t.watch[2]
  | 0x023 => some t.watch[3]
  | 0x024 => some t.stepCtl
  | 0x028 => some t.promo
  | 0x030 => some t.srgen
  | 0x031 => some s.wsPhase
  | 0x032 => some t.scopeGrp
  | 0x033 => some (s.devid.setWidth 64)
  | k => if 0x100 ≤ k ∧ k ≤ 0x10F then some (t.hbrd (BitVec.ofNat 4 (k - 0x100))) else none

/-- Who may write a control register: any mode, TRAP and SYS only, or nobody (R14). -/
inductive CrAccess where
  | rw
  | rwp
  | none
deriving DecidableEq, Repr

def crAccess (n : BitVec 12) : CrAccess :=
  match n.toNat with
  | 0x000 | 0x005 | 0x028 | 0x030 | 0x032 => .rw
  | 0x001 | 0x002 | 0x003 | 0x004 | 0x006 | 0x020 | 0x021 | 0x022 | 0x023 | 0x024 => .rwp
  | k => if 0x100 ≤ k ∧ k ≤ 0x10F then .rw else .none

def crWritable (n : BitVec 12) (mode : BitVec 2) : Bool :=
  match crAccess n with
  | .rw => true
  | .rwp => mode != taskMode
  | .none => false

/-- One field of a status word written, unless its new value is reserved (R15). -/
def keepField (old new : Word) (lo len : Nat) (bad : Nat → Bool) : Word :=
  if bad (field new lo len) then old else setBits old lo len (new.extractLsb' lo len)

/-- STATUS or TSTATUS written with every field writable but those a reserved value leaves; a MODE of SYS is stored as TASK
in a task of privilege TASK (R15, R126). -/
def statusFields (old new : Word) (lowly privileged : Bool) : Word :=
  let w := setBits old 8 5 (new.extractLsb' 8 5)
  let w := keepField w new 13 3 (fun v => decide (v ≥ 5))
  let w := (List.range 7).foldl (fun w k => keepField w new (32 + 2 * k) 2 (fun v => v == 3)) w
  if !privileged then w
  else
    let w := setBits w 16 8 (new.extractLsb' 16 8)
    let w := setBits w 5 1 (new.extractLsb' 5 1)
    let w := setBits w 2 1 (new.extractLsb' 2 1)
    let mode := new.extractLsb' 6 2
    if mode = 3 then w else setBits w 6 2 (if mode = sysMode ∧ lowly then taskMode else mode)

/-- The task of the context has privilege TASK (R126). -/
def Ctx.lowly (t : Ctx) : Bool :=
  match t.task with
  | some i => !i.sys
  | none => false

/-- A write of a control register takes effect. A PFX that a write of STATUS sets in TRAP or SYS mode is a held prefix, and the
instruction after the write is decoded with it as after a return (R73 names no such case: DESIGN CHOICE, log entry 57). TRAPINFO takes
all 64 bits, those too that R352 and R356 keep reserved under their causes (DESIGN CHOICE, log entry 66) (R15, R48, R115, R116, R126,
R149, R278, R345, R357). -/
def Ctx.crWrite (t : Ctx) (n : BitVec 12) (v : Word) : Ctx :=
  match n.toNat with
  | 0x000 =>
    let w := statusFields t.status v t.lowly (t.mode != taskMode)
    { (t.clearBanks t.status w) with status := w }
  | 0x001 => { t with trapCause := v &&& 0x7FF }
  | 0x002 => { t with trapPc := v }
  | 0x003 => { t with trapInfo := v }
  | 0x004 => { t with trapMsg := v }
  | 0x005 => { t with trapVec := v &&& 0xFFFE }
  | 0x006 => { t with tstatus := statusFields t.tstatus v t.lowly true }
  | 0x020 => { t with watch := t.watch.set 0 v }
  | 0x021 => { t with watch := t.watch.set 1 v }
  | 0x022 => { t with watch := t.watch.set 2 v }
  | 0x023 => { t with watch := t.watch.set 3 v }
  | 0x024 => { t with stepCtl := v &&& 3 }
  | 0x028 => if 1 ≤ field v 0 7 ∧ field v 0 7 ≤ 64 then { t with promo := v &&& 0x7F } else t
  | 0x030 => { t with srgen := if lowHalf v = 0 then 1 else (lowHalf v).setWidth 64 }
  | 0x032 => { t with scopeGrp := v &&& 0xFF }
  | k => if 0x100 ≤ k ∧ k ≤ 0x10F then { t with hb := t.hb.set! (k - 0x100) (v &&& 0x1FFF) } else t

/-- CRR (R115, R116). -/
def execCrr (d : BitVec 5) (n : BitVec 12) (s : State) : Out :=
  let f := Form.dst d
  if (s.crRead s.cur.1 s.cur.2 n).isNone then s.illegal (.crr d n)
  else
    issue (.crr d n) f s fun s =>
      match s.crRead s.cur.1 s.cur.2 n with
      | some v => .next (s.retire f fun k => k.wr d v)
      | none => s.illegal (.crr d n)

/-- CWR: a read-only, unassigned or privileged number carries ILLEGAL (R14, R115, R116). -/
def execCwr (r : BitVec 5) (n : BitVec 12) (s : State) : Out :=
  let f : Form := { srcs := [(r, 0)], names := [.g r], rep := false }
  if !crWritable n s.me.mode then s.illegal (.cwr r n)
  else issue (.cwr r n) f s fun s => .next (s.retire f fun k => (k.crWrite n (s.me.rd r)).serial)

/-! ### Return, sleep and halt -/

def privileged : List (BitVec 2) := [trapMode, sysMode]

/-- TRET: its target is checked as a transfer's; a fault in TRAP mode aborts the task (R347, R385); serialising (R383). R99 does not list
it among the transfers that REPN may not have as its target: by the model's choice it may be one, and the context then goes on at
the REPN's address, not at TRAPPC (R111; log entry 64). The instruction that a TRANSLATION trap has cut short translates afresh, whatever
the handler has accessed (R353). -/
def execTret (s : State) : Out :=
  let f : Form := { modes := [trapMode] }
  issue .tret f s fun s =>
    let target := s.me.trapPc
    if target.getLsbD 0 then s.fault Cause.align target
    else if target.toNat > 0xFFFE then s.fault Cause.bounds target
    else
      let s := if s.me.trapCause.setWidth 8 = Cause.translation then s.forgetPlaces s.cur.1 else s
      .next (s.retireTo f target 0 fun t => t.trapReturn.serial)

/-- Another context of the core is ready. -/
def Core.otherReady (k : Core) (x : Fin 8) : Bool := (List.finRange 8).any fun y => y != x && (k.ctx y).ready

/-- SLEEP: retires and leaves the pipe until its time has passed, a fill arrives or an event is pending; with a time of 0
only if another context is ready (R386); serialising (R383). -/
def execSleep (r : BitVec 5) (s : State) : Out :=
  let f : Form := { srcs := [(r, 0)], names := [.g r] }
  issue (.sleep r) f s fun s =>
    let n := (lowHalf (s.me.rd r)).toNat
    let s := s.retire f Ctx.serial
    let c := s.cur.1
    let x := s.cur.2
    if n = 0 then
      .next (if (s.core c).otherReady x then s.updCore c fun k => k.leave x else s)
    else
      let until_ := if s.me.async.any then none else some (s.mesh + n)
      .next ((s.updMe fun t => { t with sleep := until_ }).updCore c fun k => k.leave x)

/-- HALT: aborts the task; in TRAP mode the report stays that of the trap (R347, R387). -/
def execHalt (s : State) : Out :=
  let f : Form := { modes := privileged }
  issue .halt f s fun s =>
    let t := s.me
    if t.mode = trapMode then .next (s.abort s.cur.1 s.cur.2 (t.trapCause ||| 0x200) t.trapPc t.trapInfo)
    else .next (s.abort s.cur.1 s.cur.2 0x20E t.faultPc 0)

/-! ### Removal -/

/-- A kill flood starts for a launch (R362). -/
def State.startRemoval (s : State) (n : Nat) : State :=
  match s.launch n with
  | none => s
  | some l =>
    if l.state = .removing then s
    else s.setLaunch n { l with state := .removing, flood := l.group 0, swept := false }

/-- KILLCTX (R383, R388). -/
def execKillctx (d a : BitVec 5) (m : BitVec 2) (s : State) : Out :=
  let f := { Form.f2 d a m with modes := privileged }
  issue (.killctx d a m) f s fun s =>
    let n := field (s.me.rd a) 0 16
    let own := (s.core s.cur.1).launch == some n
    let code : Word := if own then 2 else if (s.launch n).isSome then 0 else 1
    let s := s.retire f fun k => (k.wr d code).serial
    .next (if code = 0 then s.startRemoval n else s)

/-! ### Translation invalidation -/

/-- A cache of translations without those of the page that holds an address, or without any (R389). -/
def dropTranslations (tlb : NatMap (Nat × Word)) (va : Option Word) : NatMap (Nat × Word) :=
  match va with
  | none => []
  | some a => tlb.filter fun (k, level, _) => k != tlbKey level a.toNat

/-- A key lies in the page that a cached translation maps. -/
def inPage (e : Nat × Nat × Word) (key : Nat) : Bool :=
  let pa := physKey (e.2.2.toNat / 16 % 4) (ptePa e.2.2.toNat)
  decide (pa ≤ key ∧ key < pa + 2 ^ pageBits e.2.1)

/-- The place that a fill still to come is read from. -/
def FillKind.place : FillKind → Option Nat
  | .held _ _ key _ => some key
  | .version word _ _ => some (word * 8)
  | _ => none

/-- Two fills wait for the same read. -/
def FillKind.same (a b : FillKind) : Bool :=
  match a, b with
  | .held h off key _, .held g o k _ => h == g && off == o && key == k
  | _, _ => a == b

/-- Reads of a core still to be performed at places of a kind: context, fill slot and what it waits for. -/
def Core.readsAt (k : Core) (under : Nat → Bool) : List (Nat × Nat × FillKind) :=
  (List.finRange 8).flatMap fun x => (k.ctx x).fills.filterMap fun (i, f) =>
    if !f.orphan && (f.kind.place.map under).getD false then some (x.val, i, f.kind) else none

/-- An invalidation reaches one core: its translations go; the accesses made under the old mapping are noted, the reads and the stores
that the core still holds and the stores dirty in its quad's cache, with those that another invalidation, not yet over, has noted at
the core (R245, R353, R389). -/
def State.reachCore (s : State) (n c : Nat) : State :=
  match s.shootdowns.find n with
  | none => s
  | some d =>
    if !d.cores.contains c then s
    else
      let tlb := (s.core c).tlb
      let left := dropTranslations tlb d.va
      let gone := tlb.filter fun e => !left.contains e
      let under (key : Nat) : Bool := gone.any fun e => inPage e key
      let others := (s.shootdowns.filter fun (_, e) => e.launch == d.launch && !e.cores.contains c).map (·.2)
      let held := (s.core c).stores.filter fun r => under r.addr
      let reads := ((s.core c).readsAt under).map fun e => (c, e)
      let dirty := (s.quad (quadOf c)).cache.filter fun (l, e) => e.dirty != 0 && under (l * 64)
      let s := s.updCore c fun k => { k with tlb := left }
      let d := { d with
        cores := d.cores.filter (· != c)
        stores := d.stores ++ (held.map fun r => (c, r)) ++ others.flatMap fun e => e.stores.filter fun p => p.1 == c
        lines := d.lines ++ (dirty.map fun (l, _) => (quadOf c, l)) ++ (held.map fun r => (quadOf c, r.addr / 64)) ++
          others.flatMap fun e => e.lines.filter fun p => p.1 == quadOf c
        reads := d.reads ++ reads ++ others.flatMap fun e => e.reads.filter fun p => p.1 == c }
      { s with shootdowns := s.shootdowns.put n d }

/-- TLBI: the issuing core's translations go at retirement; the other cores of the launch are reached later, at the
latest when a TLBSYNC waits for it (R389). -/
def execTlbi (a : BitVec 5) (m : BitVec 2) (b : BitVec 5) (n : BitVec 2) (s : State) : Out :=
  let f : Form := { srcs := [(a, m), (b, n)], names := [.g a, .g b], modes := privileged }
  issue (.tlbi a m b n) f s fun s =>
    let va := s.me.rd a
    let sel := s.me.rd b
    if field sel 0 2 ≥ 2 then s.illegal (.tlbi a m b n)
    else if field sel 2 62 ≠ 0 ∨ field va 48 16 ≠ 0 then s.fault Cause.bounds 0xFFFA000000000001
    else
      let c := s.cur.1
      let s := s.retire f Ctx.serial
      let k := s.shootdownCtr
      match s.launchOf c with
      | none => .next (s.updCore c fun q => { q with tlb := dropTranslations q.tlb (if field sel 0 1 = 0 then some va else none) })
      | some (launch, l) =>
        let cores := (l.group 0).filter (· != c)
        let d : Shootdown := ⟨launch, if field sel 0 1 = 0 then some va else none, c :: cores, [], [], []⟩
        let s := { s with shootdowns := s.shootdowns.put k d, shootdownCtr := k + 1 }
        .next ((s.reachCore k c).updMe fun t => { t with tlbi := t.tlbi ++ [k] })

/-- A store without what later events change of it. -/
def StoreRec.fixed (r : StoreRec) : StoreRec := { r with after := [], fences := 0, full := false }

/-- A shootdown has reached every core, every store held under the old mapping has left its core, and every read under it has been
performed (R353, R389). -/
def State.shotDown (s : State) (n : Nat) : Bool :=
  match s.shootdowns.find n with
  | none => true
  | some d =>
    d.cores.isEmpty && (d.stores.all fun (c, r) => !(s.core c).stores.any fun a => a.fixed == r.fixed) &&
      d.reads.all fun (c, x, i, k) =>
        !((((s.ctx c (Fin.ofNat 8 x)).fills.find i).map fun f => !f.orphan && f.kind.same k).getD false)

/-- The stores of a shootdown that are dirty in a quad cache are performed at their homes (R245). -/
def State.mergeShot (s : State) (n : Nat) : State :=
  match s.shootdowns.find n with
  | none => s
  | some d => d.lines.foldl (fun s (q, line) => if (s.quad q).dirtyAt line then s.mergeLine q line else s) s

/-- A shootdown reaches the cores it has not reached. -/
def State.reachAll (s : State) (n : Nat) : State :=
  match s.shootdowns.find n with
  | none => s
  | some d => d.cores.foldl (fun s c => s.reachCore n c) s

/-- TLBSYNC (R245, R353, R383, R389). -/
def execTlbsync (s : State) : Out :=
  let f : Form := { modes := privileged }
  issue .tlbsync f s fun s =>
    let l := s.me.tlbi
    let s := l.foldl State.reachAll s
    if l.all s.shotDown then
      let s := (l.foldl State.mergeShot s).acknowledged
      let s := s.retire f fun k => ({ k with tlbi := [] } : Ctx).serial
      .next { s with shootdowns := s.shootdowns.filter fun (n, _) => !l.contains n }
    else s.waitFor .shootdown

/-! ### Debug and snapshot -/

/-- WATCH: reason 4 of R215 has no part in it, its space rule is its own (R390). -/
def execWatch (m : BitVec 5) (n : BitVec 2) (h : BitVec 4) (r : BitVec 5) (s : State) : Out :=
  let f : Form := { srcs := [(m, 0), (r, 0)], names := [.g m, .g r], modes := privileged }
  issue (.watch m n h r) f s fun s =>
    let off := (s.me.rd r).toNat
    s.orFault (s.chkAccess s.cur.1 s.hbs h off 16 ⟨false, [spGlobal, spSync, spOrdered], 16, false⟩) fun hd =>
      s.orFault (s.placeCore s.cur.1 hd off 16 false) fun (spans, s) =>
        let pa := (spans.head?.map (·.key)).getD 0 % 2 ^ 52
        let w : Word := BitVec.ofNat 64 (pa / 16 + field (s.me.rd m) 0 16 * 2 ^ 48)
        .next (s.retire f fun k => ({ k with watch := k.watch.set! n.toNat w } : Ctx).serial)

/-- The three forms of SSTEP write STEPCTL at retirement (R391). -/
def sstep (i : Instr) (v : Word) (s : State) : Out :=
  let f : Form := { modes := privileged }
  issue i f s fun s => .next (s.retire f fun k => ({ k with stepCtl := v } : Ctx).serial)

/-- SSTEP.off (R391). -/
def execSstepOff (s : State) : Out := sstep .sstepOff 0 s
/-- SSTEP.on (R391). -/
def execSstepOn (s : State) : Out := sstep .sstepOn 1 s
/-- SSTEP.once (R391). -/
def execSstepOnce (s : State) : Out := sstep .sstepOnce 3 s

/-- SNAP: fires the trigger, then waits for the latch cycle and retires with the trigger's number (R392). -/
def execSnap (d : BitVec 5) (s : State) : Out :=
  let f := Form.dst d
  issue (.snap d) f s fun s =>
    match s.me.held with
    | some v =>
      match s.trigger.latchAt with
      | some n => if s.trigger.number.setWidth 64 = v then s.waitFor (.latch n) else .next (s.retire f fun k => k.wr d v)
      | none => .next (s.retire f fun k => k.wr d v)
    | none =>
      let s := s.fireTrigger
      let s := s.updMe fun t => { t with held := some (s.trigger.number.setWidth 64) }
      s.waitFor (.latch (s.trigger.latchAt.getD 0))

/-! ### Leases and quotas -/

/-- The status a GUST gets: 5 for a duration out of range, then the reasons of R376 in order, else 0 (R393). -/
def State.gustStatus (s : State) (c : Nat) (x : Fin 8) (ms : Nat) : Nat :=
  let k := s.cluster (clusterOf c)
  if ms < 1 ∨ ms > 60000 then 5
  else if k.refrz then 1
  else if s.fwUpdate then 2
  else if (k.gust.map fun g => !g.mine c x).getD false then 3
  else if k.permil ≥ 950 then 4
  else 0

/-- A granted request: a pending grant, or a new duration for the holder, which a lease in effect counts from now (R376, R393). -/
def State.grantGust (s : State) (c : Nat) (x : Fin 8) (ms : Nat) : State :=
  let k := s.cluster (clusterOf c)
  let n := ms * 2000000
  let g : Gust := match k.gust with
    | some g => { g with remain := if g.pending then n else n + s.mesh % 16000, due := 0 }
    | none => ⟨c, x.val, true, n, 0⟩
  s.setCluster (clusterOf c) { k with gust := some g }

/-- GUST and GUST.t from the request on (R383, R393). -/
def gustInstr (i : Instr) (traps : Bool) (d r : BitVec 5) (s : State) : Out :=
  let f : Form := { srcs := [(r, 0)], names := [.g d, .g r] }
  issue i f s fun s =>
    let ms := field (s.me.rd r) 0 16
    let st := s.gustStatus s.cur.1 s.cur.2 ms
    if st = 0 then .next ((s.retire f fun k => (k.wr d 0).serial).grantGust s.cur.1 s.cur.2 ms)
    else if traps then s.fault Cause.leaseRefused (BitVec.ofNat 64 st)
    else .next (s.retire f fun k => (k.wr d (BitVec.ofNat 64 st)).serial)

/-- GUST (R393). -/
def execGust (d r : BitVec 5) (s : State) : Out := gustInstr (.gust d r) false d r s
/-- GUST.t (R393). -/
def execGustT (d r : BitVec 5) (s : State) : Out := gustInstr (.gustT d r) true d r s

/-- GUSTREL (R383, R394). -/
def execGustrel (d : BitVec 5) (s : State) : Out :=
  let f := Form.dst d
  issue (.gustrel d) f s fun s =>
    let n := clusterOf s.cur.1
    let k := s.cluster n
    if (k.gust.map fun g => g.mine s.cur.1 s.cur.2).getD false then
      .next ((s.retire f fun t => (t.wr d 0).serial).setCluster n { k with gust := none, lastEnd := 1 })
    else .next (s.retire f fun t => (t.wr d 1).serial)

/-- The energy budget in force, raised under a lease until the boundary after its end (R369, R378, R394). -/
def Cluster.budget (k : Cluster) : Nat := k.eb + if k.raised then 28125 else 0

/-- QREAD (R395). -/
def execQread (d : BitVec 5) (sel : BitVec 3) (s : State) : Out :=
  let f := Form.dst d
  issue (.qread d sel) f s fun s =>
    let k := s.cluster (clusterOf s.cur.1)
    let v : Word := match sel.toNat with
      | 0 => s.me.enquota
      | 1 => BitVec.ofNat 64 k.remE
      | 2 => BitVec.ofNat 64 k.currentLeft
      | 3 => BitVec.ofNat 64 k.budget
      | 4 => BitVec.ofNat 64 k.ib
      | _ => BitVec.ofNat 64 (((s.launchOf s.cur.1).map fun l => l.2.quota).getD 0)
    .next (s.retire f fun t => t.wr d v)

end Sys2Proof.Machine
end

