-- ==== Sys2Proof/Machine/Engines.lean ====
section
/-!
DEFINITION. Copy and gather engines (R222, R223, R307 to R317, R326 to R328, R331 to R334), ring and barrier objects and
sequence words as instructions (R330, R335 to R339).
-/

namespace Sys2Proof.Machine

/-! ### Ownership of destination lines (R222, R312) -/

/-- A line is owned by a command other than this one. -/
def State.heldFrom (s : State) (cl : Claim) (line : Nat) : Bool :=
  match s.owners.find line with
  | some (o :: _) => o != cl
  | _ => false

/-- The engine that runs a command: a quad's copy engine, a gather engine, a core's reductions, a collective engine, a chain's processor. -/
def Claim.engine : Claim → Nat × Nat
  | .copy c _ => (0, quadOf c)
  | .gather die e _ _ => (1, die * 32 + e % 32)
  | .xred c _ => (2, c)
  | .coll e _ _ => (3, e)
  | .chain ch _ => (4, ch)

/-- A line is owned by another engine than a command's, whose home holds the command's requests for it (R222, R307). -/
def State.heldAway (s : State) (cl : Claim) (line : Nat) : Bool :=
  match s.owners.find line with
  | some (o :: _) => o.engine != cl.engine
  | _ => false

/-- Some line of spans is owned by another command. -/
def State.heldSpans (s : State) (cl : Claim) (spans : List Span) : Bool :=
  (linePieces spans).any fun p => s.heldFrom cl (p.key / 64)

/-- A command claims every line of its destination, after the leading claims that `first` accepts; dirty bytes merge, copies are
invalidated, and windows of tile reads close (R222, R223). -/
def State.claimAfter (s : State) (first : Claim → Bool) (cl : Claim) (spans : List Span) : State :=
  (linePieces spans).foldl (fun (s : State) p =>
    let s := s.closeTiles (p.key / 64)
    let l := (s.owners.find (p.key / 64)).getD []
    { s with owners := s.owners.put (p.key / 64) (l.takeWhile first ++ cl :: l.dropWhile first) }) (s.recallSpans spans)

/-- A command is issued: it claims its lines after every command that claimed them before (R312). -/
def State.claimSpans (s : State) (cl : Claim) (spans : List Span) : State := s.claimAfter (fun _ => true) cl spans

/-- A claim on a line given up. -/
def State.releaseLine (s : State) (cl : Claim) (line : Nat) : State :=
  match s.owners.find line with
  | none => s
  | some l =>
    let l := l.filter (· != cl)
    { s with owners := if l.isEmpty then s.owners.del line else s.owners.put line l }

/-- Lines written whole are given up; the last is kept while the command has more bytes for it. -/
def State.releaseSpans (s : State) (cl : Claim) (spans : List Span) (more : Bool) : State :=
  let pieces := linePieces spans
  let pieces := match pieces.getLast? with
    | some p => if more ∧ (p.key + p.len) % 64 ≠ 0 then pieces.dropLast else pieces
    | none => []
  pieces.foldl (fun s p => s.releaseLine cl (p.key / 64)) s

/-- Every claim of a command given up. -/
def State.releaseAll (s : State) (cl : Claim) : State :=
  let owners := s.owners.mapVals fun _ l => l.filter (· != cl)
  { s with owners := owners.filter fun (_, l) => !l.isEmpty }

/-! ### What engines read, write and signal -/

/-- A line as an engine reads it at its home: as an open window of an identical tile read has it, else afresh (R223). -/
def State.tileLine (s : State) (w : Option TileRead) (line : Nat) : BitVec 512 :=
  match w with
  | some t => ((t.lines.zip t.data).find? fun e => e.1 == line).map (·.2) |>.getD (s.homeLine line)
  | none => s.homeLine line

/-- A line's bytes read by an engine at its home. -/
def State.engineHome (s : State) (info : ReadInfo) (w : Option TileRead) (p : Span) : Found (List Byte) :=
  let line := p.key / 64
  if !info.begun && s.refreshing line then .wait .refresh
  else if s.poisoned p.key p.len then .bad s
  else
    let s := if info.noL2 then s.l2Drop line else s
    .ok s (lineBytes (s.tileLine w line) (p.key % 64) p.len)

/-- The same where the engine reads through a quad's cache: of a line that it owns itself, the bytes that the quads hold dirty merge
first, for the home gives no copy of it (R222, R242, R312). -/
def State.engineLine (s : State) (via : Option Nat) (cached : Bool) (info : ReadInfo) (w : Option TileRead) (p : Span) :
    Found (List Byte) :=
  let line := p.key / 64
  match via with
  | some q =>
    if !cached then s.engineHome info w p
    else if (s.owners.find line).isSome then
      match (s.recall line).engineHome info none p with
      | .ok s b => .ok (s.noteRead q line info) b
      | f => f
    else
      match s.quadRead q line (p.key % 64) p.len info with
      | .ok s d => .ok s (lineBytes d (p.key % 64) p.len)
      | .wait w => .wait w
      | .bad s => .bad s
  | none => s.engineHome info w p

/-- Bytes that an engine reads for core c through a handle, `va` the virtual address of the first: GLOBAL and WEIGHT lines through a
quad's cache, or at their homes; lines it owns itself without waiting. Each line is tracked by its own bytes (R207, R218, R264,
R309, R312, R317). -/
def State.engineRead (s : State) (c : Nat) (h : BitVec 256) (via : Option Nat) (cl : Claim) (begun : Bool) (w : Option TileRead) :
    List Span → Nat → List Byte → Found (List Byte)
  | [], _, acc => .ok s acc
  | p :: l, va, acc =>
    if s.heldAway cl (p.key / 64) then .wait (.miss (p.key / 64))
    else
      let info := { s.readInfo c h va (p.key / 64) with begun := begun || !acc.isEmpty, engine := true }
      match s.engineLine via (hSpace h == spGlobal || hSpace h == spWeight) info w p with
      | .ok s b => s.engineRead c h via cl begun w l (va + p.len) (acc ++ b)
      | .wait w => .wait w
      | .bad s => .bad s

/-- The window that an identical tile read finds open (R223). -/
def State.tileWindow (s : State) (lines : List Nat) : Option TileRead :=
  s.tileReads.find? fun w => w.lines == lines && decide (s.mesh ≤ w.last)

/-- A tile read of a block of up to 64 lines opens a window of MERGE mesh cycles where none is open for it (R223). -/
def State.openTile (s : State) (lines : List Nat) (merge : Nat) : State :=
  if merge = 0 ∨ lines.length > 64 ∨ (s.tileWindow lines).isSome then s
  else
    let open_ := s.tileReads.filter fun w => decide (s.mesh ≤ w.last)
    { s with tileReads := open_ ++ [⟨lines, lines.map s.homeLine, s.mesh + merge⟩] }

/-- What reading a region came to: bytes, a wait with its cause of R327, or the cause of R314. -/
inductive Fetched where
  | ok (s : State) (b : List Byte)
  | held (stall : Nat)
  | failed (cause : Nat)

/-- Causes of a stall (R327). -/
def stallSrc : Nat := 0
def stallOwn : Nat := 1
def stallRing : Nat := 2
def stallXlate : Nat := 3
def stallRefresh : Nat := 4
def stallCredit : Nat := 5

/-- Physical lines of a region, in order. -/
def linesOf (spans : List Span) : List Nat := ((linePieces spans).map fun p => p.key / 64).eraseDups

/-- A region of a handle read by an engine for core c, translated afresh (R353); through a GLOBAL handle as a tile read (R223).
`begun`: its chunk or row has read a region before. -/
def State.fetchRegion (s : State) (c : Nat) (via : Option Nat) (cl : Claim) (h : BitVec 256) (off len : Nat) (begun : Bool) : Fetched :=
  match s.placeFresh (s.rootOf c) c h off len false with
  | .error _ => .failed 1
  | .ok spans =>
    let lines := linesOf spans
    let merge := if hSpace h = spGlobal then hMerge h else 0
    match s.engineRead c h via cl begun (s.tileWindow lines) (linePieces spans) (hBase h + off) [] with
    | .ok s b => .ok (s.openTile lines merge) b
    | .wait .refresh => .held stallRefresh
    | .wait _ => .held stallSrc
    | .bad _ => .failed 2

/-- Bytes an engine writes at their homes, watched under its kind and number; L2 keeps no data of a line written through a handle
whose policy says so (R214, R222, R356). -/
def State.engineWrite (s : State) (c : Nat) (h : BitVec 256) (spans : List Span) (b : List Byte) (kind id : Nat) : State :=
  if hSpace h = spGlobal then
    (s.homeWrite spans b ((s.core c).launch.getD 0) kind id none).l2Leave h spans
  else (withBytes spans b).foldl (fun s (p, b) => if hSpace h = spIstore then s.putIstore p.key b else s.putMem p.key b) s

/-- The place of a completion object with the LOG bit of its page, or the cause it fails with (R314). -/
def State.objectKey (s : State) (c : Nat) (h : BitVec 256) (off size : Nat) : Except Nat (Nat × Bool) :=
  match s.placeFresh (s.rootOf c) c h off size true with
  | .error _ => .error 1
  | .ok spans =>
    let key := (spans.head?.map (·.key)).getD 0
    if s.poisoned key size then .error 2 else .ok (key, spans.any (·.log))

/-- Size of a completion object by CKIND (R313). -/
def objectSize (ckind : Nat) : Nat := if ckind = 3 then 8 else 32

/-- The completion signal of a command (R313): CKIND 01 counts W bytes, 10 marks a slot filled, 11 takes the maximum. It is a
release at .sys of the quads given (R242), performed at the object's home (R229). -/
def State.signal (s : State) (c key : Nat) (log : Bool) (ckind w count : Nat) (slot : Option (Nat × Nat × Nat)) (err : Bool)
    (kind id : Nat) (quads : List Nat) : State :=
  let home := (s.recall (key / 64)).dirtyLine ((s.core c).launch.getD 0) (key / 64) log false
  let home := quads.foldl (fun s q => s.recordReleases key (objectSize ckind) q) home
  let seen (s : State) (n : Nat) : State := s.watchWrite [⟨key, n, false⟩] kind id none
  match ckind, slot with
  | 1, _ => seen (home.barUpdate key 0 w err) 32
  | 2, some (n, gen, _) => seen (home.ringFill key n gen err) 32
  | 3, _ => seen (home.syncWrite key (BitVec.ofNat 64 (max (home.memWord key).toNat (count % 2 ^ 48)))) 8
  | _, _ => s

/-- TRAPINFO of EXT_ERROR from an engine command (R314). -/
def engineInfo (cause : Nat) (obj : Bool) (count : Nat) : Word :=
  BitVec.ofNat 64 (2 ^ 62 + cause * 2 ^ 58 + (if obj then 2 ^ 57 else 0) + count % 2 ^ 48)

/-- The end of a command: the error it ends with, and the state with its signal performed, if it gives one (R313, R314); none while
another engine owns the line of the object, whose home then holds the signal (R222). -/
def State.endCommand (s : State) (c : Nat) (hbs : Vector Word 16) (cl : Claim) (ohb : BitVec 4) (ckind ooff w count : Nat)
    (slot : Option (Nat × Nat × Nat)) (err : Option (Nat × Bool)) (kind id : Nat) (quads : List Nat) :
    Option (Option (Nat × Bool) × State) :=
  if ckind = 0 then some (err, s)
  else
    match s.chkHandle c hbs ohb with
    | .error _ => some (some (1, true), s)
    | .ok h =>
      match s.objectKey c h ooff (objectSize ckind) with
      | .error cause => some (some (cause, true), s)
      | .ok (key, log) =>
        if s.heldAway cl (key / 64) then none
        else some (err, s.signal c key log ckind w count slot err.isSome kind id quads)

/-- A command ended in error: ERR of CPYST is set, and its task, if it still runs, takes EXT_ERROR (R314, R328). -/
def State.engineError (s : State) (c : Nat) (x : Fin 8) (taskId : Word) (info : Word) : State :=
  let s := s.updCtx c x fun t => { t with errSticky := true }
  let t := s.ctx c x
  if t.cstate = .running ∧ (t.task.map (·.task.taskId)) = some taskId then s.post c x (·.ext info) else s

/-- Cycles of a stall counted under their cause; the counters saturate (R327). -/
def countStall (l : Vector Nat 6) (cause n : Nat) : Vector Nat 6 :=
  let i : Fin 6 := Fin.ofNat 6 cause
  l.set i (sat48 (l[i] + n))

/-- Mesh cycles an engine may have stalled before it goes on, under one of the causes whose waits the model does not time: a free
choice (R327; log entry 18). -/
def addStall (causes : List Nat) (l : Vector Nat 6) (n : Nat) : Vector Nat 6 :=
  match causes[n % causes.length]? with
  | some cause => countStall l cause (n / causes.length)
  | none => l

/-- Those causes for a command that reads a source or not, through these bindings: a weight store's bank may have been in its
window for a line after the first (R327; log entry 65). -/
def State.untimed (s : State) (c : Nat) (hbs : Vector Word 16) (source : Bool) (ns : List (BitVec 4)) : List Nat :=
  let weight := ns.any fun n => match s.chkHandle c hbs n with
    | .ok h => hSpace h == spWeight
    | .error _ => false
  (if source then [stallSrc] else []) ++ [stallXlate] ++ (if weight then [stallRefresh] else []) ++ [stallCredit]

/-! ### Copy requests (R308, R309, R311) -/

structure CopyReq where
  dhb : BitVec 4
  shb : BitVec 4
  ohb : BitVec 4
  ckind : Nat
  op : Nat
  esz : Nat
  fact : Nat
  len : Nat
  doff : Nat
  word2 : Word
  ooff : Nat
  chans : Nat
deriving DecidableEq, Repr

def copyReq (w : Vector Word 4) : CopyReq :=
  ⟨w[0].extractLsb' 60 4, w[0].extractLsb' 56 4, w[0].extractLsb' 52 4, field w[0] 50 2, field w[0] 48 2, field w[0] 46 2,
    field w[0] 40 6, field w[0] 0 25, w[1].toNat, w[2], field w[3] 0 48, field w[3] 48 16⟩

def opCopy : Nat := 0
def opPack : Nat := 1
def opUnpack : Nat := 2
def opFill : Nat := 3

/-- PACK or UNPACK. -/
def CopyReq.packs (r : CopyReq) : Bool := r.op == opPack || r.op == opUnpack
def CopyReq.e (r : CopyReq) : Nat := 2 ^ r.esz
def CopyReq.f (r : CopyReq) : Nat := r.fact + 1
def CopyReq.p (r : CopyReq) : Nat := r.len / (r.chans * r.e)
def CopyReq.g (r : CopyReq) : Nat := (r.chans + r.f - 1) / r.f
/-- Bytes of the interleaved form. -/
def CopyReq.packed (r : CopyReq) : Nat := r.g * r.p * r.f * r.e
/-- W. -/
def CopyReq.w (r : CopyReq) : Nat := if r.op = opPack then r.packed else r.len
/-- Bytes of the source region. -/
def CopyReq.srcLen (r : CopyReq) : Nat := if r.op = opUnpack then r.packed else r.len
def CopyReq.align (r : CopyReq) : Nat := if r.packs then r.e else 1
/-- Size of the completion object. -/
def CopyReq.objSize (r : CopyReq) : Nat := if r.ckind = 3 then 8 else 32

/-- The reason a request is malformed, if it is (R311). -/
def requestReason (w : Vector Word 4) : Option Nat :=
  let r := copyReq w
  if field w[0] 25 15 ≠ 0 ∨ (r.ckind = 0 ∧ r.ohb ≠ 0) ∨ (r.ckind = 2 ∧ r.doff ≠ 0) ∨
      (r.op = opFill ∧ (r.shb ≠ 0 ∨ field w[2] 8 56 ≠ 0)) ∨
      (r.packs = false ∧ (r.chans ≠ 0 ∨ r.esz ≠ 0 ∨ r.fact ≠ 0)) then some 1
  else if r.len < 1 ∨ r.len > 2 ^ 24 then some 2
  else if r.packs ∧ (r.chans = 0 ∨ r.len % (r.chans * r.e) ≠ 0) then some 3
  else none

/-- Spaces of engine sources and destinations (R311). -/
def engineSources : List Nat := [spGlobal, spQuad, spWeight]
def engineDests : List Nat := [spGlobal, spQuad, spWeight, spIstore]

/-- A destination region (R311): an ISTORE one is aligned at 8 in offset and length. -/
def State.chkDest (s : State) (c : Nat) (hbs : Vector Word 16) (n : BitVec 4) (off len align : Nat) : Chk (BitVec 256) := do
  let h ← s.chkHandle c hbs n
  if hSpace h = spIstore then
    chkAlign off 8
    if len % 8 ≠ 0 then throw (Cause.align, BitVec.ofNat 64 (off + len))
  chkAlign off align
  chkBounds h off len true
  s.chkSpace c hbs n h ⟨true, engineDests, len, false⟩
  return h

/-- A completion object (R311): SYNC, aligned at its size. -/
def State.chkObject (s : State) (c : Nat) (hbs : Vector Word 16) (n : BitVec 4) (off size : Nat) : Chk Unit := do
  let _ ← s.chkAccess c hbs n off size ⟨false, [spSync], size, false⟩

/-- The checks of a copy request in their order (R311). -/
def State.chkCopy (s : State) (c : Nat) (hbs : Vector Word 16) (w : Vector Word 4) : Chk Unit := do
  let r := copyReq w
  match requestReason w with
  | some k => throw (Cause.bounds, BitVec.ofNat 64 (0xFFFC000000000000 + k))
  | none =>
    if r.op ≠ opFill then
      let _ ← s.chkAccess c hbs r.shb r.word2.toNat r.align ⟨false, engineSources, r.srcLen, false⟩
    if r.ckind ≠ 2 then
      let _ ← s.chkDest c hbs r.dhb r.doff r.w r.align
    if r.ckind ≠ 0 then
      s.chkObject c hbs r.ohb r.ooff r.objSize

/-- The bytes of a range that translate, page by page. -/
def translatable (m : List Host.Cell) (root : Nat) : Nat → Nat → Nat → List Span
  | 0, _, _ => []
  | n + 1, va, len =>
    if len = 0 then []
    else
      match translateByte m [] root (va % 2 ^ 48) false true with
      | .ok (p, _) =>
        let k := min len p.left
        ⟨p.key, k, p.log⟩ :: translatable m root n (va + k) (len - k)
      | .error _ =>
        let k := min len (2 ^ 16 - va % 2 ^ 16)
        translatable m root n (va + k) (len - k)

/-- The bytes of a destination region that a command claims; those that do not translate are reported by their chunk. -/
def State.destSpans (s : State) (c : Nat) (h : BitVec 256) (off len : Nat) : List Span :=
  if hSpace h = spGlobal then translatable s.mem (s.rootOf c) (pagesOf len) (hBase h + off) len
  else
    match s.placeFresh (s.rootOf c) c h off len true with
    | .ok spans => spans
    | .error _ => []

/-- The issued command claims its destination (R222, R312). -/
def State.claimRegion (s : State) (c : Nat) (cl : Claim) (h : BitVec 256) (off len : Nat) : State :=
  s.claimSpans cl (s.destSpans c h off len)

/-- The commands whose destination lines come before those of a ring-advancing command issued now: those that hold or wait for a line,
and the ring-advancing ones that have yet to reserve their slots (R312). -/
def State.claimsNow (s : State) : List Claim :=
  let owned := s.owners.flatMap (·.2)
  let rings := s.cores.flatMap fun (c, k) =>
    (k.fifo.filter fun e => field (e.req[0]) 50 2 == 2 && e.slot.isNone).map fun e => Claim.copy c e.count
  (owned ++ rings).eraseDups

/-- CPY and CPY.nb; the command waits for the future versions that its context awaits (R240, R310, R331, R332). -/
def cpyInstr (i : Instr) (nb : Bool) (d a : BitVec 5) (m : BitVec 2) (s : State) : Out :=
  let regs := (List.range 4).map fun k => regPlus a k
  let f : Form := { srcs := regs.map fun r => (r, m), names := .g d :: regs.map .g }
  issue i f s fun s =>
    let t := s.me
    let c := s.cur.1
    let w : Vector Word 4 := Vector.ofFn fun k => t.rd (regPlus a k.val)
    s.orFault (s.chkCopy c t.hb w) fun _ =>
      let k := s.core c
      if k.fifo.length ≥ 16 then
        if nb then .next (s.retire f fun t => t.wr d 0x8000000000000000) else s.waitFor .fifo
      else
        let n := k.fifoAccepted + 1
        let id := BitVec.ofNat 64 (c % 2 ^ 13 * 2 ^ 48 + n % 2 ^ 48)
        let r := copyReq w
        let cmd : CopyCmd :=
          ⟨s.cur.2.val, n, w, t.hb, (t.fills.filter fun (_, f) => f.futureVersion).map (·.1),
            if r.ckind = 2 then s.claimsNow else [], false, 0, none, none, (t.task.map (·.task.taskId)).getD 0⟩
        let s := s.retireTo f (t.pc + 4) (id ||| (1#64 <<< 61)) fun t => t.wr d id
        let s := s.updCore c fun k => { k with fifo := k.fifo ++ [cmd], fifoAccepted := n }
        if r.ckind = 2 then .next s
        else
          match s.chkHandle c t.hb r.dhb with
          | .ok h => .next (s.claimRegion c (.copy c n) h r.doff r.w)
          | .error _ => .next s

/-- CPY (R332). -/
def execCpy (d a : BitVec 5) (m : BitVec 2) (s : State) : Out := cpyInstr (.cpy d a m) false d a m s
/-- CPY.nb (R332). -/
def execCpyNb (d a : BitVec 5) (m : BitVec 2) (s : State) : Out := cpyInstr (.cpyNb d a m) true d a m s

/-- FIFO status of a context (R328). -/
def State.fifoStatus (s : State) (c : Nat) (x : Fin 8) : Word :=
  let k := s.core c
  BitVec.ofNat 64 ((if (k.ctx x).errSticky then 2 ^ 63 else 0) + k.fifoDone % 2 ^ 48 * 2 ^ 10 +
    (k.fifo.filter fun e => e.ctx == x.val).length * 2 ^ 5 + k.fifo.length)

/-- CPYST: selector 0 reads and clears ERR, 1 to 6 read the engine's stall counters (R328, R333). -/
def execCpyst (d sel : BitVec 5) (s : State) : Out :=
  let f := Form.dst d
  issue (.cpyst d sel) f s fun s =>
    if sel = 0 then
      let v := s.fifoStatus s.cur.1 s.cur.2
      .next (s.retire f fun t => { (t.wr d v) with errSticky := false })
    else
      let v := ((s.quad (quadOf s.cur.1)).stalls[sel.toNat - 1]?).getD 0
      .next (s.retire f fun t => t.wr d (BitVec.ofNat 64 v))

/-! ### A copy command runs (R307, R309, R312 to R314) -/

def State.fifoHead (s : State) (c : Nat) : Option CopyCmd := (s.core c).fifo.head?
def State.setHead (s : State) (c : Nat) (k : CopyCmd) : State :=
  s.updCore c fun q => { q with fifo := setPlace q.fifo 0 k }

/-- Every store that the core had released before a command has been performed, a remote one acknowledged, and the future versions that
its context awaited have arrived: it may read its source (R240, R242, R312). -/
def State.copyReady (s : State) (c : Nat) (k : CopyCmd) : Bool :=
  ((s.core c).stores.all fun r => decide (k.count ≤ r.copies)) &&
  (s.remotes.all fun q => q.core != c || q.slot.isSome || decide (k.count ≤ q.copies)) &&
  k.after.all fun i => (((s.ctx c (Fin.ofNat 8 k.ctx)).fills.find i).map fun f => !f.futureVersion).getD true

/-- The head of a FIFO begins: its operation matches and it may read its source (R307, R312). -/
def beginCopy (op core : Nat) (s : State) : Out :=
  match s.fifoHead core with
  | none => .next s
  | some k =>
    .next (if k.begun = false ∧ (copyReq k.req).op = op ∧ s.copyReady core k = true then s.setHead core { k with begun := true } else s)

/-- COPY_OP (R309, R312). -/
def execCopyOp (core : Nat) (s : State) : Out := beginCopy opCopy core s
/-- PACK (R309, R312). -/
def execPack (core : Nat) (s : State) : Out := beginCopy opPack core s
/-- UNPACK (R309, R312). -/
def execUnpack (core : Nat) (s : State) : Out := beginCopy opUnpack core s
/-- FILL (R309, R312). -/
def execFill (core : Nat) (s : State) : Out := beginCopy opFill core s

/-- The line of a ring object that a command may take a slot of is another engine's (R222). -/
def State.ringHeld (s : State) (c : Nat) (k : CopyCmd) : Bool :=
  match s.chkHandle c k.hbs (copyReq k.req).ohb with
  | .error _ => false
  | .ok h =>
    match s.objectKey c h (copyReq k.req).ooff 32 with
    | .error _ => false
    | .ok (key, _) => s.heldAway (.copy c k.count) (key / 64)

/-- RING_RESERVE: a begun ring-advancing command takes the next slot, a write of the engine's, or waits. A slot too small for LEN, or
whose region fails its checks, ends the command. Its region's lines it takes in the place of its issue among the commands that wait
for them (R222, R312, R314, R320, R356). -/
def execRingReserve (core : Nat) (s : State) : Out :=
  match s.fifoHead core with
  | none => .next s
  | some k =>
    let r := copyReq k.req
    if k.begun = false ∨ r.ckind ≠ 2 ∨ k.slot.isSome ∨ k.err.isSome ∨ s.ringHeld core k = true then .next s
    else
      match s.chkHandle core k.hbs r.ohb with
      | .error _ => .next (s.setHead core { k with err := some (1, true) })
      | .ok oh =>
        match s.objectKey core oh r.ooff 32 with
        | .error e => .next (s.setHead core { k with err := some (e, true) })
        | .ok (key, log) =>
          let home := (s.recall (key / 64)).dirtyLine ((s.core core).launch.getD 0) (key / 64) log false
          match home.ringReserve key with
          | (none, _) => .next s
          | (some ((n, gen, off), size), s) =>
            let s := s.watchWrite [⟨key, 8, false⟩] 2 (quadOf core) none
            let k := { k with slot := some (n, gen, off) }
            if r.len > size then .next (s.setHead core { k with err := some (4, false) })
            else
              match s.chkDest core k.hbs r.dhb off r.w r.align with
              | .error _ => .next (s.setHead core { k with err := some (4, false) })
              | .ok h =>
                .next ((s.setHead core k).claimAfter (k.ahead.contains ·) (.copy core k.count) (s.destSpans core h off r.w))

/-- The source element of destination element n: none for padding (R309). -/
def CopyReq.sourceElem (r : CopyReq) (n : Nat) : Option Nat :=
  if r.op = opPack then
    let j := n % r.f
    let p := n / r.f % r.p
    let c := n / r.f / r.p * r.f + j
    if c < r.chans then some (p * r.chans + c) else none
  else
    let p := n / r.chans
    let c := n % r.chans
    some ((c / r.f * r.p + p) * r.f + c % r.f)

/-- The padding elements that UNPACK reads, and discards, after the last channel of a position (R309). -/
def CopyReq.padding (r : CopyReq) (n : Nat) : List Nat :=
  if r.op = opUnpack ∧ n % r.chans + 1 = r.chans then
    (List.range (r.g * r.f - r.chans)).map fun i =>
      let c := r.chans + i
      (c / r.f * r.p + n / r.chans) * r.f + c % r.f
  else []

/-- A region of a source: its offset, none for bytes of zero; its length; whether its bytes are kept. -/
structure Source where
  off : Option Nat
  len : Nat
  keep : Bool

/-- The source regions of n destination bytes from one on (R309). -/
def CopyReq.sources (r : CopyReq) (pos n : Nat) : List Source :=
  if r.packs then
    (List.range (n / r.e)).flatMap fun i =>
      let k := pos / r.e + i
      ⟨(r.sourceElem k).map (· * r.e), r.e, true⟩ :: (r.padding k).map fun j => ⟨some (j * r.e), r.e, false⟩
  else [⟨some pos, n, true⟩]

/-- The source bytes of a chunk (R309); `begun`: it has read a region before. -/
def State.fetchSources (s : State) (c : Nat) (cl : Claim) (h : BitVec 256) (off : Nat) :
    List Source → List Byte → Bool → Fetched
  | [], acc, _ => .ok s acc
  | p :: l, acc, begun =>
    match p.off with
    | none => s.fetchSources c cl h off l (acc ++ List.replicate p.len 0) begun
    | some o =>
      match s.fetchRegion c (some (quadOf c)) cl h (off + o) p.len begun with
      | .ok s b => s.fetchSources c cl h off l (if p.keep then acc ++ b else acc) true
      | r => r

/-- What an engine can do for a command: nothing, as it has none to serve; it stalls under a cause; or a step of it. -/
inductive Serve where
  | idle
  | stalls (cause : Nat)
  | done (s : State)

/-- Why the destination of a chunk or row cannot be written yet: a line is another command's, or its weight-store bank is in the
refresh window (R207, R222). -/
def State.destStall (s : State) (cl : Claim) (spans : List Span) : Option Nat :=
  if s.heldSpans cl spans then some stallOwn else if s.refreshAt spans then some stallRefresh else none

/-- A step that has its source and its destination, or the stall of one that has not: the lowest cause that applies (R327). -/
def Fetched.serve (f : Fetched) (stall : Option Nat) (fail : Nat → State) (write : State → List Byte → State) : Serve :=
  match f, stall with
  | .held n, m => .stalls (min n (m.getD n))
  | _, some n => .stalls n
  | .failed cause, none => .done (fail cause)
  | .ok s b, none => .done (write s b)

/-- One chunk of the head command of a core. -/
def State.copyChunk (s : State) (c : Nat) : Serve :=
  match s.fifoHead c with
  | none => .idle
  | some k =>
    let r := copyReq k.req
    if k.begun = false then (if s.copyReady c k then .idle else .stalls stallSrc)
    else if k.err.isSome ∨ k.done ≥ r.w then .idle
    else if r.ckind = 2 ∧ k.slot.isNone then .stalls (if s.ringHeld c k then stallOwn else stallRing)
    else
      let cl := Claim.copy c k.count
      let doff := (match k.slot with
        | some (_, _, off) => off
        | none => r.doff) + k.done
      let n := min 4096 (r.w - k.done)
      let fail (cause : Nat) : State := s.setHead c { k with err := some (cause, false) }
      match s.chkHandle c k.hbs r.dhb with
      | .error _ => .done (fail 1)
      | .ok h =>
        match s.placeFresh (s.rootOf c) c h doff n true with
        | .error _ => .done (fail 1)
        | .ok spans =>
          let write (s : State) (b : List Byte) : State :=
            let s := s.engineWrite c h spans b 2 (quadOf c)
            let s := s.releaseSpans cl spans (decide (k.done + n < r.w))
            s.setHead c { k with done := k.done + n }
          let source : Fetched :=
            if r.op = opFill then .ok s (List.replicate n (r.word2.setWidth 8))
            else
              match s.chkHandle c k.hbs r.shb with
              | .error _ => .failed 1
              | .ok sh => s.fetchSources c cl sh r.word2.toNat (r.sources k.done n) [] false
          source.serve (s.destStall cl spans) fail write

/-- The first core of a list whose chunk can be served, with the state after it. -/
def State.firstChunk (s : State) : List Nat → Option (Nat × State)
  | [] => none
  | c :: l =>
    match s.copyChunk c with
    | .done s => some (c, s)
    | _ => s.firstChunk l

/-- The causes of its untimed waits. -/
def State.copyCauses (s : State) (c : Nat) (k : CopyCmd) : List Nat :=
  let r := copyReq k.req
  s.untimed c k.hbs (r.op != opFill) (if r.op = opFill then [r.dhb] else [r.dhb, r.shb])

/-- ENGINE_CHUNK: the copy engine serves the next core, round-robin, whose chunk does not wait (R307). -/
def execEngineChunk (quad : Nat) (s : State) : Out :=
  let order := (List.range 4).map fun i => 4 * quad + ((s.quad quad).copyLast.val + 1 + i) % 4
  match s.firstChunk order with
  | none => .next s
  | some (c, s) =>
    let causes := (s.fifoHead c).map (s.copyCauses c) |>.getD []
    let (n, s) := s.pick (2 ^ 48)
    .next (s.updQuad quad fun q => { q with copyLast := inQuad c, stalls := addStall causes q.stalls n })

/-- The head of a FIFO completes: its claims end, its signal is given, an error is reported (R222, R313, R314). -/
def State.completeCopy (s : State) (c : Nat) : State :=
  match s.fifoHead c with
  | none => s
  | some k =>
    let r := copyReq k.req
    if k.begun = false ∨ (k.err.isNone ∧ k.done < r.w) then s
    else
      let cl := Claim.copy c k.count
      let s := s.releaseAll cl
      let ckind := if (k.err.map (·.2)).getD false then 0 else r.ckind
      match s.endCommand c k.hbs cl r.ohb ckind r.ooff r.w k.count k.slot k.err 2 (quadOf c) [quadOf c] with
      | none => s
      | some (err, s) =>
        let s := s.updCore c fun q => { q with fifo := q.fifo.drop 1, fifoDone := q.fifoDone + 1 }
        match err with
        | none => s
        | some (cause, obj) => s.engineError c (Fin.ofNat 8 k.ctx) k.taskId (engineInfo cause obj k.count)

/-! ### GATHER (R316, R317, R334) -/

structure GatherReq where
  ihb : BitVec 4
  thb : BitVec 4
  dhb : BitVec 4
  ohb : BitVec 4
  ckind : Nat
  isz : Nat
  ioff : Nat
  count : Nat
  rb : Nat
  toff : Nat
  stride : Nat
  doff : Nat
  ooff : Nat
deriving DecidableEq, Repr

def gatherReq (d : BitVec 512) : GatherReq :=
  ⟨d.extractLsb' 0 4, d.extractLsb' 4 4, d.extractLsb' 8 4, d.extractLsb' 12 4, field d 16 2, field d 18 2, field d 64 64,
    field d 128 32, field d 160 32, field d 192 64, field d 256 64, field d 320 64, field d 384 64⟩

/-- Bytes of an index. -/
def GatherReq.isize (r : GatherReq) : Nat := 2 * 2 ^ r.isz
def GatherReq.w (r : GatherReq) : Nat := r.count * r.rb
def GatherReq.objSize (r : GatherReq) : Nat := if r.ckind = 3 then 8 else 32

/-- The reason a descriptor is malformed, if it is (R311, R316, R334). -/
def gatherReason (d : BitVec 512) : Option Nat :=
  let r := gatherReq d
  if field d 20 44 ≠ 0 ∨ field d 448 64 ≠ 0 ∨ r.ckind = 2 ∨ r.isz = 3 then some 1
  else if r.count < 1 ∨ r.count > 65536 ∨ r.rb < 1 ∨ r.rb > 4096 then some 2
  else none

/-- The checks of a descriptor in their order (R317). -/
def State.chkGather (s : State) (c : Nat) (hbs : Vector Word 16) (d : BitVec 512) : Chk (BitVec 256) := do
  let r := gatherReq d
  match gatherReason d with
  | some k => throw (Cause.bounds, BitVec.ofNat 64 (0xFFFC000000000000 + k))
  | none =>
    let _ ← s.chkAccess c hbs r.ihb r.ioff 1 ⟨false, engineSources, r.count * r.isize, false⟩
    let h ← s.chkDest c hbs r.dhb r.doff r.w 1
    if r.ckind ≠ 0 then
      s.chkObject c hbs r.ohb r.ooff r.objSize
    return h

/-- An object reference (R330). -/
def refBinding (w : Word) : BitVec 4 := w.extractLsb' 60 4
def refOffset (w : Word) : Nat := field w 0 48
def refReserved (w : Word) : Bool := field w 48 12 != 0

/-- BOUNDS with a reason of R330. -/
def State.refFault (s : State) (reason : Nat) : Out := s.fault Cause.bounds (BitVec.ofNat 64 (0xFFFB000000000000 + reason))

/-- Number of a gather engine in the package. -/
def gatherIndex (die engine : Nat) : Nat := die * 32 + engine % 32

/-- The descriptor of the GATHER at PC: as it was read on entry to the X siding, or read now (R334). -/
def State.readDesc (s : State) (h : BitVec 256) (off : Nat) (spans : List Span) : Found (BitVec 512) :=
  match s.me.desc with
  | some d => .ok s d
  | none =>
    match s.load h off spans false with
    | .ok s b => .ok s (BitVec.ofNat 512 (leNat b))
    | .wait w => .wait w
    | .bad s => .bad s

/-- GATHER waits with its descriptor read. -/
def State.waitWith (s : State) (d : BitVec 512) (w : Wait) : Out := .next (s.updMe fun t => { t with wait := some w, desc := some d })

/-- GATHER: the descriptor is read as a load, checked, and the command joins its stream after the quad cache has drained
(R290, R317, R334). -/
def execGather (d a : BitVec 5) (m : BitVec 2) (b : BitVec 5) (n : BitVec 2) (s : State) : Out :=
  let f := Form.f3 d a m b n
  issue (.gather d a m b n) f s fun s =>
    let t := s.me
    let c := s.cur.1
    let ref := t.rd a
    let sel := t.rd b
    if refReserved ref ∨ field sel 7 57 ≠ 0 then s.refFault 1
    else
      let off := refOffset ref
      s.orFault (s.chkAccess c t.hb (refBinding ref) off 64 ⟨false, [spGlobal, spQuad], 64, false⟩) fun h =>
        s.orFault (s.placeCore c h off 64 false) fun (spans, s) =>
          s.found (s.readDesc h off spans) off fun s desc =>
            s.orFault (s.chkGather c t.hb desc) fun dh =>
              let e := gatherIndex (dieOf c) (field sel 0 5)
              let strm : Fin 4 := Fin.ofNat 4 (field sel 5 2)
              let g := s.gather e
              if g.streams[strm].length ≥ 8 then s.waitWith desc (.stream (dieOf c) (field sel 0 5) strm.val)
              else if !s.quiet c s.cur.2 || s.me.versionPending then s.waitWith desc .drain
              else
                let s := s.drainAll (quadOf c) none
                let slot := 4 * (s.core c).launch.getD 0 + strm.val
                let count := (g.accepted.find slot).getD 0 + 1
                let id := BitVec.ofNat 64 (2 ^ 62 + c % 2 ^ 13 * 2 ^ 48 + count % 2 ^ 48)
                let cmd : GatherCmd := ⟨c, s.cur.2.val, (s.core c).launch.getD 0, count, desc, t.hb, 0, none,
                  (t.task.map (·.task.taskId)).getD 0⟩
                let s := s.retireTo f (t.pc + 4) (BitVec.ofNat 64 (2 * 2 ^ 61 + id.toNat % 2 ^ 61)) fun t => t.wr d id
                let s := s.setGather e { g with
                  streams := g.streams.set strm (g.streams[strm] ++ [cmd])
                  accepted := g.accepted.put slot count }
                let r := gatherReq desc
                .next (s.claimRegion c (.gather (dieOf c) (field sel 0 5) strm.val count) dh r.doff r.w)

def State.gatherHead (s : State) (e : Nat) (strm : Fin 4) : Option GatherCmd := (s.gather e).streams[strm].head?
def State.setGatherHead (s : State) (e : Nat) (strm : Fin 4) (k : GatherCmd) : State :=
  let g := s.gather e
  s.setGather e { g with streams := g.streams.set strm (setPlace g.streams[strm] 0 k) }

/-- The bytes of a row whose index has been read: zeros for an index of all ones, else the table's row, checked when it is read
(R317). -/
def State.fetchRow (s : State) (k : GatherCmd) (cl : Claim) (index : Nat) : Fetched :=
  let r := gatherReq k.desc
  if index = 2 ^ (8 * r.isize) - 1 then .ok s (List.replicate r.rb 0)
  else
    let off := r.toff + index * r.stride
    match s.chkAccess k.core k.hbs r.thb off 1 ⟨false, engineSources, r.rb, false⟩ with
    | .error _ => .failed 3
    | .ok h => s.fetchRegion k.core none cl h off r.rb false

/-- One row of the head command of a stream. -/
def State.gatherRow (s : State) (die engine : Nat) (strm : Fin 4) : Serve :=
  let e := gatherIndex die engine
  match s.gatherHead e strm with
  | none => .idle
  | some k =>
    let r := gatherReq k.desc
    if k.err.isSome ∨ k.row ≥ r.count then .idle
    else
      let c := k.core
      let cl := Claim.gather die engine strm.val k.count
      let fail (cause : Nat) : State := s.setGatherHead e strm { k with err := some (cause, false) }
      match s.chkHandle c k.hbs r.dhb, s.chkHandle c k.hbs r.ihb with
      | .ok h, .ok ih =>
        match s.placeFresh (s.rootOf c) c h (r.doff + k.row * r.rb) r.rb true with
        | .error _ => .done (fail 1)
        | .ok spans =>
          let source : Fetched :=
            match s.fetchRegion c none cl ih (r.ioff + k.row * r.isize) r.isize false with
            | .ok s ib => s.fetchRow k cl (leNat ib)
            | f => f
          source.serve (s.destStall cl spans) fail fun s b =>
            let s := s.engineWrite c h spans b 3 e
            let s := s.releaseSpans cl spans (decide (k.row + 1 < r.count))
            s.setGatherHead e strm { k with row := k.row + 1 }
      | _, _ => .done (fail 1)

/-- The causes of its untimed waits. -/
def State.gatherCauses (s : State) (k : GatherCmd) : List Nat :=
  let r := gatherReq k.desc
  s.untimed k.core k.hbs true [r.ihb, r.thb, r.dhb]

/-- GATHER_ROW: the streams of an engine are interleaved row by row; a stream's row is served when no stream before it in
turn has one to serve (R316, R317). -/
def execGatherRow (die engine stream : Nat) (s : State) : Out :=
  let e := gatherIndex die engine
  let last := (s.gather e).lastStream.val
  let turn := (stream % 4 + 4 - (last + 1) % 4) % 4
  let earlier := (List.range turn).any fun i =>
    match s.gatherRow die engine (Fin.ofNat 4 (last + 1 + i)) with
    | .done _ => true
    | _ => false
  match s.gatherRow die engine (Fin.ofNat 4 stream) with
  | .idle | .stalls _ => .next s
  | .done t =>
    if earlier then .next s
    else
      let causes := (s.gatherHead e (Fin.ofNat 4 stream)).map s.gatherCauses |>.getD []
      let (n, t) := t.pick (2 ^ 48)
      let g := t.gather e
      .next (t.setGather e { g with lastStream := Fin.ofNat 4 stream, stalls := addStall causes g.stalls n })

/-- The head of a stream completes (R222, R313, R314, R316, R334). -/
def State.completeGather (s : State) (die engine : Nat) (strm : Fin 4) : State :=
  let e := gatherIndex die engine
  match s.gatherHead e strm with
  | none => s
  | some k =>
    let r := gatherReq k.desc
    let c := k.core
    if k.err.isNone ∧ k.row < r.count then s
    else
      let cl := Claim.gather die engine strm.val k.count
      let s := s.releaseAll cl
      match s.endCommand c k.hbs cl r.ohb r.ckind r.ooff r.w k.count none k.err 3 e [quadOf c] with
      | none => s
      | some (err, s) =>
        let g := s.gather e
        let s := s.setGather e { g with streams := g.streams.set strm (g.streams[strm].drop 1) }
        match err with
        | none => s
        | some (cause, obj) => s.engineError c (Fin.ofNat 8 k.ctx) k.taskId (engineInfo cause obj k.count)

/-! ### Ring, barrier and sequence-word instructions (R330, R335, R337) -/

/-- The operands of an object instruction whose b names a pair. -/
def Form.objPair (a : BitVec 5) (m : BitVec 2) (b : BitVec 5) (n : BitVec 2) : Form :=
  { srcs := [(a, m), (b, n), (regPlus b 1, n)], names := [.g a, .g b, .g (regPlus b 1)] }
def Form.objOne (a : BitVec 5) (m : BitVec 2) (b : BitVec 5) (n : BitVec 2) : Form :=
  { srcs := [(a, m), (b, n)], names := [.g a, .g b] }

/-- The checks of R330 on a reference, its operand checks already made: then its place, with the LOG bit of its page (R408). -/
def State.refPlace (s : State) (ref : Word) (reason : Option Nat) (write : Bool) (spaces : List Nat) (size : Nat)
    (k : State → BitVec 256 → Span → Out) : Out :=
  let c := s.cur.1
  let reason := if refReserved ref then some 1 else reason
  match reason with
  | some r => s.refFault r
  | none =>
    s.orFault (s.chkAccess c s.hbs (refBinding ref) (refOffset ref) size ⟨write, spaces, size, false⟩) fun h =>
      s.orFault (s.placeCore c h (refOffset ref) size write) fun (spans, s) =>
        if s.me.versionPending then s.waitFor .drain
        else k s h ⟨(spans.head?.map (·.key)).getD 0, size, spans.any (·.log)⟩

/-- An update of an object: held until retirement, then performed at its home; a release at .sys unless it is BARXB, which
alone of them is checked against the context's own watchpoints (R229, R338, R355). -/
def State.objectStore (s : State) (f : Form) (h : BitVec 256) (off : Nat) (p : Span) (op : HomeOp) (b : List Byte) (rel : Bool) :
    Out :=
  .next ((s.retire f id).releaseStore s.cur.1 s.cur.2 h off [⟨p.key, b.length, p.log⟩] b op none rel rel)

/-- RAINIT's operand words (R319, R335). -/
def rainitReason (base w3 : Word) : Option Nat :=
  if field base 48 16 ≠ 0 ∨ field w3 40 24 ≠ 0 then some 1
  else if field w3 0 24 % 64 ≠ 0 ∨ field w3 0 24 < 64 ∨ field w3 0 24 > 2 ^ 24 - 64 then some 2
  else none

/-- RAINIT (R335, R336). -/
def execRainit (a : BitVec 5) (m : BitVec 2) (b : BitVec 5) (n : BitVec 2) (s : State) : Out :=
  let f := Form.objPair a m b n
  issue (.rainit a m b n) f s fun s =>
    let base := s.me.rd b
    let w3 := s.me.rd (regPlus b 1)
    let ref := s.me.rd a
    s.refPlace ref (rainitReason base w3) true [spSync] 32 fun s h p =>
      s.objectStore f h (refOffset ref) p .rainit (leBytes 8 base.toNat ++ leBytes 8 w3.toNat) true

/-- A wait of the M siding on an object or word at its home, as an acquire at .sys: over once what it wants has come, else evaluated
now, after the older reads of its line; L2 keeps its line as the policy of its handle says (R214, R229, R280, R330, R339, R342). `done` is
the retirement, given the value the wait ends with. -/
def State.homeWait (s : State) (h : BitVec 256) (off key size : Nat) (done : State → Word → Out) (k : State → Out) : Out :=
  let c := s.cur.1
  let spans : List Span := [⟨key, size, false⟩]
  match s.me.held with
  | some v => done ((s.l2Leave h spans).acquire (key / 8) (quadOf c)) v
  | none =>
    if s.me.heldAt spans || s.ownStoreAt c s.cur.2 spans then s.waitFor .drain
    else
      match s.ownedLine spans with
      | some line => s.waitFor (.miss line)
      | none =>
        let s := (s.mergeSpans spans).l2Leave h spans
        if s.poisoned key size then s.fault Cause.extError (BitVec.ofNat 64 off) else k s

/-- RAWAIT (R320, R335). -/
def execRawait (d a : BitVec 5) (m : BitVec 2) (b : BitVec 5) (n : BitVec 2) (s : State) : Out :=
  let f := Form.f3 d a m b n
  issue (.rawait d a m b n) f s fun s =>
    let slot := lowHalf (s.me.rd b)
    let ref := s.me.rd a
    s.refPlace ref none false [spSync] 32 fun s h p =>
      let key := p.key
      let done (s : State) (v : Word) : Out := .next (s.retire f fun t => t.wr d v)
      s.homeWait h (refOffset ref) key 32 done fun s =>
        let ((w0, w1, w2, w3), s) := s.objWords key true
        if passed (lowHalf w0) slot then done (s.acquire (key / 8) (quadOf s.cur.1)) (ringValue w1 w2 w3 slot)
        else s.waitFor (.sync key (.slot slot))

/-- RAREL (R320, R335, R336). -/
def execRarel (a : BitVec 5) (m : BitVec 2) (s : State) : Out :=
  let f : Form := { srcs := [(a, m)], names := [.g a] }
  issue (.rarel a m) f s fun s =>
    let ref := s.me.rd a
    s.refPlace ref none true [spSync] 32 fun s h p => s.objectStore f h (refOffset ref) p .rarel (leBytes 8 0) true

/-- BARINIT (R321, R337). -/
def execBarinit (a : BitVec 5) (m : BitVec 2) (b : BitVec 5) (n : BitVec 2) (s : State) : Out :=
  let f := Form.objPair a m b n
  issue (.barinit a m b n) f s fun s =>
    let arr := s.me.rd b
    let bytes := s.me.rd (regPlus b 1)
    let ref := s.me.rd a
    let reason := if field arr 32 32 ≠ 0 ∨ field bytes 48 16 ≠ 0 then some 1 else none
    s.refPlace ref reason true [spSync] 32 fun s h p =>
      s.objectStore f h (refOffset ref) p .barinit (leBytes 8 arr.toNat ++ leBytes 8 bytes.toNat) true

/-- BARARR (R322, R337). -/
def execBararr (a : BitVec 5) (m : BitVec 2) (b : BitVec 5) (n : BitVec 2) (s : State) : Out :=
  let f := Form.objOne a m b n
  issue (.bararr a m b n) f s fun s =>
    let v := s.me.rd b
    let ref := s.me.rd a
    s.refPlace ref (if field v 32 32 ≠ 0 then some 1 else none) true [spSync] 32 fun s h p =>
      s.objectStore f h (refOffset ref) p (.bararr v.toNat) (leBytes 8 0) true

/-- BARXB (R322, R337, R338). -/
def execBarxb (a : BitVec 5) (m : BitVec 2) (b : BitVec 5) (n : BitVec 2) (s : State) : Out :=
  let f := Form.objOne a m b n
  issue (.barxb a m b n) f s fun s =>
    let v := s.me.rd b
    let ref := s.me.rd a
    s.refPlace ref (if field v 48 16 ≠ 0 then some 1 else none) true [spSync] 32 fun s h p =>
      s.orFault (s.me.chkWatch [⟨p.key, 32, false⟩]) fun _ =>
        s.objectStore f h (refOffset ref) p (.barxb v.toNat) (leBytes 8 0) false

/-- BARWAIT (R337, R339). -/
def execBarwait (a : BitVec 5) (m : BitVec 2) (b : BitVec 5) (n : BitVec 2) (s : State) : Out :=
  let f := Form.objOne a m b n
  issue (.barwait a m b n) f s fun s =>
    let phase := lowHalf (s.me.rd b)
    let ref := s.me.rd a
    s.refPlace ref none false [spSync] 32 fun s h p =>
      let key := p.key
      let done (s : State) (_ : Word) : Out := .next (s.retire f id)
      s.homeWait h (refOffset ref) key 32 done fun s =>
        let ((w0, _, _, _), s) := s.objWords key false
        if passed (lowHalf w0) phase then done (s.acquire (key / 8) (quadOf s.cur.1)) 0
        else s.waitFor (.sync key (.phase phase))

/-- SEQWAIT (R337, R339, R342): the word at its home, a GLOBAL line's dirty bytes merged first. -/
def execSeqwait (a : BitVec 5) (m : BitVec 2) (b : BitVec 5) (n : BitVec 2) (s : State) : Out :=
  let f := Form.objOne a m b n
  issue (.seqwait a m b n) f s fun s =>
    let v := s.me.rd b
    let ref := s.me.rd a
    s.refPlace ref none false [spGlobal, spSync] 8 fun s h p =>
      let key := p.key
      let done (s : State) (_ : Word) : Out := .next (s.retire f id)
      s.homeWait h (refOffset ref) key 8 done fun s =>
        let wild := hSpace h == spSync && ((s.syncObj key).map (·.wild)).getD false
        let (w, s) := if wild then s.free else (s.memWord key, s)
        if v.ule w then done (s.acquire (key / 8) (quadOf s.cur.1)) 0
        else s.waitFor (if hSpace h = spSync then .sync key (.atLeast v) else .word key v)

end Sys2Proof.Machine
end

