-- ==== Sys2Proof/Machine/Chains.lean ====
section
/-!
DEFINITION. Command chains (R323 to R325, R359, R403, R440), their entries (R143, R206, R324, R359 to R362, R409, R412, R420,
R435), the suspension of a core (R360), and the host's writes (R402 to R404).
-/

namespace Sys2Proof.Machine

/-! ### What a command processor reads and writes -/

/-- The quad number that stands for a reader outside every quad, in the drains of R220. -/
def outsider : Nat := 2048

/-- The I/O die of a chain (R403). -/
def ioOf (ch : Nat) : Nat := ch / 64

/-- A number of n bytes at a place of an entry. -/
def bytesNat (e : List Byte) (o n : Nat) : Nat := leNat ((e.drop o).take n)

/-- Bytes of spans as their homes hold them. -/
def State.homeBytes (s : State) (spans : List Span) : List Byte := spans.flatMap fun p => Memory.bytes s.mem p.key p.len

/-- Some byte of spans holds an uncorrectable error. -/
def State.badSpans (s : State) (spans : List Span) : Bool := spans.any fun p => s.poisoned p.key p.len

/-- An acquiring read at .sys of an 8-byte word at its home, by a command processor (R220, R229, R404). A word of an
unpredictable object reads unconstrained. -/
def State.acquireWord (s : State) (key : Nat) : Word × State :=
  let s := (s.acquire (key / 8) outsider).mergeHome (key / 64)
  if ((s.syncObj key).map (·.wild)).getD false then s.free else (s.memWord key, s)

/-- Some line of spans is owned by an engine: its home holds every request for it (R222). -/
def State.owned (s : State) (spans : List Span) : Bool :=
  (linePieces spans).any fun p => (s.owners.find (p.key / 64)).isSome

/-- A write by a command processor: performed at its homes, watched as kind 5 (R356). -/
def State.procWrite (s : State) (ch : Nat) (spans : List Span) (b : List Byte) : State :=
  (s.homeWrite spans b 0 5 (ioOf ch) none).plainWriteSync spans

/-- A word of a chain's header written; a release at .sys. -/
def State.headerWord (s : State) (ch o v : Nat) : State :=
  s.procWrite ch [⟨physKey 0 ((s.chain ch).hdr + o), 8, false⟩] (leBytes 8 v)

/-- The place of entry n (R324). -/
def Chain.entryKey (h : Chain) (n : Nat) : Nat := physKey 0 (h.base + 64 * (n % h.nent))

/-- The home of the line of a chain's header, or of that of entry n, holds what the command processor would do there, for an engine
(R222). -/
def State.headerOwned (s : State) (h : Chain) : Bool := s.owned [⟨physKey 0 h.hdr, 64, false⟩]
def State.entryOwned (s : State) (h : Chain) (n : Nat) : Bool := s.owned [⟨h.entryKey n, 64, false⟩]

/-- The bytes of an entry. -/
def State.chainEntry (s : State) (ch n : Nat) : List Byte := Memory.bytes s.mem ((s.chain ch).entryKey n) 64

/-- Bytes of an entry outside TYPE, STATUS and the ranges of its body are zero (R324). -/
def entryClean (e : List Byte) (body : List (Nat × Nat)) : Bool :=
  e.zipIdx.all fun (b, i) =>
    b == 0 || i == 0 || (decide (4 ≤ i) && decide (i < 8)) || body.any fun (o, n) => decide (o ≤ i ∧ i < o + n)

/-- The byte ranges of a body of n 8-byte fields. -/
def words (n : Nat) : List (Nat × Nat) := (List.range n).map fun i => (8 + 8 * i, 8)

/-- Codes of TYPE (R324, R359, R362, R409, R412, R420, R435). -/
def tyRoot : Nat := 1
def tyLaunch : Nat := 2
def tyCopy : Nat := 3
def tyWait : Nat := 4
def tySignal : Nat := 5
def tySuspend : Nat := 6
def tyResume : Nat := 7
def tyRemove : Nat := 8
def tyWindow : Nat := 9
def tyLogcfg : Nat := 0x0A
def tyFlush : Nat := 0x0B
def tyObscfg : Nat := 0x0C

/-! ### Registration, TAIL, breakpoints (R323, R325, R403, R440) -/

def Chain.enabled (h : Chain) : Bool := h.reg.getLsbD 64
def Chain.irq (h : Chain) : Bool := h.reg.getLsbD 65
def Chain.sysOk (h : Chain) : Bool := h.reg.getLsbD 66
/-- HDR, aligned to 64. -/
def Chain.header (h : Chain) : Nat := field h.reg 0 64 / 64 * 64

/-- CHAIN_REGISTRATION_WRITE: an enabled chain's header is read before its next entry; a disabled one stops after the entry
in progress (R403). -/
def execChainRegistrationWrite (chain : Nat) (value : BitVec 128) (s : State) : Out :=
  if chain ≥ 128 then .next s
  else
    let h := s.chain chain
    let reg := (value.setWidth 67).setWidth 128
    let on := reg.getLsbD 64
    let moved := field reg 0 64 ≠ field h.reg 0 64
    .next (s.setChain chain { h with reg := reg, reload := if on ∧ (h.enabled = false ∨ moved) then true else h.reload })

/-- The header of a chain is read (R323). -/
def State.readHeader (s : State) (ch : Nat) : State :=
  let h := s.chain ch
  let at_ (o : Nat) : Nat := Memory.nat s.mem (physKey 0 (h.header + o)) 8
  s.setChain ch { h with
    reload := false
    hdr := h.header
    base := at_ 0x00
    nent := at_ 0x08
    head := at_ 0x18
    seq := at_ 0x20
    root := at_ 0x28
    halted := at_ 0x30 % 2 == 1 }

/-- A chain halts by ERR: no further entry begins (R323). -/
def State.haltChain (s : State) (ch reason : Nat) : State :=
  (s.headerWord ch 0x30 (1 + reason * 256)).setChain ch { (s.chain ch) with halted := true }

/-- CODE of the descriptor that a LAUNCH or RESUME entry names; none when it cannot be read. -/
def State.entryCode (s : State) (ch : Nat) (e : List Byte) : Option Nat :=
  match s.placeVirtual (s.chain ch).root (bytesNat e 8 8) 128 false with
  | .ok spans => some (bytesNat (s.homeBytes spans) 8 8)
  | .error _ => none

/-- The lowest enabled breakpoint that an entry meets (R440). -/
def State.breakpointHit (s : State) (ch : Nat) (e : List Byte) : Option Nat :=
  let ty := bytesNat e 0 1
  (List.range 8).find? fun n =>
    let b := (s.breakpoints.find n).getD 0
    b.getLsbD 0 &&
    if b.getLsbD 1 then field b 2 7 == ch
    else (ty == tyLaunch || ty == tyResume) && ((s.entryCode ch e).map fun c => c % 2 ^ 48 == field b 16 48).getD false

/-- A breakpoint's test of the next entry reads a descriptor whose home holds the read for an engine (R222, R440). -/
def State.codeHeld (s : State) (ch : Nat) (e : List Byte) : Bool :=
  let ty := bytesNat e 0 1
  (ty == tyLaunch || ty == tyResume) && s.virtualHeld (s.chain ch).root (bytesNat e 8 8) 128 &&
    (List.range 8).any fun n => ((s.breakpoints.find n).getD 0).getLsbD 0

/-- The destination of a COPY: a range of the address space, or of a weight store (R206, R324). -/
inductive CopyTo where
  | virtual (va : Nat)
  | weight (die offset : Nat)
deriving DecidableEq, Repr

/-- The destination an entry names; none when malformed. -/
def copyDest (e : List Byte) : Option CopyTo :=
  let len := bytesNat e 24 8
  if bytesNat e 32 1 = 0 then if entryClean e (words 3) then some (.virtual (bytesNat e 8 8)) else none
  else
    let die := bytesNat e 33 1
    let o := bytesNat e 40 8
    if bytesNat e 32 1 = 1 ∧ entryClean e (words 3 ++ [(32, 2), (40, 8)]) ∧ die < 4 ∧ o + len ≤ 2 ^ 30 then some (.weight die o)
    else none

/-- The lines that a COPY takes ownership of: those of its destination that translate, none of a weight store that a launch uses (R206,
R222). -/
def State.copyClaims (s : State) (root : Nat) (e : List Byte) : List Span :=
  let len := bytesNat e 24 8
  if bytesNat e 0 1 ≠ tyCopy then []
  else
    match copyDest e with
    | some (.virtual va) => translatable s.mem root (pagesOf len) va len
    | some (.weight die o) => if s.dieInLaunch die then [] else [⟨weightKey die o, len, false⟩]
    | none => []

/-- The next entry begins: HEAD rises, and a COPY takes ownership of its destination (R222, R323, R325). -/
def State.beginEntry (s : State) (ch : Nat) : State :=
  let h := s.chain ch
  let s := (s.headerWord ch 0x18 (h.head + 1)).setChain ch
    { h with current := some h.head, head := h.head + 1, progress := 0, status := none, brkPassed := false }
  s.claimSpans (.chain ch h.head) (s.copyClaims h.root (s.chainEntry ch h.head))

/-- The read of TAIL and what follows: a halt by ERR, which an entry in progress outlives, a breakpoint's halt, the beginning of the
next entry, or nothing (log entry 61); nothing while an engine owns the header's line, or the next entry's (R222). -/
def State.pollTail (s : State) (ch : Nat) : State :=
  let busy := (s.chain ch).current.isSome || (s.chainHalt.find ch).isSome
  let again := (s.chain ch).reload && !busy
  if s.headerOwned (if again then { s.chain ch with hdr := (s.chain ch).header } else s.chain ch) then s
  else
  let s := if again then s.readHeader ch else s
  let h := s.chain ch
  if h.halted ∨ h.nent = 0 then s
  else
    let (tail, s) := s.acquireWord (physKey 0 (h.hdr + 0x10))
    let left := (tail - BitVec.ofNat 64 h.seq).toNat
    if left > h.nent then s.haltChain ch 1
    else if left = 0 ∨ busy ∨ s.entryOwned h h.head = true ∨ s.codeHeld ch (s.chainEntry ch h.head) = true then s
    else
      match if h.brkPassed then none else s.breakpointHit ch (s.chainEntry ch h.head) with
      | some n =>
        { s with chainHalt := s.chainHalt.put ch (BitVec.ofNat 64 (2 ^ 63 + n + h.head % 2 ^ 32 * 2 ^ 16)) }
      | none => s.beginEntry ch

/-- TAIL_POLL: also while an entry is in progress (R323, R325, R440). -/
def execTailPoll (chain : Nat) (s : State) : Out :=
  if (s.chain chain).enabled = false then .next s else .next (s.pollTail chain)

/-- BREAKPOINT_CLEAR: the halted entry begins without another test (R440). -/
def execBreakpointClear (chain : Nat) (s : State) : Out :=
  if (s.chainHalt.find chain).isNone ∨ s.headerOwned (s.chain chain) = true then .next s
  else
    let s := { s with chainHalt := s.chainHalt.del chain }
    if (s.chain chain).enabled then .next (s.beginEntry chain)
    else .next (s.setChain chain { (s.chain chain) with brkPassed := true })

/-- Word o of entry n of the MSI-X table. -/
def State.msixWord (s : State) (n o : Nat) : Word := (s.msixTable.find (0x10000 + 16 * n + 8 * o)).getD 0

/-- An MSI-X vector is signalled; where its entry is masked its pending bit is set (R402, R403; log entry 62). -/
def State.signalVector (s : State) (n : Nat) : State :=
  let s : State := { s with msix := s.msix ++ [n] }
  if (s.msixWord n 1).getLsbD 32 then { s with msixPending := s.msixPending ||| (1#128 <<< n) } else s

/-- CHAIN_ENTRY_COMPLETION: STATUS, then SEQ with a release at .sys, then the interrupt (R222, R325, R403). -/
def execChainEntryCompletion (chain : Nat) (s : State) : Out :=
  let h := s.chain chain
  match h.current, h.status with
  | some n, some st =>
    let s := s.releaseAll (.chain chain n)
    if s.entryOwned h n || s.headerOwned h then .next s
    else
    let s := s.procWrite chain [⟨h.entryKey n + 4, 4, false⟩] (leBytes 4 st)
    let s := s.headerWord chain 0x20 (h.seq + 1)
    let s := s.setChain chain { h with current := none, status := none, progress := 0, seq := h.seq + 1 }
    .next (if h.irq then s.signalVector chain else s)
  | _, _ => .next s

/-- An entry in progress of a TYPE, not yet completed: what it does with its bytes. -/
def State.inEntry (s : State) (ch ty : Nat) (k : Chain → List Byte → State) : Out :=
  let h := s.chain ch
  match h.current, h.status with
  | some n, none =>
    let e := s.chainEntry ch n
    .next (if bytesNat e 0 1 = ty then k h e else s)
  | _, _ => .next s

/-- The entry in progress has its STATUS and is about to complete. -/
def State.endEntry (s : State) (ch st : Nat) : State := s.setChain ch { (s.chain ch) with status := some st }

/-- The entry in progress has been carried out so far. -/
def State.progress (s : State) (ch n : Nat) : State := s.setChain ch { (s.chain ch) with progress := n }

/-- UNKNOWN_CHAIN_ENTRY_TYPE (R325). -/
def execUnknownChainEntryType (chain : Nat) (s : State) : Out :=
  let h := s.chain chain
  match h.current, h.status with
  | some n, none =>
    let ty := bytesNat (s.chainEntry chain n) 0 1
    if (ty = 0 ∨ ty > tyObscfg) ∧ s.headerOwned h = false then
      let s := (s.releaseAll (.chain chain n)).haltChain chain 2
      .next (s.setChain chain { (s.chain chain) with current := none, progress := 0 })
    else .next s
  | _, _ => .next s

/-! ### ROOT, WAIT, SIGNAL, WINDOW, LOGCFG, OBSCFG, FLUSH, COPY -/

/-- ROOT (R216, R324). -/
def execRoot (chain : Nat) (s : State) : Out :=
  s.inEntry chain tyRoot fun h e =>
    let root := bytesNat e 8 8
    if !entryClean e (words 1) ∨ root % 4096 ≠ 0 then s.endEntry chain 7
    else s.setChain chain { h with root := root, status := some 0 }

/-- A virtual address of an entry placed, or STATUS 8, which a read of an uncorrectable error gives too (R325). -/
def State.entryPlace (s : State) (ch va len : Nat) (write : Bool) (k : List Span → State) : State :=
  match s.placeVirtual (s.chain ch).root va len write with
  | .error _ => s.endEntry ch 8
  | .ok spans => if !write && s.badSpans spans then s.endEntry ch 8 else k spans


/-- WAIT (R324). -/
def execWait (chain : Nat) (s : State) : Out :=
  s.inEntry chain tyWait fun _ e =>
    let a := bytesNat e 8 8
    if !entryClean e (words 2) ∨ a % 8 ≠ 0 then s.endEntry chain 7
    else
      s.entryPlace chain a 8 false fun spans =>
        if s.owned spans then s
        else
          let (v, t) := s.acquireWord ((spans.head?.map (·.key)).getD 0)
          if v.toNat ≥ bytesNat e 16 8 then t.endEntry chain 0 else s

/-- SIGNAL (R324). -/
def execSignal (chain : Nat) (s : State) : Out :=
  s.inEntry chain tySignal fun _ e =>
    let a := bytesNat e 8 8
    if !entryClean e (words 2) ∨ a % 8 ≠ 0 then s.endEntry chain 7
    else
      s.entryPlace chain a 8 true fun spans =>
        if s.owned spans then s else (s.procWrite chain spans ((e.drop 16).take 8)).endEntry chain 0

/-- WINDOW (R420). -/
def execWindow (chain : Nat) (s : State) : Out :=
  s.inEntry chain tyWindow fun _ e =>
    let id := bytesNat e 8 8
    let base := bytesNat e 16 8
    if !entryClean e (words 3) ∨ id ≥ 2 ^ 16 ∨ base % 2 ^ 16 ≠ 0 then s.endEntry chain 7
    else
      match s.launch id with
      | none => s.endEntry chain 7
      | some l =>
        (s.setLaunch id { l with window := some (BitVec.ofNat 64 base, bytesNat e 24 8) }).endEntry chain 0

/-- An engine owns the line of the log's control words, or of the place of its next entry (R222, R411). -/
def State.logOwned (s : State) : Bool :=
  match s.log with
  | none => false
  | some g =>
    let place := physKey 0 (g.base + 16 * ((s.memWord g.control).toNat % 2 ^ 63 % g.count))
    s.owned [⟨g.control, 16, false⟩] || s.owned [⟨place, 16, false⟩]

/-- n is a power of two. -/
def isPow2 (n : Nat) : Bool := n != 0 && 2 ^ Nat.log2 n == n

/-- LOGCFG: entries still open go to the ring that was, once no engine owns a line of either control word (R222, R409, R410). A physical
address beyond main memory stands as it is (R2; DESIGN CHOICE, log entry 66). -/
def execLogcfg (chain : Nat) (s : State) : Out :=
  s.inEntry chain tyLogcfg fun _ e =>
    let ring := bytesNat e 8 8
    let count := bytesNat e 16 8
    if !entryClean e (words 3) ∨ ring % 4096 ≠ 0 ∨ isPow2 count = false ∨ count < 256 ∨ count > 1048576 then s.endEntry chain 7
    else
      let open_ : List Nat := match s.log with
        | some g => g.closed.map (·.1) ++ g.openEntries.map (·.1)
        | none => []
      let control := physKey 0 (bytesNat e 24 8)
      if s.owned [⟨control, 16, false⟩] || s.logOwned then s
      else
      let s := open_.foldl (fun s n => s.flushLog n) s
      let s := s.procWrite chain [⟨control, 16, false⟩] (List.replicate 16 0)
      ({ s with log := some ⟨ring, count, control, [], []⟩ } : State).endEntry chain 0

/-- OBSCFG: a later one replaces the earlier at its next sampling boundary; the first counts the ports from now on (R435, R437). A
physical address beyond main memory stands as it is (R2; DESIGN CHOICE, log entry 66). -/
def execObscfg (chain : Nat) (s : State) : Out :=
  s.inEntry chain tyObscfg fun _ e =>
    let ring := bytesNat e 8 8
    let interval := bytesNat e 16 8
    let frames := bytesNat e 24 8
    let copy := bytesNat e 32 8
    if !entryClean e (words 4) ∨ ring % 4096 ≠ 0 ∨ copy % 4096 ≠ 0 then s.endEntry chain 7
    else if (interval ≠ 0 ∧ interval < 125) ∨ interval > 65535 ∨ frames < 1 ∨ frames > 256 then s.endEntry chain 5
    else
      let o : Observe := ⟨ring, interval, frames, copy, 0, s.mesh, 0⟩
      let sampling := (s.obs.map fun p => p.interval != 0).getD false
      ((if sampling then { s with obsNext := some o } else { s with obs := some o, obsNext := none, ports := [] }) : State).endEntry
        chain 0

/-- Bytes that a target holds; host memory counts as unlimited (R407). -/
def targetCapacity (target : Nat) : Nat :=
  if target = 0 then mainCapacity else if target = 1 then secondCapacity else 2 ^ 52

/-- FLUSH: dirty bytes of the quad caches merge by step 1 of R222, then dirty L2 copies go to their target; while an engine owns a
line of the range its home holds the recall (R222, R412). -/
def execFlush (chain : Nat) (s : State) : Out :=
  s.inEntry chain tyFlush fun _ e =>
    let pa := bytesNat e 8 8
    let len := bytesNat e 16 8
    let target := bytesNat e 24 8
    if !entryClean e (words 3) ∨ pa % 64 ≠ 0 ∨ len % 64 ≠ 0 ∨ target ≥ 3 then s.endEntry chain 7
    else if pa + len > targetCapacity target then s.endEntry chain 8
    else
      let first := physKey target pa / 64
      let inside (line : Nat) : Bool := decide (first ≤ line ∧ line < first + len / 64)
      let lines := (s.quads.flatMap fun (_, q) => (q.cache.filter fun (l, _) => inside l).map (·.1)).eraseDups
      if s.owners.any fun (l, _) => inside l then s
      else
      let s := lines.foldl (fun s l => s.mergeHome l) s
      let bad := s.l2dirty.any fun l => inside l && s.poisoned (l * 64) 64
      ({ s with l2dirty := s.l2dirty.filter fun l => !inside l } : State).endEntry chain (if bad then 8 else 0)

/-- Cycles that a chain's command processor may have stalled before a part of a COPY (R327). -/
def State.ioStall (s : State) (ch : Nat) (weight : Bool) : State :=
  let (n, s) := s.pick (2 ^ 48)
  let l := (s.ioStalls.find (ioOf ch)).getD (Vector.replicate 6 0)
  let causes := [stallSrc, stallXlate] ++ (if weight then [stallRefresh] else []) ++ [stallCredit]
  { s with ioStalls := s.ioStalls.put (ioOf ch) (addStall causes l n) }

/-- A COPY ends: its claims end, its STATUS is set (R222). -/
def State.endCopy (s : State) (ch n st : Nat) : State := (s.releaseAll (.chain ch n)).endEntry ch st

/-- The sources of a COPY into a weight store, part by part, up to the first that cannot be read; and whether all can. -/
def State.weightSources (s : State) (root va : Nat) : Nat → Nat → List (List Span) × Bool
  | 0, _ => ([], true)
  | k + 1, len =>
    if len = 0 then ([], true)
    else
      let n := min 4096 len
      match s.placeVirtual root va n false with
      | .error _ => ([], false)
      | .ok spans =>
        if s.badSpans spans then ([], false)
        else
          let (l, all) := s.weightSources root (va + n) k (len - n)
          (spans :: l, all)

/-- A COPY into a weight store, made whole while no launch uses its die: the test of R206 precedes every byte; it waits for the window
of the bank it reaches first, and for every line that another command owns (R206, R207, R222, R325; log entries 63, 65). -/
def State.copyWeight (s : State) (ch n va len die o : Nat) : State :=
  if s.dieInLaunch die then s.endCopy ch n 2
  else
    let cl := Claim.chain ch n
    let dest : List Span := [⟨weightKey die o, len, false⟩]
    let (parts, all) := s.weightSources (s.chain ch).root va (len / 4096 + 1) len
    if parts.any (s.heldSpans cl) || s.heldSpans cl dest || s.refreshAt dest then s
    else
      let s := (s.recallSpans dest).putMem (weightKey die o) (parts.flatMap s.homeBytes)
      (s.ioStall ch true).endCopy ch n (if all then 0 else 8)

/-- The next part of a COPY in the address space, of up to 4 KiB: it waits for lines that another command owns, and gives up those of its
own that it has written (R222, R324, R325). -/
def State.copyPart (s : State) (ch : Nat) (h : Chain) (n src va len : Nat) : State :=
  let cl := Claim.chain ch n
  let k := min 4096 (len - h.progress)
  if k = 0 then s.endCopy ch n 0
  else
    match s.placeVirtual h.root (src + h.progress) k false, s.placeVirtual h.root (va + h.progress) k true with
    | .ok src, .ok dest =>
      if s.heldSpans cl src then s
      else if s.badSpans src then s.endCopy ch n 8
      else if s.heldSpans cl dest then s
      else
        let s := (s.procWrite ch dest (s.homeBytes src)).ioStall ch false
        (s.releaseSpans cl dest (decide (h.progress + k < len))).progress ch (h.progress + k)
    | _, _ => s.endCopy ch n 8

/-- COPY. -/
def execCopy (chain : Nat) (s : State) : Out :=
  s.inEntry chain tyCopy fun h e =>
    let src := bytesNat e 16 8
    let len := bytesNat e 24 8
    let n := h.current.getD 0
    match copyDest e with
    | none => s.endCopy chain n 7
    | some (.weight die o) => s.copyWeight chain n src len die o
    | some (.virtual va) => s.copyPart chain h n src va len

/-! ### LAUNCH and RESUME (R140, R142, R143, R325, R361) -/

/-- The written bytes of spans: offset and value, rising. -/
def sparse (m : List Host.Cell) : List Span → Nat → List (Nat × Byte)
  | [], _ => []
  | p :: l, o =>
    ((m.filter fun c => decide (p.key ≤ c.1 ∧ c.1 < p.key + p.len)).map fun c => (o + (c.1 - p.key), c.2)) ++
      sparse m l (o + p.len)

/-- Entry n of a table of entries of `size` bytes. -/
def tableEntry (cells : List (Nat × Byte)) (size n : Nat) : Nat :=
  (cells.filter fun c => c.1 / size == n).foldl (fun a c => a + c.2.toNat * 2 ^ (8 * (c.1 % size))) 0

/-- The entries of a table that are not all zero. -/
def tableOf (w : Nat) (cells : List (Nat × Byte)) (size : Nat) : NatMap (BitVec w) :=
  ((cells.map fun c => c.1 / size).eraseDups).map fun n => (n, BitVec.ofNat w (tableEntry cells size n))

/-- The members of the groups that have any, ascending (R140). -/
def groupsOf (cells : List (Nat × Byte)) : NatMap (List Nat) :=
  ((cells.map fun c => c.1 / 1024).eraseDups).map fun n =>
    (n, (cells.filter fun c => c.1 / 1024 == n).flatMap fun c =>
      ((List.range 8).filter fun i => c.2.getLsbD i).map fun i => c.1 % 1024 * 8 + i)

/-- The group table keeps R140. -/
def groupsLegal (g : NatMap (List Nat)) : Bool :=
  let all := (g.find 0).getD []
  !all.isEmpty && (g.all fun (_, l) => l.all all.contains) &&
    all.all fun c => decide ((g.filter fun (_, l) => l.contains c).length ≤ 4)

/-- GRPMASK of a core (R141). -/
def grpMaskOf (g : NatMap (List Nat)) (c : Nat) : Word :=
  let mine := (g.filter fun (_, l) => l.contains c).map (·.1)
  BitVec.ofNat 64 ((mine.zipIdx.map fun (n, i) => (n + 2 ^ 15) * 2 ^ (16 * i)).sum)

/-- The fields of a descriptor are as R142, R359, R372 and R380 give them. -/
def descriptorClean (d : List Byte) : Bool :=
  let len := bytesNat d 0x10 8
  let start := bytesNat d 0x40 8
  decide (bytesNat d 0 8 < 2 ^ 16) && len % 2 == 0 && decide (2 ≤ len ∧ len ≤ 65536) &&
    start / 2 ^ 11 % 2 ^ 5 == 0 && decide (start < 2 ^ 18) && bytesNat d 0x54 4 == 0 && bytesNat d 0x64 4 == 0 &&
    bytesNat d 0x68 8 % 8 == 0 && bytesNat d 0x70 16 == 0

/-- What the tests of a LAUNCH entry come to: its STATUS, or the launch, its code image, and the descriptor (R325). -/
structure Loaded where
  id : Nat
  launch : Launch
  image : List (Nat × Byte)
  resident : Bool

/-- A range that a LAUNCH reads by its address: none while its home holds the read for an engine, or STATUS 8 (R222, R325). -/
def State.readSpans (s : State) (root va len : Nat) : Except (Option Nat) (List Span) :=
  match s.placeVirtual root va len false with
  | .error _ => .error (some 8)
  | .ok spans => if s.owned spans then .error none else if s.badSpans spans then .error (some 8) else .ok spans

/-- A table of a launch. -/
def State.readTable (s : State) (root va len : Nat) : Except (Option Nat) (List (Nat × Byte)) := do
  let spans ← s.readSpans root va len
  return sparse s.mem spans 0

/-- The tests of R325 in their order; a handle table or an image that cannot be read ends in 8 after them. None where a read of it is
held for an engine. -/
def State.loadLaunch (s : State) (ch : Nat) (e : List Byte) : Except (Option Nat) Loaded := do
  let h := s.chain ch
  let root := h.root
  let spans ← s.readSpans root (bytesNat e 8 8) 128
  let d := s.homeBytes spans
  if !entryClean e (words 1) ∨ !descriptorClean d then throw (some 7)
  let handlers ← s.readTable root (bytesNat d 0x18 8) 0x4000
  let handlers := tableOf 512 handlers 64
  if h.sysOk = false ∧ handlers.any fun (_, x) => x.getLsbD 0 && x.getLsbD 58 then throw (some 6)
  let groups ← s.readTable root (bytesNat d 0x28 8) 0x40000
  let groups := groupsOf groups
  if !groupsLegal groups then throw (some 1)
  let handles ← s.readTable root (bytesNat d 0x20 8) 0x20000
  let start := bytesNat d 0x40 8
  let resident := start / 2 ^ 16 % 2 == 1
  let len := bytesNat d 0x10 8
  let image ← if resident then pure [] else s.readTable root (bytesNat d 8 8) len
  let launch : Launch := {
    state := .running
    chain := ch
    root := root
    code := BitVec.ofNat 64 (bytesNat d 8 8)
    codeLen := len
    qspill := BitVec.ofNat 64 (bytesNat d 0x30 8)
    dspill := BitVec.ofNat 64 (bytesNat d 0x38 8)
    save := BitVec.ofNat 64 (bytesNat d 0x58 8)
    startWord := BitVec.ofNat 64 start
    args := Vector.ofFn fun i => BitVec.ofNat 32 (bytesNat d (0x48 + 4 * i.val) 4)
    quota := bytesNat d 0x60 4
    ckpt := bytesNat d 0x68 8
    doldOff := start / 2 ^ 17 % 2 == 1
    handlers := handlers
    handles := tableOf 256 handles 32
    groups := groups
    recs := []
    window := none
    toStart := (groups.find 0).getD []
    resuming := false
    flood := []
    swept := false
    removedBy := none
    saved := [] }
  return { id := bytesNat d 0 8, launch := launch, image := image, resident := resident }

/-- An instruction store filled: the image, then zeros to 64 KiB (R143). -/
def State.loadCode (s : State) (c : Nat) (image : List (Nat × Byte)) : State :=
  let m := s.mem.filter fun x => !decide (istoreKey c 0 ≤ x.1 ∧ x.1 < istoreKey c 0 + 65536)
  { s with mem := image.foldl (fun m x => Memory.set m (istoreKey c x.1) x.2) m }

/-- A context as step 3 of R143 leaves it, with its energy quota (R125, R143, R149, R278, R361, R372). Registers that no
rule names keep their values. -/
def Ctx.forLaunch (t : Ctx) (quota : Nat) : Ctx :=
  { t with
    cstate := .dormant
    v := Vector.replicate 16 0
    trapVec := 0
    enquota := if quota = 0 then 0x7FFFFFFFFFFFFFFF else BitVec.ofNat 64 quota
    barred := false
    srgen := 1
    promo := 16
    scopeGrp := 0
    watch := Vector.replicate 4 0
    stepCtl := 0
    fills := []
    rep := none
    wait := none
    held := none
    desc := none
    napping := none
    token := none
    async := Async.empty
    slotWait := false
    late := none
    fading := []
    filled := []
    parked := none
    sleep := none
    send := []
    drain := []
    task := none
    reservation := none
    window := none
    errSticky := false
    tlbi := [] }

/-- A core as step 3 of R143 leaves it. -/
def Core.forLaunch (k : Core) (n : Nat) (mask : Word) (quota : Nat) : Core :=
  { k with
    ctxs := mapVec (fun t => t.forLaunch quota) k.ctxs
    pipe := none
    slice := 0
    lastCtx := 7
    l1 := []
    tlb := []
    grpMask := mask
    launch := some n
    started := false
    queues := Vector.replicate 8 Queue.empty
    hold := 0
    dispatches := 0
    lastQueue := 7
    deque := Deque.empty
    created := 0
    steal := .idle
    stealPtr := 0
    stealMiss := 0
    stolen := none
    fifo := []
    fifoAccepted := 0
    fifoDone := 0
    xredAccepted := 0
    preempt := false
    seen := false
    released := false
    parityRefetches := 0
    lostHits := 0 }

/-- A quad as step 3 leaves it: round-robin choices afresh, no lease, no tile owned, the pattern table zero, the copy
engine's counters cleared (R44, R143, R152, R158, R327). -/
def Quad.forLaunch (q : Quad) : Quad :=
  { q with
    array := { q.array with
      lease := none
      lastHolder := 3
      requests := []
      table := []
      tiles := mapVec (fun t => { t with owner := none }) q.array.tiles }
    lastLane := 3
    copyLast := 3
    stalls := Vector.replicate 6 0 }

/-- Requests for future versions that contexts of cores left waiting at homes are discarded. -/
def State.dropWaiting (s : State) (cores : List Nat) : State :=
  { s with vwords := s.vwords.mapVals fun _ w => { w with waiting := w.waiting.filter fun r => !cores.contains r.1 } }

/-- Steps 1 to 3 of R143. -/
def State.loadSteps (s : State) (ch : Nat) (x : Loaded) : State :=
  let l := x.launch
  let cores := l.group 0
  let s := s.dropWaiting cores
  let s := if x.resident then s else cores.foldl (fun s c => s.loadCode c x.image) s
  let s := cores.foldl (fun s c => s.updCore c fun k => k.forLaunch x.id (grpMaskOf l.groups c) l.quota) s
  let s := ((cores.map quadOf).eraseDups).foldl (fun s q => s.updQuad q Quad.forLaunch) s
  let dies := (cores.map dieOf).eraseDups
  let gathers := s.gathers.mapVals fun e g =>
    { g with
      accepted := g.accepted.filter fun (k, _) => k / 4 != x.id
      stalls := if dies.contains (e / 32) then Vector.replicate 6 0 else g.stalls }
  { s with
    gathers := gathers
    collStalls := s.collStalls.filter fun (e, _) => !dies.contains (e / 4)
    ioStalls := s.ioStalls.del (ioOf ch) }

/-- Some core of a launch belongs to one that is here, or the launch's id is taken: the entry is delayed (R143). -/
def State.delayed (s : State) (cores : List Nat) : Bool := cores.any fun c => (s.core c).launch.isSome

/-- LAUNCH: steps 1 to 4 of R143; the entry completes with the launch. -/
def execLaunch (chain : Nat) (s : State) : Out :=
  s.inEntry chain tyLaunch fun h e =>
    if h.progress ≠ 0 then s
    else
      match s.loadLaunch chain e with
      | .error none => s
      | .error (some st) => s.endEntry chain st
      | .ok x =>
        if (s.launch x.id).isSome ∨ s.delayed (x.launch.group 0) then s
        else ((s.loadSteps chain x).setLaunch x.id x.launch).progress chain 1

/-! ### Suspension (R359 to R361) -/

/-- Place of a core's state in a save area. -/
def saveAddr (l : Launch) (c : Nat) : Nat := l.save.toNat + 0xA000 * (c % 2 ^ 13)

/-- Some line of the cores' save areas is an engine's, whose home holds what a resumption reads there (R222, R361). -/
def State.saveHeld (s : State) (l : Launch) (cores : List Nat) : Bool := cores.any fun c => s.virtualHeld l.root (saveAddr l c) 0x9008

/-- SUSPEND: the flag is set in every core; a core with no task sees it at once. The entry completes when every core has
released and no packet is left (R360). -/
def execSuspend (chain : Nat) (s : State) : Out :=
  s.inEntry chain tySuspend fun h e =>
    let id := bytesNat e 8 8
    if !entryClean e (words 1) ∨ id ≥ 2 ^ 16 then s.endEntry chain 7
    else
      match s.launch id with
      | none => s.endEntry chain 3
      | some l =>
        if h.progress = 0 then
          if l.state ≠ .running ∨ l.save = 0 then s.endEntry chain 3
          else
            let s := (l.group 0).foldl (fun s c => s.updCore c fun k =>
              let busy := (List.finRange 8).any fun x => (k.ctx x).cstate == .running || (k.ctx x).cstate == .draining
              { k with preempt := true, seen := !busy }) s
            (s.setLaunch id { l with state := .suspending }).progress chain 1
        else if l.state ≠ .suspending then s.endEntry chain 3
        else if (l.group 0).all (fun c => (s.core c).released) ∧ !s.packets id l then
          let cores := s.coresOf id l
          let s := (s.endLeases cores).freeCores cores
          ((s.unmarkLaunch id).setLaunch id { l with state := .suspended }).endEntry chain 0
        else s

/-- Bytes of a core's hardware queue entries, each at its entry's place, and deque, and its last word, with their offsets in the save
area (R127, R360). -/
def State.saveImage (s : State) (c : Nat) : List (Nat × List Byte) :=
  let k := s.core c
  let queue (q : Fin 8) : List (Nat × List Byte) := k.queues[q].hw.map fun m =>
    (256 * (16 * q.val + m.entry), queueEntryBytes { m.task with childPc := 0 } (Memory.bytes s.mem (inboxKey c q.val m.entry) 128))
  let counts := (List.finRange 8).map fun q => k.queues[q].hw.length * 2 ^ (15 + 5 * q.val)
  let last := k.hold.toNat + k.deque.hw.length * 2 ^ 8 + counts.sum
  (List.finRange 8).flatMap queue ++ k.deque.hw.zipIdx.map (fun (r, i) => (0x8000 + 64 * i, dequeEntryBytes r)) ++
    [(0x9000, leBytes 8 last)]

/-- Pieces written to a launch's address space; none when one does not translate. -/
def State.writePieces (s : State) (n : Nat) (l : Launch) (base : Nat) : List (Nat × List Byte) → Option State
  | [] => some s
  | (o, b) :: rest =>
    match s.writeVirtual n l (base + o) b with
    | some s => s.writePieces n l base rest
    | none => none

/-- A stolen record that no dispatch will take goes to the core's own deque, its current back to the cluster (R138). -/
def State.keepStolen (s : State) (c : Nat) : State :=
  match (s.core c).stolen with
  | none => s
  | some r => ((s.returnRecord c r.record r.taskId false).updCore c fun k => { k with stolen := none }).pushBottom c r

/-- A core may save its state: it has seen the flag, its start message has come, its contexts are DORMANT and nothing of it
is on its way (R360). -/
def State.maySave (s : State) (c : Nat) (l : Launch) : Bool :=
  let k := s.core c
  l.state == .suspending && k.preempt && k.seen && !k.released && !l.toStart.contains c && k.stores.isEmpty &&
    k.fifo.isEmpty && (match k.steal with
      | .probing _ => false
      | _ => true) &&
    (List.finRange 8).all fun x => (k.ctx x).cstate == .dormant

/-- The suspension's release: where group 0 reaches beyond the core's quad, the quad and the objects it holds dirty (R221, R244,
R360). -/
def State.suspendRelease (s : State) (c : Nat) (l : Launch) : Released :=
  let q := quadOf c
  if (l.group 0).all fun k => quadOf k == q then none else some (q, (s.quad q).dirtyObjs)

/-- CORE_SUSPEND: the release of suspension, the save, the release of the core (R360). -/
def execCoreSuspend (core : Nat) (s : State) : Out :=
  match s.launchOf core with
  | none => .next s
  | some (n, l) =>
    if !s.maySave core l || ((s.core core).stolen.isSome && s.dequeHeld core) then .next s
    else
      let s := s.keepStolen core
      match s.writePieces n l (saveAddr l core) (s.saveImage core) with
      | none => .next s
      | some s =>
        let k := s.core core
        let keep : SavedCore :=
          ⟨k.queues.toList, k.deque, k.created, k.fifoAccepted, k.fifoDone, k.xredAccepted, s.suspendRelease core l⟩
        .next ((s.setCore core { k with released := true }).setLaunch n { l with saved := l.saved.put core keep })

/-- The entry of the queue's i-th message. -/
def Queue.entryOf (u : Queue) (i : Nat) : Nat := (u.hw[i]?.map (·.entry)).getD i

/-- The first n messages of one queue read back from a save area into their former entries, in their former order (R361). -/
def State.restoreQueue (s : State) (l : Launch) (c : Nat) (q : Fin 8) (u : Queue) (n : Nat) :
    Option (Queue × List (List Byte)) :=
  let read (i : Nat) : Option (QEntry × List Byte) :=
    (s.readVirtual l (saveAddr l c + 256 * (16 * q.val + u.entryOf i)) 256).map fun b =>
      let (t, payload) := queueEntryOf b ((u.hw[i]?).bind (·.task.rel))
      (⟨u.entryOf i, t, false⟩, payload)
  let l := (List.range n).map read
  if l.all Option.isSome then
    let l := l.filterMap id
    some ({ u with hw := l.map (·.1) }, l.map (·.2))
  else none

/-- What a save area holds for a core: queues with their payloads, deque records, hold mask; none when it cannot be read. -/
def State.restoreCore (s : State) (l : Launch) (c : Nat) (k : SavedCore) :
    Option (List (Queue × List (List Byte)) × List DequeRec × BitVec 8) :=
  match s.readVirtual l (saveAddr l c + 0x9000) 8 with
  | none => none
  | some b =>
    let w : Word := BitVec.ofNat 64 (leNat b)
    let queues := k.queues.zipIdx.map fun (u, i) => s.restoreQueue l c (Fin.ofNat 8 i) u (min 16 (field w (15 + 5 * i) 5))
    let deque := (List.range (min 64 (field w 8 7))).map fun i =>
      (s.readVirtual l (saveAddr l c + 0x8000 + 64 * i) 64).map fun b => dequeEntryOf b ((k.deque.hw[i]?).bind (·.rel))
    if queues.all Option.isSome ∧ deque.all Option.isSome then
      some (queues.filterMap id, deque.filterMap id, BitVec.ofNat 8 (leNat (b.take 1)))
    else none

/-- A core's queues, deque, hold mask and counts restored (R361). -/
def State.putBack (s : State) (c : Nat) (k : SavedCore) (x : List (Queue × List (List Byte)) × List DequeRec × BitVec 8) :
    State :=
  let (queues, deque, hold) := x
  let s := queues.zipIdx.foldl (fun s (u, q) =>
    (u.1.hw.zip u.2).foldl (fun (s : State) (m, b) => s.putMem (inboxKey c q m.entry) b) s) s
  s.updCore c fun j => { j with
    queues := Vector.ofFn fun q => (queues[q.val]?.map (·.1)).getD Queue.empty
    deque := { k.deque with hw := deque }
    hold := hold
    created := k.created
    fifoAccepted := k.fifoAccepted
    fifoDone := k.fifoDone
    xredAccepted := k.xredAccepted }

/-- The objects of a launch are unbound, and its tags discarded (R256, R263). -/
def State.forgetTradewind (s : State) (n : Nat) : State :=
  { s with
    objects := s.objects.mapVals fun _ o => if o.launch = n then { o with boundTo := none } else o
    tags := s.tags.filter fun (_, g) => g.launch != n }

/-- RESUME: the tests of a LAUNCH on the launch's own descriptor, then steps 1 to 3 of R143 with the saved state, every recording
EMPTY, and resume messages to every core (R256, R361). -/
def execResume (chain : Nat) (s : State) : Out :=
  s.inEntry chain tyResume fun _ e =>
    match s.loadLaunch chain e with
    | .error none => s
    | .error (some st) => s.endEntry chain st
    | .ok x =>
      match s.launch x.id with
      | none => s.endEntry chain 3
      | some old =>
        let cores := old.group 0
        if old.state ≠ .suspended then s.endEntry chain 3
        else if x.launch.group 0 ≠ cores then s.endEntry chain 1
        else if s.delayed cores ∨ s.saveHeld x.launch cores then s
        else
          let l := { x.launch with
            chain := old.chain
            recs := old.recs.mapVals fun _ r => r.emptied
            window := old.window
            resuming := true
            saved := old.saved }
          let saved := cores.map fun c => (c, old.saved.find c)
          let back := saved.map fun (c, k) => (c, k, k.bind fun k => s.restoreCore l c k)
          if back.all fun (_, _, r) => r.isSome then
            let gathers := s.gathers
            let s := ((s.loadSteps chain { x with launch := l }).setLaunch x.id l).forgetTradewind x.id
            let s : State := { s with gathers := s.gathers.mapVals fun i g =>
              { g with accepted := ((gathers.find i).map (·.accepted)).getD [] } }
            let s := back.foldl (fun (s : State) (c, k, r) =>
              match k, r with
              | some k, some r => s.putBack c k r
              | _, _ => s) s
            s.endEntry chain 0
          else s.endEntry chain 8

/-- RESUME_MESSAGE: the core's fetch fence and its acquire of resumption, which every suspension's release reaches; it may dispatch
again (R244, R361). -/
def execResumeMessage (core : Nat) (s : State) : Out :=
  match s.launchOf core with
  | none => .next s
  | some (n, l) =>
    if l.resuming = false ∨ !l.toStart.contains core then .next s
    else
      let left := l.toStart.filter (· != core)
      let s := s.setLaunch n { l with toStart := left, resuming := !left.isEmpty }
      let s := (l.saved.foldl (fun (s : State) (_, k) =>
        match k.rel with
        | some (q, objs) => if q = quadOf core then s else s.drainQuad q (some objs)
        | none => s) s).acknowledged
      .next (s.updCore core fun k => { k.l1Clear with started := true, stale := [] })

/-! ### Removal (R362, R363) -/

/-- REMOVE: completes at the confirmation of the removal it starts. -/
def execRemove (chain : Nat) (s : State) : Out :=
  s.inEntry chain tyRemove fun h e =>
    let id := bytesNat e 8 8
    if !entryClean e (words 1) ∨ id ≥ 2 ^ 16 then s.endEntry chain 7
    else if h.progress ≠ 0 then s
    else
      match s.launch id with
      | none => s.endEntry chain 3
      | some l =>
        if l.state = .removing then s.endEntry chain 3
        else
          let s := s.startRemoval id
          let s := match s.launch id with
            | some l => s.setLaunch id { l with removedBy := some chain }
            | none => s
          s.progress chain 1

/-- Entries of a REPN pair, tiles, commands of a core's contexts in a quad's array discarded. -/
def Quad.dropCore (q : Quad) (i : Fin 4) : Quad :=
  { q with
    lanes := q.lanes.set i []
    array := { q.array with
      lease := if q.array.lease = some i then none else q.array.lease
      requests := q.array.requests.filter (· != i)
      tiles := mapVec (fun t => if (t.owner.map (·.1)) = some i then { t with owner := none } else t) q.array.tiles
      queue := q.array.queue.filter fun k => k.core != i } }

/-- A context as the kill flood leaves it: annulled, DORMANT, KILLED recorded (R31, R345, R362). -/
def Ctx.kill (t : Ctx) : Ctx :=
  { t.annul with
    cstate := .dormant
    trapCause := 0x313
    trapPc := t.faultPc
    trapInfo := 0
    trapMsg := t.trapMsgValue
    fills := []
    slotWait := false
    late := none
    fading := []
    filled := []
    parked := none
    sleep := none
    async := Async.empty
    send := []
    drain := []
    task := none
    reservation := none
    window := none
    tlbi := [] }

/-- A core as the kill flood leaves it. -/
def Core.kill (k : Core) : Core :=
  { k with
    ctxs := mapVec Ctx.kill k.ctxs
    stores := k.stores.map fun r => { r with after := [] }
    pipe := none
    slice := 0
    started := false
    queues := Vector.replicate 8 Queue.empty
    deque := Deque.empty
    steal := .idle
    stolen := none }

/-- The currents of a core's tasks go back to the cluster, and the marks of its launch there are lost (R370, R371). -/
def State.returnAll (s : State) (launch c : Nat) : State :=
  let s := (List.finRange 8).foldl (fun s x => s.returnCurrent c (s.ctx c x).task false) s
  let s := match (s.core c).stolen with
    | some r => s.returnRecord c r.record r.taskId false
    | none => s
  s.setCluster (clusterOf c) ((s.cluster (clusterOf c)).unmarkLaunch launch)

/-- Copy commands of a killed core: one that has not begun is discarded; one that has begun has ended its chunk and stops
(R363). -/
def State.dropCommands (s : State) (n c : Nat) : State :=
  let s := (s.core c).fifo.foldl (fun s k => s.releaseAll (.copy c k.count)) s
  let s := s.updCore c fun k => { k with fifo := [] }
  s.gathers.foldl (fun (s : State) (e, _) => (List.finRange 4).foldl (fun (s : State) i =>
    let g := s.gather e
    let mine (k : GatherCmd) : Bool := k.core == c && k.launch == n
    let s := (g.streams[i].filter mine).foldl (fun s k => s.releaseAll (.gather (e / 32) (e % 32) i.val k.count)) s
    s.setGather e { g with streams := g.streams.set i (g.streams[i].filter fun k => !mine k) }) s) s

/-- Reductions and collectives of a killed core are discarded with their claims. -/
def State.dropRemote (s : State) (n c : Nat) : State :=
  let s := (s.reductions.filter fun r => r.core == c && r.launch == n).foldl (fun s r => s.releaseAll (.xred c (r.id % 2 ^ 48))) s
  let s := (s.collectives.filter fun r => r.core == c && r.launch == n).foldl
    (fun s r => s.releaseAll (.coll r.engine c r.key.toNat)) s
  { s with
    reductions := s.reductions.filter fun r => !(r.core == c && r.launch == n)
    collectives := s.collectives.filter fun r => !(r.core == c && r.launch == n) }

/-- KILL_FLOOD: the flood reaches a core of the launch, whose windows close as at every abort (R259, R362, R363). -/
def execKillFlood (launch core : Nat) (s : State) : Out :=
  match s.launch launch with
  | none => .next s
  | some l =>
    if l.state ≠ .removing ∨ !l.flood.contains core then .next s
    else
      let s := s.setLaunch launch { l with flood := l.flood.filter (· != core) }
      if (s.core core).launch ≠ some launch then .next s
      else
        let s := (List.finRange 8).foldl (fun (s : State) x => s.closeWindow core x) s
        let s := (((s.returnAll launch core).dropCommands launch core).dropRemote launch core).dropWaiting [core]
        .next ((s.updCore core Core.kill).updQuad (quadOf core) fun q => q.dropCore (inQuad core))

/-- SWEEP_END: packets of the launch still in the meshes are gone; of its stores, each is performed before or discarded
(R362, R363). -/
def execSweepEnd (launch : Nat) (s : State) : Out :=
  match s.launch launch with
  | none => .next s
  | some l =>
    if l.state ≠ .removing ∨ !l.flood.isEmpty then .next s
    else
      let s := (l.group 0).foldl (fun s c => s.updCore c fun k => { k with stores := k.stores.filter fun r => r.launch != launch }) s
      let gone := s.quads.flatMap fun (_, q) => q.pushes.filter fun p => p.id.launch == launch
      let s := gone.foldl (fun (s : State) p => s.settle p.id false) s
      let s : State := { s with
        remotes := s.remotes.filter fun r => r.launch != launch
        quads := s.quads.mapVals fun _ q => { q with pushes := q.pushes.filter fun p => p.id.launch != launch } }
      .next (match s.launch launch with
        | some l => s.setLaunch launch { l with swept := true }
        | none => s)

/-- REMOVAL_CONFIRMATION: the launch leaves once its seals are complete, its LAUNCH entry with STATUS 4, and the REMOVE entry completes
(R305, R362, R363). -/
def execRemovalConfirmation (launch : Nat) (s : State) : Out :=
  match s.launch launch with
  | none => .next s
  | some l =>
    if l.state ≠ .removing ∨ l.swept = false ∨ s.packets launch l ∨ !s.recsSettled l then .next s
    else
      let s := s.endLaunch launch l 4
      .next (match l.removedBy with
        | some ch => s.endEntry ch 0
        | none => s)

/-! ### The host (R402 to R404) -/

/-- The part of [a, a + n) inside a window of BAR2, with the place its bytes have. -/
def barPart (a n lo hi key : Nat) : Option Span :=
  let x := max a lo
  let y := min (a + n) hi
  if x < y then some ⟨key + (x - lo), y - x, false⟩ else none

/-- First offset of the weight stores in BAR2. -/
def barWeights : Nat := 0xC000000000

/-- The part of a host's write in the weight store of a die. -/
def hostWeight (offset n d : Nat) : Option Span :=
  barPart offset n (barWeights + d * 2 ^ 30) (barWeights + (d + 1) * 2 ^ 30) (weightKey d 0)

/-- A host's write waits: for an engine's line, or for the refresh window of the bank it reaches (R207, R222). -/
def State.hostWaits (s : State) (offset n : Nat) : Bool :=
  s.owned (barPart offset n 0 barWeights (physKey 0 0)).toList ||
  (List.range 4).any fun d => !s.dieInLaunch d && s.refreshAt (hostWeight offset n d).toList

/-- HOST_WRITE: main memory by physical address, or a weight store; elsewhere it is dropped (R402, R404). -/
def execHostWrite (link offset : Nat) (data : List Byte) (s : State) : Out :=
  let n := data.length
  if s.hostWaits offset n then .next s
  else
    let main := (barPart offset n 0 barWeights (physKey 0 0)).toList
    let s := main.foldl (fun s p => (s.homeWrite [p] (data.take p.len) 0 7 link none).plainWriteSync [p]) s
    .next ((List.range 4).foldl (fun s d =>
      match hostWeight offset n d with
      | none => s
      | some p =>
        if s.dieInLaunch d then { s with bar0Error := s.bar0Error ||| 1 }
        else s.putMem p.key ((data.drop (max offset (barWeights + d * 2 ^ 30) - offset)).take p.len)) s)

/-- HOST_REGISTER_WRITE: the error register, the breakpoints (R440), the MSI-X table, where unmasking a vector sends what is pending; other registers are read-only or have
an event of their own. -/
def execHostRegisterWrite (offset : Nat) (value : Word) (s : State) : Out :=
  if offset = 0 then .next { s with bar0Error := value }
  else if 0x100 ≤ offset ∧ offset < 0x180 ∧ offset % 16 = 0 then
    let v := value &&& 0xFFFFFFFFFFFF01FF
    .next { s with breakpoints := s.breakpoints.put ((offset - 0x100) / 16) (v.setWidth 128) }
  else if 0x10000 ≤ offset ∧ offset < 0x10800 ∧ offset % 8 = 0 then
    let s : State := { s with msixTable := s.msixTable.put offset value }
    let n := (offset - 0x10000) / 16
    .next (if (s.msixWord n 1).getLsbD 32 then s else { s with msixPending := s.msixPending &&& ~~~(1#128 <<< n) })
  else .next s

end Sys2Proof.Machine
end

