-- ==== Sys2Proof/Machine/LoadStore.lean ====
section
/-!
DEFINITION. Loads and stores of general and vector registers (R70, R105 to R107, R279 to R282), BLKMV and BLKSET (R108 to
R110).
-/

namespace Sys2Proof.Machine

/-- LD (R105). -/
def execLd (t b : BitVec 5) (m : BitVec 2) (h : BitVec 4) (o : BitVec 8) (s : State) : Out :=
  scalarLoad (.ld t b m h o) t b m h o 8 false s

/-- LDW: 4 bytes, sign-extended (R105). -/
def execLdw (t b : BitVec 5) (m : BitVec 2) (h : BitVec 4) (o : BitVec 8) (s : State) : Out :=
  scalarLoad (.ldw t b m h o) t b m h o 4 false s

/-- LDH: 2 bytes, sign-extended (R105). -/
def execLdh (t b : BitVec 5) (m : BitVec 2) (h : BitVec 4) (o : BitVec 8) (s : State) : Out :=
  scalarLoad (.ldh t b m h o) t b m h o 2 false s

/-- LDB: 1 byte, sign-extended (R105). -/
def execLdb (t b : BitVec 5) (m : BitVec 2) (h : BitVec 4) (o : BitVec 8) (s : State) : Out :=
  scalarLoad (.ldb t b m h o) t b m h o 1 false s

/-- ST: the low 8 bytes (R105). -/
def execSt (t b : BitVec 5) (m : BitVec 2) (h : BitVec 4) (o : BitVec 8) (s : State) : Out :=
  scalarStore (.st t b m h o) t b m h o 8 s

/-- STW: the low 4 bytes (R105). -/
def execStw (t b : BitVec 5) (m : BitVec 2) (h : BitVec 4) (o : BitVec 8) (s : State) : Out :=
  scalarStore (.stw t b m h o) t b m h o 4 s

/-- STH: the low 2 bytes (R105). -/
def execSth (t b : BitVec 5) (m : BitVec 2) (h : BitVec 4) (o : BitVec 8) (s : State) : Out :=
  scalarStore (.sth t b m h o) t b m h o 2 s

/-- STB: the low 1 byte (R105). -/
def execStb (t b : BitVec 5) (m : BitVec 2) (h : BitVec 4) (o : BitVec 8) (s : State) : Out :=
  scalarStore (.stb t b m h o) t b m h o 1 s

/-- LD.nc: the core's L1 neither read nor allocated in (R107). -/
def execLdNc (t b : BitVec 5) (m : BitVec 2) (h : BitVec 4) (o : BitVec 8) (s : State) : Out :=
  scalarLoad (.ldNc t b m h o) t b m h o 8 true s

/-- LD.c: LD through hb0 at an offset of 8-byte units (R70). -/
def execLdC (d a : BitVec 4) (o : BitVec 3) (s : State) : Out :=
  let f : Form := { srcs := [(low a, 0)], names := [.g (low d), .g (low a)], size := 2, rep := false }
  issue (.ldC d a o) f s fun s =>
    s.loadAt 0 ((s.me.rd (low a)).toNat + 8 * o.toNat) 8 loadSpaces false fun s bs =>
      .next (s.retire f fun k => k.wr (low d) (loadValue 8 bs))

/-- ST.c: ST through hb0 at an offset of 8-byte units (R70). -/
def execStC (t a : BitVec 4) (o : BitVec 3) (s : State) : Out :=
  let f : Form := { srcs := [(low t, 0), (low a, 0)], names := [.g (low t), .g (low a)], size := 2, rep := false }
  issue (.stC t a o) f s fun s =>
    let off := (s.me.rd (low a)).toNat + 8 * o.toNat
    s.storeAt 0 off 8 8 storeSpaces fun s hd spans =>
      s.retireStore f hd off spans (leBytes 8 (s.me.rd (low t)).toNat)

/-- The request of a remote LD.a or RAMO of a context leaves for its device; its fill is to come (R419, R433). -/
def State.sendFor (s : State) (c : Nat) (x : Fin 8) (h : BitVec 256) (off slot : Nat) (op : RemoteOp) : State :=
  let id := ((s.ctx c x).task.map (·.task.taskId)).getD 0
  { s with remotes := s.remotes ++ [⟨c, x.val, (s.core c).launch.getD 0, hRdev h, hRlid h, hBase h + off,
      s.linkOf c (hRdev h), op, some slot, id, 0, false, 0⟩] }
def State.sendRemote (s : State) (h : BitVec 256) (off : Nat) (slot : Fin 16) (op : RemoteOp) : State :=
  s.sendFor s.cur.1 s.cur.2 h off slot.val op

/-- The key that stands for the place of a read of another device: in no memory of this one. -/
def elsewhere : Nat := 2 ^ 60

/-- LD.a: the checks are LD's; the read is performed, or its request to another device leaves, on entry, or as soon as neither its home
nor an older access of the context holds it up, and its value or its error comes with the fill (R213, R222, R240, R279, R280, R419). -/
def execLdA (t b : BitVec 5) (m : BitVec 2) (h : BitVec 4) (o : BitVec 8) (s : State) : Out :=
  let f : Form := { srcs := [(b, m)], names := [.g t, .g b] }
  issue (.ldA t b m h o) f s fun s =>
    let off := fmOff s.me b o 8
    s.orFault (s.chkAccess s.cur.1 s.hbs h off 8 ⟨false, storeSpaces, 8, true⟩) fun hd =>
      s.withSlot fun slot =>
        s.orFault (s.placeCore s.cur.1 hd off 8 false) fun (spans, s) =>
          if hSpace hd = spRemote then
            let far : List Span := [⟨elsewhere, 8, false⟩]
            if s.readHeld hd far then
              .next (s.retire f fun k => k.produce t slot (.held hd off elsewhere (s.me.goFirst hd far)) none false)
            else .next ((s.sendRemote hd off slot .read).retire f fun k => k.produce t slot .remote none false)
          else
            match s.load hd off spans false with
            | .ok s bs => .next (s.retire f fun k => k.produce t slot .load (some (loadValue 8 bs)) false)
            | .wait _ =>
              let key := (spans.head?.map (·.key)).getD 0
              .next (s.retire f fun k => k.produce t slot (.held hd off key (s.me.goFirst hd spans)) none false)
            | .bad s => .next (s.retire f fun k => k.produce t slot .load (some 0) true)

/-! ### Vector loads and stores -/

/-- 128 bytes as a vector register: byte 4i + j goes to bits [32i + 8j + 7 : 32i + 8j] (R281). -/
def vectorOf (b : List Byte) : VWord := BitVec.ofNat 1024 (leNat b)
def vectorBytes (v : VWord) : List Byte := leBytes 128 v.toNat

/-- VLD and VLD.nc (R281). -/
def vectorLoad (i : Instr) (v : BitVec 4) (b : BitVec 5) (m : BitVec 2) (h : BitVec 4) (o : BitVec 8) (nc : Bool)
    (s : State) : Out :=
  let f : Form := { srcs := [(b, m)], names := [.v v, .g b] }
  issue i f s fun s =>
    s.loadAt h (fmOff s.me b o 128) 128 vectorSpaces nc fun s bs => .next (s.retire f fun k => k.vwr v (vectorOf bs))

/-- VLD (R281). -/
def execVld (v : BitVec 4) (b : BitVec 5) (m : BitVec 2) (h : BitVec 4) (o : BitVec 8) (s : State) : Out :=
  vectorLoad (.vld v b m h o) v b m h o false s

/-- VLD.nc (R281). -/
def execVldNc (v : BitVec 4) (b : BitVec 5) (m : BitVec 2) (h : BitVec 4) (o : BitVec 8) (s : State) : Out :=
  vectorLoad (.vldNc v b m h o) v b m h o true s

/-- VST (R281, R419). -/
def execVst (v : BitVec 4) (b : BitVec 5) (m : BitVec 2) (h : BitVec 4) (o : BitVec 8) (s : State) : Out :=
  let f : Form := { srcs := [(b, m)], names := [.v v, .g b] }
  issue (.vst v b m h o) f s fun s =>
    let off := fmOff s.me b o 128
    s.storeAt h off 128 128 (spRemote :: vectorSpaces) fun s hd spans =>
      s.retireStore f hd off spans (vectorBytes (s.me.vrd v))

/-- The 32 lane offsets of a strided access (R282). -/
def laneOffsets (base stride : Word) : List Int := (List.range 32).map fun (i : Nat) => (base.toNat : Int) + i * stride.toInt

/-- Steps 1 to 5 of R104 for each lane, in ascending order: the handle, and the places of the lanes (R282). -/
def State.placeLanes (s : State) (h : BitVec 4) (write : Bool) (hd : BitVec 256) :
    List Int → Chk (BitVec 256 × List (List Span) × State)
  | [] => .ok (hd, [], s)
  | o :: l => do
    let hd ← s.chkAccess s.cur.1 s.hbs h o 4 ⟨write, vectorSpaces, 4, true⟩
    let (p, s) ← s.placeCore s.cur.1 hd o.toNat 4 write
    let (hd, r, s) ← s.placeLanes h write hd l
    return (hd, p :: r, s)

/-- Lanes read in ascending order: the bytes, or the wait, or the offset of a lane in error. -/
def State.loadLanes (s : State) (h : BitVec 256) : List (Int × List Span) → List Byte → Found (List Byte) × Nat
  | [], acc => (.ok s acc, 0)
  | (o, p) :: l, acc =>
    match s.loadOn h o.toNat p false !acc.isEmpty with
    | .ok s b => s.loadLanes h l (acc ++ b)
    | .wait w => (.wait w, 0)
    | .bad s => (.bad s, o.toNat)

/-- VLDS (R282). -/
def execVlds (v : BitVec 4) (a b : BitVec 5) (h : BitVec 4) (s : State) : Out :=
  let f : Form := { srcs := [(a, 0), (b, 0)], names := [.v v, .g a, .g b] }
  issue (.vlds v a b h) f s fun s =>
    let lanes := laneOffsets (s.me.rd a) (s.me.rd b)
    s.orFault (s.placeLanes h false 0 lanes) fun (hd, places, s) =>
      let (r, bad) := s.loadLanes hd (lanes.zip places) []
      s.found r bad fun s bs => .next (s.retire f fun k => k.vwr v (vectorOf bs))

/-- A number that no pending VSTS of the core has. -/
def Core.nextVsts (k : Core) : Nat := k.stores.foldl (fun n r => max n ((r.vsts.map (· + 1)).getD 0)) 0

/-- VSTS: lanes are performed in ascending order, under one ordinal (R262, R267, R282). -/
def execVsts (v : BitVec 4) (a b : BitVec 5) (h : BitVec 4) (s : State) : Out :=
  let f : Form := { srcs := [(a, 0), (b, 0)], names := [.v v, .g a, .g b] }
  issue (.vsts v a b h) f s fun s =>
    let lanes := laneOffsets (s.me.rd a) (s.me.rd b)
    s.orFault (s.placeLanes h true 0 lanes) fun (hd, places, s) =>
      if s.me.versionPending then s.waitFor .drain
      else
        s.orFault (s.me.chkWatch places.flatten) fun _ =>
          let c := s.cur.1
          let x := s.cur.2
          let d := s.me.vrd v
          let s := s.retire f id
          let (tag, s) := s.takeOrdinal c x hd
          let id := (s.core c).nextVsts
          .next (((lanes.zip places).zipIdx).foldl (fun s ((o, p), i) =>
            s.releaseLane c x hd o.toNat p (leBytes 4 (d.extractLsb' (32 * i) 32).toNat) .write tag false false (some id)) s)

/-! ### Block move and block set -/

/-- A destination check's failure carries TRAPINFO[63] (R109). -/
def markDst (r : Chk α) : Chk α :=
  match r with
  | .ok a => .ok a
  | .error (c, i) => .error (c, i ||| 0x8000000000000000)

/-- What one step of R109 leaves in the registers. -/
def Ctx.blockStep (t : Ctx) (move : Bool) (d a b : BitVec 5) (n : Nat) : Ctx :=
  let g := t.rd d
  let src := t.rd b
  let t := (t.wr a (t.rd a + BitVec.ofNat 64 n)).wr d (setBits g 0 48 (g.setWidth 48 - BitVec.ofNat 48 n))
  if move then t.wr b (src + BitVec.ofNat 64 n) else t

/-- One step's destination, from the checks passed to the retirement, which is serialising (R109, R110). -/
def State.blockStore (s : State) (f : Form) (move : Bool) (d a b : BitVec 5) (n left : Nat) (hd : BitVec 256)
    (spans : List Span) (bs : List Byte) : Out :=
  let c := s.cur.1
  let x := s.cur.2
  let off := (s.me.rd a).toNat
  let next := if left = n then s.me.pc + 4 else s.me.pc
  let s := s.retireTo f next 0 fun t => (t.blockStep move d a b n).serial
  let (tag, s) := s.takeOrdinal c x hd
  .next (s.releaseStore c x hd off spans bs .write tag false false)

/-- BLKMV: one step; at each check of R104 the source goes before the destination (R108, R109). -/
def execBlkmv (d a b : BitVec 5) (s : State) : Out :=
  let f : Form := { srcs := [(d, 0), (a, 0), (b, 0)], names := [.g d, .g a, .g b], rep := false }
  issue (.blkmv d a b) f s fun s =>
    let g := s.me.rd d
    let left := field g 0 48
    if left = 0 then .next (s.retire f Ctx.serial)
    else
      let dst := (s.me.rd a).toNat
      let src := (s.me.rd b).toNat
      let n := min left (64 - dst % 64)
      let sb := g.extractLsb' 56 4
      let db := g.extractLsb' 60 4
      let c := s.cur.1
      let rd : Kind := ⟨false, loadSpaces, n, true⟩
      let wr : Kind := ⟨true, storeSpaces, n, true⟩
      let checks : Chk (BitVec 256 × BitVec 256) := do
        let sh ← s.chkHandle c s.hbs sb
        let dh ← markDst (s.chkHandle c s.hbs db)
        chkBounds sh src n false
        markDst (chkBounds dh dst n true)
        s.chkSpace c s.hbs sb sh rd
        markDst (s.chkSpace c s.hbs db dh wr)
        return (sh, dh)
      s.orFault checks fun (sh, dh) =>
        s.orFault (s.placeCore c sh src n false) fun (sp, s) =>
          s.orFault (markDst (s.placeCore c dh dst n true)) fun (dp, s) =>
            s.orFault (s.me.chkWatch (if hSpace dh = spRemote then [] else dp)) fun _ =>
              s.found (s.load sh src sp false) src fun s bs => s.blockStore f true d a b n left dh dp bs

/-- BLKSET: one step; g[d][59:56] must be zero on every execution (R108, R109). -/
def execBlkset (d a b : BitVec 5) (s : State) : Out :=
  let f : Form := { srcs := [(d, 0), (a, 0), (b, 0)], names := [.g d, .g a, .g b], rep := false }
  issue (.blkset d a b) f s fun s =>
    let g := s.me.rd d
    let left := field g 0 48
    if field g 56 4 ≠ 0 then s.fault Cause.handle (BitVec.ofNat 64 (field g 56 4))
    else if left = 0 then .next (s.retire f Ctx.serial)
    else
      let dst := (s.me.rd a).toNat
      let n := min left (64 - dst % 64)
      let c := s.cur.1
      let db := g.extractLsb' 60 4
      let checks : Chk (BitVec 256) := do
        let dh ← s.chkHandle c s.hbs db
        chkBounds dh dst n true
        s.chkSpace c s.hbs db dh ⟨true, storeSpaces, n, true⟩
        return dh
      s.orFault (markDst checks) fun dh =>
        s.orFault (markDst (s.placeCore c dh dst n true)) fun (dp, s) =>
          if s.me.versionPending then s.waitFor .drain
          else
            s.orFault (s.me.chkWatch (if hSpace dh = spRemote then [] else dp)) fun _ =>
              s.blockStore f false d a b n left dh dp (List.replicate n ((s.me.rd b).setWidth 8))

end Sys2Proof.Machine
end

