-- ==== Sys2Proof/Machine/Ordering.lean ====
section
/-!
DEFINITION. Acquire and release (R283, R284), read-modify-write (R285 to R287), fences, DRAIN and FFENCE (R288 to R291),
versioned words (R292 to R294), coherence objects (R295, R296).
-/

namespace Sys2Proof.Machine

/-! ### Acquire and release -/

/-- A weight-store word read at its bank, allocated in no cache (R207, R229). -/
def State.readFar (s : State) (spans : List Span) : Found (List Byte) :=
  if (linePieces spans).any fun p => s.refreshing (p.key / 64) then .wait .refresh
  else if spans.any fun p => s.poisoned p.key p.len then .bad s
  else .ok s (spans.flatMap fun p => Memory.bytes s.mem p.key p.len)

/-- The read of an acquire, at the place its scope needs (R229): within a quad never the L1; wider, after the drains of
R220, at the home. -/
def State.acquireRead (s : State) (h : BitVec 256) (off : Nat) (spans : List Span) (wide : Bool) : Found (List Byte) :=
  let c := s.cur.1
  let x := s.cur.2
  let key := (spans.head?.map (·.key)).getD 0
  if !wide then s.load h off spans true
  else if s.readHeld h spans ∨ s.ownStoreAt c x spans then .wait .drain
  else
    match s.ownedLine spans with
    | some line => .wait (.miss line)
    | none =>
      let s := s.acquire (key / 8) (quadOf c)
      if hSpace h = spWeight then s.readFar spans
      else if hSpace h = spGlobal then
        let s := (s.mergeSpans spans).l2Leave h spans
        if spans.any fun p => s.poisoned p.key p.len then .bad s
        else .ok s (spans.flatMap fun p => Memory.bytes s.mem p.key p.len)
      else s.loadHome c x (hSpace h) spans

/-- LD.acq (R283, R284). -/
def execLdAcq (d a : BitVec 5) (sc : BitVec 3) (e : BitVec 5) (h : BitVec 4) (s : State) : Out :=
  let f : Form := { srcs := [(a, 0)], names := [.g d, .g a] }
  issue (.ldAcq d a sc e h) f s fun s =>
    let off := (s.me.rd a).toNat + 8 * e.toNat
    s.orFault (s.chkAccess s.cur.1 s.hbs h off 8 ⟨false, loadSpaces, 8, true⟩) fun hd =>
      s.orFault (s.placeCore s.cur.1 hd off 8 false) fun (spans, s) =>
        s.found (s.acquireRead hd off spans (s.wideScope s.cur.1 s.cur.2 sc)) off fun s bs =>
          .next (s.retire f fun k => k.wr d (loadValue 8 bs))

/-- ST.rel: a producing store; through a REMOTE handle only at .sys, to which .grp may be widened (R278, R283, R284, R419). -/
def execStRel (d a : BitVec 5) (sc : BitVec 3) (e : BitVec 5) (h : BitVec 4) (s : State) : Out :=
  let f : Form := { srcs := [(d, 0), (a, 0)], names := [.g d, .g a] }
  issue (.stRel d a sc e h) f s fun s =>
    let off := (s.me.rd a).toNat + 8 * e.toNat
    s.orFault (s.chkHandle s.cur.1 s.hbs h) fun hd =>
      if hSpace hd = spRemote ∧ !s.sysScope s.cur.1 s.cur.2 sc then s.illegal (.stRel d a sc e h)
      else
        s.storeAt h off 8 8 storeSpaces fun s hd spans =>
          let c := s.cur.1
          let x := s.cur.2
          let wide := s.wideScope c x sc
          let v := leBytes 8 (s.me.rd d).toNat
          let s := s.retire f id
          let (tag, s) := s.takeOrdinal c x hd
          .next (s.releaseStore c x hd off spans v .write tag true wide)

/-! ### Read-modify-write -/

/-- An n-bit pattern read signed. -/
def asSigned (n v : Nat) : Int := if v ≥ 2 ^ (n - 1) then (v : Int) - 2 ^ n else v

/-- The new memory value of an operation code of R285 on m and v of n bits. -/
def amoNew (op n m v : Nat) : Nat :=
  match op with
  | 0 => v
  | 1 => (m + v) % 2 ^ n
  | 2 => m &&& v
  | 3 => m ||| v
  | 4 => m ^^^ v
  | 5 => if asSigned n m ≤ asSigned n v then m else v
  | 6 => if asSigned n m ≥ asSigned n v then m else v
  | 7 => min m v
  | _ => max m v

/-- A read-modify-write performed where its space and scope say, after the older reads and the stores that a release fence has gone by
(R228 to R230, R235, R287): the old value. -/
def State.rmw (s : State) (h : BitVec 256) (off : Nat) (spans : List Span) (size : Nat) (wide acq rel : Bool)
    (new : Nat → Option Nat) : Found Nat :=
  let c := s.cur.1
  let x := s.cur.2
  let q := quadOf c
  let key := (spans.head?.map (·.key)).getD 0
  let launch := (s.core c).launch.getD 0
  if s.me.versionPending ∨ !s.mayWrite c x ∨ s.ownStoreAt c x spans ∨ (rel ∧ !s.quiet c x) then .wait .drain
  else
    match s.ownedLine spans with
    | some line => .wait (.miss line)
    | none =>
      -- the release part of a CAS that does not write orders nothing
      let done (s : State) (m : Nat) (write : State → List Byte → State) : Found Nat :=
        let order (s : State) : State := if wide ∧ acq then s.acquire (key / 8) q else s
        match new m with
        | none => .ok (order s) m
        | some v =>
          let b := leBytes size v
          let s := order (if wide ∧ rel then s.recordReleases key size q else s)
          .ok ((write s b).updCore c fun k => k.l1Write key b) m
      match hSpace h with
      | 0 =>
        if wide then
          let s := (s.mergeSpans spans).l2Leave h spans
          if s.poisoned key size then .bad s
          else done s (Memory.nat s.mem key size) fun s b => s.policyWrite spans b launch (hPolicy h) 1 c (some (c, x.val))
        else
          let va := hBase h + off
          match s.quadRead q (key / 64) (key % 64) size (s.readInfo c h va (key / 64)) with
          | .wait w => .wait w
          | .bad s => .bad s
          | .ok s d =>
            done s (leNat (lineBytes d (key % 64) size)) fun s b =>
              let log := spans.any (·.log)
              match s.storeDest c h off (key / 64) log with
              | .cached obj log p =>
                (s.storeCached c ⟨x.val, launch, key, b, .cached obj log p, .write, none, false, false, [], none, 0, false, 0⟩ obj log
                  p).watchWrite spans 1 c (some (c, x.val))
              | _ => s
      | 3 =>
        let s := s.atHome spSync (key / 64)
        if s.poisoned key size then .bad s
        else
          let wild := ((s.syncObj key).map (·.wild)).getD false
          let (m, s) := if wild then
              let (v, s) := s.free
              (v.toNat, s)
            else (Memory.nat s.mem key size, s)
          done s m fun s b =>
            (((s.recall (key / 64)).dirtyLine launch (key / 64) (spans.any (·.log)) false).syncWrite key
              (BitVec.ofNat 64 (leNat b))).watchWrite spans 1 c (some (c, x.val))
      | _ =>
        if s.poisoned key size then .bad s
        else done s (Memory.nat s.mem key size) fun s b => (s.putMem key b).watchWrite spans 1 c (some (c, x.val))

/-- AMO and CAS from the checks on: GLOBAL, QUAD and SYNC; a 4-byte form through SYNC alone faults by reason 4 (R287); the write
is checked against the context's own watchpoints whether or not it happens (R355). -/
def rmwInstr (i : Instr) (f : Form) (d a : BitVec 5) (sc : BitVec 3) (w : BitVec 1) (h : BitVec 4) (o : BitVec 2)
    (new : Ctx → Nat → Nat → Option Nat) (s : State) : Out :=
  issue i f s fun s =>
    let size := if w = 1 then 4 else 8
    let off := (s.me.rd a).toNat
    s.orFault (s.chkAccess s.cur.1 s.hbs h off size ⟨true, [0, 1, 3], size, true⟩) fun hd =>
      s.orFault (s.placeCore s.cur.1 hd off size true) fun (spans, s) =>
        s.orFault (s.me.chkWatch spans) fun _ =>
          let t := s.me
          s.found (s.rmw hd off spans size (s.wideScope s.cur.1 s.cur.2 sc) (o.getLsbD 0) (o.getLsbD 1)
            (new t (8 * size))) off fun s m =>
              .next (s.retire f fun k => k.wr d (loadValue size (leBytes size m)))

/-- The AMOs: v is g[d] at the access width (R285). -/
def amo (i : Instr) (op : Nat) (d a : BitVec 5) (sc : BitVec 3) (w : BitVec 1) (h : BitVec 4) (o : BitVec 2)
    (s : State) : Out :=
  let f : Form := { srcs := [(d, 0), (a, 0)], names := [.g d, .g a] }
  rmwInstr i f d a sc w h o (fun t n m => some (amoNew op n m ((t.rd d).toNat % 2 ^ n))) s

/-- AMOSWAP (R285, R287). -/
def execAmoswap (d a : BitVec 5) (sc : BitVec 3) (w : BitVec 1) (h : BitVec 4) (o : BitVec 2) (s : State) : Out :=
  amo (.amoswap d a sc w h o) 0 d a sc w h o s

/-- AMOADD (R285, R287). -/
def execAmoadd (d a : BitVec 5) (sc : BitVec 3) (w : BitVec 1) (h : BitVec 4) (o : BitVec 2) (s : State) : Out :=
  amo (.amoadd d a sc w h o) 1 d a sc w h o s

/-- AMOAND (R285, R287). -/
def execAmoand (d a : BitVec 5) (sc : BitVec 3) (w : BitVec 1) (h : BitVec 4) (o : BitVec 2) (s : State) : Out :=
  amo (.amoand d a sc w h o) 2 d a sc w h o s

/-- AMOOR (R285, R287). -/
def execAmoor (d a : BitVec 5) (sc : BitVec 3) (w : BitVec 1) (h : BitVec 4) (o : BitVec 2) (s : State) : Out :=
  amo (.amoor d a sc w h o) 3 d a sc w h o s

/-- AMOXOR (R285, R287). -/
def execAmoxor (d a : BitVec 5) (sc : BitVec 3) (w : BitVec 1) (h : BitVec 4) (o : BitVec 2) (s : State) : Out :=
  amo (.amoxor d a sc w h o) 4 d a sc w h o s

/-- AMOMIN (R285, R287). -/
def execAmomin (d a : BitVec 5) (sc : BitVec 3) (w : BitVec 1) (h : BitVec 4) (o : BitVec 2) (s : State) : Out :=
  amo (.amomin d a sc w h o) 5 d a sc w h o s

/-- AMOMAX (R285, R287). -/
def execAmomax (d a : BitVec 5) (sc : BitVec 3) (w : BitVec 1) (h : BitVec 4) (o : BitVec 2) (s : State) : Out :=
  amo (.amomax d a sc w h o) 6 d a sc w h o s

/-- AMOMINU (R285, R287). -/
def execAmominu (d a : BitVec 5) (sc : BitVec 3) (w : BitVec 1) (h : BitVec 4) (o : BitVec 2) (s : State) : Out :=
  amo (.amominu d a sc w h o) 7 d a sc w h o s

/-- AMOMAXU (R285, R287). -/
def execAmomaxu (d a : BitVec 5) (sc : BitVec 3) (w : BitVec 1) (h : BitVec 4) (o : BitVec 2) (s : State) : Out :=
  amo (.amomaxu d a sc w h o) 8 d a sc w h o s

/-- CAS: g[d] is compared and takes the old value, g[d + 1] is the new one (R286). -/
def execCas (d a : BitVec 5) (sc : BitVec 3) (w : BitVec 1) (h : BitVec 4) (o : BitVec 2) (s : State) : Out :=
  let f : Form := { srcs := [(d, 0), (d + 1, 0), (a, 0)], names := [.g d, .g (d + 1), .g a] }
  rmwInstr (.cas d a sc w h o) f d a sc w h o (fun t n m =>
    if m = (t.rd d).toNat % 2 ^ n then some ((t.rd (d + 1)).toNat % 2 ^ n) else none) s

/-! ### Fences -/

/-- A fence waits for the context's stores and reads, at .ctx and .core (`near`) for those alone that its quad cache performs, then
acts (R289). -/
def fence (i : Instr) (near : Bool) (act : State → State) (s : State) : Out :=
  issue i {} s fun s =>
    if (if near then s.quietNear s.cur.1 s.cur.2 else s.quiet s.cur.1 s.cur.2) then .next (act (s.retire {} id))
    else s.waitFor .drain

/-- .ctx or .core. -/
def nearScope (sc : BitVec 3) : Bool := sc == 0 || sc == 1

/-- FENCE.acq (R228, R289). -/
def execFenceAcq (sc : BitVec 3) (s : State) : Out :=
  fence (.fenceAcq sc) (nearScope sc) (fun s => if s.wideScope s.cur.1 s.cur.2 sc then s.acknowledged else s) s

/-- FENCE.acq.inv: then the whole L1 is invalidated (R228, R289). -/
def execFenceAcqInv (sc : BitVec 3) (s : State) : Out :=
  fence (.fenceAcqInv sc) (nearScope sc) (fun s =>
    (if s.wideScope s.cur.1 s.cur.2 sc then s.acknowledged else s).updCore s.cur.1 Core.l1Clear) s

/-- A release fence acts: wider than .quad it drains the quad cache; at .ctx or .core it goes by the stores it has not waited for (R228,
R289). -/
def State.releaseFence (s : State) (sc : BitVec 3) (full : Bool) : State :=
  if s.wideScope s.cur.1 s.cur.2 sc then s.drainAll (quadOf s.cur.1) none
  else if nearScope sc then s.passFence s.cur.1 s.cur.2 full
  else s

/-- FENCE.rel (R228, R289). -/
def execFenceRel (sc : BitVec 3) (s : State) : Out := fence (.fenceRel sc) (nearScope sc) (fun s => s.releaseFence sc false) s

/-- FENCE.full (R228, R289). -/
def execFenceFull (sc : BitVec 3) (s : State) : Out := fence (.fenceFull sc) (nearScope sc) (fun s => s.releaseFence sc true) s

/-- DRAIN: every dirty byte of the quad's cache merges; serialising (R17, R290). -/
def execDrain (s : State) : Out :=
  fence .drain false (fun s => (s.drainAll (quadOf s.cur.1) none).updMe Ctx.serial) s

/-- FFENCE: from the next instruction on fetch reads the store afresh; serialising (R17, R246, R291). -/
def execFfence (s : State) : Out :=
  fence .ffence false (fun s => (s.updCore s.cur.1 fun k => { k with stale := [] }).updMe Ctx.serial) s

/-! ### Versioned words -/

/-- LDV: a held version fills the register, a future one is awaited in a fill slot, a retired one faults (R240, R292). -/
def execLdv (d a : BitVec 5) (sc : BitVec 3) (b : BitVec 5) (h : BitVec 4) (s : State) : Out :=
  let f : Form := { srcs := [(a, 0), (b, 0)], names := [.g d, .g a, .g b] }
  issue (.ldv d a sc b h) f s fun s =>
    let off := (s.me.rd a).toNat
    let n := lowHalf (s.me.rd b)
    s.orFault (s.chkAccess s.cur.1 s.hbs h off 8 ⟨false, [spSync], 8, true⟩) fun hd =>
      s.withSlot fun slot =>
        s.orFault (s.placeCore s.cur.1 hd off 8 false) fun (spans, s) =>
          let c := s.cur.1
          let x := s.cur.2
          let key := (spans.head?.map (·.key)).getD 0
          if s.readHeld hd spans ∨ s.ownStoreAt c x spans then s.waitFor .drain
          else
            match s.ownedLine spans with
            | some line => s.waitFor (.miss line)
            | none =>
              let s := s.atHome spSync (key / 64)
              if s.poisoned key 8 then s.fault Cause.extError (BitVec.ofNat 64 (off % 2 ^ 48))
              else
                let w := s.vword key
                let wide := s.wideScope c x sc
                match w.held.find? fun e => e.1 == n with
                | some e =>
                  let s := if wide then s.acquire (key / 8) (quadOf c) else s
                  .next (s.retire f fun k => k.wr d e.2)
                | none =>
                  let dist := (n - w.last).toNat
                  if 1 ≤ dist ∧ dist < 2 ^ 31 then
                    let w := { w with waiting := w.waiting ++ [(c, x.val, slot.val, n)] }
                    let s := { s with vwords := s.vwords.put (key / 8) w }
                    .next (s.retire f fun k => k.produce d slot (.version (key / 8) n.toNat wide) none false)
                  else s.fault Cause.versionRetired (joinHalves w.last n)

/-- STV: a release store that creates the next version (R240, R293). -/
def execStv (d a : BitVec 5) (sc : BitVec 3) (h : BitVec 4) (s : State) : Out :=
  let f : Form := { srcs := [(d, 0), (a, 0)], names := [.g d, .g a] }
  issue (.stv d a sc h) f s fun s =>
    let off := (s.me.rd a).toNat
    s.storeAt h off 8 8 [spSync] fun s hd spans =>
      let c := s.cur.1
      let x := s.cur.2
      let wide := s.wideScope c x sc
      let v := leBytes 8 (s.me.rd d).toNat
      .next ((s.retire f id).releaseStore c x hd off spans v .stv none true wide)

/-- VRECL: a store without release that retires the versions below its operand (R294). -/
def execVrecl (d a : BitVec 5) (h : BitVec 4) (s : State) : Out :=
  let f : Form := { srcs := [(d, 0), (a, 0)], names := [.g d, .g a] }
  issue (.vrecl d a h) f s fun s =>
    let off := (s.me.rd a).toNat
    s.storeAt h off 8 8 [spSync] fun s hd spans =>
      let n := lowHalf (s.me.rd d)
      .next ((s.retire f id).releaseStore s.cur.1 s.cur.2 hd off spans (leBytes 8 0) (.vrecl n) none false false)

/-! ### Coherence objects -/

def objFault (s : State) (reason : Nat) : Out := s.fault Cause.bounds (BitVec.ofNat 64 (0xFFFD000000000000 + reason))

/-- A shape record keeps the field rules of R218. -/
def shapeFields (sh : BitVec 512) : Bool :=
  let ndim := field sh 16 8
  field sh 12 4 == 0 && decide (1 ≤ ndim ∧ ndim ≤ 4) && field sh 26 6 == 0 && field sh 448 64 == 0 &&
  (List.range 4).all fun k =>
    let n := field sh (64 + 32 * k) 32
    if k < ndim then decide (1 ≤ n ∧ n ≤ 2 ^ 24) else n == 1

/-- The footprint lies within the bound of the record's handle: the model tests the elements' bytes, not the whole lines that hold them
(DESIGN CHOICE, log entry 66). -/
def shapeInside (sh : BitVec 512) (h : BitVec 256) : Bool :=
  let (lo, hi) := reach (shapeDims sh)
  let base : Int := (field sh 32 32 : Nat)
  decide (0 ≤ base + lo ∧ base + hi + shapeSize sh ≤ hBound h)

/-- The reason OBJDECL fails with, if any (R295). A shape whose handle is not GLOBAL and whose footprint also lies beyond its BOUND fails
with reason 4: the rule gives no order of the two tests (DESIGN CHOICE, log entry 64). -/
def State.declReason (s : State) (c : Nat) (g : Word) (sh : BitVec 512) : Option Nat :=
  if field g 14 50 ≠ 0 then some 1
  else if (s.objects.find (field g 0 14)).isSome then some 2
  else if !shapeFields sh then some 3
  else
    match s.launchOf c with
    | none => some 4
    | some (n, l) =>
      match l.handles.find (field sh 0 12) with
      | none => some 4
      | some h =>
        if !s.handleValid c n l h ∨ hSpace h ≠ spGlobal then some 4
        else if !shapeInside sh h then some 3
        else none

/-- OBJDECL: reads the shape record, checks it, declares the object for the launch (R295). -/
def execObjdecl (d a : BitVec 5) (h : BitVec 4) (s : State) : Out :=
  let f : Form := { srcs := [(d, 0), (a, 0)], names := [.g d, .g a] }
  issue (.objdecl d a h) f s fun s =>
    s.loadAt h (s.me.rd a).toNat 64 loadSpaces true fun s bs =>
      let g := s.me.rd d
      let sh : BitVec 512 := BitVec.ofNat 512 (leNat bs)
      match s.declReason s.cur.1 g sh with
      | some r => objFault s r
      | none =>
        let launch := (s.core s.cur.1).launch.getD 0
        let s := s.retire f Ctx.serial
        .next { s with objects := s.objects.put (field g 0 14) ⟨launch, sh, none⟩ }

/-- The objects of a release, the default one in the place of one that is dropped. -/
def swapObj (launch o : Nat) (l : List Nat) : List Nat := (l.map fun k => if k = o then defaultObj launch else k).eraseDups

/-- The same in a release that a record carries. -/
def swapRel (launch o : Nat) (r : Released) : Released := r.map fun e => (e.1, swapObj launch o e.2)

def Task.swap (launch o : Nat) (t : Task) : Task := { t with rel := swapRel launch o t.rel }

/-- The same in every record of a context: what it sends, has released, and its own task and child. -/
def Ctx.swap (launch o : Nat) (t : Ctx) : Ctx :=
  { t with
    send := t.send.map fun e => { e with task := e.task.swap launch o }
    drain := t.drain.map fun e => { e with task := e.task.swap launch o }
    task := t.task.map fun i => { i with task := i.task.swap launch o }
    reservation := t.reservation.map fun r => { r with child := r.child.map (·.swap launch o) } }

/-- The same in every record of a queue and of a deque. -/
def Queue.swap (launch o : Nat) (q : Queue) : Queue :=
  { q with
    hw := q.hw.map fun e => { e with task := e.task.swap launch o }
    spillRel := q.spillRel.map (swapRel launch o) }
def Deque.swap (launch o : Nat) (d : Deque) : Deque :=
  { d with
    hw := d.hw.map fun e => { e with rel := swapRel launch o e.rel }
    spillRel := d.spillRel.map (swapRel launch o) }

/-- The same in every record a core holds. -/
def Core.swap (launch o : Nat) (k : Core) : Core :=
  { k with
    ctxs := mapVec (·.swap launch o) k.ctxs
    queues := mapVec (·.swap launch o) k.queues
    deque := k.deque.swap launch o
    stolen := k.stolen.map fun e => { e with rel := swapRel launch o e.rel } }

/-- What a launch keeps of a suspended core. -/
def SavedCore.swap (launch o : Nat) (v : SavedCore) : SavedCore :=
  { v with queues := v.queues.map (·.swap launch o), deque := v.deque.swap launch o, rel := swapRel launch o v.rel }

/-- Entries of an object dropped are kept and never fire, and the pushes of the open round that nothing has read yet, those already
discarded among them, count for no departure (R272). -/
def Recording.dropObj (o : Nat) (r : Recording) : Recording :=
  { r with
    unconsumed := r.unconsumed - (r.unusedBy.find o).getD 0
    unusedBy := r.unusedBy.del o
    objs := r.objs.filter (· != o)
    entries := r.entries.map fun e => if e.obj = o then { e with dead := true } else e }

/-- A push of an object dropped is told so: it counts for no departure any more (R272). -/
def PushId.drop (launch o : Nat) (p : PushId) : PushId :=
  if p.launch = launch ∧ p.obj = some o then { p with obj := none } else p

/-- Every mention of an object in release records, in the releases that records carry, and in dirty lines becomes the default
object; the object is unbound, its transfers and pushes count for nothing more, and its entry is free (R272, R296). -/
def State.dropObject (s : State) (launch o : Nat) : State :=
  let rel (r : Release) : Release := ⟨r.quads.map fun e => (e.1, swapObj launch o e.2)⟩
  let line (e : CacheLine) : CacheLine :=
    { e with objs := swapObj launch o e.objs, pushed := e.pushed.map (·.drop launch o) }
  let quad (k : Quad) : Quad :=
    { k with
      cache := k.cache.mapVals fun _ e => line e
      pushes := k.pushes.map fun p => { p with id := p.id.drop launch o } }
  let forget (l : Launch) : Launch :=
    { l with
      recs := l.recs.mapVals fun _ r => r.dropObj o
      saved := l.saved.mapVals fun _ v => v.swap launch o }
  { s with
    releases := s.releases.mapVals fun _ r => rel r
    quads := s.quads.mapVals fun _ k => quad k
    cores := s.cores.mapVals fun _ k => if k.launch = some launch then k.swap launch o else k
    launches := s.launches.mapVals fun n l => if n = launch then forget l else l
    collectives := s.collectives.map fun m =>
      if m.launch = launch then { m with rel := m.rel.map fun e => (e.1, swapObj launch o e.2) } else m
    objects := s.objects.del o }

/-- OBJDROP (R296). -/
def execObjdrop (d : BitVec 5) (s : State) : Out :=
  let f : Form := { srcs := [(d, 0)], names := [.g d] }
  issueCode (some (.c32 (cat 0xBE#8 (cat d 451#19)))) f s fun s =>
    let g := s.me.rd d
    let launch := (s.core s.cur.1).launch.getD 0
    if field g 14 50 ≠ 0 then objFault s 1
    else
      match s.objects.find (field g 0 14) with
      | none => objFault s 5
      | some o =>
        if o.launch ≠ launch then objFault s 5
        else .next ((s.retire f Ctx.serial).dropObject launch (field g 0 14))

end Sys2Proof.Machine
end

