-- ==== Sys2Proof/Machine/Dies.lean ====
section
/-!
DEFINITION. Other devices (R413 to R423), in-switch reductions and collectives (R424 to R433), the completion of engine
commands (R313), the dirty-range log's entries (R410) and the fabric identity (R417).
-/

namespace Sys2Proof.Machine

/-! ### Combination (R425) -/

/-- Formats of a reduction (R427). -/
def redFormats : List Nat := [fFP32, fBF16, fFP16, fINT32]

/-- An element widened: FP32 encodings, INT32 as it is. -/
def redWiden (f x : Nat) : Nat :=
  if f = fINT32 then x else (roundTo (floatFmt fFP32) .rne 0 1 (unpack (floatFmt f) x)).bits

/-- One member's element joins the accumulated one. -/
def redStep (op f acc x : Nat) : Nat :=
  if f = fINT32 then
    match op with
    | 0 => (acc + x) % 2 ^ 32
    | 1 => if asSigned 32 acc ≥ asSigned 32 x then acc else x
    | _ => if asSigned 32 acc ≤ asSigned 32 x then acc else x
  else
    let g := floatFmt fFP32
    match op with
    | 0 => (fAdd g .rne 0 (unpack g acc) (unpack g x)).bits
    | 1 => fMinMax g true acc x
    | _ => fMinMax g false acc x

/-- The combination of one element of the members in ascending order. -/
def redElement (op f : Nat) : List Nat → Nat
  | [] => 0
  | x :: l =>
    let acc := l.foldl (fun a y => redStep op f a (redWiden f y)) (redWiden f x)
    if f = fINT32 then acc else (roundTo (floatFmt f) .rne 0 1 (unpack (floatFmt fFP32) acc)).bits

/-- The bytes of a combination of members' bytes of one length. -/
def reduceBytes (op f len : Nat) (parts : List (List Byte)) : List Byte :=
  let w := fmtWidth f / 8
  (List.range (len / w)).flatMap fun e =>
    leBytes w (redElement op f (parts.map fun p => leNat ((p.drop (w * e)).take w)))

/-! ### XRED (R427, R428) -/

structure XredReq where
  shb : BitVec 4
  dhb : BitVec 4
  ohb : BitVec 4
  ckind : Nat
  op : Nat
  fmt : Nat
  len : Nat
  soff : Nat
  doff : Nat
  redid : Nat
  ooff : Nat
deriving DecidableEq, Repr

def xredReq (w : Vector Word 4) : XredReq :=
  ⟨w[0].extractLsb' 60 4, w[0].extractLsb' 56 4, w[0].extractLsb' 52 4, field w[0] 50 2, field w[0] 48 2, field w[0] 44 4,
    field w[0] 0 13, w[1].toNat, w[2].toNat, field w[3] 48 16, field w[3] 0 48⟩

/-- The reason an XRED request is malformed, if it is. -/
def xredReason (w : Vector Word 4) : Option Nat :=
  let r := xredReq w
  if field w[0] 13 31 ≠ 0 ∨ (r.ckind = 0 ∧ r.ohb ≠ 0) ∨ r.ckind = 2 then some 1
  else if r.op = 3 ∨ !redFormats.contains r.fmt ∨ r.len < 64 ∨ r.len > 4096 ∨ r.len % 64 ≠ 0 then some 2
  else if r.redid = 0 then some 3
  else none

/-- Spaces of a reduction's source and destination. -/
def redSpaces : List Nat := [spGlobal, spQuad]
def allSpaces : List Nat := [0, 1, 2, 3, 4, 5, 6]


/-- Regions, object, then spaces, as R427 orders them; the destination's handle. -/
def State.chkReduction (s : State) (c : Nat) (hbs : Vector Word 16) (shb dhb ohb : BitVec 4) (soff doff len ckind ooff : Nat) :
    Chk (BitVec 256) := do
  let sh ← s.chkAccess c hbs shb soff 64 ⟨false, allSpaces, len, false⟩
  let dh ← s.chkAccess c hbs dhb doff 64 ⟨true, allSpaces, len, false⟩
  if ckind ≠ 0 then
    s.chkObject c hbs ohb ooff (objectSize ckind)
  s.chkSpace c hbs shb sh ⟨false, redSpaces, len, false⟩
  s.chkSpace c hbs dhb dh ⟨true, redSpaces, len, false⟩
  return dh

/-- A source region read for a reduction after every quad's dirty bytes of it have merged (R242, R318). -/
def State.reductionSource (s : State) (c : Nat) (cl : Claim) (h : BitVec 256) (off len : Nat) : Fetched :=
  match s.placeFresh (s.rootOf c) c h off len false with
  | .error _ => .failed 1
  | .ok spans =>
    let s := if hSpace h = spGlobal then s.mergeSpans spans else s
    s.fetchRegion c none cl h off len false

/-- The link that contributions on a REDID leave by: one of the 18 of the I/O die io(REDID[0]), the same while it is up (R413,
R424; log entry 14). -/
def State.redLink (s : State) (redid : Nat) : Nat :=
  let at_ (l : Nat) : Nat := redid % 2 * 18 + l % 18
  let up (l : Nat) : Bool := ((s.links.find (at_ l)).map (·.up)).getD true
  at_ ((firstFrom up 18 (redid / 2 % 18)).getD (redid / 2))

/-- XRED: once the context's stores are performed the source is read and sent; the destination is claimed (R222, R427,
R428). -/
def execXred (d a : BitVec 5) (m : BitVec 2) (s : State) : Out :=
  let regs := (List.range 4).map fun k => regPlus a k
  let f : Form := { srcs := regs.map fun r => (r, m), names := .g d :: regs.map .g }
  issue (.xred d a m) f s fun s =>
    let t := s.me
    let c := s.cur.1
    let w : Vector Word 4 := Vector.ofFn fun k => t.rd (regPlus a k.val)
    match xredReason w with
    | some k => s.fault Cause.bounds (BitVec.ofNat 64 (0xFFF9000000000000 + k))
    | none =>
      let r := xredReq w
      s.orFault (s.chkReduction c t.hb r.shb r.dhb r.ohb r.soff r.doff r.len r.ckind r.ooff) fun dh =>
        if !s.quiet c s.cur.2 || t.versionPending then s.waitFor .drain
        else
          match s.chkHandle c t.hb r.shb with
          | .error (code, info) => s.fault code info
          | .ok sh =>
            let n := (s.core c).xredAccepted + 1
            let cl := Claim.xred c n
            let go (s : State) (data : List Byte) (err : Option (Nat × Bool)) : Out :=
              let id := 2 ^ 61 + c % 2 ^ 13 * 2 ^ 48 + n % 2 ^ 48
              let taskId := (t.task.map (·.task.taskId)).getD 0
              let s := s.retireTo f (t.pc + 4) 0 fun t => t.wr d (BitVec.ofNat 64 id)
              let s := s.updCore c fun k => { k with xredAccepted := n }
              let part : Reduction := ⟨c, s.cur.2.val, (s.core c).launch.getD 0, id, w, t.hb, data, none, err, taskId, s.redLink r.redid⟩
              let s := { s with reductions := s.reductions ++ [part] }
              .next (s.claimRegion c cl dh r.doff r.len)
            match s.reductionSource c cl sh r.soff r.len with
            | .ok s b => go s b none
            | .held _ => s.waitFor .engine
            | .failed cause => go s [] (some (cause, false))

/-- The claim of a reduction in flight. -/
def Reduction.claim (r : Reduction) : Claim := .xred r.core (r.id % 2 ^ 48)

/-- The switch's result is written to the destination of a reduction, unless it has to wait for a line. -/
def State.writeReduction (s : State) (i : Nat) (r : Reduction) (data : List Byte) : State :=
  let q := xredReq r.req
  let put (s : State) (r : Reduction) : State := { s with reductions := setPlace s.reductions i r }
  match s.chkHandle r.core r.hbs q.dhb with
  | .error _ => put s { r with err := some (1, false) }
  | .ok h =>
    match s.placeFresh (s.rootOf r.core) r.core h q.doff q.len true with
    | .error _ => put s { r with err := some (1, false) }
    | .ok spans =>
      if s.heldSpans r.claim spans then put s { r with settled := some (data, false) }
      else put (s.engineWrite r.core h spans data 2 (quadOf r.core)) { r with settled := some (data, true) }

/-- REDUCTION_RESULT: a mismatch or a link's error ends the command with cause 5 (R428). -/
def execReductionResult (idx : Nat) (data : List Byte) (bad : Bool) (s : State) : Out :=
  match s.reductions[idx]? with
  | none => .next s
  | some r =>
    if r.settled.isSome ∨ r.err.isSome then .next s
    else if bad then .next { s with reductions := setPlace s.reductions idx { r with err := some (5, false) } }
    else if data.length ≠ (xredReq r.req).len then .next s
    else .next (s.writeReduction idx r data)

/-- The completion signal of a reduction or a collective, a release of the issuing quad and of those given, and its error's report
(R242, R313, R314, R428); none while its object's home holds the signal (R222). -/
def State.finishReduction (s : State) (c ctx : Nat) (hbs : Vector Word 16) (cl : Claim) (ohb : BitVec 4) (ckind ooff len count : Nat)
    (err : Option (Nat × Bool)) (taskId : Word) (kind id : Nat) (quads : List Nat) : Option State :=
  (s.endCommand c hbs cl ohb ckind ooff len count none err kind id (quadOf c :: quads)).map fun (err, s) =>
    match err with
    | none => s
    | some (cause, obj) => s.engineError c (Fin.ofNat 8 ctx) taskId (engineInfo cause obj count)

/-- A reduction completes once its result is written, or it has ended in error; its claims end at once. -/
def State.completeXred (s : State) (i : Nat) : State :=
  match s.reductions[i]? with
  | none => s
  | some r =>
    match r.settled, r.err with
    | some (data, false), none => s.writeReduction i r data
    | none, none => s
    | _, _ =>
      let q := xredReq r.req
      let s := s.releaseAll r.claim
      match s.finishReduction r.core r.ctx r.hbs r.claim q.ohb q.ckind q.ooff q.len (r.id % 2 ^ 48) r.err r.taskId 2
        (quadOf r.core) [] with
      | none => s
      | some s => { s with reductions := dropPlace s.reductions i }

/-! ### Collectives (R429 to R432) -/

structure CollReq where
  shb : BitVec 4
  dhb : BitVec 4
  ohb : BitVec 4
  ckind : Nat
  op : Nat
  fmt : Nat
  soff : Nat
  doff : Nat
  key : BitVec 32
  redid : Nat
  ooff : Nat
deriving DecidableEq, Repr

def collReq (d : BitVec 512) : CollReq :=
  ⟨d.extractLsb' 0 4, d.extractLsb' 4 4, d.extractLsb' 8 4, field d 12 2, field d 14 2, field d 16 4, field d 64 64,
    field d 128 64, d.extractLsb' 256 32, field d 320 16, field d 384 64⟩

/-- The collective engine of a key on a core's die (R430). -/
def collEngine (c : Nat) (key : BitVec 32) : Nat := dieOf c * 4 + field key 0 2

/-- The collective id (R431). -/
def collId (c : Nat) (key : BitVec 32) : Nat := field key 0 2 * 2 ^ 61 + c % 2 ^ 13 * 2 ^ 48 + key.toNat

/-- The reason a COLL fails, if it does (R429). -/
def State.collReason (s : State) (c : Nat) (d : BitVec 512) : Option Nat :=
  let r := collReq d
  if field d 28 36 ≠ 0 ∨ field d 227 29 ≠ 0 ∨ field d 288 32 ≠ 0 ∨ field d 336 48 ≠ 0 ∨ field d 448 64 ≠ 0 ∨ r.ckind = 2 ∨
      (r.ckind = 0 ∧ r.ohb ≠ 0) ∨ r.op = 3 ∨ !redFormats.contains r.fmt ∨ field d 224 3 = 7 then some 1
  else if collLen d = 0 ∨ collLen d % 64 ≠ 0 ∨ collChunks d > 1024 then some 2
  else if !(s.members c (collGroup d)).contains c then some 3
  else if s.collectives.any fun m => m.core == c && m.key == r.key && !m.ended then some 4
  else none

/-- A CWAIT of a context waits on a part. -/
def Ctx.awaitsPart (t : Ctx) (r : Collective) : Bool :=
  match t.wait.or t.napping with
  | some (.coll _ id _) => id == collId r.core r.key
  | _ => false

/-- A member's part joins. An ended part of its core and engine is kept until 16 later ones have been accepted, this one counted, and
while a CWAIT waits on it (R431). -/
def State.keepColl (s : State) (r : Collective) : List Collective :=
  let mine (m : Collective) : Bool := m.core == r.core && m.engine == r.engine
  let later (i : Nat) : Nat := ((s.collectives.drop (i + 1)).filter mine).length + 1
  let awaited (m : Collective) : Bool := (List.finRange 8).any fun x => (s.ctx m.core x).awaitsPart m
  ((s.collectives.zipIdx.filter fun (m, i) => !(mine m && m.ended && decide (later i ≥ 16) && !awaited m)).map (·.1)) ++ [r]

/-- The collectives in progress of an engine, one part of each (R431). -/
def State.collsAt (s : State) (e : Nat) : List (Nat × BitVec 32 × Nat) :=
  ((s.collectives.filter fun m => m.engine == e && !m.ended).map fun m => (m.launch, m.key, collGroup m.desc)).eraseDups

/-- COLL: its descriptor is read once (R429 to R431). -/
def execColl (d a : BitVec 5) (m : BitVec 2) (s : State) : Out :=
  let f := Form.f2 d a m
  issue (.coll d a m) f s fun s =>
    let t := s.me
    let c := s.cur.1
    let ref := t.rd a
    if refReserved ref then s.refFault 1
    else
      let off := refOffset ref
      s.orFault (s.chkAccess c t.hb (refBinding ref) off 64 ⟨false, redSpaces, 64, false⟩) fun h =>
        s.orFault (s.placeCore c h off 64 false) fun (spans, s) =>
          s.found (s.readDesc h off spans) off fun s desc =>
            match s.collReason c desc with
            | some k => s.fault Cause.bounds (BitVec.ofNat 64 (0xFFF8000000000000 + k))
            | none =>
              let r := collReq desc
              let e := collEngine c r.key
              s.orFault (s.chkReduction c t.hb r.shb r.dhb r.ohb r.soff r.doff (collLen desc) r.ckind r.ooff) fun dh =>
                let all := s.collsAt e
                let n := (s.core c).launch.getD 0
                if all.length ≥ 16 ∧ !all.contains (n, r.key, collGroup desc) then s.waitWith desc .engine
                else if !s.quiet c s.cur.2 || t.versionPending then s.waitWith desc .drain
                else
                  let taskId := (t.task.map (·.task.taskId)).getD 0
                  let part : Collective := ⟨c, s.cur.2.val, n, e, r.key, desc, t.hb, [], [], [], false, none, taskId⟩
                  let s := s.retireTo f (t.pc + 4) (BitVec.ofNat 64 (2 ^ 63 + collId c r.key % 2 ^ 61)) fun t =>
                    t.wr d (BitVec.ofNat 64 (collId c r.key))
                  let s := { s with collectives := s.keepColl part }
                  .next (s.claimRegion c (.coll e c r.key.toNat) dh r.doff (collLen desc))

def Collective.claim (r : Collective) : Claim := .coll r.engine r.core r.key.toNat

/-- Bytes of a chunk of a descriptor. -/
def chunkLen (d : BitVec 512) (k : Nat) : Nat := min (collChunk d) (collLen d - k * collChunk d)

/-- The parts of a collective end with cause 6; the one that failed itself with its own cause (R430). -/
def State.failColl (s : State) (r : Collective) (own : Option (Nat × Nat)) : State :=
  let mates := s.collMates r
  { s with collectives := s.collectives.map fun m =>
      if mates.contains m then
        { m with err := some (match own with
          | some (c, cause) => if c = m.core then (cause, false) else (6, false)
          | none => (6, false)) }
      else m }

/-- Members whose parts are combined, in ascending member number (R177, R430). -/
def State.collOrder (s : State) (r : Collective) : List Collective :=
  match s.launch r.launch with
  | none => []
  | some l => (l.group (collGroup r.desc)).filterMap fun c => (s.collMates r).find? fun m => m.core == c

/-- What reading or writing a chunk for the members came to: the state and the bytes, a stall, or a member that failed. -/
inductive ChunkStep (α : Type) where
  | ok (s : State) (a : α)
  | held (stall : Nat)
  | failed (core cause : Nat)

/-- Chunk k of every member's source, in order. -/
def State.readChunks (s : State) (k : Nat) : List Collective → ChunkStep (List (List Byte))
  | [] => .ok s []
  | m :: l =>
    let r := collReq m.desc
    match s.chkHandle m.core m.hbs r.shb with
    | .error _ => .failed m.core 1
    | .ok h =>
      match s.reductionSource m.core m.claim h (r.soff + k * collChunk m.desc) (chunkLen m.desc k) with
      | .held n => .held n
      | .failed cause => .failed m.core cause
      | .ok s b =>
        match s.readChunks k l with
        | .ok s rest => .ok s (b :: rest)
        | e => e

/-- The destinations of chunk k, each translated and free to be written. -/
def State.chunkPlaces (s : State) (k : Nat) : List Collective → ChunkStep (List (Collective × BitVec 256 × List Span))
  | [] => .ok s []
  | m :: l =>
    let r := collReq m.desc
    match s.chkHandle m.core m.hbs r.dhb with
    | .error _ => .failed m.core 1
    | .ok h =>
      match s.placeFresh (s.rootOf m.core) m.core h (r.doff + k * collChunk m.desc) (chunkLen m.desc k) true with
      | .error _ => .failed m.core 1
      | .ok spans =>
        if s.heldSpans m.claim spans then .held stallOwn
        else
          match s.chunkPlaces k l with
          | .ok s rest => .ok s ((m, h, spans) :: rest)
          | e => e

/-- The members' quads and the objects each holds dirty: what the completion of a chunk releases, since every member's COLL waited for
its stores (R242, R318). -/
def State.memberRelease (s : State) (parts : List Collective) : List (Nat × List Nat) :=
  (parts.map fun m => quadOf m.core).eraseDups.map fun q => (q, (s.quad q).dirtyObjs)

/-- A chunk served counts the cycles its engine stalled before it. -/
def State.collStall (s : State) (engine : Nat) : State :=
  let (n, s) := s.pick (2 ^ 48)
  { s with collStalls := s.collStalls.put engine (addStall [stallSrc, stallXlate, stallCredit] ((s.collStalls.find engine).getD (Vector.replicate 6 0)) n) }

/-- One member's destination of chunk k written, and the chunk complete there, a release at .sys (R430). -/
def State.writeChunk (s : State) (k : Nat) (b : List Byte) (parts : List Collective) (m : Collective) (h : BitVec 256)
    (spans : List Span) : State :=
  let s := s.engineWrite m.core h spans b 4 m.engine
  let s := (s.releaseSpans m.claim spans false).collStall m.engine
  let rel := s.memberRelease parts
  { s with collectives := s.collectives.map fun c => if c = m then { c with chunksDone := c.chunksDone ++ [k], rel := rel } else c }

/-- The package's contribution for the next chunk leaves for the switch, noted in every member's part (R430). -/
def State.sendChunk (s : State) (parts : List Collective) (redid : Nat) (b : List Byte) : State :=
  let link := s.redLink redid
  { s with collectives := s.collectives.map fun c => if parts.contains c then { c with sent := c.sent ++ [(link, b)] } else c }

/-- The chunk's bytes are written to every member (R430). -/
def State.placeChunk (s : State) (chunk : Nat) (b : List Byte) (r : Collective) (parts : List Collective) : State :=
  match s.chunkPlaces chunk parts with
  | .held _ => s
  | .failed core cause => s.failColl r (some (core, cause))
  | .ok s places => places.foldl (fun s (m, h, spans) => s.writeChunk chunk b parts m h spans) s

/-- The switch's result for a chunk waits at the homes of a member's destination, while a line of it is another command's (R222, R430).
-/
def State.chunkHeld (s : State) (idx chunk : Nat) : Bool :=
  match s.collectives[idx]? with
  | none => false
  | some r =>
    !r.ended && !r.finished && s.collJoined r && decide (chunk < r.sent.length) && !r.chunksDone.contains chunk &&
      match s.chunkPlaces chunk (s.collOrder r) with
      | .held _ => true
      | _ => false

/-- COLLECTIVE_CHUNK: a chunk of a collective that every member has joined is combined and rounded. A package-only result is written
to every member; else it is sent as the package's contribution, in ascending chunk number, and once sent the switch's result is
written in its place (R430). -/
def execCollectiveChunk (idx chunk : Nat) (fromSwitch : List Byte) (bad : Bool) (s : State) : Out :=
  match s.collectives[idx]? with
  | none => .next s
  | some r =>
    let q := collReq r.desc
    let parts := s.collOrder r
    let disagree := parts.any fun m => let p := collReq m.desc
      p.op != q.op || p.fmt != q.fmt || collLen m.desc != collLen r.desc || collChunk m.desc != collChunk r.desc
    if r.ended ∨ r.finished ∨ !s.collJoined r ∨ chunk ≥ collChunks r.desc ∨ r.chunksDone.contains chunk then .next s
    else if disagree then .next (s.failColl r none)
    else if q.redid ≠ 0 ∧ chunk < r.sent.length then
      if bad then .next (s.failColl r none)
      else if fromSwitch.length ≠ chunkLen r.desc chunk then .next s
      else .next (s.placeChunk chunk fromSwitch r parts)
    else if q.redid ≠ 0 ∧ chunk ≠ r.sent.length then .next s
    else
      match s.readChunks chunk parts with
      | .held _ => .next s
      | .failed core cause => .next (s.failColl r (some (core, cause)))
      | .ok s bs =>
        let b := reduceBytes q.op q.fmt (chunkLen r.desc chunk) bs
        .next (if q.redid = 0 then s.placeChunk chunk b r parts else s.sendChunk parts q.redid b)

/-- A member's collective completes: its signal follows its last chunk (R430); its claims end at once. -/
def State.completeColl (s : State) (i : Nat) : State :=
  match s.collectives[i]? with
  | none => s
  | some r =>
    if r.ended ∨ !r.finished then s
    else
      let q := collReq r.desc
      let s := s.releaseAll r.claim
      match s.finishReduction r.core r.ctx r.hbs r.claim q.ohb q.ckind q.ooff (collLen r.desc) r.key.toNat r.err r.taskId
        4 r.engine (r.rel.map (·.1)) with
      | none => s
      | some s => { s with collectives := setPlace s.collectives i { r with ended := true } }

/-- An acquire from the completion of a collective's chunk (R220, R432). -/
def State.acquirePart (s : State) (r : Collective) : State :=
  ((r.rel.filter fun e => e.1 != quadOf r.core).foldl (fun (s : State) e => s.drainQuad e.1 (some e.2)) s).acknowledged

/-- CWAIT: an acquire at .sys where the chunk has completed (R431, R432). -/
def execCwait (d a : BitVec 5) (m : BitVec 2) (b : BitVec 5) (n : BitVec 2) (s : State) : Out :=
  let f := Form.f3 d a m b n
  issue (.cwait d a m b n) f s fun s =>
    let id := (s.me.rd a).toNat
    let k := field (s.me.rd b) 0 10
    let answer (s : State) (v : Word) : Out := .next (s.retire f fun t => t.wr d v)
    let mine (r : Collective) : Bool :=
      r.core == s.cur.1 && some r.launch == (s.core s.cur.1).launch && collId r.core r.key == id
    match (s.collectives.filter mine).getLast? with
    | none => answer s 2
    | some r =>
      if k ≥ collChunks r.desc then s.fault Cause.bounds 0xFFF8000000000005
      else if r.chunksDone.contains k then answer (s.acquirePart r) 0
      else if r.err.isSome then answer s 1
      else s.waitFor (.coll ((collReq r.desc).redid == 0) id k)

/-! ### Completion of engine commands (R313) -/

/-- COMMAND_COMPLETION: the command named, if its bytes are performed or it has ended in error. -/
def execCommandCompletion (engine : EngineId) (s : State) : Out :=
  match engine with
  | .copy core => .next (s.completeCopy core)
  | .gather die e strm => .next (s.completeGather die e (Fin.ofNat 4 strm))
  | .xred idx => .next (s.completeXred idx)
  | .coll idx => .next (s.completeColl idx)

/-! ### RAMO (R433) -/

/-- A store of the context to a device is not yet acknowledged (R421, R433). -/
def State.remoteStores (s : State) (c : Nat) (x : Fin 8) (rdev : Nat) : Bool :=
  (s.remotes.any fun r => r.core == c && r.ctx == x.val && r.rdev == rdev && r.slot.isNone) ||
  (s.core c).stores.any fun r => r.ctx == x.val && match r.dest with
    | .remote d _ _ _ => d == rdev
    | _ => false

/-- RAMO: the request leaves for its device once earlier stores to it are acknowledged and, since it writes, the older reads of its
context have been performed; the fill brings the old value (R228, R230, R433). -/
def ramo (i : Instr) (op : BitVec 4) (pair : Bool) (d a : BitVec 5) (m : BitVec 2) (b : BitVec 5) (n : BitVec 2) (w : BitVec 1)
    (s : State) : Out :=
  let f : Form := if pair then { srcs := [(a, m), (b, n), (b + 1, n)], names := [.g d, .g a, .g b, .g (b + 1)] }
    else Form.f3 d a m b n
  issue i f s fun s =>
    let t := s.me
    let c := s.cur.1
    let ref := t.rd a
    let size := if w = 1 then 4 else 8
    if refReserved ref then s.refFault 1
    else
      let off := refOffset ref
      s.orFault (s.chkAccess c t.hb (refBinding ref) off size ⟨true, [spRemote], size, false⟩) fun h =>
        s.withSlot fun slot =>
          if t.versionPending || !s.mayWrite c s.cur.2 then s.waitFor .drain
          else if s.remoteStores c s.cur.2 (hRdev h) then s.waitFor .acks
          else
            let new := if pair then t.rd (b + 1) else 0
            .next ((s.sendRemote h off slot (.amo op (w == 1) (t.rd b) new)).retire f fun k =>
              k.produce d slot .remote none false)

/-- RAMO.swap (R433). -/
def execRamoSwap (d a : BitVec 5) (m : BitVec 2) (b : BitVec 5) (n : BitVec 2) (w : BitVec 1) (s : State) : Out :=
  ramo (.ramoSwap d a m b n w) 0 false d a m b n w s
/-- RAMO.add (R433). -/
def execRamoAdd (d a : BitVec 5) (m : BitVec 2) (b : BitVec 5) (n : BitVec 2) (w : BitVec 1) (s : State) : Out :=
  ramo (.ramoAdd d a m b n w) 1 false d a m b n w s
/-- RAMO.and (R433). -/
def execRamoAnd (d a : BitVec 5) (m : BitVec 2) (b : BitVec 5) (n : BitVec 2) (w : BitVec 1) (s : State) : Out :=
  ramo (.ramoAnd d a m b n w) 2 false d a m b n w s
/-- RAMO.or (R433). -/
def execRamoOr (d a : BitVec 5) (m : BitVec 2) (b : BitVec 5) (n : BitVec 2) (w : BitVec 1) (s : State) : Out :=
  ramo (.ramoOr d a m b n w) 3 false d a m b n w s
/-- RAMO.xor (R433). -/
def execRamoXor (d a : BitVec 5) (m : BitVec 2) (b : BitVec 5) (n : BitVec 2) (w : BitVec 1) (s : State) : Out :=
  ramo (.ramoXor d a m b n w) 4 false d a m b n w s
/-- RAMO.min (R433). -/
def execRamoMin (d a : BitVec 5) (m : BitVec 2) (b : BitVec 5) (n : BitVec 2) (w : BitVec 1) (s : State) : Out :=
  ramo (.ramoMin d a m b n w) 5 false d a m b n w s
/-- RAMO.max (R433). -/
def execRamoMax (d a : BitVec 5) (m : BitVec 2) (b : BitVec 5) (n : BitVec 2) (w : BitVec 1) (s : State) : Out :=
  ramo (.ramoMax d a m b n w) 6 false d a m b n w s
/-- RAMO.minu (R433). -/
def execRamoMinu (d a : BitVec 5) (m : BitVec 2) (b : BitVec 5) (n : BitVec 2) (w : BitVec 1) (s : State) : Out :=
  ramo (.ramoMinu d a m b n w) 7 false d a m b n w s
/-- RAMO.maxu (R433). -/
def execRamoMaxu (d a : BitVec 5) (m : BitVec 2) (b : BitVec 5) (n : BitVec 2) (w : BitVec 1) (s : State) : Out :=
  ramo (.ramoMaxu d a m b n w) 8 false d a m b n w s
/-- RAMO.cas: g[b] is compared, g[b + 1] is the new value (R433). -/
def execRamoCas (d a : BitVec 5) (m : BitVec 2) (b : BitVec 5) (n : BitVec 2) (w : BitVec 1) (s : State) : Out :=
  ramo (.ramoCas d a m b n w) 9 true d a m b n w s

/-! ### Packets of other devices (R419 to R423, R433) -/

/-- The window a packet reaches: its launch, that launch's record and the virtual address of an offset; none without one,
beyond it, or while the launch is suspended or being removed (R420, R363). -/
def State.windowPlace (s : State) (rlid offset len : Nat) (write : Bool) : Option (Nat × List Span) :=
  match s.launch rlid with
  | none => none
  | some l =>
    match l.window with
    | none => none
    | some (base, n) =>
      if l.state = .suspended ∨ offset + len > n then none
      else
        match s.placeVirtual l.root (base.toNat + offset) len write with
        | .error _ => none
        | .ok spans => if s.badSpans spans then none else some (rlid, spans)

/-- The bytes an access of a packet has. -/
def remoteSize : RemoteOp → Nat
  | .store data _ => data.length
  | .read => 8
  | .amo _ w4 _ _ => if w4 then 4 else 8

/-- A write of another device performed at its home, watched as kind 6 (R356, R419). -/
def State.remoteWrite (s : State) (link launch : Nat) (spans : List Span) (b : List Byte) : State :=
  (s.homeWrite spans b launch 6 link none).plainWriteSync spans

/-- The tagged update that follows a remote write: its byte count, or ERR with it (R422, R423). -/
def State.remoteTag (s : State) (pkt : RemotePacket) (tag : Option Nat) (n : Nat) (err : Bool) : State :=
  match tag with
  | none => s
  | some o =>
    match s.windowPlace pkt.rlid o 32 true with
    | some (launch, p :: _) =>
      let s := (s.recall (p.key / 64)).dirtyLine launch (p.key / 64) p.log false
      (s.barUpdate p.key 0 n err).watchWrite [⟨p.key, 32, false⟩] 6 pkt.link none
    | _ => s

/-- A packet from another device waits at a home for an engine: one of its bytes, or of the object that its tag names (R222, R419, R422).
-/
def State.packetHeld (s : State) (pkt : RemotePacket) : Bool :=
  let write : Bool := match pkt.op with
    | .read => false
    | _ => true
  let bytes := match s.windowPlace pkt.rlid pkt.offset (remoteSize pkt.op) write with
    | some (_, spans) => s.owned spans
    | none => false
  let tag := match pkt.op with
    | .store _ (some o) =>
      match s.windowPlace pkt.rlid o 32 true with
      | some (_, spans) => s.owned spans
      | none => false
    | _ => false
  bytes || tag

/-- The new value of a remote read-modify-write on m, none when a CAS does not match (R285, R286). -/
def ramoNew (op : BitVec 4) (w4 : Bool) (v new : Word) (m : Nat) : Option Nat :=
  let bits := if w4 then 32 else 64
  if op = 9 then if m = v.toNat % 2 ^ bits then some (new.toNat % 2 ^ bits) else none
  else some (amoNew op.toNat bits m (v.toNat % 2 ^ bits))

/-- REMOTE_PACKET_ARRIVAL: performed at the homes of its bytes after their dirty bytes have merged, or in error. Packets of a
launch being removed are discarded (R363, R419, R423). -/
def execRemotePacketArrival (pkt : RemotePacket) (s : State) : Out :=
  let n := remoteSize pkt.op
  let removing := ((s.launch pkt.rlid).map fun l => l.state == .removing).getD false
  if removing || s.packetHeld pkt then .next s
  else
    let write : Bool := match pkt.op with
      | .read => false
      | _ => true
    match s.windowPlace pkt.rlid pkt.offset n write, pkt.op with
    | none, .store _ tag => .next (s.remoteTag pkt tag n true)
    | none, _ => .next s
    | some (launch, spans), .store data tag => .next ((s.remoteWrite pkt.link launch spans data).remoteTag pkt tag n false)
    | some (_, spans), .read => .next (s.mergeSpans spans)
    | some (launch, spans), .amo code w4 v new =>
      let s := s.mergeSpans spans
      match ramoNew code w4 v new (leNat (s.homeBytes spans)) with
      | some m => .next (s.remoteWrite pkt.link launch spans (leBytes n m))
      | none => .next s

/-- TRAPINFO of EXT_ERROR from a remote store (R423). -/
def remoteInfo (r : RemoteReq) : Word := BitVec.ofNat 64 (2 ^ 61 + r.rdev % 2 ^ 12 * 2 ^ 48 + r.offset % 2 ^ 48)

/-- A remote store ended in error: its context takes EXT_ERROR, if its task still runs (R423). -/
def State.remoteError (s : State) (r : RemoteReq) : State :=
  let x : Fin 8 := Fin.ofNat 8 r.ctx
  let t := s.ctx r.core x
  if t.cstate = .running ∧ (t.task.map (·.task.taskId)) = some r.taskId then s.post r.core x (·.ext (remoteInfo r)) else s

/-- REMOTE_ACK: a remote store is acknowledged (R421, R423). -/
def execRemoteAck (idx : Nat) (err : Bool) (s : State) : Out :=
  match s.remotes[idx]? with
  | none => .next s
  | some r =>
    if r.slot.isSome then .next s
    else
      let s := { s with remotes := dropPlace s.remotes idx }
      .next (if err then s.remoteError r else s)

/-- A packet in flight on a link that goes down ends in error (R413, R423). -/
def State.linkError (s : State) (r : RemoteReq) : State :=
  match r.slot with
  | none => s.remoteError r
  | some n => s.updCtx r.core (Fin.ofNat 8 r.ctx) fun t => t.deliver n 0 true

/-- Reductions and collectives with a contribution or a result in flight on a link that goes down end in error: an XRED with cause 5
(R428), the members of a collective with cause 6 (R413; log entry 31). -/
def State.linkReductions (s : State) (link : Nat) : State :=
  let s : State := { s with reductions := s.reductions.map fun (r : Reduction) =>
    if r.link = link ∧ r.settled.isNone ∧ r.err.isNone then { r with err := some (5, false) } else r }
  let out (r : Collective) : Bool :=
    !r.ended && !r.finished && r.sent.zipIdx.any fun (e, k) => e.1 == link && !r.chunksDone.contains k
  { s with collectives := s.collectives.map fun r => if out r then { r with err := some (6, false) } else r }

/-- FLIT_REPLAY: a failing replay counts; the eighth takes the link down (R413). -/
def execFlitReplay (link : Nat) (ok : Bool) (s : State) : Out :=
  let l := (s.links.find link).getD ⟨true, 0⟩
  if l.up = false ∨ link ≥ 36 then .next s
  else if ok then .next { s with links := s.links.put link ⟨true, 0⟩ }
  else if l.failures + 1 < 8 then .next { s with links := s.links.put link ⟨true, l.failures + 1⟩ }
  else
    let lost := s.remotes.filter fun r => r.link == link
    let s := { s with links := s.links.put link ⟨false, 8⟩, remotes := s.remotes.filter fun r => r.link != link }
    .next ((lost.foldl State.linkError s).linkReductions link)

/-! ### Stalls while an engine waits (R327) -/

/-- The lowest of the causes of some steps that stall, when none of them can go on. -/
def stallOf (l : List Serve) : Option Nat :=
  let go := l.any fun
    | .done _ => true
    | _ => false
  if go then none
  else l.foldl (fun a e =>
    match e, a with
    | .stalls n, some m => some (min m n)
    | .stalls n, none => some n
    | _, a => a) none

/-- What a part's engine can do for the first chunk that has not completed. -/
def State.collServe (s : State) (r : Collective) : Serve :=
  if r.ended ∨ r.finished ∨ !s.collJoined r then .idle
  else
    let parts := s.collOrder r
    let k := ((List.range (collChunks r.desc)).find? fun k => !r.chunksDone.contains k).getD 0
    let place : Serve :=
      match s.chunkPlaces k parts with
      | .held n => .stalls n
      | _ => .done s
    if k < r.sent.length then place
    else
      match s.readChunks k parts with
      | .held n => .stalls n
      | _ => place

/-- What a chain's command processor can do for a COPY in progress, its entry n. -/
def State.copyServe (s : State) (ch n : Nat) (h : Chain) (e : List Byte) : Serve :=
  let cl := Claim.chain ch n
  let held (va : Nat) (write : Bool) : Bool :=
    match s.placeVirtual h.root (va + h.progress) (min 4096 (bytesNat e 24 8 - h.progress)) write with
    | .ok spans => s.heldSpans cl spans
    | .error _ => false
  if held (bytesNat e 16 8) false then .stalls stallSrc
  else
    match copyDest e with
    | some (.virtual va) => if held va true then .stalls stallOwn else .done s
    | some (.weight die o) =>
      let dest : List Span := [⟨weightKey die o, bytesNat e 24 8, false⟩]
      if s.dieInLaunch die then .done s
      else if s.heldSpans cl dest then .stalls stallOwn
      else if s.refreshAt dest then .stalls stallRefresh
      else .done s
    | none => .done s

/-- What it can do for a SIGNAL or a WAIT: its word's home holds them for an engine that owns the line (R222, R327). -/
def State.wordServe (s : State) (h : Chain) (e : List Byte) (write : Bool) : Serve :=
  match s.placeVirtual h.root (bytesNat e 8 8) 8 write with
  | .ok spans => if s.owned spans then .stalls (if write then stallOwn else stallSrc) else .done s
  | .error _ => .done s

/-- What it can do for the entry in progress. -/
def State.entryServe (s : State) (ch n : Nat) (h : Chain) (e : List Byte) : Serve :=
  let ty := bytesNat e 0 1
  if ty = tyCopy then s.copyServe ch n h e
  else if ty = tySignal then s.wordServe h e true
  else if ty = tyWait then s.wordServe h e false
  else .idle

/-- Mesh cycles that pass count as stalls of every engine that waits (R327). -/
def State.stallEngines (s : State) (n : Nat) : State :=
  if n = 0 then s
  else
    let quads := s.quads.mapVals fun q k =>
      match stallOf ((List.range 4).map fun i => s.copyChunk (4 * q + i)) with
      | some cause => { k with stalls := countStall k.stalls cause n }
      | none => k
    let gathers := s.gathers.mapVals fun e g =>
      match stallOf ((List.finRange 4).map fun i => s.gatherRow (e / 32) (e % 32) i) with
      | some cause => { g with stalls := countStall g.stalls cause n }
      | none => g
    let engines := (s.collectives.map (·.engine)).eraseDups
    let colls := engines.foldl (fun m e =>
      match stallOf ((s.collectives.filter fun r => r.engine == e).map s.collServe) with
      | some cause => m.put e (countStall ((m.find e).getD (Vector.replicate 6 0)) cause n)
      | none => m) s.collStalls
    let copies (i : Nat) : List Serve := s.chains.filterMap fun (ch, h) =>
      match h.current, h.status with
      | some k, none =>
        if ioOf ch = i then some (s.entryServe ch k h (s.chainEntry ch k)) else none
      | _, _ => none
    let ios := [0, 1].foldl (fun m i =>
      match stallOf (copies i) with
      | some cause => m.put i (countStall ((m.find i).getD (Vector.replicate 6 0)) cause n)
      | none => m) s.ioStalls
    { s with quads := quads, gathers := gathers, collStalls := colls, ioStalls := ios }

/-- The mesh clock goes on to a cycle, in which the engines that wait have stalled (R207, R327). -/
def State.tick (s : State) (mesh : Nat) : State := { s.stallEngines (mesh - s.mesh) with mesh := mesh }

/-! ### The dirty-range log and the fabric identity -/

/-- LOG_ENTRY_WRITE (R222, R410). -/
def execLogEntryWrite (slice : Nat) (s : State) : Out := .next (if s.logOwned then s else s.flushLog slice)

/-- DEVICE_ID_ASSIGNMENT (R417). -/
def execDeviceIdAssignment (id : BitVec 12) (s : State) : Out := .next { s with devid := id }

end Sys2Proof.Machine
end

