-- ==== Sys2Proof/Machine/Energy.lean ====
section
/-!
DEFINITION. The power controller's and the supply's events (R368 to R381).
-/

namespace Sys2Proof.Machine

/-! ### The control-interval boundary (R368) -/

/-- The PERMIL a boundary measures for a cluster: its last one when the list has none. -/
def meltOf (melt : List (Nat × Nat)) (n : Nat) (k : Cluster) : Nat :=
  match melt.find? fun e => e.1 == n with
  | some e => min e.2 1000
  | none => k.permil

/-- How a lease in effect ends at a boundary, the watchdog apart: hard stop, PERMIL, duration; 0 when it goes on (R378). -/
def leaseEnd (permil remain : Nat) (hardStop : Bool) : BitVec 4 :=
  if hardStop then 4 else if permil ≥ 950 then 3 else if remain = 0 then 2 else 0

/-- A lease at a boundary: a grant takes effect, a running one has an interval less (R376, R378). -/
def Gust.boundary (g : Gust) (permil : Nat) (hardStop : Bool) : Gust :=
  let remain := if g.pending then g.remain else g.remain - 16000
  { g with pending := false, remain := remain, due := leaseEnd permil remain hardStop }

/-- A cluster at a boundary: MELT, refreeze and expiry tests, refill, starved marks (R368, R370, R371, R375). -/
def Cluster.boundary (k : Cluster) (permil : Nat) : Cluster :=
  let hardStop := !k.refrz && permil == 1000
  let k := { k with
    permil := permil
    refrz := hardStop || (k.refrz && decide (permil ≥ 200))
    gust := k.gust.map fun (g : Gust) => g.boundary permil hardStop }
  let twice := k.refusedNow.filter fun id => k.refusedLast.contains id && !k.starved.contains id
  let k := { k with raised := (k.gust.map fun (g : Gust) => g.due == 0).getD false }
  { k with
    remE := k.budget
    starved := k.starved ++ twice
    kept := k.kept ++ twice
    refusedLast := k.refusedNow
    refusedNow := [] }

/-- A context's quota at a boundary, and its bar (R372, R373). -/
def Ctx.refill (t : Ctx) (quota : Nat) : Ctx :=
  if quota = 0 then t
  else
    let rem := min (quota : Int) (t.enquota.toInt + quota)
    { t with enquota := BitVec.ofInt 64 rem, barred := t.barred && decide (rem ≤ 0) }

/-- The clusters that a boundary has something to do for: listed already, or measured. -/
def State.touchClusters (s : State) (melt : List (Nat × Nat)) : State :=
  melt.foldl (fun s e => if e.1 < 256 then s.setCluster e.1 (s.cluster e.1) else s) s

/-- The first boundary of a control interval after a mesh cycle (R368). -/
def nextBoundary (mesh : Nat) : Nat := (mesh / 16000 + 1) * 16000

/-- CONTROL_INTERVAL_BOUNDARY: the steps of R368 in order, at the next multiple of 16,000 mesh cycles. -/
def execControlIntervalBoundary (melt : List (Nat × Nat)) (s : State) : Out :=
  let s := (s.tick (nextBoundary s.mesh)).touchClusters melt
  -- intervals that have passed without a write of the firmware's
  let silent := if s.fwWrote then 0 else s.fwIdle + 1
  let quota (k : Core) : Nat := ((k.launch.bind s.launch).map (·.quota)).getD 0
  .next { s with
    clusters := s.clusters.mapVals fun n k => k.boundary (meltOf melt n k)
    cores := s.cores.mapVals fun _ k => { k with ctxs := mapVec (fun t => t.refill (quota k)) k.ctxs }
    fwIdle := silent
    fwWrote := false
    fwDue := silent == 4
    obs := s.obs.map fun o => { o with intervals := o.intervals + 1 } }

/-- A lease that its boundary has ended leaves, and its holder is told when it runs a task (R378). -/
def execGustLeaseExpiry (cluster : Nat) (s : State) : Out :=
  let k := s.cluster cluster
  match k.gust with
  | none => .next s
  | some g =>
    if g.due = 0 then .next s
    else
      let s := s.setCluster cluster { k with gust := none, lastEnd := g.due }
      let x : Fin 8 := Fin.ofNat 8 g.ctx
      let t := s.ctx g.core x
      if t.cstate = .running then
        let info := BitVec.ofNat 64 (g.due.toNat + k.permil * 2 ^ 16)
        .next (s.post g.core x fun a => { a with gust := some info })
      else .next s

/-- FIRMWARE_WATCHDOG: fused defaults return in every cluster and every lease in effect ends with LAST = 6, unless the hard
stop has ended it (R378, R381). -/
def execFirmwareWatchdog (s : State) : Out :=
  if s.fwDue = false then .next s
  else
    let expire (g : Gust) : Gust := { g with due := if g.due = 4 then 4 else 6 }
    let reset (k : Cluster) : Cluster :=
      let k : Cluster := { k with eb := 81250, ib := 96, gust := k.gust.map expire, raised := false }
      { k with remE := k.budget }
    .next { s with fwDue := false, clusters := s.clusters.mapVals fun _ k => reset k }

/-- FIRMWARE_BUDGET_WRITE: clamped by the hardware (R369). -/
def execFirmwareBudgetWrite (cluster eb ib : Nat) (s : State) : Out :=
  if cluster ≥ 256 then .next s
  else
    let k := s.cluster cluster
    let s := { s with fwWrote := true }
    .next (s.setCluster cluster { k with eb := min (max eb 65536) 81250, ib := min (max ib 15) 96 })

/-- POWER_FIRMWARE_UPDATE (R374). -/
def execPowerFirmwareUpdate (begins : Bool) (s : State) : Out := .next { s with fwUpdate := begins }

/-- ENERGY_METER_UPDATE: a context with a quota is charged; REM may fall below zero (R372). -/
def execEnergyMeterUpdate (core ctx nj : Nat) (s : State) : Out :=
  let quota := ((s.launchOf core).map fun l => l.2.quota).getD 0
  if quota = 0 then .next s
  else
    .next (s.updCtx core (Fin.ofNat 8 ctx) fun t => { t with enquota := BitVec.ofInt 64 (t.enquota.toInt - nj) })

/-! ### Clocks and supply (R379 to R381) -/

/-- The clock of a core in steps of 100 MHz: half its ceiling while the supply sags, then a step more each microsecond; a
lease in effect raises the ceiling (R379). -/
def State.clock (s : State) (c : Nat) : Nat :=
  let k := s.core c
  let top := match (s.cluster (clusterOf c)).gust with
    | some g => if g.pending ∨ g.due ≠ 0 then 40 else 44
    | none => 40
  if k.sag then top / 2
  else
    match k.sagEnd with
    | some m => min top (top / 2 + (s.mesh - m) / 2000)
    | none => top

/-- SUPPLY_SAG (R379). -/
def execSupplySag (core : Nat) (s : State) : Out := .next (s.updCore core fun k => { k with sag := true })

/-- SAG_CLEAR: the clock begins to climb back (R379). -/
def execSagClear (core : Nat) (s : State) : Out :=
  .next (if (s.core core).sag then s.updCore core fun k => { k with sag := false, sagEnd := some s.mesh } else s)

/-- THERMAL_TRIP: the clocks of a cluster pause (R381). -/
def execThermalTrip (cluster : Nat) (s : State) : Out :=
  .next (s.setCluster cluster { (s.cluster cluster) with tripped := true })

/-- THERMAL_RECOVER (R381). -/
def execThermalRecover (cluster : Nat) (s : State) : Out :=
  .next (s.setCluster cluster { (s.cluster cluster) with tripped := false })

/-- An engine owns the line of a checkpoint marker that a loss of supply would store: the warning finds it free (R222, R380). -/
def State.markerHeld (s : State) : Bool :=
  !s.supplyLost && s.launches.any fun (_, l) => l.state == .running && l.ckpt != 0 && s.owned [⟨physKey 0 l.ckpt, 8, false⟩]

/-- SUPPLY_LOSS_WARNING: dispatch stops, every quad cache drains, dirty lines are written back and counted, and each running
launch's checkpoint marker is stored (R380). -/
def execSupplyLossWarning (s : State) : Out :=
  if s.supplyLost || s.markerHeld then .next s
  else
    let s := { s with supplyLost := true }
    let s := s.quads.foldl (fun s (q, _) => s.drainAll q none) s
    let lines := s.l2dirty.length
    let marker := leBytes 8 (2 ^ 63 + 2 ^ 62 + lines % 2 ^ 48)
    let s := { s with l2dirty := [] }
    let s := s.launches.foldl (fun s (_, l) =>
      if l.state = .running ∧ l.ckpt ≠ 0 then
        let span : Span := ⟨physKey 0 l.ckpt, 8, false⟩
        (s.quietWrite [span] marker 0).plainWriteSync [span]
      else s) s
    .next { s with l2dirty := [] }

end Sys2Proof.Machine
end

