-- ==== Sys2Proof/Machine/Observe.lean ====
section
/-!
DEFINITION. Observation: isobar maps (R436, R437), the flash trigger's latch and its copy (R392, R439), task stops (R441).
-/

namespace Sys2Proof.Machine

/-- A range of main memory, at a physical address as it stands (R2; DESIGN CHOICE, log entry 66), filled by a command processor: cached
copies recalled and pushes on their way overtaken (R237), the given words at their offsets, zeros elsewhere, its lines dirty in L2 within
its slices' room (R2), the waits on its words seen to (R339); watched as kind 5. -/
def State.fillRange (s : State) (pa len : Nat) (words : List (Nat × Nat)) : State :=
  let key := physKey 0 pa
  let first := key / 64
  let inside (l : Nat) : Bool := decide (first ≤ l ∧ l < first + len / 64)
  let lines := (s.quads.flatMap fun (_, q) => (q.cache.filter fun (l, _) => inside l).map (·.1)).eraseDups
  let s := (lines.foldl (fun s l => s.recall l) s).staleLines inside
  let m := s.mem.filter fun c => !decide (key ≤ c.1 ∧ c.1 < key + len)
  let s := { s with
    mem := words.foldl (fun m (w : Nat × Nat) => if w.1 + 8 ≤ len then Memory.store m (key + w.1) (leBytes 8 w.2) else m) m
    tileReads := s.tileReads.filter fun w => !w.lines.any inside }
  let s := s.l2KeepAll ((List.range (len / 64)).map (first + ·))
  ((s.plainRange key len).metLines inside).watchWrite [⟨key, len, false⟩] 5 0 none

/-- Bytes from one frame to the next, and of a frame's layout (R437). -/
def frameStride : Nat := 0xA1000
def frameSize : Nat := 0xA0940

/-- Two 32-bit counts in one word rise by those of another, and saturate (R436). -/
def addCounts (a b : BitVec 64) : BitVec 64 :=
  BitVec.ofNat 64 (min (field a 0 32 + field b 0 32) (2 ^ 32 - 1) + min (field a 32 32 + field b 32 32) (2 ^ 32 - 1) * 2 ^ 32)

/-- Isobar maps are on: an OBSCFG is in force whose interval is not 0 (R435). -/
def State.samples (s : State) : Bool := (s.obs.map fun o => o.interval != 0).getD false

/-- The ports count what has passed them, by the places of their counts in a frame, while isobar maps are on: a frame's counts are of
the cycles that it covers (R436, R437). -/
def State.countPorts (s : State) (counts : List (Nat × BitVec 64)) : State :=
  if s.samples = false then s
  else
    counts.foldl (fun (s : State) (o, n) =>
      if 0x40 ≤ o ∧ o + 8 ≤ frameSize ∧ o % 8 = 0 then { s with ports := s.ports.put o (addCounts ((s.ports.find o).getD 0) n) }
      else s) s

/-- The boundary is one at which a frame is sampled (R435, R436). -/
def State.sampleDue (s : State) : Bool :=
  s.mesh % 16000 == 0 && (s.obs.map fun o => o.interval != 0 && decide (o.interval ≤ o.intervals)).getD false

/-- An engine owns a line of a range of main memory, whose home holds what comes to it (R222). -/
def State.fillHeld (s : State) (pa len : Nat) : Bool :=
  s.owners.any fun (l, _) => decide (physKey 0 pa / 64 ≤ l ∧ l < (physKey 0 pa + len + 63) / 64)

/-- Frames written in their order, as far as no engine owns a line of the next one (R222, R437). -/
def State.writeFrames (s : State) : List (Nat × List (Nat × Nat)) → State
  | [] => { s with frames := [] }
  | (pa, words) :: rest =>
    if s.fillHeld pa frameSize then { s with frames := (pa, words) :: rest } else (s.fillRange pa frameSize words).writeFrames rest

/-- ISOBAR_SAMPLE: the ports count traffic; at a sampling boundary every count is taken for a frame and restarts from zero, and a later
OBSCFG then takes its place. Frames are written, each frame's number last, once no engine owns a line of theirs (R222, R435 to R437).
-/
def execIsobarSample (counts : List (Nat × BitVec 64)) (s : State) : Out :=
  let s := s.countPorts counts
  match s.obs with
  | none => .next (s.writeFrames s.frames)
  | some o =>
    if s.sampleDue = false then .next (s.writeFrames s.frames)
    else
      let k := o.frame + 1
      let body := s.ports.map fun c => (c.1, c.2.toNat)
      let frame := body ++ [(8, s.mesh), (16, s.mesh - o.lastSample), (0, k)]
      let s := s.writeFrames (s.frames ++ [(o.ring + frameStride * (k % o.frames), frame)])
      let next := { o with frame := k, lastSample := s.mesh, intervals := 0 }
      match s.obsNext with
      | some n => .next { s with ports := [], obs := some { n with lastSample := s.mesh }, obsNext := none }
      | none => .next { s with ports := [], obs := some next }

/-- HOST_FLASH_TRIGGER (R439). -/
def execHostFlashTrigger (s : State) : Out := .next s.fireTrigger

/-- Code of a context's state in a snapshot (R439). -/
def CtxState.code : CtxState → Nat
  | .dormant => 0
  | .reserved => 1
  | .running => 2
  | .draining => 3

/-- The record of a context (R439). -/
def snapshotRecord (k : Core) (x : Fin 8) : BitVec 128 :=
  let t := k.ctx x
  let id := ((t.task.map fun (i : TaskInfo) => i.task.taskId).getD 0).toNat
  BitVec.ofNat 128 (id + field t.faultPc 0 16 * 2 ^ 64 + t.cstate.code * 2 ^ 80 + (if k.pipe = some x then 2 ^ 82 else 0) +
    if t.parked.isSome then 2 ^ 83 else 0)

/-- The cores whose clocks run: those of a cluster that has tripped do nothing (R381). -/
def State.running (s : State) : NatMap Core := s.cores.filter fun (c, _) => !s.paused c

/-- Mesh cycles at which something happens whatever else does: the trigger's latch and the ends of sleeps (R386, R392). -/
def State.dueCycles (s : State) : List Nat :=
  s.trigger.latchAt.toList ++ s.running.flatMap fun (_, k) => (List.finRange 8).filterMap fun x => (k.ctx x).sleep

/-- The mesh clock can go on to a cycle: it passes no boundary of the control interval (R368), and nothing is due before. -/
def State.canReach (s : State) (n : Nat) : Bool := decide (n < nextBoundary s.mesh) && s.dueCycles.all fun d => decide (n ≤ d)

/-- Nothing is due before the next boundary of the control interval. -/
def State.boundaryNext (s : State) : Bool := s.dueCycles.all fun d => decide (nextBoundary s.mesh ≤ d)

/-- SNAPSHOT_LATCH: at the trigger's latch cycle, which the mesh clock does not pass without it, every context's record is latched; a
copy under way is overtaken (R392, R439). -/
def execSnapshotLatch (s : State) : Out :=
  match s.trigger.latchAt with
  | none => .next s
  | some n =>
    if s.canReach n = false then .next s
    else
      let records := s.cores.flatMap fun (c, k) =>
        ((List.finRange 8).map fun x => (8 * c + x.val, snapshotRecord k x)).filter fun r => r.2 != 0
      let copy := ((s.obs.map (·.copy)).getD 0) != 0
      .next { s.tick (max s.mesh n) with
        trigger := { s.trigger with latched := s.trigger.number, latchAt := none, records := records, copying := copy } }

/-- SNAPSHOT_COPY: the record block, then the number of the trigger it was latched for, once no engine owns a line of the copy (R222,
R439). -/
def execSnapshotCopy (s : State) : Out :=
  let base := (s.obs.map (·.copy)).getD 0
  if s.trigger.copying = false ∨ base = 0 ∨ s.fillHeld base 0x101000 = true then .next s
  else
    let words := s.trigger.records.flatMap fun (i, r) =>
      [(0x1000 + 16 * i, field r 0 64), (0x1000 + 16 * i + 8, field r 64 64)]
    let s := s.fillRange base 0x101000 (words ++ [(0, s.trigger.latched.toNat)])
    .next { s with trigger := { s.trigger with copying := false } }

/-- TASK_STOP_WRITE: in force at every core within 2 µs (R441). -/
def execTaskStopWrite (n : Nat) (word0 word1 : Word) (s : State) : Out :=
  if n ≥ 4 then .next s else .next { s with taskStops := s.taskStops.put n ⟨word0, word1 &&& 0x7FFFD, s.mesh, []⟩ }

/-! ### What the host reads (R402, R438 to R441) -/

/-- Counter i of a block of six. -/
def stallAt (l : Vector Nat 6) (i : Nat) : Word := BitVec.ofNat 64 (l[i]?.getD 0)

/-- The 8-byte register of BAR0 at an offset. The places of the MSI-X pending bits are log entry 62's; what no rule places reads zero.
-/
def State.bar0Read (s : State) (offset : Nat) : Word :=
  let o := offset / 8 * 8
  let half (b : BitVec 128) : Word := b.extractLsb' (o % 16 * 8) 64
  if o = 0 then s.bar0Error
  else if o = 0x10 then s.trigger.latched.setWidth 64
  else if o = 0x18 then BitVec.ofNat 64 secondCapacity
  else if 0x100 ≤ o ∧ o < 0x180 then half ((s.breakpoints.find ((o - 0x100) / 16)).getD 0)
  else if 0x200 ≤ o ∧ o < 0x240 then
    match s.taskStops.find ((o - 0x200) / 16) with
    | some k => if o % 16 = 0 then k.taskId else k.word1
    | none => 0
  else if 0x400 ≤ o ∧ o < 0x800 then (s.chainHalt.find ((o - 0x400) / 8)).getD 0
  else if 0x1000 ≤ o ∧ o < 0x1800 then half (s.chain ((o - 0x1000) / 16)).reg
  else if 0x10000 ≤ o ∧ o < 0x10800 then (s.msixTable.find o).getD 0
  else if 0x10800 ≤ o ∧ o < 0x10810 then half s.msixPending
  else if 0x20000 ≤ o ∧ o < 0x40000 then stallAt (s.quad ((o - 0x20000) / 64)).stalls (o % 64 / 8)
  else if 0x40000 ≤ o ∧ o < 0x42000 then stallAt (s.gather ((o - 0x40000) / 64)).stalls (o % 64 / 8)
  else if 0x42000 ≤ o ∧ o < 0x42400 then
    stallAt ((s.collStalls.find ((o - 0x42000) / 64)).getD (Vector.replicate 6 0)) (o % 64 / 8)
  else if 0x42400 ≤ o ∧ o < 0x42480 then
    stallAt ((s.ioStalls.find ((o - 0x42400) / 64)).getD (Vector.replicate 6 0)) (o % 64 / 8)
  else if 0x50000 ≤ o ∧ o < 0x70000 then
    let k := s.core ((o - 0x50000) / 16)
    BitVec.ofNat 64 (if o % 16 = 0 then k.parityRefetches else k.lostHits)
  else if 0x100000 ≤ o ∧ o < 0x200000 then half ((s.trigger.records.find ((o - 0x100000) / 16)).getD 0)
  else 0

/-- Bytes of BAR2 as a host read finds them, the dirty bytes of their lines merged first: main memory, then the weight stores, zero
elsewhere (R205, R402). -/
def State.bar2Read (s : State) (offset n : Nat) : List Byte × State :=
  let s := s.mergeSpans (barPart offset n 0 barWeights (physKey 0 0)).toList
  ((List.range n).map fun i =>
    let o := offset + i
    if o < barWeights then Memory.get s.mem (physKey 0 o)
    else if o < barWeights + 4 * 2 ^ 30 then Memory.get s.mem (weightKey ((o - barWeights) / 2 ^ 30) ((o - barWeights) % 2 ^ 30))
    else 0, s)

end Sys2Proof.Machine
end

