-- ==== Sys2Proof/Machine/Events.lean ====
section
/-!
DEFINITION. The events of a core: fills, sidings, tokens, switches (R18, R28, R31 to R35, R106, R130, R280, R349), performed
stores and merges (R203, R205), the mesh clock's windows (R207), sleep, the watchdog (R350), the doldrums trap (R365, R366)
and reset.
-/

namespace Sys2Proof.Machine

/-! ### Fills -/

/-- TRAPINFO of EXT_ERROR carried by a fill (R280). -/
def fillInfo (reg : BitVec 5) (slot : Nat) : Word := BitVec.ofNat 64 (2 ^ 63 + reg.toNat * 16 + slot % 16)

/-- A fill applied at the foot: the register, if it is EMPTY with the fill's tag, and the release of the slot (R18,
R280). -/
def Ctx.applyFill (t : Ctx) (slot : Nat) (f : FillSlot) (v : Word) (err : Bool) : Ctx :=
  let mine := !f.orphan && t.rst f.reg == .empty (BitVec.ofNat 4 slot)
  let gone : Fading := ⟨f.reg, 16, some (BitVec.ofNat 4 slot)⟩
  let t := if mine then
      (if err then { t.free f.reg with fading := gone :: t.fading } else { t.wr f.reg v with filled := gone :: t.filled })
    else t
  { t with
    fills := t.fills.del slot
    parked := match t.parked with
      | some l => if l.contains slot then none else some l
      | none => none
    sleep := none
    wait := match t.wait with
      | some (.source regs) => if mine && err && regs.contains f.reg then some .lost else none
      | some .fillSlot => none
      | w => w }

/-- A remote read's or RAMO's value from the data that arrived: sign-extended from 4 bytes for the short form (R433). -/
def remoteValue (op : RemoteOp) (v : Word) : Word :=
  match op with
  | .amo _ true _ _ => (v.setWidth 32).signExtend 64
  | _ => v

/-- The store goes before the read of a slot of its context, which is older: it is none of those (R233, R280). -/
def StoreRec.youngerThan (r : StoreRec) (x : Fin 8) (slot : Nat) : Bool := r.ctx == x.val && r.after.contains slot

/-- The read of an LD.a that was held up: it sees its core's stores up to the first younger one of its context, and neither the L1's
copy nor a new one where a younger one has gone through it (R222, R233, R280). -/
def State.readLate (s : State) (c : Nat) (x : Fin 8) (slot : Nat) (h : BitVec 256) (off key : Nat) : Found (List Byte) :=
  let all := (s.core c).stores
  let seen := all.takeWhile fun r => !r.youngerThan x slot
  let nc := (all.drop seen.length).any fun r => r.addr / 64 == key / 64
  match (s.updCore c fun k => { k with stores := seen }).readFor c x h off [⟨key, 8, false⟩] nc false with
  | .ok s b => .ok (s.updCore c fun k => { k with stores := all }) b
  | .wait w => .wait w
  | .bad s => .bad (s.updCore c fun k => { k with stores := all })

/-- What a fill brings: the value held for it; for an LD.a that its home or an older access had held up, the bytes read now (R222,
R279, R280); for a request to another device, the data that arrived. -/
def State.fillValue (s : State) (c ctx slot : Nat) (f : FillSlot) (data : Option Word) (err : Bool) :
    Option (Word × Bool × State) :=
  let mine (r : RemoteReq) : Bool := r.core == c && r.ctx == ctx && r.slot == some slot
  match f.kind, f.value with
  | .held h off key after, none =>
    let x : Fin 8 := Fin.ofNat 8 ctx
    if !after.isEmpty || s.fullOpen c x then none
    else
      match s.readLate c x slot h off key with
      | .ok s b => some (loadValue 8 b, false, s)
      | .wait _ => none
      | .bad s => some (0, true, s)
  | .remote, none =>
    match s.remotes.find? mine with
    | none => none
    | some r =>
      let s := { s with remotes := s.remotes.filter fun r => !mine r }
      if err then some (0, true, s) else data.map fun v => (remoteValue r.op v, false, s)
  | _, some v => some (v, f.err, s)
  | _, none => none

/-- The acquire of a future version's arrival (R240, R292). -/
def State.fillAcquire (s : State) (c : Nat) (f : FillSlot) : State :=
  match f.kind with
  | .version word _ true => if f.orphan then s else s.acquire word (quadOf c)
  | _ => s

/-- The read that a fill brings has been performed: younger stores, reads and copy commands of its context wait for it no more (R213,
R230, R240, R280). -/
def StoreRec.afterFill (r : StoreRec) (x : Fin 8) (slot : Nat) : StoreRec :=
  if r.ctx = x.val then { r with after := r.after.filter (· != slot) } else r
def CopyCmd.afterFill (k : CopyCmd) (x : Fin 8) (slot : Nat) : CopyCmd :=
  if k.ctx = x.val then { k with after := k.after.filter (· != slot) } else k
def FillSlot.afterFill (f : FillSlot) (slot : Nat) : FillSlot :=
  match f.kind with
  | .held h off key after => { f with kind := .held h off key (after.filter (· != slot)) }
  | _ => f
def State.afterFill (s : State) (c : Nat) (x : Fin 8) (slot : Nat) : State :=
  (s.updCtx c x fun t => { t with fills := t.fills.mapVals fun _ f => f.afterFill slot }).updCore c fun k =>
    { k with
      stores := k.stores.map fun r => r.afterFill x slot
      fifo := k.fifo.map fun r => r.afterFill x slot }

/-- The request of a remote LD.a that an older access has held up leaves for its device once none does (R228, R240, R279, R419); none for
any other fill. -/
def State.sendHeld (s : State) (c : Nat) (x : Fin 8) (slot : Nat) (f : FillSlot) : Option State :=
  match f.kind, f.value with
  | .held h off _ after, none =>
    if hSpace h ≠ spRemote then none
    else if !after.isEmpty || s.fullOpen c x then some s
    else some ((s.sendFor c x h off slot .read).updCtx c x fun t => { t with fills := t.fills.put slot { f with kind := .remote } })
  | _, _ => none

/-- A fill applied, and what waits for it told (R18, R280). -/
def State.fillWith (s : State) (core : Nat) (x : Fin 8) (slot : Nat) (f : FillSlot) (v : Word) (bad : Bool) : State :=
  let s := (s.fillAcquire core f).updCtx core x fun t => t.applyFill slot f v bad
  let s := s.afterFill core x slot
  -- a context out of the pipe has no instruction decoded
  let s := if (s.core core).pipe = some x then s else s.updCtx core x Ctx.serial
  let s := s.updCore core Core.feed
  if bad ∧ f.orphan = false then s.post core x (·.ext (fillInfo f.reg slot)) else s

/-- FILL_ARRIVAL (R18, R279, R280). -/
def execFillArrival (core ctx slot : Nat) (data : Option (BitVec 64)) (err : Bool) (s : State) : Out :=
  let x : Fin 8 := Fin.ofNat 8 ctx
  match (s.ctx core x).fills.find slot with
  | none => .next s
  | some f =>
    match s.sendHeld core x slot f with
    | some s => .next s
    | none => .next (match s.fillValue core x.val slot f data err with
      | none => s
      | some (v, bad, s) => s.fillWith core x slot f v bad)

/-- DEEP_MISS_NOTICE: for a slot whose access is outstanding in memory, an LD.a that is still to be performed among them (R34). -/
def execDeepMissNotice (core ctx slot : Nat) (s : State) : Out :=
  .next (s.updCtx core (Fin.ofNat 8 ctx) fun t =>
    match t.fills.find slot with
    | some f =>
      match f.kind with
      | .load | .held .. => { t with fills := t.fills.put slot { f with deep := true } }
      | _ => t
    | none => t)

/-! ### Sidings -/

/-- A change to the context that holds a core's pipe. -/
def State.updPipe (s : State) (c : Nat) (f : Ctx → Ctx) : State :=
  match (s.core c).pipe with
  | none => s
  | some x => s.updCtx c x f

/-- SIDING_REJOIN: the instruction at PC goes on, its wait over (R28). A stall on a source or a slot ends with a fill, a miss
with its data. -/
def execSidingRejoin (core : Nat) (s : State) : Out :=
  .next (s.updPipe core fun t =>
    match t.wait with
    | some (.source _) | some .lost | some .fillSlot | some (.miss _) => t
    | _ => { t with wait := none })

/-- MISS_RETURN: the line is free to be read (R106, R222). -/
def execMissReturn (core : Nat) (s : State) : Out :=
  .next (s.updPipe core fun t =>
    match t.wait with
    | some (.miss line) => if (s.owners.find line).isNone then { t with wait := none } else t
    | _ => t)

/-! ### Asynchronous events and switches -/

/-- The event that a context takes at a boundary, its cause and TRAPINFO, in the order of R349; and what stays pending. -/
def Async.take (a : Async) (ie : Bool) : Option (BitVec 8 × Word × Async) :=
  match a.extError, a.doldrums, a.watch, (if ie then a.gust else Option.none), a.step with
  | .some i, _, _, _, _ => .some (Cause.extError, i, { a with extError := Option.none })
  | .none, .some i, _, _, _ => .some (Cause.doldrums, i, { a with doldrums := Option.none })
  | .none, .none, .some i, _, _ => .some (Cause.watch, i, { a with watch := Option.none })
  | .none, .none, .none, .some i, _ => .some (Cause.gustExpired, i, { a with gust := Option.none })
  | .none, .none, .none, .none, .some i => .some (Cause.step, i, { a with step := Option.none })
  | .none, .none, .none, .none, .none => Option.none

/-- The context's next takeable event becomes its token; ONCE ends single step when STEP is taken (R357). -/
def Ctx.takeEvent (t : Ctx) : Ctx :=
  if t.token.isSome ∨ t.takeable = false then t
  else
    match t.async.take t.ie with
    | none => t
    | some (code, info, a) =>
      let t := { t with async := a, token := some (.trap ⟨code, true, t.faultPc, info⟩) }
      if code = Cause.step ∧ t.stepCtl.getLsbD 1 then { t with stepCtl := t.stepCtl &&& ~~~1 } else t

/-- ASYNC_EVENT_TAKEN: at the boundary after a retirement, or before the first one (R33, R349). -/
def execAsyncEventTaken (core : Nat) (s : State) : Out :=
  .next (s.updPipe core fun t => if t.wait.isNone then t.takeEvent else t)

/-- FORCED_BOUNDARY: nothing has retired, and the core makes the boundary itself (R33). -/
def execForcedBoundary (core : Nat) (s : State) : Out :=
  .next (s.updPipe core fun t => if t.wait.isSome then t.takeEvent else t)

/-- The fill slot with a deep-miss notice that a stalled context waits for (R34). -/
def Ctx.deepSlot (t : Ctx) : Option Nat :=
  match t.wait with
  | some (.source regs) =>
    regs.findSome? fun r =>
      match t.rst r with
      | .empty tag => if ((t.fills.find tag.toNat).map (·.deep)).getD false then some tag.toNat else none
      | _ => none
  | _ => none

/-- MISS_SWITCH (R34): no event is taken at the boundary (R351). -/
def execMissSwitch (core : Nat) (s : State) : Out :=
  match (s.core core).pipe with
  | none => .next s
  | some x =>
    let t := s.ctx core x
    match t.deepSlot with
    | none => .next s
    | some slot =>
      if t.swen = false ∨ t.token.isSome ∨ t.takeable ∨ (s.core core).otherReady x = false then .next s
      else .next (s.setCtx core x { t with token := some (.park (some slot)) })

/-- The context in the pipe has held it 4,096 cycles, another is ready, and no token is on its way (R130). -/
def State.sliceOver (s : State) (c : Nat) : Bool :=
  match (s.core c).pipe with
  | none => false
  | some x =>
    let t := s.ctx c x
    decide (4096 ≤ (s.core c).slice) && t.token.isNone && !t.takeable && (s.core c).otherReady x

/-- A boundary lies here: a retirement has made it and the instruction at PC has not begun, or 56 cycles have passed since the
4,096th and the core makes it itself (R130). -/
def State.sliceBoundary (s : State) (c : Nat) : Bool :=
  match (s.core c).pipe with
  | none => false
  | some x => ((s.ctx c x).wait.isNone && (s.ctx c x).rep.isNone) || decide (4096 + 56 ≤ (s.core c).slice)

/-- The slice of the context in a core's pipe ends where it is over, at a boundary (R130). -/
def State.endSlice (s : State) (c : Nat) : State :=
  if s.sliceOver c && s.sliceBoundary c then s.updPipe c fun t => { t with token := some (.park none) } else s

/-- PIPE_SLICE_EXPIRY: the context has held the pipe 4,096 cycles and another is ready (R130). -/
def execPipeSliceExpiry (core : Nat) (s : State) : Out := .next (s.endSlice core)

/-- The context leaves the pipe, every unretired instruction annulled, which it will run again; it is ready again at once unless it waits for a fill
that has not arrived (R34, R35, R130). -/
def State.switchOut (s : State) (c : Nat) (x : Fin 8) (slot : Option Nat) : State :=
  let s := s.clearLane c x
  let s := s.updCtx c x fun t =>
    let parked := match slot with
      | some n => if (t.fills.find n).isSome then some [n] else none
      | none => none
    { t.annul with parked := parked, napping := t.wait.or t.napping }
  s.updCore c fun k => k.leave x

/-- TRAP_ENTRY: the token at the foot; the context enters its handler, is aborted, or leaves the pipe (R31, R346, R347). -/
def execTrapEntry (core : Nat) (s : State) : Out :=
  match (s.core core).pipe with
  | none => .next s
  | some x =>
    match (s.ctx core x).token with
    | some (.trap r) => .next (s.takeTrap core x r)
    | some (.park slot) => .next (s.switchOut core x slot)
    | none => .next s

/-- SLEEP_EXPIRY (R386). -/
def execSleepExpiry (core ctx : Nat) (s : State) : Out :=
  let x : Fin 8 := Fin.ofNat 8 ctx
  match (s.ctx core x).sleep with
  | none => .next s
  | some n =>
    if s.canReach n = false then .next s
    else .next (((s.tick (max s.mesh n)).updCtx core x fun t => { t with sleep := none }).updCore core Core.feed)

/-! ### Memory -/

/-- STORE_PERFORMED: the store at a place of its core's list; the pushes and children of a finished task leave with its last
one (R132, R203). -/
def execStorePerformed (core idx : Nat) (s : State) : Out :=
  if !s.storeReady core idx then .next s
  else
    let x : Fin 8 := Fin.ofNat 8 (((s.core core).stores[idx]?.map (·.ctx)).getD 0)
    let s := s.performStore core idx
    .next (if (s.ctx core x).cstate = .draining then s.releaseLocal core x else s)

/-- DIRTY_MERGE: a quad's dirty bytes of a line merge at its home: its set evicts the line, whose other copies hear of it in their time,
or a drain merges it (R203, R205). -/
def execDirtyMerge (quad line : Nat) (evict : Bool) (s : State) : Out :=
  if (s.cacheLine quad line).isNone then .next s
  else
    let dirty := (s.quad quad).dirtyAt line
    if evict then .next ((if dirty then s.mergeLate quad line else s).dropLine quad line)
    else .next (if dirty then s.mergeLine quad line else s)

/-- BANK_REFRESH: the mesh clock reaches the next window of the rotation (R207). -/
def execBankRefresh (s : State) : Out :=
  let n := (s.mesh / 240 + 1) * 240
  .next (if s.canReach n then s.tick n else s)

/-! ### The watchdog, the doldrums trap, reset -/

/-- TASK_OVERRUN: NESTED tells that the budget ran out in TRAP mode (R345, R350). -/
def execTaskOverrun (core ctx : Nat) (s : State) : Out :=
  let x : Fin 8 := Fin.ofNat 8 ctx
  let t := s.ctx core x
  if t.cstate ≠ .running ∨ t.budget ≠ 0 then .next s
  else
    let granted := (t.task.map (·.granted)).getD 0
    .next (s.abort core x (causeWord Cause.taskOverrun true true (t.mode == trapMode)) t.faultPc (BitVec.ofNat 64 granted))

/-- What a wait at a SYNC word or object wants has come (R320, R339). -/
def State.syncMet (s : State) (key : Nat) (want : SyncWant) : Bool :=
  match want with
  | .phase n => passed (lowHalf (s.objWords key false).1.1) n
  | .slot n => passed (lowHalf (s.objWords key true).1.1) n
  | .atLeast v => v.ule (if ((s.syncObj key).map (·.wild)).getD false then s.free.1 else s.memWord key)

/-- The context stalls in a sleeping wait, or has left the pipe in one: on a future version, an object, a SYNC word, or a collective of
the package; what it waits for has not come, and no event is on its way to it (R365, R366, R431). -/
def State.asleep (s : State) (t : Ctx) : Bool :=
  t.held.isNone && t.token.isNone && !t.takeable && match t.wait.or t.napping with
  | some (.sync key want) => !s.syncMet key want
  | some (.coll b id k) => b && !(s.collectives.any fun r =>
      collId r.core r.key == id && (r.chunksDone.contains k || r.err.isSome))
  | some (.source regs) => regs.any fun r =>
      match t.rst r with
      | .empty tag =>
        match t.fills.find tag.toNat with
        | some ⟨_, .version _ _ _, none, _, _, _⟩ => true
        | _ => false
      | _ => false
  | _ => false

/-- A core is asleep for its launch: a DORMANT context is so where there is no candidate, be it one that is not admitted (R365, R370,
R373). -/
def State.coreAsleep (s : State) (c : Nat) : Bool :=
  let k := s.core c
  (List.finRange 8).all fun x =>
    match (k.ctx x).cstate with
    | .dormant => !k.hasWork
    | .running => s.asleep (k.ctx x)
    | _ => false

/-- The contexts of a launch that wait. -/
def State.waiters (s : State) (l : Launch) : List (Nat × Fin 8) :=
  (l.group 0).flatMap fun c => ((List.finRange 8).filter fun x =>
    (s.ctx c x).cstate == .running && s.asleep (s.ctx c x)).map fun x => (c, x)

/-- The doldrums condition of a launch (R365). -/
def State.inDoldrums (s : State) (n : Nat) (l : Launch) : Bool :=
  (l.state == .running || l.state == .suspending) && !l.doldOff && l.toStart.isEmpty && (l.group 0).all s.coreAsleep && !s.packets n l &&
    !(s.waiters l).isEmpty

/-- DOLDRUMS: every waiting context takes it, one in TRAP mode is aborted (R366). -/
def execDoldrums (launch : Nat) (s : State) : Out :=
  match s.launch launch with
  | none => .next s
  | some l =>
    if !s.inDoldrums launch l then .next s
    else
      let all := s.waiters l
      let n := (all.filter fun (c, x) => (s.ctx c x).mode != trapMode).length
      let info := BitVec.ofNat 64 (min n 65536)
      .next (all.foldl (fun s (c, x) =>
        let t := s.ctx c x
        if t.mode = trapMode then s.abort c x (causeWord Cause.doldrums true true true) t.faultPc info
        else s.post c x fun a => { a with doldrums := a.doldrums.or (some info) }) s)

/-- RESET: the machine as after reset; what the environment will do is the model's own and stays (R15, R63, R126). -/
def execReset (s : State) : Out :=
  .next { State.reset with inputs := s.inputs, picks := s.picks, delays := s.delays, freeCtr := s.freeCtr }

end Sys2Proof.Machine
end

