-- ==== Sys2Proof/Machine/Fp.lean ====
section
/-!
DEFINITION. Scalar floating point and conversions (R38, R46, R50, R100 to R103).
-/

namespace Sys2Proof.Machine

/-- The operand format of an instruction that accepts a prefix: the prefix's, or FP32 (R72, R100). -/
def Ctx.opFmt (t : Ctx) : Nat := if t.pfx then t.pfmt.toNat else fFP32

/-- The draw of one rounded element and the generator after it; none is taken in another mode (R50). -/
def drawFor (mode : Mode) (g : BitVec 32) : Nat × BitVec 32 :=
  if mode = .sr then (drawOf (drawNext g), drawNext g) else (0, g)

/-- Formats of the scalar arithmetic (R100), and of the vector arithmetic: that a prefix which names the default FP32 is accepted there as
well is the model's choice, for R179 and R186 speak of BF16 and FP16 (DESIGN CHOICE, log entry 64). -/
def arithFmts : List Nat := [fFP32, fBF16, fFP16]

/-- An arithmetic instruction that rounds its one result: the operands are exact values of the format in force. -/
def rounded (i : Instr) (f : Form) (d : BitVec 5) (op : FloatFmt → Mode → Nat → (BitVec 5 → FVal) → Conv) (s : State) :
    Out :=
  let f := { f with fmts := arithFmts }
  issue i f s fun s =>
    let t := s.me
    let ff := floatFmt t.opFmt
    let mode := t.roundMode
    let (draw, g) := drawFor mode (t.srgen.setWidth 32)
    let r := op ff mode draw fun x => unpack ff (t.rd x).toNat
    .next (s.retire f fun k => { (k.wr d (BitVec.ofNat 64 r.bits)).raise r.flags with srgen := g.setWidth 64 })

/-- An exact instruction on encodings of the format in force. -/
def exactFp (i : Instr) (f : Form) (fmts : List Nat) (d : BitVec 5) (op : FloatFmt → (BitVec 5 → Nat) → Nat)
    (s : State) : Out :=
  let f := { f with fmts := fmts }
  quick i f d (fun t => BitVec.ofNat 64 (op (floatFmt t.opFmt) fun x => (t.rd x).toNat)) s

/-- FADD (R100). -/
def execFadd (d a : BitVec 5) (m : BitVec 2) (b : BitVec 5) (n : BitVec 2) (s : State) : Out :=
  rounded (.fadd d a m b n) (.f3 d a m b n) d (fun f r w v => fAdd f r w (v a) (v b)) s

/-- FSUB (R100). -/
def execFsub (d a : BitVec 5) (m : BitVec 2) (b : BitVec 5) (n : BitVec 2) (s : State) : Out :=
  rounded (.fsub d a m b n) (.f3 d a m b n) d (fun f r w v => fAdd f r w (v a) (v b).neg) s

/-- FMUL (R100). -/
def execFmul (d a : BitVec 5) (m : BitVec 2) (b : BitVec 5) (n : BitVec 2) (s : State) : Out :=
  rounded (.fmul d a m b n) (.f3 d a m b n) d (fun f r w v => fMul f r w (v a) (v b)) s

/-- FMIN: exact, no flag (R100). -/
def execFmin (d a : BitVec 5) (m : BitVec 2) (b : BitVec 5) (n : BitVec 2) (s : State) : Out :=
  exactFp (.fmin d a m b n) (.f3 d a m b n) arithFmts d (fun f v => fMinMax f false (v a) (v b)) s

/-- FMAX: exact, no flag (R100). -/
def execFmax (d a : BitVec 5) (m : BitVec 2) (b : BitVec 5) (n : BitVec 2) (s : State) : Out :=
  exactFp (.fmax d a m b n) (.f3 d a m b n) arithFmts d (fun f v => fMinMax f true (v a) (v b)) s

/-- FABS (R100). -/
def execFabs (d a : BitVec 5) (m : BitVec 2) (s : State) : Out :=
  exactFp (.fabs d a m) (.f2 d a m) arithFmts d (fun f v => fAbs f (v a)) s

/-- FNEG (R100). -/
def execFneg (d a : BitVec 5) (m : BitVec 2) (s : State) : Out :=
  exactFp (.fneg d a m) (.f2 d a m) arithFmts d (fun f v => fNeg f (v a)) s

/-- The form of the FMA family: g[d] is a third source in mode 00 (R100). -/
def fmaForm (d a : BitVec 5) (m : BitVec 2) (b : BitVec 5) (n : BitVec 2) : Form :=
  { Form.f3 d a m b n with srcs := [(d, 0), (a, m), (b, n)] }

/-- FMA: a × b + d, rounded once (R56, R100). -/
def execFma (d a : BitVec 5) (m : BitVec 2) (b : BitVec 5) (n : BitVec 2) (s : State) : Out :=
  rounded (.fma d a m b n) (fmaForm d a m b n) d (fun f r w v => fFma f r w (v a) (v b) (v d)) s

/-- FMSUB: a × b − d, rounded once (R56, R100). -/
def execFmsub (d a : BitVec 5) (m : BitVec 2) (b : BitVec 5) (n : BitVec 2) (s : State) : Out :=
  rounded (.fmsub d a m b n) (fmaForm d a m b n) d (fun f r w v => fFma f r w (v a) (v b) (v d).neg) s

/-- FNMA: −(a × b) + d, rounded once (R56, R100). -/
def execFnma (d a : BitVec 5) (m : BitVec 2) (b : BitVec 5) (n : BitVec 2) (s : State) : Out :=
  rounded (.fnma d a m b n) (fmaForm d a m b n) d (fun f r w v => fFma f r w (v a).neg (v b) (v d)) s

/-- FNMS: −(a × b) − d, rounded once (R56, R100). -/
def execFnms (d a : BitVec 5) (m : BitVec 2) (b : BitVec 5) (n : BitVec 2) (s : State) : Out :=
  rounded (.fnms d a m b n) (fmaForm d a m b n) d (fun f r w v => fFma f r w (v a).neg (v b) (v d).neg) s

/-- FDIV (R100). -/
def execFdiv (d a : BitVec 5) (m : BitVec 2) (b : BitVec 5) (n : BitVec 2) (s : State) : Out :=
  rounded (.fdiv d a m b n) (.f3 d a m b n) d (fun f r w v => fDiv f r w (v a) (v b)) s

/-- FSQRT (R100). -/
def execFsqrt (d a : BitVec 5) (m : BitVec 2) (s : State) : Out :=
  rounded (.fsqrt d a m) (.f2 d a m) d (fun f r w v => fSqrt f r w (v a)) s

/-- FCMP: no flag (R100). -/
def execFcmp (d a : BitVec 5) (m : BitVec 2) (b : BitVec 5) (n c : BitVec 2) (s : State) : Out :=
  exactFp (.fcmp d a m b n c) (.f3 d a m b n) arithFmts d (fun f v => if fCompare f c (v a) (v b) then 1 else 0) s

/-- FCLASS: accepts the FP8 formats and E2M1 as well (R100). -/
def execFclass (d a : BitVec 5) (m : BitVec 2) (s : State) : Out :=
  exactFp (.fclass d a m) (.f2 d a m) [fFP32, fBF16, fFP16, fE4M3, fE5M2, fE2M1] d (fun f v => fClass f (v a)) s

/-- A converted value in a general register (R38). -/
def placeFmt (f bits : Nat) : Word :=
  if f = fINT8 then (BitVec.ofNat 8 bits).signExtend 64
  else if f = fINT32 then (BitVec.ofNat 32 bits).signExtend 64
  else BitVec.ofNat 64 bits

/-- CVT: exact, no flag (R54, R102). -/
def execCvt (d a : BitVec 5) (m : BitVec 2) (e sf : BitVec 4) (s : State) : Out :=
  quick (.cvt d a m e sf) (.f2 d a m) d (fun t =>
    placeFmt e.toNat (convertTo e.toNat .rne 0 1 (sourceVal sf.toNat (t.rd a).toNat)).bits) s

/-- TRAPINFO of CONV_OVERFLOW (R53). -/
def convInfo (f : Nat) (nan : Bool) (element : Nat) : Word :=
  BitVec.ofNat 64 (f % 16 + (if nan then 16 else 0) + element % 256 * 32)

/-- CVTD: a prefix must name the destination format and supplies the rounding mode (R53, R103). -/
def execCvtd (d a : BitVec 5) (m : BitVec 2) (e : BitVec 4) (p : BitVec 2) (sf : BitVec 4) (s : State) : Out :=
  let f := { Form.f2 d a m with fmts := [e.toNat] }
  issue (.cvtd d a m e p sf) f s fun s =>
    let t := s.me
    let mode := t.roundMode
    let (draw, g) := drawFor mode (t.srgen.setWidth 32)
    let r := convertTo e.toNat mode draw p.toNat (sourceVal sf.toNat (t.rd a).toNat)
    match r.trap with
    | some nan => s.fault Cause.convOverflow (convInfo e.toNat nan 0)
    | none =>
      .next (s.retire f fun k =>
        { (k.wr d (placeFmt e.toNat r.bits)).raise r.flags with srgen := g.setWidth 64 })

end Sys2Proof.Machine
end

