-- ==== Sys2Proof/Machine/Vector.lean ====
section
/-!
DEFINITION. The quad's vector unit: majors 0x50 to 0x57 (R61, R178 to R186).
-/

namespace Sys2Proof.Machine

/-! ### Elements (R12, R61, R178) -/

/-- Elements of a vector for a width. -/
def elements (w : Nat) (v : VWord) : List Nat := (List.range (1024 / w)).map fun e => field v (w * e) w

/-- Elements as one number, the first lowest. -/
def packNat (w : Nat) : List Nat → Nat
  | [] => 0
  | x :: l => x % 2 ^ w + 2 ^ w * packNat w l

/-- Elements as a vector. -/
def packVector (w : Nat) (l : List Nat) : VWord := BitVec.ofNat 1024 (packNat w l)

/-- The format of an instruction that accepts a prefix, with its family's default (R178). -/
def Ctx.vecFmt (t : Ctx) (default : Nat) : Nat := if t.pfx then t.pfmt.toNat else default

/-- Formats of the integer families. That a prefix which names the default INT32 is accepted is the model's choice, for R180 speaks of
INT8 and UINT8 (DESIGN CHOICE, log entry 64). -/
def intFmts : List Nat := [fINT8, fUINT8, fINT32]
/-- Formats that give only a width: every one of R37 but CB16 and E8M0 (R181, R182). -/
def widthFmts : List Nat := List.range 9

/-- A vector operand, or with sb = 1 the general register of its number (R178). -/
def opName (b : BitVec 4) (c : BitVec 3) : RegName := if c = 1 then .g (low b) else .v b
/-- The general source of that operand. -/
def opSrc (b : BitVec 4) (c : BitVec 3) : List (BitVec 5 × BitVec 2) := if c = 1 then [(low b, 0)] else []
/-- The elements of that operand. -/
def Ctx.operand (t : Ctx) (w : Nat) (b : BitVec 4) (c : BitVec 3) : List Nat :=
  if c = 1 then List.replicate (1024 / w) ((t.rd (low b)).toNat % 2 ^ w) else elements w (t.vrd b)

/-- The form of vd, va, vb. -/
def Form.v3 (d a b : BitVec 4) (c : BitVec 3) (fmts : List Nat) : Form :=
  { srcs := opSrc b c, names := [.v d, .v a, opName b c], fmts := fmts }
/-- The form of vd, va. -/
def Form.v2 (d a : BitVec 4) (fmts : List Nat) : Form := { names := [.v d, .v a], fmts := fmts }

/-- Element results with their flags, a draw for each under SR, in element order (R50). -/
def roundEach (mode : Mode) : BitVec 32 → List (Nat → Conv) → List Conv × BitVec 32
  | g, [] => ([], g)
  | g, f :: l =>
    let (draw, g) := drawFor mode g
    let (r, g) := roundEach mode g l
    (f draw :: r, g)

/-- The OR of the elements' flags (R55). -/
def flagsOf (l : List Conv) : Flags := l.foldl (fun a r => a.or r.flags) Flags.clear

/-- An operation whose result is computed from the context without rounding. -/
def vectorQuick (i : Instr) (f : Form) (d : BitVec 4) (val : Ctx → VWord) (s : State) : Out :=
  issue i f s fun s => s.throughLane fun s => .next (s.retire f fun k => k.vwr d (val s.me))

/-- An element-wise operation that rounds each result. -/
def vectorRounded (i : Instr) (f : Form) (d : BitVec 4) (ops : Ctx → FloatFmt → Mode → List (Nat → Conv)) (s : State) :
    Out :=
  issue i f s fun s =>
    s.throughLane fun s =>
      let t := s.me
      let ff := t.vecFmt fFP32
      let mode := t.roundMode
      let (r, g) := roundEach mode (t.srgen.setWidth 32) (ops t (floatFmt ff) mode)
      .next (s.retire f fun k =>
        { (k.vwr d (packVector (fmtWidth ff) (r.map (·.bits)))).raise (flagsOf r) with srgen := g.setWidth 64 })

/-! ### Float arithmetic (R179) -/

/-- A binary operation that rounds. -/
def vfBinary (i : Instr) (d a b : BitVec 4) (c : BitVec 3) (op : FloatFmt → Mode → Nat → FVal → FVal → Conv) (s : State) :
    Out :=
  vectorRounded i (.v3 d a b c arithFmts) d (fun t f mode =>
    ((elements f.width (t.vrd a)).zip (t.operand f.width b c)).map fun (x, y) draw =>
      op f mode draw (unpack f x) (unpack f y)) s

/-- A binary operation on encodings. -/
def vfExact (i : Instr) (d a b : BitVec 4) (c : BitVec 3) (op : FloatFmt → Nat → Nat → Nat) (s : State) : Out :=
  vectorQuick i (.v3 d a b c arithFmts) d (fun t =>
    let f := floatFmt (t.vecFmt fFP32)
    packVector f.width ((elements f.width (t.vrd a)).zipWith (op f) (t.operand f.width b c))) s

/-- A unary operation on encodings. -/
def vfUnary (i : Instr) (d a : BitVec 4) (op : FloatFmt → Nat → Nat) (s : State) : Out :=
  vectorQuick i (.v2 d a arithFmts) d (fun t =>
    let f := floatFmt (t.vecFmt fFP32)
    packVector f.width ((elements f.width (t.vrd a)).map (op f))) s

/-- VFADD (R179). -/
def execVfadd (d a b : BitVec 4) (c : BitVec 3) (s : State) : Out :=
  vfBinary (.vfadd d a b c) d a b c (fun f r w x y => fAdd f r w x y) s

/-- VFSUB (R179). -/
def execVfsub (d a b : BitVec 4) (c : BitVec 3) (s : State) : Out :=
  vfBinary (.vfsub d a b c) d a b c (fun f r w x y => fAdd f r w x y.neg) s

/-- VFMUL (R179). -/
def execVfmul (d a b : BitVec 4) (c : BitVec 3) (s : State) : Out :=
  vfBinary (.vfmul d a b c) d a b c (fun f r w x y => fMul f r w x y) s

/-- VFMA: a × b + d, rounded once (R56, R179). -/
def execVfma (d a b : BitVec 4) (c : BitVec 3) (s : State) : Out :=
  vectorRounded (.vfma d a b c) (.v3 d a b c arithFmts) d (fun t f mode =>
    (((elements f.width (t.vrd a)).zip (t.operand f.width b c)).zip (elements f.width (t.vrd d))).map
      fun ((x, y), z) draw => fFma f mode draw (unpack f x) (unpack f y) (unpack f z)) s

/-- VFMIN (R179). -/
def execVfmin (d a b : BitVec 4) (c : BitVec 3) (s : State) : Out :=
  vfExact (.vfmin d a b c) d a b c (fun f x y => fMinMax f false x y) s

/-- VFMAX (R179). -/
def execVfmax (d a b : BitVec 4) (c : BitVec 3) (s : State) : Out :=
  vfExact (.vfmax d a b c) d a b c (fun f x y => fMinMax f true x y) s

/-- VFABS (R179). -/
def execVfabs (d a : BitVec 4) (s : State) : Out :=
  vfUnary (.vfabs d a) d a fAbs s

/-- VFNEG (R179). -/
def execVfneg (d a : BitVec 4) (s : State) : Out :=
  vfUnary (.vfneg d a) d a fNeg s

/-! ### Integer arithmetic (R180) -/

/-- An element as an integer in its format: unsigned under UINT8, signed otherwise. -/
def elemInt (f : Nat) (x : Nat) : Int :=
  let w := fmtWidth f
  if f ≠ fUINT8 ∧ x ≥ 2 ^ (w - 1) then (x : Int) - 2 ^ w else x

/-- An integer wrapped to an element. -/
def wrapElem (f : Nat) (z : Int) : Nat := (z % (2 ^ fmtWidth f : Int)).toNat

/-- An integer clamped to its format. -/
def clampElem (f : Nat) (z : Int) : Nat :=
  let (lo, hi) := intRange f
  wrapElem f (max lo (min hi z))

/-- A binary integer operation; the format and both elements. -/
def vInt (i : Instr) (d a b : BitVec 4) (c : BitVec 3) (op : Nat → Nat → Nat → Nat) (s : State) : Out :=
  vectorQuick i (.v3 d a b c intFmts) d (fun t =>
    let f := t.vecFmt fINT32
    let w := fmtWidth f
    packVector w ((elements w (t.vrd a)).zipWith (op f) (t.operand w b c))) s

/-- VADD (R180). -/
def execVadd (d a b : BitVec 4) (c : BitVec 3) (s : State) : Out :=
  vInt (.vadd d a b c) d a b c (fun f x y => wrapElem f (elemInt f x + elemInt f y)) s

/-- VSUB (R180). -/
def execVsub (d a b : BitVec 4) (c : BitVec 3) (s : State) : Out :=
  vInt (.vsub d a b c) d a b c (fun f x y => wrapElem f (elemInt f x - elemInt f y)) s

/-- VMUL (R180). -/
def execVmul (d a b : BitVec 4) (c : BitVec 3) (s : State) : Out :=
  vInt (.vmul d a b c) d a b c (fun f x y => wrapElem f (elemInt f x * elemInt f y)) s

/-- VMIN (R180). -/
def execVmin (d a b : BitVec 4) (c : BitVec 3) (s : State) : Out :=
  vInt (.vmin d a b c) d a b c (fun f x y => if elemInt f y < elemInt f x then y else x) s

/-- VMAX (R180). -/
def execVmax (d a b : BitVec 4) (c : BitVec 3) (s : State) : Out :=
  vInt (.vmax d a b c) d a b c (fun f x y => if elemInt f x < elemInt f y then y else x) s

/-- VAND (R180). -/
def execVand (d a b : BitVec 4) (c : BitVec 3) (s : State) : Out :=
  vInt (.vand d a b c) d a b c (fun _ x y => x &&& y) s

/-- VOR (R180). -/
def execVor (d a b : BitVec 4) (c : BitVec 3) (s : State) : Out :=
  vInt (.vor d a b c) d a b c (fun _ x y => x ||| y) s

/-- VXOR (R180). -/
def execVxor (d a b : BitVec 4) (c : BitVec 3) (s : State) : Out :=
  vInt (.vxor d a b c) d a b c (fun _ x y => x ^^^ y) s

/-- VSLL (R180). -/
def execVsll (d a b : BitVec 4) (c : BitVec 3) (s : State) : Out :=
  vInt (.vsll d a b c) d a b c (fun f x y => wrapElem f (x * 2 ^ (y % fmtWidth f) : Nat)) s

/-- VSRL (R180). -/
def execVsrl (d a b : BitVec 4) (c : BitVec 3) (s : State) : Out :=
  vInt (.vsrl d a b c) d a b c (fun f x y => x / 2 ^ (y % fmtWidth f)) s

/-- VSRA: zeros enter under UINT8 (R180). -/
def execVsra (d a b : BitVec 4) (c : BitVec 3) (s : State) : Out :=
  vInt (.vsra d a b c) d a b c (fun f x y => wrapElem f (elemInt f x / 2 ^ (y % fmtWidth f))) s

/-- VADDS (R180). -/
def execVadds (d a b : BitVec 4) (c : BitVec 3) (s : State) : Out :=
  vInt (.vadds d a b c) d a b c (fun f x y => clampElem f (elemInt f x + elemInt f y)) s

/-- VSUBS (R180). -/
def execVsubs (d a b : BitVec 4) (c : BitVec 3) (s : State) : Out :=
  vInt (.vsubs d a b c) d a b c (fun f x y => clampElem f (elemInt f x - elemInt f y)) s

/-! ### Compare and select (R181) -/

/-- All ones or zero in a width. -/
def maskElem (w : Nat) (b : Bool) : Nat := if b then 2 ^ w - 1 else 0

/-- VFCMP (R181). -/
def execVfcmp (d a b : BitVec 4) (c : BitVec 3) (k : BitVec 2) (s : State) : Out :=
  vfExact (.vfcmp d a b c k) d a b c (fun f x y => maskElem f.width (fCompare f k x y)) s

/-- An element sign-extended to a word, which keeps both orders of its width. -/
def extendElem (w x : Nat) : Word := if x ≥ 2 ^ (w - 1) then BitVec.ofInt 64 ((x : Int) - 2 ^ w) else BitVec.ofNat 64 x

/-- VICMP: the condition gives the signedness, the format only the width (R181). -/
def execVicmp (d a b : BitVec 4) (c k : BitVec 3) (s : State) : Out :=
  vInt (.vicmp d a b c k) d a b c (fun f x y =>
    let w := fmtWidth f
    maskElem w (condHolds k (extendElem w x) (extendElem w y))) s

/-- VSEL (R181). -/
def execVsel (d a b : BitVec 4) (c : BitVec 3) (s : State) : Out :=
  vectorQuick (.vsel d a b c) (.v3 d a b c widthFmts) d (fun t =>
    let w := fmtWidth (t.vecFmt fFP32)
    packVector w (((elements w (t.vrd d)).zip (elements w (t.vrd a))).zipWith (fun (z, x) y => if z ≠ 0 then x else y)
      (t.operand w b c))) s

/-! ### Permute, broadcast and lane moves (R182) -/

/-- Lane n of a vector. -/
def laneOf (v : VWord) (n : Nat) : Nat := field v (32 * n) 32

/-- VPERM (R182). -/
def execVperm (d a b : BitVec 4) (s : State) : Out :=
  vectorQuick (.vperm d a b) { names := [.v d, .v a, .v b] } d (fun t =>
    packVector 32 ((elements 32 (t.vrd b)).map fun x => laneOf (t.vrd a) (x % 32))) s

/-- VBCAST (R182). -/
def execVbcast (d r : BitVec 4) (s : State) : Out :=
  vectorQuick (.vbcast d r) { srcs := [(low r, 0)], names := [.v d, .g (low r)], fmts := widthFmts } d (fun t =>
    let w := fmtWidth (t.vecFmt fFP32)
    packVector w (List.replicate (1024 / w) ((t.rd (low r)).toNat % 2 ^ w))) s

/-- VBCASTL (R182). -/
def execVbcastl (d a : BitVec 4) (l : BitVec 6) (s : State) : Out :=
  vectorQuick (.vbcastl d a l) (.v2 d a []) d (fun t => packVector 32 (List.replicate 32 (laneOf (t.vrd a) l.toNat))) s

/-- VROT (R182). -/
def execVrot (d a : BitVec 4) (l : BitVec 6) (s : State) : Out :=
  vectorQuick (.vrot d a l) (.v2 d a []) d (fun t =>
    packVector 32 ((List.range 32).map fun i => laneOf (t.vrd a) ((i + l.toNat) % 32))) s

/-- VINS (R182). -/
def execVins (d r : BitVec 4) (l : BitVec 6) (s : State) : Out :=
  vectorQuick (.vins d r l) { srcs := [(low r, 0)], names := [.v d, .g (low r)] } d (fun t =>
    setBits (t.vrd d) (32 * l.toNat) 32 ((t.rd (low r)).setWidth 32)) s

/-- VEXT (R182). -/
def execVext (d a : BitVec 4) (l : BitVec 6) (s : State) : Out :=
  let f : Form := { names := [.g (low d), .v a] }
  issue (.vext d a l) f s fun s =>
    s.throughLane fun s => .next (s.retire f fun k => k.wr (low d) (BitVec.ofNat 64 (laneOf (s.me.vrd a) l.toNat)))

/-! ### Reductions (R61, R183) -/

/-- Pairs of adjacent nodes. -/
def pairs : List α → List (α × α)
  | a :: b :: l => (a, b) :: pairs l
  | _ => []

/-- Levels of the tree that leave 2^seg of 2^bits nodes, each node a function of its draw (R61). -/
def reduceRounded (mode : Mode) (op : Nat → Nat → Nat → Conv) :
    Nat → BitVec 32 → List Nat → Flags → List Nat × Flags × BitVec 32
  | 0, g, l, fl => (l, fl, g)
  | n + 1, g, l, fl =>
    let (r, g) := roundEach mode g ((pairs l).map fun (x, y) draw => op draw x y)
    reduceRounded mode op n g (r.map (·.bits)) (fl.or (flagsOf r))

/-- Levels of a tree whose nodes are exact. -/
def reduceExact (op : Nat → Nat → Nat) : Nat → List Nat → List Nat
  | 0, l => l
  | n + 1, l => reduceExact op n ((pairs l).map fun (x, y) => op x y)

/-- log2 of the elements of a width. -/
def levels (w : Nat) : Nat := (1024 / w).log2

/-- An element widened exactly to FP32 (R54, R183). -/
def widen (f x : Nat) : Nat := if f = fFP32 then x else (convertTo fFP32 .rne 0 1 (sourceVal f x)).bits

/-- VRSUM: each node is rounded to FP32 in the mode in force (R183). -/
def execVrsum (d a : BitVec 4) (seg : BitVec 3) (s : State) : Out :=
  let f := Form.v2 d a arithFmts
  issue (.vrsum d a seg) f s fun s =>
    s.throughLane fun s =>
      let t := s.me
      let sf := t.vecFmt fFP32
      let w := fmtWidth sf
      let mode := t.roundMode
      let ff := floatFmt fFP32
      let (r, fl, g) := reduceRounded mode (fun draw x y => fAdd ff mode draw (unpack ff x) (unpack ff y))
        (levels w - seg.toNat) (t.srgen.setWidth 32) ((elements w (t.vrd a)).map (widen sf)) Flags.clear
      .next (s.retire f fun k => { (k.vwr d (packVector 32 r)).raise fl with srgen := g.setWidth 64 })

/-- VRMAX and VRMIN: exact, no draws (R183). -/
def vrExact (i : Instr) (greater : Bool) (d a : BitVec 4) (seg : BitVec 3) (s : State) : Out :=
  vectorQuick i (.v2 d a arithFmts) d (fun t =>
    let sf := t.vecFmt fFP32
    let w := fmtWidth sf
    packVector 32 (reduceExact (fMinMax (floatFmt fFP32) greater) (levels w - seg.toNat)
      ((elements w (t.vrd a)).map (widen sf)))) s

/-- VRMAX (R183). -/
def execVrmax (d a : BitVec 4) (seg : BitVec 3) (s : State) : Out := vrExact (.vrmax d a seg) true d a seg s
/-- VRMIN (R183). -/
def execVrmin (d a : BitVec 4) (seg : BitVec 3) (s : State) : Out := vrExact (.vrmin d a seg) false d a seg s

/-- An integer reduction: elements extended to 32 bits by their signedness (R183). -/
def vrInt (i : Instr) (op : Int → Int → Int) (d a : BitVec 4) (seg : BitVec 3) (s : State) : Out :=
  vectorQuick i (.v2 d a intFmts) d (fun t =>
    let f := t.vecFmt fINT32
    let w := fmtWidth f
    let node (x y : Nat) : Nat := wrapElem fINT32 (op (elemInt fINT32 x) (elemInt fINT32 y))
    packVector 32 (reduceExact node (levels w - seg.toNat)
      ((elements w (t.vrd a)).map fun x => wrapElem fINT32 (elemInt f x)))) s

/-- VRISUM: Wrap32 (R183). -/
def execVrisum (d a : BitVec 4) (seg : BitVec 3) (s : State) : Out := vrInt (.vrisum d a seg) (· + ·) d a seg s
/-- VRISUMS: Sat32 (R183). -/
def execVrisums (d a : BitVec 4) (seg : BitVec 3) (s : State) : Out :=
  vrInt (.vrisums d a seg) (fun x y => max (-2 ^ 31) (min (2 ^ 31 - 1) (x + y))) d a seg s
/-- VRIMAX (R183). -/
def execVrimax (d a : BitVec 4) (seg : BitVec 3) (s : State) : Out := vrInt (.vrimax d a seg) max d a seg s
/-- VRIMIN (R183). -/
def execVrimin (d a : BitVec 4) (seg : BitVec 3) (s : State) : Out := vrInt (.vrimin d a seg) min d a seg s

/-! ### Conversions (R184, R185) -/

/-- The part number is in range for the widths (R185). -/
def partOk (ws wd p : Nat) : Bool := if ws ≥ wd then decide (p < ws / wd) else decide (p < wd / ws)

/-- Source and destination element numbers of each conversion (R185). -/
def convPlaces (ws wd p : Nat) : List (Nat × Nat) :=
  if ws ≥ wd then (List.range (1024 / ws)).map fun i => (i, p * (1024 / ws) + i)
  else (List.range (1024 / wd)).map fun i => (p * (1024 / wd) + i, i)

/-- Elements put at their numbers in a vector. -/
def putElems (w : Nat) (v : VWord) : List (Nat × Nat) → VWord
  | [] => v
  | (i, x) :: l =>
    putElems w ((v &&& ~~~(BitVec.ofNat 1024 ((2 ^ w - 1) * 2 ^ (w * i)))) ||| BitVec.ofNat 1024 (x % 2 ^ w * 2 ^ (w * i))) l

/-- The E8M0 scale of a narrow-format element (R185). -/
def scaleOf (v : VWord) (e : Nat) : FVal := unpackE8 (field v (8 * (e / 32)) 8)

/-- 1 / σ as a value: 2^(127 − σ); a NaN stays one. -/
def FVal.inverse : FVal → FVal
  | .fin n m e => .fin n m (-e)
  | v => v

/-- A conversion of elements: the pairs accepted, the value each element is rounded from, whether draws are taken. -/
def vectorConvert (i : Instr) (d a : BitVec 4) (more : List RegName) (p : BitVec 3) (pol : BitVec 2) (e : BitVec 4)
    (accepts : BitVec 4 → Bool) (draws : Bool) (value : Ctx → Nat → Nat → FVal → FVal) (s : State) : Out :=
  let sf := s.me.vecFmt fFP32
  let ws := fmtWidth sf
  let wd := fmtWidth e.toNat
  if !accepts (BitVec.ofNat 4 sf) ∨ !partOk ws wd p.toNat then s.illegal i
  else
    let f : Form := { names := .v d :: .v a :: more, fmts := [sf] }
    issue i f s fun s =>
      s.throughLane fun s =>
        let t := s.me
        let mode := if draws then t.roundMode else .rne
        let places := convPlaces ws wd p.toNat
        let (r, g) := roundEach mode (t.srgen.setWidth 32) (places.map fun (n, k) draw =>
          convertTo e.toNat mode draw pol.toNat (value t n k (sourceVal sf (field (t.vrd a) (ws * n) ws))))
        match (places.zip r).findSome? fun ((_, k), c) => c.trap.map fun nan => (k, nan) with
        | some (k, nan) => s.fault Cause.convOverflow (convInfo e.toNat nan k)
        | none =>
          .next (s.retire f fun c =>
            { (c.vwr d (putElems wd (c.vrd d) ((places.map (·.2)).zip (r.map (·.bits))))).raise (flagsOf r) with
              srgen := g.setWidth 64 })

/-- VCVT: the pairs of R102 but E8M0; exact (R184). -/
def execVcvt (d a : BitVec 4) (p : BitVec 3) (e : BitVec 4) (s : State) : Out :=
  vectorConvert (.vcvt d a p e) d a [] p 1 e (fun sf => Format.cvtPair sf e && sf != 10) false (fun _ _ _ v => v) s

/-- VCVTD: the pairs of R103 (R184). -/
def execVcvtd (d a : BitVec 4) (p : BitVec 3) (o : BitVec 2) (e : BitVec 4) (s : State) : Out :=
  vectorConvert (.vcvtd d a p o e) d a [] p o e (fun sf => Format.cvtdPair sf e) true (fun _ _ _ v => v) s

def wideFloat (f : BitVec 4) : Bool := decide (f.toNat ≤ 2)
def narrowFloat (f : BitVec 4) : Bool := decide (3 ≤ f.toNat ∧ f.toNat ≤ 5)

/-- VCVT.s: x × 2^(σ − 127), σ by the source index (R184, R185). -/
def execVcvtS (d a b : BitVec 4) (p : BitVec 3) (o : BitVec 2) (e : BitVec 4) (s : State) : Out :=
  vectorConvert (.vcvtS d a b p o e) d a [.v b] p o e (fun sf => narrowFloat sf && wideFloat e) true
    (fun t n _ v => (mulVal v (scaleOf (t.vrd b) n)).1) s

/-- VCVTD.s: x × 2^(127 − σ), σ by the destination index (R184, R185). -/
def execVcvtdS (d a b : BitVec 4) (p : BitVec 3) (o : BitVec 2) (e : BitVec 4) (s : State) : Out :=
  vectorConvert (.vcvtdS d a b p o e) d a [.v b] p o e (fun sf => wideFloat sf && narrowFloat e) true
    (fun t _ k v => (mulVal v (scaleOf (t.vrd b) k).inverse).1) s

/-! ### Transcendentals, division, square root (R186) -/

/-- A unary operation that rounds. -/
def vfFunction (i : Instr) (d a : BitVec 4) (op : FloatFmt → Mode → Nat → FVal → Conv) (s : State) : Out :=
  vectorRounded i (.v2 d a arithFmts) d (fun t f mode =>
    (elements f.width (t.vrd a)).map fun x draw => op f mode draw (unpack f x)) s

/-- VRCP (R186). -/
def execVrcp (d a : BitVec 4) (s : State) : Out :=
  vfFunction (.vrcp d a) d a (fun f r w v => fTranscend f 0 r w v) s

/-- VRSQRT (R186). -/
def execVrsqrt (d a : BitVec 4) (s : State) : Out :=
  vfFunction (.vrsqrt d a) d a (fun f r w v => fTranscend f 1 r w v) s

/-- VEXP2 (R186). -/
def execVexp2 (d a : BitVec 4) (s : State) : Out :=
  vfFunction (.vexp2 d a) d a (fun f r w v => fTranscend f 2 r w v) s

/-- VLOG2 (R186). -/
def execVlog2 (d a : BitVec 4) (s : State) : Out :=
  vfFunction (.vlog2 d a) d a (fun f r w v => fTranscend f 3 r w v) s

/-- VTANH (R186). -/
def execVtanh (d a : BitVec 4) (s : State) : Out :=
  vfFunction (.vtanh d a) d a (fun f r w v => fTranscend f 4 r w v) s

/-- VSIGM (R186). -/
def execVsigm (d a : BitVec 4) (s : State) : Out :=
  vfFunction (.vsigm d a) d a (fun f r w v => fTranscend f 5 r w v) s

/-- VFDIV (R186). -/
def execVfdiv (d a b : BitVec 4) (s : State) : Out :=
  vfBinary (.vfdiv d a b) d a b 0 (fun f r w x y => fDiv f r w x y) s

/-- VFSQRT (R186). -/
def execVfsqrt (d a : BitVec 4) (s : State) : Out :=
  vfFunction (.vfsqrt d a) d a (fun f r w v => fSqrt f r w v) s

/-! ### VECTOR_ISSUE (R150) -/

/-- VECTOR_ISSUE: the next lane, after the one served last, whose head is ready. -/
def execVectorIssue (quad : Nat) (s : State) : Out :=
  let q := s.quad quad
  let ready (n : Nat) : Bool := match q.lanes[(Fin.ofNat 4 n : Fin 4)] with
    | o :: _ => !o.issued
    | [] => false
  match firstFrom ready 4 (q.lastLane.val + 1) with
  | none => .next s
  | some n =>
    let i : Fin 4 := Fin.ofNat 4 n
    let lane := match q.lanes[i] with
      | o :: l => { o with issued := true } :: l
      | [] => []
    .next (s.setQuad quad { q with lanes := q.lanes.set i lane, lastLane := i })

end Sys2Proof.Machine
end

