-- ==== Sys2Proof/Machine/Dispatch.lean ====
section
/-!
DEFINITION. One arm for each instruction and event of the opcode table: a call of its meaning.
-/

namespace Sys2Proof.Machine

def exec (i : Instr) (s : State) : Host.Outcome State Fault Refusal :=
  match i with
  | .add d a m b n => Sys2Proof.Machine.execAdd d a m b n s
  | .sub d a m b n => Sys2Proof.Machine.execSub d a m b n s
  | .and d a m b n => Sys2Proof.Machine.execAnd d a m b n s
  | .or d a m b n => Sys2Proof.Machine.execOr d a m b n s
  | .xor d a m b n => Sys2Proof.Machine.execXor d a m b n s
  | .andn d a m b n => Sys2Proof.Machine.execAndn d a m b n s
  | .sll d a m b n => Sys2Proof.Machine.execSll d a m b n s
  | .srl d a m b n => Sys2Proof.Machine.execSrl d a m b n s
  | .sra d a m b n => Sys2Proof.Machine.execSra d a m b n s
  | .mul d a m b n => Sys2Proof.Machine.execMul d a m b n s
  | .mulh d a m b n => Sys2Proof.Machine.execMulh d a m b n s
  | .mulhu d a m b n => Sys2Proof.Machine.execMulhu d a m b n s
  | .min d a m b n => Sys2Proof.Machine.execMin d a m b n s
  | .max d a m b n => Sys2Proof.Machine.execMax d a m b n s
  | .minu d a m b n => Sys2Proof.Machine.execMinu d a m b n s
  | .maxu d a m b n => Sys2Proof.Machine.execMaxu d a m b n s
  | .addw d a m b n => Sys2Proof.Machine.execAddw d a m b n s
  | .subw d a m b n => Sys2Proof.Machine.execSubw d a m b n s
  | .sextb d a m => Sys2Proof.Machine.execSextb d a m s
  | .sexth d a m => Sys2Proof.Machine.execSexth d a m s
  | .sextw d a m => Sys2Proof.Machine.execSextw d a m s
  | .zextb d a m => Sys2Proof.Machine.execZextb d a m s
  | .zexth d a m => Sys2Proof.Machine.execZexth d a m s
  | .zextw d a m => Sys2Proof.Machine.execZextw d a m s
  | .clz d a m => Sys2Proof.Machine.execClz d a m s
  | .popc d a m => Sys2Proof.Machine.execPopc d a m s
  | .cmp d a m b n c => Sys2Proof.Machine.execCmp d a m b n c s
  | .sel d a m b n => Sys2Proof.Machine.execSel d a m b n s
  | .div d a m b n => Sys2Proof.Machine.execDiv d a m b n s
  | .rem d a m b n => Sys2Proof.Machine.execRem d a m b n s
  | .divu d a m b n => Sys2Proof.Machine.execDivu d a m b n s
  | .remu d a m b n => Sys2Proof.Machine.execRemu d a m b n s
  | .divw d a m b n => Sys2Proof.Machine.execDivw d a m b n s
  | .remw d a m b n => Sys2Proof.Machine.execRemw d a m b n s
  | .divuw d a m b n => Sys2Proof.Machine.execDivuw d a m b n s
  | .remuw d a m b n => Sys2Proof.Machine.execRemuw d a m b n s
  | .addi d a m i1 => Sys2Proof.Machine.execAddi d a m i1 s
  | .andi d a m i1 => Sys2Proof.Machine.execAndi d a m i1 s
  | .ori d a m i1 => Sys2Proof.Machine.execOri d a m i1 s
  | .xori d a m i1 => Sys2Proof.Machine.execXori d a m i1 s
  | .slli d a m s1 => Sys2Proof.Machine.execSlli d a m s1 s
  | .srli d a m s1 => Sys2Proof.Machine.execSrli d a m s1 s
  | .srai d a m s1 => Sys2Proof.Machine.execSrai d a m s1 s
  | .cmpi d a m c i1 => Sys2Proof.Machine.execCmpi d a m c i1 s
  | .li d i1 => Sys2Proof.Machine.execLi d i1 s
  | .lix d i1 => Sys2Proof.Machine.execLix d i1 s
  | .addpc d i1 => Sys2Proof.Machine.execAddpc d i1 s
  | .br c a b o => Sys2Proof.Machine.execBr c a b o s
  | .j o => Sys2Proof.Machine.execJ o s
  | .call o => Sys2Proof.Machine.execCall o s
  | .jr d a m i1 => Sys2Proof.Machine.execJr d a m i1 s
  | .blkmv d a b => Sys2Proof.Machine.execBlkmv d a b s
  | .blkset d a b => Sys2Proof.Machine.execBlkset d a b s
  | .repn d => Sys2Proof.Machine.execRepn d s
  | .crr d n => Sys2Proof.Machine.execCrr d n s
  | .cwr s1 n => Sys2Proof.Machine.execCwr s1 n s
  | .mkempty d => Sys2Proof.Machine.execMkempty d s
  | .rstate d s1 => Sys2Proof.Machine.execRstate d s1 s
  | .trap c => Sys2Proof.Machine.execTrap c s
  | .brk c => Sys2Proof.Machine.execBrk c s
  | .fadd d a m b n => Sys2Proof.Machine.execFadd d a m b n s
  | .fsub d a m b n => Sys2Proof.Machine.execFsub d a m b n s
  | .fmul d a m b n => Sys2Proof.Machine.execFmul d a m b n s
  | .fmin d a m b n => Sys2Proof.Machine.execFmin d a m b n s
  | .fmax d a m b n => Sys2Proof.Machine.execFmax d a m b n s
  | .fabs d a m => Sys2Proof.Machine.execFabs d a m s
  | .fneg d a m => Sys2Proof.Machine.execFneg d a m s
  | .fma d a m b n => Sys2Proof.Machine.execFma d a m b n s
  | .fmsub d a m b n => Sys2Proof.Machine.execFmsub d a m b n s
  | .fnma d a m b n => Sys2Proof.Machine.execFnma d a m b n s
  | .fnms d a m b n => Sys2Proof.Machine.execFnms d a m b n s
  | .fdiv d a m b n => Sys2Proof.Machine.execFdiv d a m b n s
  | .fsqrt d a m => Sys2Proof.Machine.execFsqrt d a m s
  | .fcmp d a m b n c => Sys2Proof.Machine.execFcmp d a m b n c s
  | .fclass d a m => Sys2Proof.Machine.execFclass d a m s
  | .cvt d a m e s1 => Sys2Proof.Machine.execCvt d a m e s1 s
  | .cvtd d a m e p s1 => Sys2Proof.Machine.execCvtd d a m e p s1 s
  | .ld t b m h o => Sys2Proof.Machine.execLd t b m h o s
  | .ldw t b m h o => Sys2Proof.Machine.execLdw t b m h o s
  | .ldh t b m h o => Sys2Proof.Machine.execLdh t b m h o s
  | .ldb t b m h o => Sys2Proof.Machine.execLdb t b m h o s
  | .st t b m h o => Sys2Proof.Machine.execSt t b m h o s
  | .stw t b m h o => Sys2Proof.Machine.execStw t b m h o s
  | .sth t b m h o => Sys2Proof.Machine.execSth t b m h o s
  | .stb t b m h o => Sys2Proof.Machine.execStb t b m h o s
  | .ldNc t b m h o => Sys2Proof.Machine.execLdNc t b m h o s
  | .ldA t b m h o => Sys2Proof.Machine.execLdA t b m h o s
  | .vld v b m h o => Sys2Proof.Machine.execVld v b m h o s
  | .vldNc v b m h o => Sys2Proof.Machine.execVldNc v b m h o s
  | .vst v b m h o => Sys2Proof.Machine.execVst v b m h o s
  | .amoswap d a s1 w h f => Sys2Proof.Machine.execAmoswap d a s1 w h f s
  | .amoadd d a s1 w h f => Sys2Proof.Machine.execAmoadd d a s1 w h f s
  | .amoand d a s1 w h f => Sys2Proof.Machine.execAmoand d a s1 w h f s
  | .amoor d a s1 w h f => Sys2Proof.Machine.execAmoor d a s1 w h f s
  | .amoxor d a s1 w h f => Sys2Proof.Machine.execAmoxor d a s1 w h f s
  | .amomin d a s1 w h f => Sys2Proof.Machine.execAmomin d a s1 w h f s
  | .amomax d a s1 w h f => Sys2Proof.Machine.execAmomax d a s1 w h f s
  | .amominu d a s1 w h f => Sys2Proof.Machine.execAmominu d a s1 w h f s
  | .amomaxu d a s1 w h f => Sys2Proof.Machine.execAmomaxu d a s1 w h f s
  | .cas d a s1 w h f => Sys2Proof.Machine.execCas d a s1 w h f s
  | .ldAcq d a s1 e h => Sys2Proof.Machine.execLdAcq d a s1 e h s
  | .stRel d a s1 e h => Sys2Proof.Machine.execStRel d a s1 e h s
  | .vlds v a b h => Sys2Proof.Machine.execVlds v a b h s
  | .vsts v a b h => Sys2Proof.Machine.execVsts v a b h s
  | .fenceAcq s1 => Sys2Proof.Machine.execFenceAcq s1 s
  | .fenceAcqInv s1 => Sys2Proof.Machine.execFenceAcqInv s1 s
  | .fenceRel s1 => Sys2Proof.Machine.execFenceRel s1 s
  | .fenceFull s1 => Sys2Proof.Machine.execFenceFull s1 s
  | .objdecl d a h => Sys2Proof.Machine.execObjdecl d a h s
  | .ldv d a s1 b h => Sys2Proof.Machine.execLdv d a s1 b h s
  | .stv d a s1 h => Sys2Proof.Machine.execStv d a s1 h s
  | .vrecl d a h => Sys2Proof.Machine.execVrecl d a h s
  | .wrec d a b h => Sys2Proof.Machine.execWrec d a b h s
  | .wplay d b => Sys2Proof.Machine.execWplay d b s
  | .wend d => Sys2Proof.Machine.execWend d s
  | .wstat d b => Sys2Proof.Machine.execWstat d b s
  | .send d a m b n => Sys2Proof.Machine.execSend d a m b n s
  | .sendh d a m b n => Sys2Proof.Machine.execSendh d a m b n s
  | .sendnz h v p s1 => Sys2Proof.Machine.execSendnz h v p s1 s
  | .spawn d a m b n => Sys2Proof.Machine.execSpawn d a m b n s
  | .pusht d a m b n => Sys2Proof.Machine.execPusht d a m b n s
  | .qstat d q => Sys2Proof.Machine.execQstat d q s
  | .grpq d s1 => Sys2Proof.Machine.execGrpq d s1 s
  | .grpqM d s1 => Sys2Proof.Machine.execGrpqM d s1 s
  | .qpri d s1 => Sys2Proof.Machine.execQpri d s1 s
  | .vfadd d a b c => Sys2Proof.Machine.execVfadd d a b c s
  | .vfsub d a b c => Sys2Proof.Machine.execVfsub d a b c s
  | .vfmul d a b c => Sys2Proof.Machine.execVfmul d a b c s
  | .vfma d a b c => Sys2Proof.Machine.execVfma d a b c s
  | .vfmin d a b c => Sys2Proof.Machine.execVfmin d a b c s
  | .vfmax d a b c => Sys2Proof.Machine.execVfmax d a b c s
  | .vfabs d a => Sys2Proof.Machine.execVfabs d a s
  | .vfneg d a => Sys2Proof.Machine.execVfneg d a s
  | .vadd d a b c => Sys2Proof.Machine.execVadd d a b c s
  | .vsub d a b c => Sys2Proof.Machine.execVsub d a b c s
  | .vmul d a b c => Sys2Proof.Machine.execVmul d a b c s
  | .vmin d a b c => Sys2Proof.Machine.execVmin d a b c s
  | .vmax d a b c => Sys2Proof.Machine.execVmax d a b c s
  | .vand d a b c => Sys2Proof.Machine.execVand d a b c s
  | .vor d a b c => Sys2Proof.Machine.execVor d a b c s
  | .vxor d a b c => Sys2Proof.Machine.execVxor d a b c s
  | .vsll d a b c => Sys2Proof.Machine.execVsll d a b c s
  | .vsrl d a b c => Sys2Proof.Machine.execVsrl d a b c s
  | .vsra d a b c => Sys2Proof.Machine.execVsra d a b c s
  | .vadds d a b c => Sys2Proof.Machine.execVadds d a b c s
  | .vsubs d a b c => Sys2Proof.Machine.execVsubs d a b c s
  | .vfcmp d a b c k => Sys2Proof.Machine.execVfcmp d a b c k s
  | .vicmp d a b c k => Sys2Proof.Machine.execVicmp d a b c k s
  | .vsel d a b c => Sys2Proof.Machine.execVsel d a b c s
  | .vperm d a b => Sys2Proof.Machine.execVperm d a b s
  | .vbcast d s1 => Sys2Proof.Machine.execVbcast d s1 s
  | .vbcastl d a l => Sys2Proof.Machine.execVbcastl d a l s
  | .vrot d a l => Sys2Proof.Machine.execVrot d a l s
  | .vrsum d a s1 => Sys2Proof.Machine.execVrsum d a s1 s
  | .vrmax d a s1 => Sys2Proof.Machine.execVrmax d a s1 s
  | .vrmin d a s1 => Sys2Proof.Machine.execVrmin d a s1 s
  | .vrisum d a s1 => Sys2Proof.Machine.execVrisum d a s1 s
  | .vrisums d a s1 => Sys2Proof.Machine.execVrisums d a s1 s
  | .vrimax d a s1 => Sys2Proof.Machine.execVrimax d a s1 s
  | .vrimin d a s1 => Sys2Proof.Machine.execVrimin d a s1 s
  | .vcvt d a p e => Sys2Proof.Machine.execVcvt d a p e s
  | .vcvtd d a p o e => Sys2Proof.Machine.execVcvtd d a p o e s
  | .vcvtS d a b p o e => Sys2Proof.Machine.execVcvtS d a b p o e s
  | .vcvtdS d a b p o e => Sys2Proof.Machine.execVcvtdS d a b p o e s
  | .vrcp d a => Sys2Proof.Machine.execVrcp d a s
  | .vrsqrt d a => Sys2Proof.Machine.execVrsqrt d a s
  | .vexp2 d a => Sys2Proof.Machine.execVexp2 d a s
  | .vlog2 d a => Sys2Proof.Machine.execVlog2 d a s
  | .vtanh d a => Sys2Proof.Machine.execVtanh d a s
  | .vsigm d a => Sys2Proof.Machine.execVsigm d a s
  | .vfdiv d a b => Sys2Proof.Machine.execVfdiv d a b s
  | .vfsqrt d a => Sys2Proof.Machine.execVfsqrt d a s
  | .vins d s1 l => Sys2Proof.Machine.execVins d s1 l s
  | .vext d a l => Sys2Proof.Machine.execVext d a l s
  | .xfree a => Sys2Proof.Machine.execXfree a s
  | .xcfg a => Sys2Proof.Machine.execXcfg a s
  | .xcfgTab a => Sys2Proof.Machine.execXcfgTab a s
  | .xstat c a => Sys2Proof.Machine.execXstat c a s
  | .xstatClr c a => Sys2Proof.Machine.execXstatClr c a s
  | .xlda a b r => Sys2Proof.Machine.execXlda a b r s
  | .xldb a b r => Sys2Proof.Machine.execXldb a b r s
  | .xldsa a r => Sys2Proof.Machine.execXldsa a r s
  | .xldsb a r => Sys2Proof.Machine.execXldsb a r s
  | .xunf a => Sys2Proof.Machine.execXunf a s
  | .xmma c m n => Sys2Proof.Machine.execXmma c m n s
  | .xcmma c m n => Sys2Proof.Machine.execXcmma c m n s
  | .xzero c => Sys2Proof.Machine.execXzero c s
  | .xzeroF c v => Sys2Proof.Machine.execXzeroF c v s
  | .xzeroI c v => Sys2Proof.Machine.execXzeroI c v s
  | .xdrn c a b f p k r => Sys2Proof.Machine.execXdrn c a b f p k r s
  | .cpy d a m => Sys2Proof.Machine.execCpy d a m s
  | .cpyNb d a m => Sys2Proof.Machine.execCpyNb d a m s
  | .cpyst d s1 => Sys2Proof.Machine.execCpyst d s1 s
  | .gather d a m b n => Sys2Proof.Machine.execGather d a m b n s
  | .rainit a m b n => Sys2Proof.Machine.execRainit a m b n s
  | .rawait d a m b n => Sys2Proof.Machine.execRawait d a m b n s
  | .rarel a m => Sys2Proof.Machine.execRarel a m s
  | .barinit a m b n => Sys2Proof.Machine.execBarinit a m b n s
  | .bararr a m b n => Sys2Proof.Machine.execBararr a m b n s
  | .barxb a m b n => Sys2Proof.Machine.execBarxb a m b n s
  | .barwait a m b n => Sys2Proof.Machine.execBarwait a m b n s
  | .seqwait a m b n => Sys2Proof.Machine.execSeqwait a m b n s
  | .sleep s1 => Sys2Proof.Machine.execSleep s1 s
  | .killctx d a m => Sys2Proof.Machine.execKillctx d a m s
  | .tlbi a m b n => Sys2Proof.Machine.execTlbi a m b n s
  | .watch m n h s1 => Sys2Proof.Machine.execWatch m n h s1 s
  | .snap d => Sys2Proof.Machine.execSnap d s
  | .gust d s1 => Sys2Proof.Machine.execGust d s1 s
  | .gustT d s1 => Sys2Proof.Machine.execGustT d s1 s
  | .gustrel d => Sys2Proof.Machine.execGustrel d s
  | .qread d s1 => Sys2Proof.Machine.execQread d s1 s
  | .xred d a m => Sys2Proof.Machine.execXred d a m s
  | .coll d a m => Sys2Proof.Machine.execColl d a m s
  | .cwait d a m b n => Sys2Proof.Machine.execCwait d a m b n s
  | .ramoSwap d a m b n w => Sys2Proof.Machine.execRamoSwap d a m b n w s
  | .ramoAdd d a m b n w => Sys2Proof.Machine.execRamoAdd d a m b n w s
  | .ramoAnd d a m b n w => Sys2Proof.Machine.execRamoAnd d a m b n w s
  | .ramoOr d a m b n w => Sys2Proof.Machine.execRamoOr d a m b n w s
  | .ramoXor d a m b n w => Sys2Proof.Machine.execRamoXor d a m b n w s
  | .ramoMin d a m b n w => Sys2Proof.Machine.execRamoMin d a m b n w s
  | .ramoMax d a m b n w => Sys2Proof.Machine.execRamoMax d a m b n w s
  | .ramoMinu d a m b n w => Sys2Proof.Machine.execRamoMinu d a m b n w s
  | .ramoMaxu d a m b n w => Sys2Proof.Machine.execRamoMaxu d a m b n w s
  | .ramoCas d a m b n w => Sys2Proof.Machine.execRamoCas d a m b n w s
  | .movC d a => Sys2Proof.Machine.execMovC d a s
  | .addC d a => Sys2Proof.Machine.execAddC d a s
  | .subC d a => Sys2Proof.Machine.execSubC d a s
  | .andC d a => Sys2Proof.Machine.execAndC d a s
  | .orC d a => Sys2Proof.Machine.execOrC d a s
  | .xorC d a => Sys2Proof.Machine.execXorC d a s
  | .sllC d a => Sys2Proof.Machine.execSllC d a s
  | .srlC d a => Sys2Proof.Machine.execSrlC d a s
  | .addiC d i1 => Sys2Proof.Machine.execAddiC d i1 s
  | .liC d i1 => Sys2Proof.Machine.execLiC d i1 s
  | .slliC d s1 => Sys2Proof.Machine.execSlliC d s1 s
  | .srliC d s1 => Sys2Proof.Machine.execSrliC d s1 s
  | .sraiC d s1 => Sys2Proof.Machine.execSraiC d s1 s
  | .ldC d a o => Sys2Proof.Machine.execLdC d a o s
  | .stC t a o => Sys2Proof.Machine.execStC t a o s
  | .beqzC a o => Sys2Proof.Machine.execBeqzC a o s
  | .bnezC a o => Sys2Proof.Machine.execBnezC a o s
  | .jC o => Sys2Proof.Machine.execJC o s
  | .jrC a => Sys2Proof.Machine.execJrC a s
  | .fmt f r => Sys2Proof.Machine.execFmt f r s
  | .hint o h => Sys2Proof.Machine.execHint o h s
  | .objdrop d => Sys2Proof.Machine.execObjdrop d s
  | .wdrop d b => Sys2Proof.Machine.execWdrop d b s
  | .nop => Sys2Proof.Machine.execNop s
  | .drain => Sys2Proof.Machine.execDrain s
  | .ffence => Sys2Proof.Machine.execFfence s
  | .done => Sys2Proof.Machine.execDone s
  | .xlease => Sys2Proof.Machine.execXlease s
  | .xwait => Sys2Proof.Machine.execXwait s
  | .tret => Sys2Proof.Machine.execTret s
  | .halt => Sys2Proof.Machine.execHalt s
  | .tlbsync => Sys2Proof.Machine.execTlbsync s
  | .sstepOff => Sys2Proof.Machine.execSstepOff s
  | .sstepOn => Sys2Proof.Machine.execSstepOn s
  | .sstepOnce => Sys2Proof.Machine.execSstepOnce s
  | .reset => Sys2Proof.Machine.execReset s
  | .fillArrival core ctx slot data err => Sys2Proof.Machine.execFillArrival core ctx slot data err s
  | .deepMissNotice core ctx slot => Sys2Proof.Machine.execDeepMissNotice core ctx slot s
  | .sidingRejoin core => Sys2Proof.Machine.execSidingRejoin core s
  | .missReturn core => Sys2Proof.Machine.execMissReturn core s
  | .trapEntry core => Sys2Proof.Machine.execTrapEntry core s
  | .missSwitch core => Sys2Proof.Machine.execMissSwitch core s
  | .asyncEventTaken core => Sys2Proof.Machine.execAsyncEventTaken core s
  | .forcedBoundary core => Sys2Proof.Machine.execForcedBoundary core s
  | .pipeSliceExpiry core => Sys2Proof.Machine.execPipeSliceExpiry core s
  | .storePerformed core idx => Sys2Proof.Machine.execStorePerformed core idx s
  | .dirtyMerge quad line evict => Sys2Proof.Machine.execDirtyMerge quad line evict s
  | .bankRefresh => Sys2Proof.Machine.execBankRefresh s
  | .dispatch core => Sys2Proof.Machine.execDispatch core s
  | .messageOffer core ctx => Sys2Proof.Machine.execMessageOffer core ctx s
  | .messageReoffer core ctx => Sys2Proof.Machine.execMessageReoffer core ctx s
  | .hintWalk core ctx => Sys2Proof.Machine.execHintWalk core ctx s
  | .spawnRequest core ctx slot => Sys2Proof.Machine.execSpawnRequest core ctx slot s
  | .childStart core ctx => Sys2Proof.Machine.execChildStart core ctx s
  | .stealProbe core => Sys2Proof.Machine.execStealProbe core s
  | .stealReply core => Sys2Proof.Machine.execStealReply core s
  | .stealPauseExpiry core => Sys2Proof.Machine.execStealPauseExpiry core s
  | .spillMove core queue => Sys2Proof.Machine.execSpillMove core queue s
  | .startMessage core => Sys2Proof.Machine.execStartMessage core s
  | .launchComplete launch => Sys2Proof.Machine.execLaunchComplete launch s
  | .leaseGrant quad => Sys2Proof.Machine.execLeaseGrant quad s
  | .leaseClockExpiry quad => Sys2Proof.Machine.execLeaseClockExpiry quad s
  | .arrayCommandExecute quad => Sys2Proof.Machine.execArrayCommandExecute quad s
  | .vectorIssue quad => Sys2Proof.Machine.execVectorIssue quad s
  | .seal launch rec => Sys2Proof.Machine.execSeal launch rec s
  | .pushArrival quad idx => Sys2Proof.Machine.execPushArrival quad idx s
  | .pushTimeout quad idx => Sys2Proof.Machine.execPushTimeout quad idx s
  | .roundClose launch rec => Sys2Proof.Machine.execRoundClose launch rec s
  | .engineChunk quad => Sys2Proof.Machine.execEngineChunk quad s
  | .copyOp core => Sys2Proof.Machine.execCopyOp core s
  | .pack core => Sys2Proof.Machine.execPack core s
  | .unpack core => Sys2Proof.Machine.execUnpack core s
  | .fill core => Sys2Proof.Machine.execFill core s
  | .ringReserve core => Sys2Proof.Machine.execRingReserve core s
  | .gatherRow die engine stream => Sys2Proof.Machine.execGatherRow die engine stream s
  | .commandCompletion engine => Sys2Proof.Machine.execCommandCompletion engine s
  | .tailPoll chain => Sys2Proof.Machine.execTailPoll chain s
  | .chainEntryCompletion chain => Sys2Proof.Machine.execChainEntryCompletion chain s
  | .root chain => Sys2Proof.Machine.execRoot chain s
  | .launch chain => Sys2Proof.Machine.execLaunch chain s
  | .copy chain => Sys2Proof.Machine.execCopy chain s
  | .wait chain => Sys2Proof.Machine.execWait chain s
  | .signal chain => Sys2Proof.Machine.execSignal chain s
  | .suspend chain => Sys2Proof.Machine.execSuspend chain s
  | .resume chain => Sys2Proof.Machine.execResume chain s
  | .remove chain => Sys2Proof.Machine.execRemove chain s
  | .window chain => Sys2Proof.Machine.execWindow chain s
  | .logcfg chain => Sys2Proof.Machine.execLogcfg chain s
  | .flush chain => Sys2Proof.Machine.execFlush chain s
  | .obscfg chain => Sys2Proof.Machine.execObscfg chain s
  | .coreSuspend core => Sys2Proof.Machine.execCoreSuspend core s
  | .taskOverrun core ctx => Sys2Proof.Machine.execTaskOverrun core ctx s
  | .killFlood launch core => Sys2Proof.Machine.execKillFlood launch core s
  | .sweepEnd launch => Sys2Proof.Machine.execSweepEnd launch s
  | .removalConfirmation launch => Sys2Proof.Machine.execRemovalConfirmation launch s
  | .doldrums launch => Sys2Proof.Machine.execDoldrums launch s
  | .controlIntervalBoundary melt => Sys2Proof.Machine.execControlIntervalBoundary melt s
  | .gustLeaseExpiry cluster => Sys2Proof.Machine.execGustLeaseExpiry cluster s
  | .energyMeterUpdate core ctx nj => Sys2Proof.Machine.execEnergyMeterUpdate core ctx nj s
  | .firmwareBudgetWrite cluster eb ib => Sys2Proof.Machine.execFirmwareBudgetWrite cluster eb ib s
  | .firmwareWatchdog => Sys2Proof.Machine.execFirmwareWatchdog s
  | .supplySag core => Sys2Proof.Machine.execSupplySag core s
  | .sagClear core => Sys2Proof.Machine.execSagClear core s
  | .thermalTrip cluster => Sys2Proof.Machine.execThermalTrip cluster s
  | .thermalRecover cluster => Sys2Proof.Machine.execThermalRecover cluster s
  | .supplyLossWarning => Sys2Proof.Machine.execSupplyLossWarning s
  | .hostWrite link offset data => Sys2Proof.Machine.execHostWrite link offset data s
  | .chainRegistrationWrite chain value => Sys2Proof.Machine.execChainRegistrationWrite chain value s
  | .hostRegisterWrite offset value => Sys2Proof.Machine.execHostRegisterWrite offset value s
  | .remotePacketArrival pkt => Sys2Proof.Machine.execRemotePacketArrival pkt s
  | .remoteAck idx err => Sys2Proof.Machine.execRemoteAck idx err s
  | .flitReplay link ok => Sys2Proof.Machine.execFlitReplay link ok s
  | .reductionResult idx data bad => Sys2Proof.Machine.execReductionResult idx data bad s
  | .collectiveChunk idx chunk fromSwitch bad => Sys2Proof.Machine.execCollectiveChunk idx chunk fromSwitch bad s
  | .logEntryWrite slice => Sys2Proof.Machine.execLogEntryWrite slice s
  | .isobarSample counts => Sys2Proof.Machine.execIsobarSample counts s
  | .hostFlashTrigger => Sys2Proof.Machine.execHostFlashTrigger s
  | .snapshotLatch => Sys2Proof.Machine.execSnapshotLatch s
  | .snapshotCopy => Sys2Proof.Machine.execSnapshotCopy s
  | .breakpointClear chain => Sys2Proof.Machine.execBreakpointClear chain s
  | .taskStopWrite n word0 word1 => Sys2Proof.Machine.execTaskStopWrite n word0 word1 s
  | .arrayCommandCompletion quad => Sys2Proof.Machine.execArrayCommandCompletion quad s
  | .sleepExpiry core ctx => Sys2Proof.Machine.execSleepExpiry core ctx s
  | .replayEntryLoad core ctx => Sys2Proof.Machine.execReplayEntryLoad core ctx s
  | .resumeMessage core => Sys2Proof.Machine.execResumeMessage core s
  | .powerFirmwareUpdate begins => Sys2Proof.Machine.execPowerFirmwareUpdate begins s
  | .deviceIdAssignment id => Sys2Proof.Machine.execDeviceIdAssignment id s
  | .illegalEncoding bits wide => Sys2Proof.Machine.execIllegalEncoding bits wide s
  | .fetchBounds outside => Sys2Proof.Machine.execFetchBounds outside s
  | .unknownChainEntryType chain => Sys2Proof.Machine.execUnknownChainEntryType chain s

end Sys2Proof.Machine
end

