-- ==== Sys2Proof/Machine/Fetch.lean ====
section
/-!
DEFINITION. Fetching the code at PC (R62, R63), the passing of cycles (R14, R130, R152, R350), and which events come from
outside the part.
-/

namespace Sys2Proof.Machine

/-- What a fetch brings: the code, or the first address outside the store (R63). -/
inductive Fetch where
  | code (w : Code)
  | outside (a : Word)
deriving DecidableEq, Repr

/-- Size of an instruction store in bytes (R63). -/
def istoreSize : Nat := 65536

/-- A halfword of a core's instruction store, little-endian (R62, R210). -/
def State.halfword (s : State) (c a : Nat) : BitVec 16 := BitVec.ofNat 16 (Memory.nat s.mem (istoreKey c a) 2)

/-- The code at an address: bit 15 of its first halfword decides its length (R62). -/
def State.fetch (s : State) (c : Nat) (pc : Word) : Fetch :=
  if pc.toNat + 2 > istoreSize then .outside (if pc.toNat < istoreSize then BitVec.ofNat 64 istoreSize else pc)
  else
    let h := s.halfword c pc.toNat
    if h.getLsbD 15 = false then .code (.c16 h)
    else if pc.toNat + 4 > istoreSize then .outside (BitVec.ofNat 64 istoreSize)
    else .code (.c32 (cat h (s.halfword c (pc.toNat + 2))))

/-- A halfword as a fetch finds it: the newest, or one that it held before, as chosen, where the core has not fenced since (R246). -/
def State.fetchHalf (s : State) (c a : Nat) : BitVec 16 × State :=
  let old := ((s.core c).stale.filter fun e => e.1 == a).map (·.2)
  if old.isEmpty then (s.halfword c a, s)
  else
    let (i, s) := s.pick (old.length + 1)
    ((s.halfword c a :: old)[i]?.getD 0, s)

/-- The code that a core fetches at an address: each halfword by itself may be an old one (R62, R246). -/
def State.fetchCode (s : State) (c : Nat) (pc : Word) : Fetch × State :=
  if (s.core c).stale.isEmpty then (s.fetch c pc, s)
  else if pc.toNat + 2 > istoreSize then (.outside (if pc.toNat < istoreSize then BitVec.ofNat 64 istoreSize else pc), s)
  else
    let (h, s) := s.fetchHalf c pc.toNat
    if h.getLsbD 15 = false then (.code (.c16 h), s)
    else if pc.toNat + 4 > istoreSize then (.outside (BitVec.ofNat 64 istoreSize), s)
    else
      let (l, s) := s.fetchHalf c (pc.toNat + 2)
      (.code (.c32 (cat h l)), s)

/-- The bytes of a code word as an instruction store holds them (R62). -/
def codeBytes : Code → List Byte
  | .c16 w => leBytes 2 w.toNat
  | .c32 w => leBytes 2 (w.extractLsb' 16 16).toNat ++ leBytes 2 (w.extractLsb' 0 16).toNat

/-- A word that is no instruction carries ILLEGAL (R76, R77). -/
def refuseCode (w : Code) (s : State) : Out :=
  match w with
  | .c16 h => execIllegalEncoding (h.setWidth 32) false s
  | .c32 h => execIllegalEncoding h true s

/-- BUDGET counts down while the context is RUNNING, in any mode (R350). -/
def Ctx.spend (t : Ctx) (n : Nat) : Ctx :=
  if t.cstate = .running then { t with budget := BitVec.ofNat 64 (t.budget.toNat - n) } else t

/-- A new holder's first command waits at the array, for room or for what it reads: the commands accepted before its lease drain in less
time than the lease has (R152, R153). -/
def State.firstWaits (s : State) (c : Nat) : Bool :=
  (s.arrayOf (quadOf c)).count == 16 && match (s.core c).pipe with
    | some x => (s.ctx c x).wait == some .arrayRoom
    | none => false

/-- Cycles of a core: CYCLE, the slice of the context in the pipe, every BUDGET, and the clock of the lease it holds, which does not run
out before the array has taken its first command (R14, R130, R152, R153, R350). -/
def State.passCycles (s : State) (c n : Nat) : State :=
  let s := s.updCore c fun k =>
    { k with
      cycle := k.cycle + BitVec.ofNat 64 n
      slice := if k.pipe.isSome then k.slice + n else k.slice
      ctxs := mapVec (fun t => t.spend n) k.ctxs }
  let u := s.arrayOf (quadOf c)
  if u.lease = some (inQuad c) then
    let left := u.clock - n
    s.setArray (quadOf c) { u with clock := if s.firstWaits c then max left (min u.clock 1) else left }
  else s

/-- A delay the environment names; 0 where it names none. -/
def State.delay (s : State) : Nat × State :=
  match s.delays with
  | [] => (0, s)
  | n :: l => (n, { s with delays := l })

/-- Time passes at a core: one cycle and a delay of its clock, and a delay of the mesh clock that ends before the next
control interval and with what is due in it (R386, R392), in which the engines that wait stall (R327). -/
def State.pass (s : State) (c : Nat) : State :=
  let (n, s) := s.delay
  let (m, s) := s.delay
  let mesh := max s.mesh (s.dueCycles.foldl min (min (s.mesh + m) (nextBoundary s.mesh - 1)))
  (s.tick mesh).passCycles c (n + 1)

/-- The outcome with a change to its next state. -/
def mapNext (o : Out) (f : State → State) : Out :=
  match o with
  | .next s => .next (f s)
  | .fault r => .fault r
  | .refused r => .refused r

/-- The events that come from outside the part: the host, other devices, the supply, the firmware, the meters and the debug
port. Every other event happens when the state enables it. -/
def external : Instr → Bool
  | .reset | .fillArrival .. | .energyMeterUpdate .. | .firmwareBudgetWrite .. | .powerFirmwareUpdate .. | .supplySag ..
  | .sagClear .. | .thermalTrip .. | .thermalRecover .. | .supplyLossWarning | .hostWrite .. | .hostRegisterWrite ..
  | .chainRegistrationWrite .. | .remotePacketArrival .. | .remoteAck .. | .flitReplay .. | .reductionResult ..
  | .collectiveChunk .. | .isobarSample .. | .hostFlashTrigger | .breakpointClear .. | .taskStopWrite ..
  | .deviceIdAssignment .. | .controlIntervalBoundary .. | .deepMissNotice .. => true
  | _ => false

/-- An event from outside waits: a write while an engine command owns a line it covers or its bank is refreshed (R207, R222, R404), the
clearing of a breakpoint while its chain's header is so owned, a boundary of the control interval while something is due before it. -/
def State.held (s : State) : Instr → Bool
  | .hostWrite _ offset data => s.hostWaits offset data.length
  | .breakpointClear h => (s.chainHalt.find h).isSome && s.headerOwned (s.chain h)
  | .controlIntervalBoundary _ => !s.boundaryNext
  | .remotePacketArrival p => ((s.launch p.rlid).map fun l => l.state != .removing).getD true && s.packetHeld p
  | .collectiveChunk idx chunk _ bad => !bad && s.chunkHeld idx chunk
  | .supplyLossWarning => s.markerHeld
  | _ => false

/-- The context of a core whose next instruction can run: in the pipe, its clock not paused, nothing pending (R10, R33,
R381). -/
def State.runnable (s : State) (c : Nat) : Option (Fin 8) :=
  match (s.core c).pipe with
  | none => none
  | some x =>
    let t := s.ctx c x
    if s.paused c ∨ t.wait.isSome ∨ t.token.isSome ∨ t.takeable then none else some x

end Sys2Proof.Machine
end

