-- ==== Sys2Proof/Machine/Pipe.lean ====
section
/-!
DEFINITION. What the pipe holds up behind an instruction of which nothing has come yet: those younger than one that serialises or waits
at stage 2, and those that read its result (R17, R27, R116).
-/

namespace Sys2Proof.Machine

/-- No younger instruction goes past it before it is the oldest unretired one: it is serialising, or waits at stage 2 for that (R17, R110,
R116, R117, R176, R190, R290, R291, R295, R297, R383). -/
def stays : Instr → Bool
  | .cwr .. | .blkmv .. | .blkset .. | .mkempty .. | .rstate .. | .crr .. | .xwait | .drain | .ffence | .objdecl .. | .wrec ..
  | .wplay .. | .wend .. | .tret | .halt | .sleep .. | .killctx .. | .tlbi .. | .tlbsync | .watch .. | .sstepOn | .sstepOnce
  | .sstepOff | .snap .. | .gust .. | .gustT .. | .gustrel .. | .qread .. | .qpri .. => true
  | _ => false

/-- It waits in a siding until it is the oldest unretired one, so that its result comes no sooner (R285, R297, R333). -/
def waitsLast : Instr → Bool
  | .amoswap .. | .amoadd .. | .amoand .. | .amoor .. | .amoxor .. | .amomin .. | .amomax .. | .amominu .. | .amomaxu ..
  | .cas .. | .wstat .. | .cpyst .. => true
  | _ => false

/-- General registers that an instruction which does not stay writes with its result. -/
def results : Instr → List (BitVec 5)
  | .add d .. | .sub d .. | .and d .. | .or d .. | .xor d .. | .andn d .. | .sll d .. | .srl d .. | .sra d .. | .mul d ..
  | .mulh d .. | .mulhu d .. | .min d .. | .max d .. | .minu d .. | .maxu d .. | .addw d .. | .subw d .. | .sextb d ..
  | .sexth d .. | .sextw d .. | .zextb d .. | .zexth d .. | .zextw d .. | .clz d .. | .popc d .. | .cmp d .. | .sel d ..
  | .div d .. | .rem d .. | .divu d .. | .remu d .. | .divw d .. | .remw d .. | .divuw d .. | .remuw d .. | .addi d ..
  | .andi d .. | .ori d .. | .xori d .. | .slli d .. | .srli d .. | .srai d .. | .cmpi d .. | .li d .. | .lix d ..
  | .addpc d .. | .jr d .. | .fadd d .. | .fsub d .. | .fmul d .. | .fmin d .. | .fmax d .. | .fabs d .. | .fneg d ..
  | .fma d .. | .fmsub d .. | .fnma d .. | .fnms d .. | .fdiv d .. | .fsqrt d .. | .fcmp d .. | .fclass d .. | .cvt d ..
  | .cvtd d .. | .amoswap d .. | .amoadd d .. | .amoand d .. | .amoor d .. | .amoxor d .. | .amomin d .. | .amomax d ..
  | .amominu d .. | .amomaxu d .. | .cas d .. | .ldAcq d .. | .ldv d .. | .wstat d .. | .send d .. | .sendh d .. | .spawn d ..
  | .pusht d .. | .qstat d .. | .grpq d .. | .grpqM d .. | .cpy d .. | .cpyNb d .. | .cpyst d .. | .gather d .. | .rawait d ..
  | .xred d .. | .coll d .. | .cwait d .. | .ramoSwap d .. | .ramoAdd d .. | .ramoAnd d .. | .ramoOr d .. | .ramoXor d ..
  | .ramoMin d .. | .ramoMax d .. | .ramoMinu d .. | .ramoMaxu d .. | .ramoCas d .. => [d]
  | .ld d .. | .ldw d .. | .ldh d .. | .ldb d .. | .ldNc d .. | .ldA d .. => [d]
  | .movC d .. | .addC d .. | .subC d .. | .andC d .. | .orC d .. | .xorC d .. | .sllC d .. | .srlC d .. | .addiC d ..
  | .liC d .. | .slliC d .. | .srliC d .. | .sraiC d .. | .ldC d .. | .vext d .. => [low d]
  | .xstat _ d | .xstatClr _ d => [d]
  | .call _ => [31]
  | _ => []

/-- A code word's instruction as those of the pipe see it; HINT, OBJDROP and WDROP apart, which compiled code does not build. -/
def pipeDecode : Code → Option Instr
  | .c16 h => decode16 h
  | .c32 h =>
    match decodeMajor (dec3EBy fun _ => none) (dec3FBy fun _ => none) (fun _ => none) h with
    | some i => if i.wf then some i else none
    | none => none

/-- The word is that of OBJDROP, which serialises (R296). -/
def isObjdrop : Code → Bool
  | .c16 _ => false
  | .c32 h => h.extractLsb' 24 8 == 0xBE#8 && h.extractLsb' 0 19 == 451#19

/-- The register of the status of a WDROP (R299). -/
def wdropResult : Code → List (BitVec 5)
  | .c16 _ => []
  | .c32 h =>
    if h.extractLsb' 24 8 = 0xBF#8 ∧ h.extractLsb' 11 8 = 4#8 ∧ h.extractLsb' 0 6 = 0#6 then [h.extractLsb' 19 5] else []

/-- No younger instruction goes past a code word's. -/
def codeStays (w : Code) : Bool := isObjdrop w || ((pipeDecode w).map stays).getD false

/-- Its result comes when it is the oldest. -/
def codeWaitsLast (w : Code) : Bool := !(wdropResult w).isEmpty || ((pipeDecode w).map waitsLast).getD false

/-- What it writes. -/
def codeResults (w : Code) : List (BitVec 5) := wdropResult w ++ ((pipeDecode w).map results).getD []

/-- Its size in bytes (R62). -/
def codeSize : Code → Word
  | .c16 _ => 2
  | .c32 _ => 4

/-- A context past an instruction of which nothing has come: what reads its results waits at stage 2, or faults in a trapping mode (R19,
R27). -/
def Ctx.passBy (t : Ctx) (w : Code) : Ctx :=
  (codeResults w).foldl (fun t r => t.mkEmpty r 0) { t with pc := t.pc + codeSize w, rep := none }

end Sys2Proof.Machine
end

