-- ==== Sys2Proof/Machine/Turns.lean ====
section
/-!
DEFINITION. What can happen next in a state, one turn at a time: an instruction of some core, an event from outside, or an
event that the state enables. Which of them comes first is no rule of the spec; State.picks chooses.
-/

namespace Sys2Proof.Machine

/-- A turn: the next instruction of a core, the next event from outside, cycles that pass at a core, or an event named by its
place in the state. -/
inductive Turn where
  | instr (core : Nat)
  | input
  | pass (core : Nat)
  | fillArrival (core ctx slot : Nat)
  | deepMissNotice (core ctx slot : Nat)
  | sidingRejoin (core : Nat)
  | missReturn (core : Nat)
  | trapEntry (core : Nat)
  | missSwitch (core : Nat)
  | asyncEventTaken (core : Nat)
  | forcedBoundary (core : Nat)
  | pipeSliceExpiry (core : Nat)
  | sleepExpiry (core ctx : Nat)
  | storePerformed (core idx : Nat)
  | dirtyMerge (quad line : Nat) (evict : Bool)
  | bankRefresh
  | dispatch (core : Nat)
  | messageOffer (core ctx : Nat)
  | messageReoffer (core ctx : Nat)
  | hintWalk (core ctx : Nat)
  | spawnRequest (core ctx slot : Nat)
  | childStart (core ctx : Nat)
  | stealProbe (core : Nat)
  | stealReply (core : Nat)
  | stealPauseExpiry (core : Nat)
  | spillMove (core queue : Nat)
  | startMessage (core : Nat)
  | resumeMessage (core : Nat)
  | coreSuspend (core : Nat)
  | launchComplete (launch : Nat)
  | leaseGrant (quad : Nat)
  | leaseClockExpiry (quad : Nat)
  | arrayCommandExecute (quad : Nat)
  | arrayCommandCompletion (quad : Nat)
  | vectorIssue (quad : Nat)
  | seal (launch rec : Nat)
  | roundClose (launch rec : Nat)
  | replayEntryLoad (core ctx : Nat)
  | pushArrival (quad idx : Nat)
  | pushTimeout (quad idx : Nat)
  | engineChunk (quad : Nat)
  | copyOp (core : Nat)
  | pack (core : Nat)
  | unpack (core : Nat)
  | fill (core : Nat)
  | ringReserve (core : Nat)
  | gatherRow (die engine stream : Nat)
  | commandCompletion (engine : EngineId)
  | collectiveChunk (idx chunk : Nat)
  | tailPoll (chain : Nat)
  | chainEntryCompletion (chain : Nat)
  | unknownChainEntryType (chain : Nat)
  | root (chain : Nat)
  | launch (chain : Nat)
  | copy (chain : Nat)
  | wait (chain : Nat)
  | signal (chain : Nat)
  | suspend (chain : Nat)
  | resume (chain : Nat)
  | remove (chain : Nat)
  | window (chain : Nat)
  | logcfg (chain : Nat)
  | flush (chain : Nat)
  | obscfg (chain : Nat)
  | killFlood (launch core : Nat)
  | sweepEnd (launch : Nat)
  | removalConfirmation (launch : Nat)
  | doldrums (launch : Nat)
  | taskOverrun (core ctx : Nat)
  | controlIntervalBoundary
  | gustLeaseExpiry (cluster : Nat)
  | firmwareWatchdog
  | logEntryWrite (slice : Nat)
  | isobarSample
  | snapshotLatch
  | snapshotCopy
  /-- an invalidation reaches a quad's copy (R205, R243) -/
  | invalidate (quad line : Nat)
  /-- an L2 slice replaces a dirty line, which goes to its target (R198) -/
  | l2WriteBack (line : Nat)
  /-- a shootdown reaches a core (R389) -/
  | shootdown (number core : Nat)
  /-- array commands accepted before a token annuls them (R151, R152) -/
  | lostCommand (core : Nat)
  /-- the array accepts the command that waits for the lease that its core holds, or for room (R151, R152) -/
  | arrayAccept (core : Nat)
deriving DecidableEq, Repr

/-- What the code at PC does: its instruction's meaning, or ILLEGAL where it is none (R76). -/
noncomputable def runCode (w : Code) (s : State) : Out :=
  match decode w with
  | some i => exec i s
  | none => refuseCode w s

/-- A 32-bit word run without its instruction being built, for the three that compiled code cannot build. -/
def runBuilt32 (h : BitVec 32) (s : State) : Out :=
  if h.extractLsb' 27 5 = 0x1F#5 then execHint (h.extractLsb' 24 3) (h.extractLsb' 0 24) s
  else if h.extractLsb' 24 8 = 0xBE#8 ∧ h.extractLsb' 0 19 = 451#19 then execObjdrop (h.extractLsb' 19 5) s
  else if h.extractLsb' 24 8 = 0xBF#8 ∧ h.extractLsb' 11 8 = 4#8 ∧ h.extractLsb' 0 6 = 0#6 then
    execWdrop (h.extractLsb' 19 5) (h.extractLsb' 6 5) s
  else
    match decodeMajor (dec3EBy fun _ => none) (dec3FBy fun _ => none) (fun _ => none) h with
    | some i => if i.wf then exec i s else refuseCode (.c32 h) s
    | none => refuseCode (.c32 h) s

/-- runCode as compiled code has it. -/
def runBuilt (w : Code) (s : State) : Out :=
  match w with
  | .c16 h =>
    match decode16 h with
    | some i => exec i s
    | none => refuseCode w s
  | .c32 h => runBuilt32 h s

theorem extract_sub (w : BitVec n) (a m b k : Nat) (h : b + k ≤ m) :
    (w.extractLsb' a m).extractLsb' b k = w.extractLsb' (a + b) k := by
  ext i hi
  simp only [BitVec.getElem_extractLsb', BitVec.getLsbD_extractLsb']
  have : b + i < m := by omega
  simp [this, Nat.add_assoc]

theorem run_raw (w : BitVec 32) (i : Instr) (s : State) (h : decodeRaw32 w = some i) (k : i.wf = true) :
    runCode (.c32 w) s = exec i s := by
  simp [runCode, decode, decode32, h, k]

theorem run_hint (w : BitVec 32) (s : State) (h : w.extractLsb' 27 5 = 0x1F#5) :
    runCode (.c32 w) s = execHint (w.extractLsb' 24 3) (w.extractLsb' 0 24) s := by
  have hk (k : BitVec 8) (hk : k.extractLsb' 3 5 ≠ 0x1F#5) : w.extractLsb' 24 8 ≠ k := by
    intro e
    exact hk (by rw [← e, extract_sub _ _ _ _ _ (by decide)]; exact h)
  exact run_raw w (.hint _ _) s (by simp [decodeRaw32, decodeMajor, decHint, h, hk]) rfl

theorem run_objdrop (w : BitVec 32) (s : State) (h : w.extractLsb' 24 8 = 0xBE#8) (l : w.extractLsb' 0 19 = 451#19) :
    runCode (.c32 w) s = execObjdrop (w.extractLsb' 19 5) s := by
  have hk (a k : Nat) (hak : a + k ≤ 19) : w.extractLsb' a k = (451#19).extractLsb' a k := by
    rw [← l, extract_sub _ _ _ _ _ hak]; simp
  have hn (k : BitVec 24) (hk : k.extractLsb' 0 19 ≠ 451#19) : w.extractLsb' 0 24 ≠ k := by
    intro e
    exact hk (by rw [← e, extract_sub _ _ _ _ _ (by decide)]; exact l)
  exact run_raw w (.objdrop _) s
    (by simp [decodeRaw32, decodeMajor, dec3EBy, decObjdrop, h, l, hk, hn]) rfl

theorem run_wdrop (w : BitVec 32) (s : State) (h : w.extractLsb' 24 8 = 0xBF#8) (l : w.extractLsb' 11 8 = 4#8)
    (z : w.extractLsb' 0 6 = 0#6) : runCode (.c32 w) s = execWdrop (w.extractLsb' 19 5) (w.extractLsb' 6 5) s := by
  have h3 : w.extractLsb' 11 3 = 4#3 := by
    have := extract_sub w 11 8 0 3 (by decide)
    rw [l] at this
    exact this.symm
  have hn : w.extractLsb' 0 19 ≠ 4096#19 := by
    intro e
    have := extract_sub w 0 19 11 8 (by decide)
    rw [e] at this
    simp only [Nat.zero_add, l] at this
    exact absurd this (by decide)
  exact run_raw w (.wdrop _ _) s (by simp [decodeRaw32, decodeMajor, dec3FBy, decWdrop, h, l, z, h3, hn]) rfl

theorem decode_near (w : BitVec 32) (h : w.extractLsb' 27 5 ≠ 0x1F#5)
    (o : ¬(w.extractLsb' 24 8 = 0xBE#8 ∧ w.extractLsb' 0 19 = 451#19))
    (d : ¬(w.extractLsb' 24 8 = 0xBF#8 ∧ w.extractLsb' 11 8 = 4#8 ∧ w.extractLsb' 0 6 = 0#6)) :
    decodeRaw32 w = decodeMajor (dec3EBy fun _ => none) (dec3FBy fun _ => none) (fun _ => none) w := by
  unfold decodeRaw32
  by_cases hE : w.extractLsb' 24 8 = 0xBE#8
  · have l : w.extractLsb' 0 19 ≠ 451#19 := fun l => o ⟨hE, l⟩
    simp [decodeMajor, dec3EBy, hE, l]
  · by_cases hF : w.extractLsb' 24 8 = 0xBF#8
    · have l : ¬(w.extractLsb' 11 8 = 4#8 ∧ w.extractLsb' 0 6 = 0#6) := fun l => d ⟨hF, l⟩
      simp [decodeMajor, dec3FBy, hF, l]
    · simp [decodeMajor, hE, hF, h]

theorem run_built (w : BitVec 32) (s : State) : runCode (.c32 w) s = runBuilt32 w s := by
  unfold runBuilt32
  split
  · exact run_hint w s ‹_›
  · rename_i h1
    split
    · rename_i h
      exact run_objdrop w s h.1 h.2
    · rename_i h2
      split
      · rename_i h
        exact run_wdrop w s h.1 h.2.1 h.2.2
      · rename_i h3
        simp only [runCode, decode, decode32, decode_near w h1 h2 h3]
        cases decodeMajor (dec3EBy fun _ => none) (dec3FBy fun _ => none) (fun _ => none) w with
        | none => rfl
        | some i => cases h : i.wf <;> simp [h]

@[csimp] theorem runCode_eq : @runCode = @runBuilt := by
  funext w s
  match w with
  | .c16 h => rfl
  | .c32 w => exact run_built w s

/-- The instruction at the PC of a context in a core's pipe, without the time it takes. -/
def State.runPc (s : State) (c : Nat) (x : Fin 8) : Out :=
  let s : State := { s with cur := (c, x) }
  match s.fetchCode c s.me.pc with
  | (.outside a, s) => execFetchBounds a s
  | (.code w, s) => runCode w s

/-- The same, where it can run. -/
def State.instruction (s : State) (c : Nat) : Out :=
  match s.runnable c with
  | none => .next s
  | some x => s.runPc c x

/-! ### Array commands that are annulled after the array has accepted them (R151, R152) -/

/-- The instruction of a context has raised a trap: its handler has been entered, or its task aborted (R346, R347). -/
def trapped (before after : Ctx) : Bool :=
  (after.mode == trapMode && before.mode != trapMode) ||
  (before.cstate == .running && after.cstate == .dormant && after.trapCause.getLsbD 9 && after.trapPc == before.faultPc)

/-- The wait holds up the context's younger instructions as well: a stall at stage 2 or 3, or at the array's lane head (R18, R21,
R151). -/
def Wait.blocks : Wait → Bool
  | .source _ | .lost | .fillSlot | .lease | .arrayRoom | .arrayDone => true
  | _ => false

/-- The next instructions of a context, so many of them, as the pipe has them before any retires; of what they do the accepted array
commands alone are kept. One that traps or waits in a siding is passed by without its result; behind one that holds the pipe up there
is none (R17, R27). -/
def State.runAhead (c : Nat) (x : Fin 8) : Nat → State → State
  | 0, s => s
  | n + 1, s =>
    let s := s.updCtx c x fun t => { t with token := none, wait := none, held := none, async := Async.empty }
    let t := s.ctx c x
    match (s.fetchCode c t.pc).1 with
    | .outside _ => s
    | .code w =>
      let past := s.setCtx c x (t.passBy w)
      if codeStays w then s
      else if codeWaitsLast w then past.runAhead c x n
      else
        match s.runPc c x with
        | .next u =>
          let v := u.ctx c x
          if trapped t v then past.runAhead c x n
          else
            match v.wait with
            | some w => if w.blocks then s else past.runAhead c x n
            | none => if (u.core c).pipe = some x then u.runAhead c x n else s
        | _ => s

/-- The commands that a core's context has among its next instructions have been accepted and are annulled: they have counted towards
the lease and never execute (R151, R152). -/
def State.loseCommands (s u : State) (c : Nat) (x : Fin 8) (n : Nat) : State :=
  let q := quadOf c
  let a := u.arrayOf q
  let b := (s.runAhead c x n).arrayOf q
  if a.lease = some (inQuad c) then u.setArray q { a with lease := b.lease, count := b.count } else u

/-- Commands may lie accepted behind the instruction at PC: the core holds the lease and the queue has room. -/
def State.mayLose (s : State) (c : Nat) : Bool :=
  let a := s.arrayOf (quadOf c)
  a.lease == some (inQuad c) && a.clock != 0 && decide (a.queued < 8)

/-- The state after an instruction, or what has ended its task: where it has trapped, up to 15 younger instructions, as chosen, are annulled with
it, accepted commands among them (R25, R31, R151, R348). -/
def State.annulBehind (s u : State) (c : Nat) (x : Fin 8) : State :=
  if trapped (s.ctx c x) (u.ctx c x) = false ∨ s.mayLose c = false then u
  else
    let (n, u) := u.pick 16
    if n = 0 then u else s.loseCommands u c x (n + 1)

/-- A token is on its way: the command at PC has been accepted before, and those among so many younger instructions as chosen; once
(R31, R151, R152). -/
def State.lostCommand (s : State) (c : Nat) : State :=
  match (s.core c).pipe with
  | none => s
  | some x =>
    let t := s.ctx c x
    if t.token.isNone ∨ t.held.isSome ∨ s.mayLose c = false then s
    else
      let (n, u) := s.pick 16
      s.loseCommands (u.setCtx c x { t with held := some 0 }) c x (n + 1)

/-- The array accepts the waiting command of a core's context: it runs, whatever event is pending (R151). -/
def State.acceptWaiting (s : State) (c : Nat) : Out :=
  match (s.core c).pipe with
  | none => .next s
  | some x =>
    match (s.ctx c x).wait with
    | some .lease | some .arrayRoom => (s.updCtx c x fun t => { t with wait := none }).runPc c x
    | _ => .next s

/-- The array can accept it now: the core holds the lease, no token annuls it, and it goes on (R151, R152). -/
def State.accepts (s : State) (c : Nat) : Bool :=
  match (s.core c).pipe with
  | none => false
  | some x =>
    let t := s.ctx c x
    if (t.wait = some .lease ∨ t.wait = some .arrayRoom) ∧ t.token.isNone = true ∧ s.paused c = false then
      let a := s.arrayOf (quadOf c)
      a.lease == some (inQuad c) && a.clock != 0 && match s.acceptWaiting c with
        | .next u => (u.ctx c x).wait != t.wait
        | _ => true
    else false

/-- The same for the context in a core's pipe. -/
def State.annulled (s u : State) (c : Nat) : State :=
  match (s.core c).pipe with
  | none => u
  | some x => s.annulBehind u c x

/-- The time that an instruction takes passes, and the slice of its context ends at the boundary where it is over (R130). -/
def State.takeTime (s : State) (c : Nat) : State := (s.pass c).endSlice c

/-- The next event from outside leaves the list and happens; what is no such event is dropped. -/
def State.takeInput (s : State) : Out :=
  match s.inputs with
  | [] => .next s
  | i :: l =>
    let s : State := { s with inputs := l }
    if external i then exec i s else .next s

/-- What a turn does. -/
def Turn.run (t : Turn) (s : State) : Out :=
  match t with
  | .instr c => mapNext (s.instruction c) fun u => (s.annulled u c).takeTime c
  | .arrayAccept c => mapNext (s.acceptWaiting c) fun u => (s.annulled u c).takeTime c
  | .input => s.takeInput
  | .pass c => .next (s.pass c)
  | .fillArrival c x n => execFillArrival c x n none false s
  | .deepMissNotice c x n => execDeepMissNotice c x n s
  | .sidingRejoin c => execSidingRejoin c s
  | .missReturn c => execMissReturn c s
  | .trapEntry c => execTrapEntry c s
  | .missSwitch c => execMissSwitch c s
  | .asyncEventTaken c => execAsyncEventTaken c s
  | .forcedBoundary c => execForcedBoundary c s
  | .pipeSliceExpiry c => execPipeSliceExpiry c s
  | .sleepExpiry c x => execSleepExpiry c x s
  | .storePerformed c i => execStorePerformed c i s
  | .dirtyMerge q l e => execDirtyMerge q l e s
  | .bankRefresh => execBankRefresh s
  | .dispatch c => execDispatch c s
  | .messageOffer c x => execMessageOffer c x s
  | .messageReoffer c x => execMessageReoffer c x s
  | .hintWalk c x => execHintWalk c x s
  | .spawnRequest c x n => execSpawnRequest c x n s
  | .childStart c x => execChildStart c x s
  | .stealProbe c => execStealProbe c s
  | .stealReply c => execStealReply c s
  | .stealPauseExpiry c => execStealPauseExpiry c s
  | .spillMove c q => execSpillMove c q s
  | .startMessage c => execStartMessage c s
  | .resumeMessage c => execResumeMessage c s
  | .coreSuspend c => execCoreSuspend c s
  | .launchComplete n => execLaunchComplete n s
  | .leaseGrant q => execLeaseGrant q s
  | .leaseClockExpiry q => execLeaseClockExpiry q s
  | .arrayCommandExecute q => execArrayCommandExecute q s
  | .arrayCommandCompletion q => execArrayCommandCompletion q s
  | .vectorIssue q => execVectorIssue q s
  | .seal n r => execSeal n r s
  | .roundClose n r => execRoundClose n r s
  | .replayEntryLoad c x => execReplayEntryLoad c x s
  | .pushArrival q i => execPushArrival q i s
  | .pushTimeout q i => execPushTimeout q i s
  | .engineChunk q => execEngineChunk q s
  | .copyOp c => execCopyOp c s
  | .pack c => execPack c s
  | .unpack c => execUnpack c s
  | .fill c => execFill c s
  | .ringReserve c => execRingReserve c s
  | .gatherRow d e n => execGatherRow d e n s
  | .commandCompletion e => execCommandCompletion e s
  | .collectiveChunk i n => execCollectiveChunk i n [] false s
  | .tailPoll h => execTailPoll h s
  | .chainEntryCompletion h => execChainEntryCompletion h s
  | .unknownChainEntryType h => execUnknownChainEntryType h s
  | .root h => execRoot h s
  | .launch h => execLaunch h s
  | .copy h => execCopy h s
  | .wait h => execWait h s
  | .signal h => execSignal h s
  | .suspend h => execSuspend h s
  | .resume h => execResume h s
  | .remove h => execRemove h s
  | .window h => execWindow h s
  | .logcfg h => execLogcfg h s
  | .flush h => execFlush h s
  | .obscfg h => execObscfg h s
  | .killFlood n c => execKillFlood n c s
  | .sweepEnd n => execSweepEnd n s
  | .removalConfirmation n => execRemovalConfirmation n s
  | .doldrums n => execDoldrums n s
  | .taskOverrun c x => mapNext (execTaskOverrun c x s) fun u => s.annulled u c
  | .controlIntervalBoundary => execControlIntervalBoundary [] s
  | .gustLeaseExpiry n => execGustLeaseExpiry n s
  | .firmwareWatchdog => execFirmwareWatchdog s
  | .logEntryWrite n => execLogEntryWrite n s
  | .isobarSample => execIsobarSample [] s
  | .snapshotLatch => execSnapshotLatch s
  | .snapshotCopy => execSnapshotCopy s
  | .invalidate q l => .next (if ((s.cacheLine q l).map (·.doomed)).getD false then s.dropLine q l else s)
  | .l2WriteBack l => .next (s.l2Drop l)
  | .shootdown n c => .next (s.reachCore n c)
  | .lostCommand c => .next (s.lostCommand c)

/-! ### The turns of a state -/

/-- The turn changes the state; one that does not is not enabled. -/
def Turn.effective (t : Turn) (s : State) : Bool :=
  match t.run s with
  | .next u => u != s
  | _ => true

/-- The turn is enabled. A runnable instruction and the passing of cycles always are; an instruction comes back from its siding when
it can then go on (R28), a line is evicted where its set is full (R203), a push is discarded where it has no room (R268), a lease
ends by its clock when that has run out (R152), a boundary of the control interval always comes. -/
def Turn.enabled (t : Turn) (s : State) : Bool :=
  match t with
  | .instr c => (s.runnable c).isSome
  | .input => match s.inputs with
    | i :: _ => !s.held i
    | [] => false
  | .pass _ => true
  | .controlIntervalBoundary => s.boundaryNext
  | .arrayAccept c => s.accepts c
  | .pipeSliceExpiry c => s.sliceOver c && decide (4096 + 56 ≤ (s.core c).slice)
  | .sidingRejoin c =>
    match execSidingRejoin c s with
    | .next u =>
      (u.runnable c).isSome && (match u.instruction c with
        | .next v => ({ v with cur := s.cur, picks := s.picks } : State) != s
        | _ => true)
    | _ => false
  | .dirtyMerge q l evict => evict && decide (((s.quad q).cache.filter fun (k, _) => cacheSet k == cacheSet l).length ≥ 16)
  | .pushTimeout q i => (s.quad q).pushBlocked i
  | .leaseClockExpiry q => (s.arrayOf q).lease.isSome && (s.arrayOf q).clock == 0
  | _ => t.effective s

/-- The turns of one context. -/
def ctxTurns (c : Nat) (x : Nat) (t : Ctx) : List Turn :=
  (t.fills.flatMap fun (n, _) => [.fillArrival c x n, .deepMissNotice c x n, .spawnRequest c x n]) ++
  [.messageOffer c x, .messageReoffer c x, .hintWalk c x, .childStart c x, .replayEntryLoad c x, .sleepExpiry c x]

/-- The turns of one core, but for its instruction. -/
def coreTurns (c : Nat) (k : Core) : List Turn :=
  [.trapEntry c, .asyncEventTaken c, .missReturn c, .sidingRejoin c, .forcedBoundary c, .missSwitch c,
    .pipeSliceExpiry c] ++
  ((List.finRange 8).flatMap fun x => ctxTurns c x.val (k.ctx x)) ++
  ((List.range k.stores.length).map fun i => .storePerformed c i) ++
  [.dispatch c, .startMessage c, .resumeMessage c, .coreSuspend c, .stealReply c, .stealProbe c, .stealPauseExpiry c] ++
  ((List.range 8).map fun q => .spillMove c q) ++
  [.copyOp c, .pack c, .unpack c, .fill c, .ringReserve c, .commandCompletion (.copy c)]

/-- The turns of one quad. -/
def quadTurns (q : Nat) (k : Quad) : List Turn :=
  [.vectorIssue q, .arrayCommandCompletion q, .arrayCommandExecute q, .leaseGrant q, .leaseClockExpiry q, .engineChunk q] ++
  ((List.range k.pushes.length).flatMap fun i => [.pushArrival q i, .pushTimeout q i]) ++
  (k.cache.flatMap fun (l, _) => [.invalidate q l, .dirtyMerge q l true])

/-- The turns of one launch. -/
def launchTurns (n : Nat) (l : Launch) : List Turn :=
  (l.flood.map fun c => .killFlood n c) ++ [.sweepEnd n, .removalConfirmation n, .launchComplete n, .doldrums n] ++
  (l.recs.flatMap fun (r, _) => [.seal n r, .roundClose n r])

/-- The turns of one chain. -/
def chainTurns (h : Nat) : List Turn :=
  [.tailPoll h, .chainEntryCompletion h, .unknownChainEntryType h, .root h, .launch h, .copy h, .wait h, .signal h,
    .suspend h, .resume h, .remove h, .window h, .logcfg h, .flush h, .obscfg h]

/-- The turns of one gather engine. -/
def gatherTurns (e : Nat) : List Turn :=
  (List.range 4).flatMap fun n => [.gatherRow (e / 32) (e % 32) n, .commandCompletion (.gather (e / 32) (e % 32) n)]

/-- The turns of the package: reductions, collectives, the log, the observer. -/
def State.packageTurns (s : State) : List Turn :=
  ((List.range s.reductions.length).map fun i => .commandCompletion (.xred i)) ++
  (s.collectives.zipIdx.flatMap fun (r, i) =>
    .commandCompletion (.coll i) ::
      (List.range (collChunks r.desc)).map fun n => .collectiveChunk i n) ++
  [.isobarSample, .snapshotLatch, .snapshotCopy] ++
  (match s.log with
    | some g => ((g.closed.map (·.1) ++ g.openEntries.map (·.1)).eraseDups).map .logEntryWrite
    | none => []) ++
  (s.shootdowns.flatMap fun (n, d) => d.cores.map fun c => .shootdown n c)


/-- Everything that could happen next: the instructions, the next event from outside, the events of the state in a fixed
order, and last what only lets time pass. -/
def State.turns (s : State) : List Turn :=
  (s.running.map fun (c, _) => .instr c) ++ [.input] ++
  (s.running.flatMap fun (c, k) => coreTurns c k) ++
  ((s.quads.filter fun (q, _) => !s.paused (4 * q)).flatMap fun (q, k) => quadTurns q k) ++
  (s.gathers.flatMap fun (e, _) => gatherTurns e) ++ (s.launches.flatMap fun (n, l) => launchTurns n l) ++
  (s.chains.flatMap fun (h, _) => chainTurns h) ++ s.packageTurns ++
  s.l2dirty.map .l2WriteBack ++ (s.running.map fun (c, _) => .lostCommand c) ++ (s.running.map fun (c, _) => .pass c) ++ [.bankRefresh, .controlIntervalBoundary]

/-- What comes before every other turn: the end of a budget (R350), a spilled message's move into an entry that has fallen free
(R127), the acceptance of an array command that waited for the lease or for room, and the end of a lease by its clock (R151, R152), the
firmware watchdog, what a boundary has ended (R369, R377), the sample due at the boundary (R436), the trigger's latch at its cycle
(R392), the end of a sleep whose time has passed (R386), and the end of a slice by the core's own boundary (R130). -/
def State.urgent (s : State) : Option Turn :=
  let overrun := s.running.findSome? fun (c, k) =>
    ((List.finRange 8).find? fun x => (k.ctx x).cstate == .running && (k.ctx x).budget == 0).map fun x =>
      Turn.taskOverrun c x.val
  let due := s.clusters.findSome? fun (n, k) =>
    match k.gust with
    | some g => if g.due = 0 then none else some (Turn.gustLeaseExpiry n)
    | none => none
  let move := s.running.findSome? fun (c, k) =>
    ((List.finRange 8).find? fun q => (k.queues[q]).spillCount != 0 && (Turn.spillMove c q.val).effective s).map fun q =>
      Turn.spillMove c q.val
  let accept := (s.running.find? fun e => s.accepts e.1).map fun e => Turn.arrayAccept e.1
  let lease := s.quads.findSome? fun (q, k) =>
    if k.array.lease.isSome ∧ k.array.clock = 0 then some (Turn.leaseClockExpiry q) else none
  let sample := if s.sampleDue then some Turn.isobarSample else none
  let latch := s.trigger.latchAt.bind fun n => if n ≤ s.mesh ∧ s.canReach n = true then some Turn.snapshotLatch else none
  let wake := s.running.findSome? fun (c, k) =>
    ((List.finRange 8).find? fun x => ((k.ctx x).sleep.map fun n => decide (n ≤ s.mesh) && s.canReach n).getD false).map fun x => Turn.sleepExpiry c x.val
  let slice := (s.running.find? fun e => (Turn.pipeSliceExpiry e.1).enabled s).map fun e => Turn.pipeSliceExpiry e.1
  ((((overrun.or move).or (accept.or lease)).or ((if s.fwDue then some .firmwareWatchdog else none).or due)).or (sample.or latch)).or
    (wake.or slice)

/-- The turn that comes next: an urgent one, else the enabled one that the first pick names, or the first of them where
there is no pick. -/
def State.choose (s : State) : Turn × State :=
  match s.urgent with
  | some t => (t, s)
  | none =>
    let l := s.turns.filter fun t => t.enabled s
    match s.picks with
    | [] => (l.head?.getD .controlIntervalBoundary, s)
    | p :: ps => ((l[p % l.length]?).getD .controlIntervalBoundary, { s with picks := ps })

/-- Core 0 about to run the code at its first context's PC: that context is RUNNING in the pipe with a budget and nothing
pending, its cluster's clock runs, and nothing else is waiting to be chosen. -/
def State.poised (s : State) : State :=
  let t := s.ctx 0 0
  let t : Ctx := { t with
    cstate := .running
    pc := if t.pc.toNat % 2 = 0 ∧ t.pc.toNat + 4 ≤ istoreSize then t.pc else 0
    status := clearPrefix t.status
    budget := 0x1000000
    wait := none
    held := none
    desc := none
    napping := none
    token := none
    async := Async.empty
    rep := none
    parked := none
    fading := []
    filled := []
    sleep := none }
  let k := s.core 0
  ({ s with inputs := [], picks := [], fwDue := false } : State).setCluster 0 { (s.cluster 0) with tripped := false }
    |>.setCore 0 (({ k with pipe := some 0, stale := [] } : Core).setCtx 0 t)

/-- A code word stored where core 0's context fetches next (R62, R210). -/
def State.placeCode (s : State) (w : Code) : State :=
  { s with mem := Memory.store s.mem (istoreKey 0 (s.ctx 0 0).pc.toNat) (codeBytes w) }

/-- The code of an opcode-table number of so many bits. -/
def tableCode (nbits w : Nat) : Code := if nbits = 16 then .c16 (BitVec.ofNat 16 w) else .c32 (BitVec.ofNat 32 w)

end Sys2Proof.Machine
end

