-- ==== Sys2Proof/Machine/Step.lean ====
section
/-!
DEFINITION. One step of the machine: the turn that comes next. A program comes to run from reset by the host's registration
of a chain, a LAUNCH entry, its start message and a dispatch; withFetchWord stands for that whole course.
-/

namespace Sys2Proof.Machine

/-- One step. -/
def step (s : State) : Host.Outcome State Fault Refusal := s.choose.1.run s.choose.2

/-- The state with an instruction stored where core 0 fetches next, and core 0 about to run it. -/
def State.withFetchWord (s : State) (nbits w : Nat) : State := s.poised.placeCode (tableCode nbits w)

end Sys2Proof.Machine
end

