-- ==== Sys2Proof/Safety.lean ====
section
/-!
DEFINITION. The terms statements are written in: when an instruction passes its checks and what its retirement or its fault
leaves, what the frame of an instruction is, and the invariant of memory.
-/

namespace Sys2Proof.Machine

/-- The outcome is a next state of which P holds. -/
def Gives (o : Out) (P : State → Prop) : Prop := ∃ t, o = .next t ∧ P t

/-- Where nothing of R79 stops it, the instruction retires in sequence, and its own effect on its context is `upd`, given the
context it found (with the banks it names ON) and the context to change (with its marked sources FREE). -/
def Completes (i : Instr) (f : Form) (upd : Ctx → Ctx → Ctx) : Prop :=
  ∀ s, f.ready s → exec i s = .next ((s.woken f).retire f (upd (s.woken f).me))

/-- The same, where the context it finds meets a condition. -/
def CompletesWhen (i : Instr) (f : Form) (cond : Ctx → Prop) (upd : Ctx → Ctx → Ctx) : Prop :=
  ∀ s, f.ready s → cond (s.woken f).me → exec i s = .next ((s.woken f).retire f (upd (s.woken f).me))

/-- A control transfer: not taken it retires in sequence; taken, with a target that R64 accepts, it retires to the target with its
link written; an odd target carries ALIGN and one beyond 0xFFFE carries BOUNDS, and then nothing is written (R64). -/
def Transfers (i : Instr) (f : Form) (taken : Ctx → Bool) (target : Ctx → Word) (link : Ctx → Ctx → Ctx) : Prop :=
  ∀ s, f.ready s →
    let k := (s.woken f).me
    let fault (code : BitVec 8) : Out :=
      .next ((s.woken f).takeTrap s.cur.1 s.cur.2 ⟨code, false, k.faultPc, target k⟩)
    (taken k = false → exec i s = .next ((s.woken f).retire f id)) ∧
    (taken k = true → (target k).getLsbD 0 = false → (target k).toNat ≤ 0xFFFE →
      exec i s = .next ((s.woken f).retireTo f (target k) 0 (link k))) ∧
    (taken k = true → (target k).getLsbD 0 = true → exec i s = fault 0x0A) ∧
    (taken k = true → (target k).getLsbD 0 = false → (target k).toNat > 0xFFFE → exec i s = fault 0x06)

/-- The outcome is the synchronous exception of a cause with its report, taken by the context that ran (R344 to R348). -/
def Faults (o : Out) (s : State) (code : BitVec 8) (info : Word) : Prop :=
  o = .next (s.takeTrap s.cur.1 s.cur.2 ⟨code, false, s.me.faultPc, info⟩)

/-- Every byte of memory reads as before. -/
def MemoryKept (s t : State) : Prop := ∀ a, Memory.get t.mem a = Memory.get s.mem a

/-- What the checks of R79 make of an instruction with its form, in their order, where no source is FREE by a mark that it has not
seen, and none under a trapping mode has just been filled: an illegal form carries ILLEGAL with its bits; then a named register in an OFF bank carries BANK_OFF; then a FREE source
REG_FREE; then a source awaited under a trapping mode EMPTY_READ with its tag, or with bit 9 where its producer is still without a slot;
then an EMPTY source makes it wait, with nothing changed but its banks awake. -/
def Checked (o : Out) (bits : Word) (f : Form) (s : State) : Prop :=
  let t := s.me
  let off := f.names.find? fun n => bankState t.status n == 2
  let free := f.srcs.find? fun a => t.rst a.1 == .free
  let trapping := f.srcs.find? fun a => t.awaits a.1 && a.2.getLsbD 0
  (f.legal t = false → Faults o s 0x01 bits) ∧
  (f.legal t = true → ∀ n, off = some n → Faults o s 0x05 (regInfo n)) ∧
  (f.legal t = true → off = none → t.readsFading f = false → t.readsFilled f = false →
    (∀ r m, free = some (r, m) → Faults o (s.woken f) 0x04 (r.setWidth 64)) ∧
    (free = none → ∀ r m, trapping = some (r, m) →
      (t.late = some r → Faults o (s.woken f) 0x03 (r.setWidth 64 ||| 0x200)) ∧
      (t.late ≠ some r → ∀ tag, t.rst r = .empty tag → Faults o (s.woken f) 0x03 (r.setWidth 64 ||| (tag.setWidth 64 <<< 5)))) ∧
    (free = none → trapping = none → (∃ a ∈ f.srcs, ∃ tag, t.rst a.1 = .empty tag) →
      Gives o fun u => u.me.pc = t.pc ∧ u.me.g = t.g ∧ u.me.gs = t.gs ∧ u.me.wait.isSome = true ∧ MemoryKept s u))

/-- Nothing outside the contexts has changed, and no context but the running one. -/
def OnlyRunningContext (s t : State) : Prop :=
  ({ t with cores := s.cores } : State) = s ∧ (∀ c, ({ t.core c with ctxs := (s.core c).ctxs } : Core) = s.core c) ∧
    ∀ c x, (c, x) ≠ s.cur → t.ctx c x = s.ctx c x

/-- Bits of STATUS that neither a prefix (23:16) nor a bank's power state (45:32) holds (R15). -/
def plainStatusBit (k : Nat) : Prop := k < 16 ∨ (24 ≤ k ∧ k < 32) ∨ 46 ≤ k

/-- A register marked FREE at the retirement: a source under mode bit 1 (R20). -/
def Form.marks (f : Form) (r : BitVec 5) : Prop := ∃ a ∈ f.srcs, a.1 = r ∧ a.2.getLsbD 1 = true

/-- What a retired instruction may change of its context beside what it names: the general registers, STATUS, the PC, and
what issue and single step keep for themselves. -/
def Ctx.restKept (s t : Ctx) : Prop :=
  ({ t with
      g := s.g, gs := s.gs, status := s.status, pc := s.pc, rep := s.rep, wait := s.wait, held := s.held, late := s.late, desc := s.desc,
      napping := s.napping, fading := s.fading, filled := s.filled,
      slotWait := s.slotWait, async := s.async } : Ctx) = s

/-- The frame of an instruction on general registers: every one but d keeps its value, every one but d and the marked sources
its state; no flag changes, no special register, no vector register, nothing outside the context, no byte of memory. -/
def RegisterFrame (f : Form) (d : BitVec 5) (s t : State) : Prop :=
  t.cur = s.cur ∧ (∀ r, r ≠ d → t.me.rd r = s.me.rd r) ∧ (∀ r, r ≠ d → ¬f.marks r → t.me.rst r = s.me.rst r) ∧
    (∀ k, plainStatusBit k → t.me.status.getLsbD k = s.me.status.getLsbD k) ∧ s.me.restKept t.me ∧
    OnlyRunningContext s t ∧ MemoryKept s t

/-- A general register holds a result written to it: the value, and zero in g0, which discards it (R11). -/
def Ctx.got (t : Ctx) (d : BitVec 5) (v : Word) : Prop := t.rd d = if d = 0 then 0 else v

/-- The format in force for an instruction that accepts the wide float formats: the prefix's, or FP32 (R72, R100). -/
def wideFormat (k : Ctx) : FloatFmt := floatFmt (if k.pfx then k.pfmt.toNat else 0)

/-- The draw for one rounded result, and the generator after it: sixteen steps and their low half in mode SR, nothing in another
mode (R48, R50). -/
def nextDraw (k : Ctx) : Nat × BitVec 32 :=
  let g := k.srgen.setWidth 32
  if k.roundMode = .sr then ((lfsrSteps 16 g).toNat % 65536, lfsrSteps 16 g) else (0, g)

/-- A context with a rounded result: the register, the flags it raises, the generator. -/
def afterRounding (d : BitVec 5) (r : Conv) (g : BitVec 32) (t : Ctx) : Ctx :=
  { (t.wr d (BitVec.ofNat 64 r.bits)).raise r.flags with srgen := g.setWidth 64 }

/-- The checks of a load by the running context pass and its bytes can be had at once: the bytes, and the state after the
lookup (R104, R105). -/
def State.Loads (s : State) (n : BitVec 4) (off size : Nat) (spaces : List Nat) (nc : Bool) (t : State) (b : List Byte) :
    Prop :=
  b.length = size ∧ ∃ h spans u, s.chkAccess s.cur.1 s.hbs n off size ⟨false, spaces, size, true⟩ = .ok h ∧
    s.placeCore s.cur.1 h off size false = .ok (spans, u) ∧ u.load h off spans nc = .ok t b

/-- The checks of a store by the running context pass: its handle, its places, and the state with the translations (R104,
R355). -/
def State.Stores (s : State) (n : BitVec 4) (off size align : Nat) (spaces : List Nat) (h : BitVec 256) (spans : List Span)
    (t : State) : Prop :=
  s.chkAccess s.cur.1 s.hbs n off align ⟨true, spaces, size, true⟩ = .ok h ∧
    s.placeCore s.cur.1 h off size true = .ok (spans, t) ∧ t.me.versionPending = false ∧
    t.me.chkWatch (if hSpace h = spRemote then [] else spans) = .ok ()

/-- The stores a core has released and not yet performed, beyond those it had: the bytes and their places, in order, with what
each does there (R29, R30). -/
def StoresAdded (s t : State) (l : List (Nat × List Byte)) (op : HomeOp) (rel : Bool) : Prop :=
  ∃ new : List StoreRec, (t.core s.cur.1).stores = (s.core s.cur.1).stores ++ new ∧
    new.map (fun r => (r.addr, r.bytes)) = l ∧
    ∀ r ∈ new, r.ctx = s.cur.2.val ∧ r.op = op ∧ r.rel = rel

/-- The bytes of a store cut at the lines they touch, each piece with its place. -/
def storedPieces (spans : List Span) (b : List Byte) : List (Nat × List Byte) :=
  (withBytes (linePieces spans) b).map fun p => (p.1.key, p.2)

/-- A store retires: every byte of memory reads as before until it is performed, the next address is the one after it, general
registers keep their values, and its bytes are among its core's stores to be performed. -/
def RetiresStore (s t : State) (f : Form) (spans : List Span) (b : List Byte) (op : HomeOp) (rel : Bool) : Prop :=
  StoresAdded s t (storedPieces spans b) op rel ∧ MemoryKept s t ∧ t.cur = s.cur ∧
    t.me.pc = s.me.nextPc (s.me.pc + BitVec.ofNat 64 f.size) ∧ (∀ r, t.me.rd r = s.me.rd r) ∧
    (∀ r, ¬f.marks r → t.me.rst r = s.me.rst r) ∧ t.me.v = s.me.v ∧
    ∀ c, c ≠ s.cur.1 → t.core c = s.core c

/-! ### Vectors (R12, R150, R178) -/

/-- The vector unit can take the running context's operation at once: no lane of the quad holds one (R150). -/
def State.lanesEmpty (s : State) : Prop := ∀ i : Fin 4, (s.quad (quadOf s.cur.1)).lanes[i] = []

/-- The state in which the effect of a vector operation is found: its banks ON, its core's lane the last served. -/
def State.inUnit (s : State) (f : Form) : State :=
  (s.woken f).updQuad (quadOf s.cur.1) fun q => { q with lastLane := inQuad s.cur.1 }

/-- Where nothing of R79 stops it and the unit is free, the instruction retires in sequence with its own effect. -/
def CompletesVector (i : Instr) (f : Form) (upd : Ctx → Ctx → Ctx) : Prop :=
  ∀ s, f.ready s → s.lanesEmpty → exec i s = .next ((s.inUnit f).retire f (upd (s.woken f).me))

/-- Element e of width w of a vector. -/
def elemAt (v : VWord) (w e : Nat) : Nat := field v (w * e) w

/-- Element e of the second operand: of the vector register, or the low bits of the general register of its number (R178). -/
def secondAt (k : Ctx) (b : BitVec 4) (c : BitVec 3) (w e : Nat) : Nat :=
  if c = 1 then (k.rd (low b)).toNat % 2 ^ w else elemAt (k.vrd b) w e

/-- What a vector operation leaves beside its result: no other vector register, no general register, no memory changes, and the next
address follows. -/
def VectorFrame (d : BitVec 4) (s t : State) : Prop :=
  (∀ r, r ≠ d → t.me.vrd r = s.me.vrd r) ∧ (∀ r, t.me.rd r = s.me.rd r ∧ t.me.rst r = s.me.rst r) ∧ t.me.hb = s.me.hb ∧
    t.me.pc = s.me.nextPc (s.me.pc + 4) ∧ MemoryKept s t

/-- An element-wise operation without flags: each element of its result. -/
def VectorResult (i : Instr) (f : Form) (d : BitVec 4) (w : Ctx → Nat) (val : Ctx → Nat → Nat) : Prop :=
  ∀ s, f.ready s → s.lanesEmpty → Gives (exec i s) fun t =>
    let k := (s.woken f).me
    (∀ e, e < 1024 / w k → elemAt (t.me.vrd d) (w k) e = val k e % 2 ^ w k) ∧ VectorFrame d s t ∧
      t.me.srgen = s.me.srgen ∧ ∀ b, plainStatusBit b → t.me.status.getLsbD b = s.me.status.getLsbD b

/-- The draw for element e of a vector operation that rounds: sixteen steps of the generator for each element (R48, R50). -/
def drawAt (k : Ctx) (e : Nat) : Nat :=
  if k.roundMode = .sr then (lfsrSteps (16 * (e + 1)) (k.srgen.setWidth 32)).toNat % 65536 else 0

/-- The generator after n elements. -/
def drawnFrom (k : Ctx) (n : Nat) : Word :=
  if k.roundMode = .sr then (lfsrSteps (16 * n) (k.srgen.setWidth 32)).setWidth 64 else (k.srgen.setWidth 32).setWidth 64

/-- The sticky flags after results: each is set where it was or where some result raises it (R17, R55). -/
def FlagsRaised (s t : Word) (n : Nat) (r : Nat → Conv) : Prop :=
  ∀ b, plainStatusBit b → (t.getLsbD b = true ↔ s.getLsbD b = true ∨ ∃ e, e < n ∧ (r e).flags.word.getLsbD b = true)

/-- An element-wise operation that rounds each element in the mode in force, with its own draw. -/
def VectorRounds (i : Instr) (f : Form) (d : BitVec 4) (val : Ctx → Nat → FloatFmt → Mode → Nat → Conv) : Prop :=
  ∀ s, f.ready s → s.lanesEmpty → Gives (exec i s) fun t =>
    let k := (s.woken f).me
    let ff := wideFormat k
    let w := ff.width
    let r (e : Nat) : Conv := val k e ff k.roundMode (drawAt k e)
    (∀ e, e < 1024 / w → elemAt (t.me.vrd d) w e = (r e).bits % 2 ^ w) ∧ VectorFrame d s t ∧
      t.me.srgen = drawnFrom k (1024 / w) ∧ FlagsRaised s.me.status t.me.status (1024 / w) r

/-! ### The shared array (R148 to R166) -/

/-- The running context's core holds the lease, its clock has not run out, and the queue has room (R151, R152). -/
def State.hasArray (s : State) : Prop :=
  (s.arrayOf (quadOf s.cur.1)).lease = some (inQuad s.cur.1) ∧ (s.arrayOf (quadOf s.cur.1)).clock ≠ 0 ∧ (s.arrayOf (quadOf s.cur.1)).queued < 8

/-- A command is accepted: it is the last of the queue with the values it samples, one command of the lease is used, which ends with
its last command, and the instruction retires (R148, R151, R152). -/
def Accepted (s t : State) (op : ArrayOp) (claim ends : Bool) (cfg : Word) : Prop :=
  let u := s.arrayOf (quadOf s.cur.1)
  let v := t.arrayOf (quadOf s.cur.1)
  v.queue = u.queue ++ [⟨inQuad s.cur.1, s.cur.2, op, claim, cfg, field s.me.promo 0 7, s.me.rnd, s.me.srgen.setWidth 32, false⟩] ∧
    v.count = u.count - 1 ∧ v.lease = (if ends ∨ u.count - 1 = 0 then none else u.lease) ∧
    (v.a = u.a ∧ v.b = u.b ∧ v.scaleA = u.scaleA ∧ v.scaleB = u.scaleB ∧ v.table = u.table) ∧ v.cfg = cfg ∧
    (∀ r, t.me.rd r = s.me.rd r) ∧ t.me.v = s.me.v ∧ t.me.pc = s.me.nextPc (s.me.pc + 4) ∧ MemoryKept s t

/-! ### Tasks (R122 to R126) -/

/-- The context a task starts in: its arguments in g1 to g4, its payload in g5 and g6, its record in g7, the other registers FREE;
the bindings, the mode and the modes of rounding and power that its class entry names; its budget (R125, R126). -/
def Ctx.StartedAs (u : Ctx) (task : Task) (en : BitVec 512) (pc : Word) (inbox : Nat) : Prop :=
  let r := task.record
  u.cstate = .running ∧ u.taskId = task.taskId ∧ u.pc = pc ∧
    u.rd 1 = BitVec.ofNat 64 (field r 0 32) ∧ u.rd 2 = BitVec.ofNat 64 (field r 32 32) ∧
    u.rd 3 = BitVec.ofNat 64 (field r 64 32) ∧ u.rd 4 = BitVec.ofNat 64 (field r 96 32) ∧
    u.rd 5 = BitVec.ofNat 64 (if field r 181 5 = 0 then 0 else inbox) ∧ u.rd 6 = BitVec.ofNat 64 (8 * field r 181 5) ∧
    u.rd 7 = BitVec.ofNat 64 (field r 128 64) ∧ (∀ g, u.rst g = if g.toNat < 8 then .full else .free) ∧
    (∀ b : BitVec 4, u.hbrd b = BitVec.ofNat 64 (field en (64 + 13 * b.toNat) 13)) ∧
    u.mode = (if en.getLsbD 58 then 2 else 0) ∧ u.ie = true ∧ u.swen = en.getLsbD 19 ∧ u.rnd.toNat = field en 16 3 ∧
    field u.status 32 14 = field en 20 14 ∧ field u.status 8 5 = 0 ∧ u.pfx = false ∧ u.send = [] ∧ u.window = none ∧
    u.budget = BitVec.ofNat 64 (if field r 232 24 ≠ 0 then field r 232 24
      else if field en 34 24 ≠ 0 then field en 34 24 else 2 ^ 24)

/-- A task is admitted to its core's cluster: no starved candidate waits, and its energy and its class of current are there
(R370, R371). -/
def State.Admits (s : State) (c : Nat) (task : Task) : Prop :=
  let k := s.cluster (clusterOf c)
  k.starved = [] ∧ field task.record 216 16 ≤ k.remE ∧ field task.record 212 4 ≤ k.ib - k.usedI

/-- What admission takes from the cluster (R370). -/
def Charged (s t : State) (c : Nat) (task : Task) : Prop :=
  (t.cluster (clusterOf c)).remE = (s.cluster (clusterOf c)).remE - field task.record 216 16 ∧
    (t.cluster (clusterOf c)).usedI = (s.cluster (clusterOf c)).usedI + field task.record 212 4

/-! ### Chains (R323 to R325) -/

/-- A chain has an entry of a TYPE in progress, not yet completed, with these bytes (R324). -/
def State.EntryInProgress (s : State) (ch ty : Nat) (e : List Byte) : Prop :=
  ∃ n, (s.chain ch).current = some n ∧ (s.chain ch).status = none ∧ e = s.chainEntry ch n ∧ bytesNat e 0 1 = ty

/-- The entry in progress has this STATUS, about to be written, and the chain is otherwise as before. -/
def EntryEnds (s t : State) (ch st : Nat) : Prop := t.chain ch = { s.chain ch with status := some st }

/-- No quad holds a copy of any line. -/
def State.Uncached (s : State) : Prop := ∀ e ∈ s.quads, e.2.cache = []

/-- The memory is in its canonical form. -/
def State.MemoryForm (s : State) : Prop := Memory.wf s.mem = true

end Sys2Proof.Machine
end

