-- ==== Sys2Proof/Certificates/Slice0/Obligations.lean ====
section
/-!
DEFINITION. The statements for the provers: what the rules of the spec say the machine does, over the model.
-/

open Sys2Proof Sys2Proof.Machine

/-- R62, R65 to R70: an instruction's own word decodes to it with every operand, and every word that decodes is the word of a
well-formed instruction, so no two instructions share a word and no bit is lost. -/
def Obligations.DecodeEncodeAgree : Prop :=  (∀ i c, i.wf = true → encode i = some c → decode c = some i) ∧
  (∀ c i, decode c = some i → i.wf = true ∧ encode i = some c)

/-- Words that the spec writes out decode to the instructions it gives with them. -/
def Obligations.WordsOfTheSpec : Prop :=  let reads (w : BitVec 32) (i : Instr) : Prop := decode (.c32 w) = some i
  reads 0x81284100 (.add 5 1 0 2 0) ∧ reads 0x8B312345 (.lix 6 0x12345) ∧ reads 0xB0390302 (.ld 7 4 0 3 2) ∧
  reads 0xA5314180 (.cvtd 6 5 0 3 0 0) ∧ reads 0xBE1021C8 (.ldv 2 0 4 7 2) ∧ reads 0xD212300A (.vicmp 1 2 3 0 2) ∧
  reads 0xE20003C0 (.xmma 0 3 3) ∧ reads 0xF0000000 .tret ∧ reads 0x98000000 .nop ∧ reads 0x9802002A (.trap 0x2A) ∧
  reads 0xC4A28600 (.spawn 20 10 0 12 0) ∧ reads 0xF42C0001 (.qread 5 1) ∧ decode (.c16 0x70D0) = some (.fmt 1 5) ∧
  decode (.c16 0x0000) = none

/-- R62, R63, R79, R130, R151, R246: where the turn is a core's and the bytes at the PC of the context in its pipe decode to an
instruction, a step is that instruction's meaning with that context running, and then the time it takes, at whose end the
slice of the context may end; and where it has trapped, array commands accepted behind it may have counted towards its lease
(log entry 39); nothing else. The first core whose context can run has its turn where nothing is urgent and nothing else was
picked. The code is the halfword at PC, and with bit 15 set the one after it too, each little-endian in the core's store as it
is, or, where the core has not fenced since its store was written, as it was. Which turn comes first is the model's choice
(log entry 1), the time that passes log entry 2. -/
def Obligations.StepRunsInstruction : Prop :=  (∀ (s u : State) (c : Nat) (x : Fin 8) (w : Code) (i : Instr), s.choose = (.instr c, u) → u.runnable c = some x →
    (u.core c).stale = [] → u.fetch c (u.ctx c x).pc = .code w → decode w = some i →
    step s = mapNext (exec i { u with cur := (c, x) }) fun t => (u.annulled t c).takeTime c) ∧
  (∀ (s u v : State) (c : Nat) (x : Fin 8) (w : Code) (i : Instr), s.choose = (.instr c, u) → u.runnable c = some x →
    ({ u with cur := (c, x) } : State).fetchCode c (u.ctx c x).pc = (.code w, v) → decode w = some i →
    step s = mapNext (exec i v) fun t => (u.annulled t c).takeTime c) ∧
  (∀ (u t : State) (c : Nat) (x : Fin 8), (u.core c).pipe = some x →
    (trapped (u.ctx c x) (t.ctx c x) = false ∨ u.mayLose c = false → u.annulled t c = t) ∧
    ∃ a p, u.annulled t c = { t with quads := a, picks := p }) ∧
  (∀ (t : State) (c : Nat), t.takeTime c = t.pass c ∨
    t.takeTime c = (t.pass c).updPipe c fun k => { k with token := some (.park none) }) ∧
  (∀ (s : State) (c a : Nat), (s.fetchHalf c a).1 = s.halfword c a ∨ (a, (s.fetchHalf c a).1) ∈ (s.core c).stale) ∧
  (∀ (s : State) (c : Nat) (k : Core), s.urgent = none → s.picks = [] →
    s.running.find? (fun e => (s.runnable e.1).isSome) = some (c, k) → s.choose = (.instr c, s)) ∧
  ∀ (s : State) (c : Nat) (pc : Word), pc.toNat + 4 ≤ 0x10000 →
    let byte (n : Nat) : BitVec 8 := Memory.get s.mem (istoreKey c (pc.toNat + n))
    ((byte 1).getLsbD 7 = false → s.fetch c pc = .code (.c16 (byte 1 ++ byte 0))) ∧
    ((byte 1).getLsbD 7 = true → s.fetch c pc = .code (.c32 (byte 1 ++ byte 0 ++ (byte 3 ++ byte 2))))

/-- R13 to R15, R18, R44, R63, R126, R155, R165, R369: what reset leaves: values that the spec gives, and two that it does not.
The memory's canonical form (addresses rising, no byte listed that reads the same unlisted) holds at reset. That memory holds
zeros is the model's choice (log entry 4) but for instruction stores (R63); that the mesh clock is 0 and that no log is
configured are the model's choice too (log entry 6). -/
def Obligations.ResetState : Prop :=
  ((∀ (c : Nat) (x : Fin 8),
     let k := State.reset.ctx c x
     k.cstate = .dormant ∧ k.status = 0x80 ∧ (∀ r, k.rst r = if r = 0 then .full else .free) ∧
     (∀ b, k.hbrd b = 0) ∧ k.rd 0 = 0) ∧
   (∀ c a, State.reset.halfword c a = 0) ∧
   (∀ q, (State.reset.arrayOf q).cfg = 0x3300 ∧ (State.reset.arrayOf q).lease = none ∧ (State.reset.arrayOf q).table = [] ∧
     ∀ t : Fin 8, (State.reset.arrayOf q).tiles[t].owner = none) ∧
   (∀ n, (State.reset.cluster n).eb = 81250 ∧ (State.reset.cluster n).ib = 96) ∧
   (∀ c, (State.reset.core c).cycle = 0) ∧ State.reset.mesh = 0 ∧ State.reset.launches = [] ∧ State.reset.log = none) ∧
  (State.reset.MemoryForm)

/-- Every step keeps the memory's canonical form. The form is the model's (log entry 4); no rule names it. -/
def Obligations.StepKeepsMemoryForm : Prop := ∀ s t, s.MemoryForm → step s = .next t → t.MemoryForm

/-- Every instruction and every event takes a next state in every state: nothing stops the machine. It rests on every rule that
gives an instruction its effect or its exception. -/
def Obligations.EveryInstructionAnswers : Prop := ∀ (i : Instr) (s : State), ∃ t, exec i s = .next t

/-- A store to memory: the bytes stored are read back, every other byte reads as before, the form is kept, and two memories in the
form that read alike everywhere are the same. The form is the model's (log entry 4). -/
def Obligations.MemoryReadsWhatWasStored : Prop :=  (∀ (m : List Host.Cell) (a : Nat) (b : List Byte), Memory.wf m = true →
    Memory.wf (Memory.store m a b) = true ∧ Memory.bytes (Memory.store m a b) a b.length = b ∧
    ∀ p, p < a ∨ a + b.length ≤ p → Memory.get (Memory.store m a b) p = Memory.get m p) ∧
  ∀ m n : List Host.Cell, Memory.wf m = true → Memory.wf n = true → (∀ a, Memory.get m a = Memory.get n a) → m = n

/-- R25, R36, R79, R383: the checks in their order, for instructions of every family and, of any instruction, for `issue`, through
which each goes: an illegal form carries ILLEGAL with its bits; then a named register in an OFF bank carries BANK_OFF; then a
FREE source REG_FREE, where no mark is still on its way to the foot; then a source awaited under a trapping mode EMPTY_READ;
then an EMPTY source makes it wait; and otherwise its own effect runs. In mode TASK the privileged instructions carry ILLEGAL.
By the model's choice OFF beside RETAIN leaves a RETAIN bank asleep and a woken bank stays ON under a later fault (log entry
57), and of several sources the first is reported (log entry 54). -/
def Obligations.ChecksInOrder : Prop :=  (∀ (i : Instr) (f : Form) (s : State) (k : State → Out),
    Checked (issue i f s k) (codeInfo (encode i)) f s ∧ (f.ready s → issue i f s k = k (s.woken f))) ∧
  (∀ (s : State) (d a b : BitVec 5) (m n : BitVec 2) (h : BitVec 4) (o : BitVec 8) (c sc : BitVec 3) (z : BitVec 1) (v : BitVec 4)
      (q : BitVec 3),
    let f3 := Form.f3 d a m b n
    let f2 := Form.f2 d a m
    let fd : Form := { srcs := [(d, 0), (a, m), (b, n)], names := [.g d, .g a, .g b] }
    let fl : Form := { srcs := [(b, m)], names := [.g d, .g b] }
    let fs : Form := { srcs := [(d, 0), (b, m)], names := [.g d, .g b] }
    let fa : Form := { srcs := [(d, 0), (a, 0)], names := [.g d, .g a] }
    let wide (f : Form) : Form := { f with fmts := [0, 1, 2] }
    ∀ p ∈ [(Instr.add d a m b n, f3), (.sub d a m b n, f3), (.divu d a m b n, f3), (.addi d a m 1, f2), (.sel d a m b n, fd),
        (.li d 5, .dst d), (.rstate d a, { names := [.g d, .g a], rep := false }),
        (.br c a b 0, { srcs := [(a, 0), (b, 0)], names := [.g a, .g b], rep := false }),
        (.repn d, { srcs := [(d, 0)], names := [.g d], rep := false }), (.fadd d a m b n, wide f3), (.fma d a m b n, wide fd),
        (.ld d b m h o, fl), (.ldA d b m h o, fl), (.st d b m h o, fs), (.vld v b m h o, { srcs := [(b, m)], names := [.v v, .g b] }),
        (.amoadd d a sc z h 0, fa), (.stRel d a sc b h, fa), (.fenceFull sc, {}), (.drain, {}),
        (.ldv d a sc b h, { srcs := [(a, 0), (b, 0)], names := [.g d, .g a, .g b] }), (.done, {}), (.qstat d q, .dst d),
        (.xlease, {}), (.xcfg a, { srcs := [(a, 0)], names := [.g a] }), (.gather d a m b n, f3), (.rawait d a m b n, f3),
        (.killctx d a m, { f2 with modes := [trapMode, sysMode] }), (.gust d b, { srcs := [(b, 0)], names := [.g d, .g b] }),
        (.qread d q, .dst d), (.tret, { modes := [trapMode] })],
      Checked (exec p.1 s) (codeInfo (encode p.1)) p.2 s) ∧
  ∀ s : State, s.me.mode = taskMode → ∀ (d a b w : BitVec 5) (m n : BitVec 2) (h : BitVec 4),
    ∀ i ∈ [Instr.tret, .halt, .killctx d a m, .tlbi a m b n, .tlbsync, .watch w n h b, .sstepOn, .sstepOnce, .sstepOff],
      Faults (exec i s) s 0x01 (codeInfo (encode i))

/-- R11, R18, R20: the frame of the integer instructions: but for its destination no general register changes, but for that and
the sources marked FREE no register's state; no flag, no special register, no vector register, nothing of another context, no
byte of memory changes. -/
def Obligations.IntegerFrame : Prop :=  ∀ (d a b : BitVec 5) (m n : BitVec 2) (i : BitVec 12) (h : BitVec 6) (j : BitVec 19) (c : BitVec 3) (o : BitVec 9) (s t : State),
    let f3 := Form.f3 d a m b n
    let f2 := Form.f2 d a m
    let fd : Form := { srcs := [(d, 0), (a, m), (b, n)], names := [.g d, .g a, .g b] }
    let fx : Form := { srcs := [(d, 0)], names := [.g d] }
    let keeps (l : List Instr) (f : Form) : Prop := ∀ x ∈ l, f.ready s → exec x s = .next t → RegisterFrame f d s t
    keeps [.add d a m b n, .sub d a m b n, .and d a m b n, .or d a m b n, .xor d a m b n, .andn d a m b n, .sll d a m b n,
      .srl d a m b n, .sra d a m b n, .mul d a m b n, .mulh d a m b n, .mulhu d a m b n, .min d a m b n, .max d a m b n,
      .minu d a m b n, .maxu d a m b n, .addw d a m b n, .subw d a m b n, .cmp d a m b n c] f3 ∧
    (s.me.rd b ≠ 0 → keeps [.div d a m b n, .rem d a m b n, .divu d a m b n, .remu d a m b n] f3) ∧
    ((s.me.rd b).extractLsb' 0 32 ≠ 0 → keeps [.divw d a m b n, .remw d a m b n, .divuw d a m b n, .remuw d a m b n] f3) ∧
    keeps [.sextb d a m, .sexth d a m, .sextw d a m, .zextb d a m, .zexth d a m, .zextw d a m, .clz d a m, .popc d a m,
      .cmpi d a m c o, .addi d a m i, .andi d a m i, .ori d a m i, .xori d a m i, .slli d a m h, .srli d a m h, .srai d a m h] f2 ∧
    keeps [.sel d a m b n] fd ∧ keeps [.lix d j] fx ∧ keeps [.li d j, .addpc d j] (.dst d)

/-- R11: g0 reads zero and is FULL whatever is done to it, and nothing done to it changes the context; another register holds what
is written to it, FULL, EMPTY with its tag or FREE, and the rest stay. -/
def Obligations.GeneralRegisters : Prop :=  ∀ (k : Ctx) (v : Word) (tag : BitVec 4),
    k.rd 0 = 0 ∧ k.rst 0 = .full ∧ k.wr 0 v = k ∧ k.free 0 = k ∧ k.mkEmpty 0 tag = k ∧
    ∀ r : BitVec 5, r ≠ 0 →
      (k.wr r v).rd r = v ∧ (k.wr r v).rst r = .full ∧ (k.free r).rst r = .free ∧ (k.mkEmpty r tag).rst r = .empty tag ∧
      ∀ q, q ≠ r → (k.wr r v).rd q = k.rd q ∧ (k.wr r v).rst q = k.rst q ∧ (k.free r).rd q = k.rd q ∧
        (k.free r).rst q = k.rst q ∧ (k.mkEmpty r tag).rd q = k.rd q ∧ (k.mkEmpty r tag).rst q = k.rst q

/-- R77: the zero halfword is no instruction and carries ILLEGAL with its bits, zero, as TRAPINFO; where the two bytes at an
address are zero that halfword is what a fetch there brings. -/
def Obligations.ZeroHalfword : Prop :=  decode (.c16 0) = none ∧ (∀ s, Faults (runCode (.c16 0) s) s 0x01 0) ∧
  ∀ (s : State) (c : Nat) (pc : Word), pc.toNat ≤ 0xFFFE → Memory.get s.mem (istoreKey c pc.toNat) = 0 →
    Memory.get s.mem (istoreKey c (pc.toNat + 1)) = 0 → s.fetch c pc = .code (.c16 0)

/-- R95: the encodings and the results of LI, LIX and ADDPC; ADDPC adds to the instruction's own address and its result is not
checked; one LI and three LIX build any constant. -/
def Obligations.ConstantResults : Prop :=  (∀ (d : BitVec 5) (j : BitVec 19),
    decode (.c32 (0x8A#8 ++ d ++ j)) = some (.li d j) ∧ decode (.c32 (0x8B#8 ++ d ++ j)) = some (.lix d j) ∧
    decode (.c32 (0x8C#8 ++ d ++ j)) = some (.addpc d j) ∧
    Completes (.li d j) (.dst d) (fun _ t => t.wr d (j.signExtend 64)) ∧
    Completes (.lix d j) { srcs := [(d, 0)], names := [.g d] }
      (fun k t => t.wr d ((k.rd d <<< 19) ||| j.zeroExtend 64)) ∧
    Completes (.addpc d j) (.dst d) fun k t => t.wr d (k.pc + j.signExtend 64)) ∧
  ∀ v : Word, ∃ i j k l : BitVec 19,
    let next (x : Word) (j : BitVec 19) : Word := (x <<< 19) ||| j.zeroExtend 64
    next (next (next (i.signExtend 64) j) k) l = v

/-- R118: the encodings of NOP, TRAP and BRK and the words beside them that are no instruction; NOP retires with no effect; TRAP
and BRK carry BREAK with the code in TRAPINFO and bit 16 telling them apart. With a handler and outside TRAP mode the trap is
taken with TRAPPC at the instruction and every register as it was: the instruction does not retire. -/
def Obligations.NopTrapBreak : Prop :=  (∀ (d : BitVec 5) (k : BitVec 2) (z : BitVec 1) (c : BitVec 16),
    decode (.c32 (0x98#8 ++ d ++ k ++ z ++ c)) =
      if d ≠ 0 ∨ z ≠ 0 then none
      else if k = 0 then (if c = 0 then some .nop else none)
      else if k = 1 then some (.trap c)
      else if k = 2 then some (.brk c)
      else none) ∧
  Completes .nop {} (fun _ t => t) ∧
  ∀ (c : BitVec 16) (s : State), Form.ready { rep := false } s →
    ∀ x ∈ [(Instr.trap c, c.zeroExtend 64), (Instr.brk c, c.zeroExtend 64 + 0x10000)],
      Faults (exec x.1 s) (s.woken {}) 0x0E x.2 ∧
      (field s.me.trapVec 1 15 ≠ 0 → s.me.mode ≠ trapMode → Gives (exec x.1 s) fun t =>
        field t.me.trapCause 0 8 = 0x0E ∧ t.me.trapPc = s.me.pc ∧ t.me.trapInfo = x.2 ∧
        (∀ r, t.me.rd r = s.me.rd r ∧ t.me.rst r = s.me.rst r) ∧ t.me.pc = BitVec.ofNat 64 (2 * field s.me.trapVec 1 15) ∧
        MemoryKept s t)

/-- R391: the encodings of SSTEP, 10 carrying ILLEGAL; each writes ONCE and EN of STEPCTL at its retirement. In TRAP mode no step
is posted by it, and TRET keeps the setting and posts none: the code it returns to is what is stepped. -/
def Obligations.SingleStepForms : Prop :=  let f : Form := { modes := [trapMode, sysMode] }
  let word (z : BitVec 15) (k : BitVec 2) : BitVec 32 := 0xF3#8 ++ 0#5 ++ 1#2 ++ z ++ k
  decode (.c32 (word 0 1)) = some .sstepOn ∧ decode (.c32 (word 0 3)) = some .sstepOnce ∧
  decode (.c32 (word 0 0)) = some .sstepOff ∧ decode (.c32 (word 0 2)) = none ∧ word 0 1 = 0xF3020001 ∧
  (∀ i k, (i, k) ∈ [(Instr.sstepOff, (0 : BitVec 2)), (.sstepOn, 1), (.sstepOnce, 3)] →
    Completes i f (fun _ t => ({ t with stepCtl := k.zeroExtend 64 } : Ctx).serial) ∧
    ∀ s, f.ready s → s.me.mode = trapMode → Gives (exec i s) fun t =>
      t.me.stepCtl.getLsbD 1 = k.getLsbD 1 ∧ t.me.stepCtl.getLsbD 0 = k.getLsbD 0 ∧ t.me.async.step = s.me.async.step) ∧
  ∀ s, Form.ready { modes := [trapMode] } s → s.me.async.stopAt = [] → s.me.trapPc.getLsbD 0 = false →
    s.me.trapPc.toNat ≤ 0xFFFE → Gives (exec .tret s) fun t =>
      t.me.stepCtl = s.me.stepCtl ∧ t.me.async.step = s.me.async.step

/-- R395: the encoding of QREAD, with 6 and 7 carrying ILLEGAL, and what it reads: the context's remaining quota, the cluster's
remaining energy and current, its budgets in force, and the launch's quota. -/
def Obligations.QuotaReads : Prop :=  (∀ (d : BitVec 5) (z : BitVec 14) (sel : BitVec 3), decode (.c32 (0xF4#8 ++ d ++ 2#2 ++ z ++ sel)) =
    if z = 0 ∧ sel.toNat ≤ 5 then some (.qread d sel) else none) ∧
  (0xF4#8 ++ 5#5 ++ 2#2 ++ 0#14 ++ 1#3) = 0xF42C0001#32 ∧
  ∀ (d : BitVec 5) (sel : BitVec 3) (s : State), (Form.dst d).ready s →
    let k := s.cluster (clusterOf s.cur.1)
    let reads (i : Nat) (v : Word) : Prop :=
      sel.toNat = i → exec (.qread d sel) s = .next ((s.woken (.dst d)).retire (.dst d) fun t => t.wr d v)
    reads 0 s.me.enquota ∧ reads 1 (BitVec.ofNat 64 k.remE) ∧ reads 2 (BitVec.ofNat 64 (k.ib - k.usedI)) ∧
    reads 3 (BitVec.ofNat 64 (k.eb + if k.raised then 28125 else 0)) ∧ reads 4 (BitVec.ofNat 64 k.ib) ∧
    (∀ n l, s.launchOf s.cur.1 = some (n, l) → reads 5 (BitVec.ofNat 64 l.quota))

/-- R90: the results of the register-register arithmetic, each retiring in sequence with one register written. -/
def Obligations.IntegerArithmeticResults : Prop :=  ∀ (d a b : BitVec 5) (m n : BitVec 2),
    let two (i : Instr) (v : Word → Word → Word) : Prop :=
      Completes i (.f3 d a m b n) fun k t => t.wr d (v (k.rd a) (k.rd b))
    let one (i : Instr) (v : Word → Word) : Prop := Completes i (.f2 d a m) fun k t => t.wr d (v (k.rd a))
    (two (.add d a m b n) fun x y => x + y) ∧ (two (.sub d a m b n) fun x y => x - y) ∧
    (two (.and d a m b n) fun x y => x &&& y) ∧ (two (.or d a m b n) fun x y => x ||| y) ∧
    (two (.xor d a m b n) fun x y => x ^^^ y) ∧ (two (.andn d a m b n) fun x y => x &&& ~~~y) ∧
    (two (.sll d a m b n) fun x y => x <<< (y.extractLsb' 0 6).toNat) ∧
    (two (.srl d a m b n) fun x y => x >>> (y.extractLsb' 0 6).toNat) ∧
    (two (.sra d a m b n) fun x y => BitVec.ofInt 64 (x.toInt / 2 ^ (y.extractLsb' 0 6).toNat)) ∧
    (two (.mul d a m b n) fun x y => BitVec.ofNat 64 (x.toNat * y.toNat)) ∧
    (two (.mulh d a m b n) fun x y => BitVec.ofInt 64 (x.toInt * y.toInt / 2 ^ 64)) ∧
    (two (.mulhu d a m b n) fun x y => BitVec.ofNat 64 (x.toNat * y.toNat / 2 ^ 64)) ∧
    (two (.min d a m b n) fun x y => BitVec.ofInt 64 (min x.toInt y.toInt)) ∧
    (two (.max d a m b n) fun x y => BitVec.ofInt 64 (max x.toInt y.toInt)) ∧
    (two (.minu d a m b n) fun x y => BitVec.ofNat 64 (min x.toNat y.toNat)) ∧
    (two (.maxu d a m b n) fun x y => BitVec.ofNat 64 (max x.toNat y.toNat)) ∧
    (two (.addw d a m b n) fun x y => ((x + y).extractLsb' 0 32).signExtend 64) ∧
    (two (.subw d a m b n) fun x y => ((x - y).extractLsb' 0 32).signExtend 64) ∧
    (one (.sextb d a m) fun x => (x.extractLsb' 0 8).signExtend 64) ∧
    (one (.sexth d a m) fun x => (x.extractLsb' 0 16).signExtend 64) ∧
    (one (.sextw d a m) fun x => (x.extractLsb' 0 32).signExtend 64) ∧
    (one (.zextb d a m) fun x => (x.extractLsb' 0 8).zeroExtend 64) ∧
    (one (.zexth d a m) fun x => (x.extractLsb' 0 16).zeroExtend 64) ∧
    (one (.zextw d a m) fun x => (x.extractLsb' 0 32).zeroExtend 64) ∧
    (∀ s, (Form.f2 d a m).ready s → ∃ z : Nat, exec (.clz d a m) s =
      .next ((s.woken (.f2 d a m)).retire (.f2 d a m) fun t => t.wr d (BitVec.ofNat 64 z)) ∧ z ≤ 64 ∧
      (∀ i, i < z → (s.me.rd a).getLsbD (63 - i) = false) ∧ (z < 64 → (s.me.rd a).getLsbD (63 - z) = true)) ∧
    (one (.popc d a m) fun x => BitVec.ofNat 64 ((List.range 64).filter fun i => x.getLsbD i).length)

/-- R91, R92, R68: compares against a register and an immediate, and select. R93, R94: the instructions with an immediate operand.
R69, R70: the compact operations on registers. -/
def Obligations.CompareSelectImmediateCompactResults : Prop :=
  (∀ (d a b : BitVec 5) (m n : BitVec 2) (i : BitVec 9),
     let cond (c : BitVec 3) (p : Word → Word → Bool) : Prop :=
       Completes (.cmp d a m b n c) (.f3 d a m b n)
         (fun k t => t.wr d (if p (k.rd a) (k.rd b) then 1 else 0)) ∧
       Completes (.cmpi d a m c i) (.f2 d a m) fun k t => t.wr d (if p (k.rd a) (i.signExtend 64) then 1 else 0)
     (cond 0 fun x y => decide (x = y)) ∧ (cond 1 fun x y => decide (x ≠ y)) ∧
     (cond 2 fun x y => decide (x.toInt < y.toInt)) ∧ (cond 3 fun x y => decide (x.toInt ≥ y.toInt)) ∧
     (cond 4 fun x y => decide (x.toNat < y.toNat)) ∧ (cond 5 fun x y => decide (x.toNat ≥ y.toNat)) ∧
     Completes (.sel d a m b n) { srcs := [(d, 0), (a, m), (b, n)], names := [.g d, .g a, .g b] }
       fun k t => t.wr d (if k.rd d ≠ 0 then k.rd a else k.rd b)) ∧
  (∀ (d a : BitVec 5) (m : BitVec 2) (i : BitVec 12) (h : BitVec 6),
     let one (x : Instr) (v : Word → Word) : Prop := Completes x (.f2 d a m) fun k t => t.wr d (v (k.rd a))
     (one (.addi d a m i) fun x => x + i.signExtend 64) ∧ (one (.andi d a m i) fun x => x &&& i.signExtend 64) ∧
     (one (.ori d a m i) fun x => x ||| i.zeroExtend 64) ∧ (one (.xori d a m i) fun x => x ^^^ i.zeroExtend 64) ∧
     (one (.slli d a m h) fun x => x <<< h.toNat) ∧ (one (.srli d a m h) fun x => x >>> h.toNat) ∧
     (one (.srai d a m h) fun x => BitVec.ofInt 64 (x.toInt / 2 ^ h.toNat))) ∧
  (∀ (d a : BitVec 4) (i : BitVec 7) (h : BitVec 5),
     let two (x : Instr) (v : Word → Word → Word) : Prop :=
       Completes x { srcs := [(low d, 0), (low a, 0)], names := [.g (low d), .g (low a)], rep := false, size := 2 }
         fun k t => t.wr (low d) (v (k.rd (low d)) (k.rd (low a)))
     let one (x : Instr) (v : Word → Word) : Prop :=
       Completes x { srcs := [(low d, 0)], names := [.g (low d)], rep := false, size := 2 }
         fun k t => t.wr (low d) (v (k.rd (low d)))
     Completes (.movC d a) { srcs := [(low a, 0)], names := [.g (low d), .g (low a)], rep := false, size := 2 }
       (fun k t => t.wr (low d) (k.rd (low a))) ∧
     (two (.addC d a) fun x y => x + y) ∧ (two (.subC d a) fun x y => x - y) ∧ (two (.andC d a) fun x y => x &&& y) ∧
     (two (.orC d a) fun x y => x ||| y) ∧ (two (.xorC d a) fun x y => x ^^^ y) ∧
     (two (.sllC d a) fun x y => x <<< (y.extractLsb' 0 6).toNat) ∧
     (two (.srlC d a) fun x y => x >>> (y.extractLsb' 0 6).toNat) ∧
     (one (.addiC d i) fun x => x + i.signExtend 64) ∧
     Completes (.liC d i) { names := [.g (low d)], rep := false, size := 2 }
       (fun _ t => t.wr (low d) (i.signExtend 64)) ∧
     (one (.slliC d h) fun x => x <<< h.toNat) ∧ (one (.srliC d h) fun x => x >>> h.toNat) ∧
     (one (.sraiC d h) fun x => BitVec.ofInt 64 (x.toInt / 2 ^ h.toNat)))

/-- R96, R97: a divide by a non-zero divisor retires with its quotient or remainder; one by zero writes nothing and takes DIVZERO
with TRAPINFO 0. -/
def Obligations.DivideResults : Prop :=  ∀ (d a b : BitVec 5) (m n : BitVec 2),
    let f := Form.f3 d a m b n
    let row (i : Instr) (arg : Word → Int) (v : Int → Int → Word) : Prop :=
      (∀ s, f.ready s → arg (s.me.rd b) ≠ 0 →
        exec i s = .next ((s.woken f).retire f fun t => t.wr d (v (arg (s.me.rd a)) (arg (s.me.rd b))))) ∧
      (∀ s, f.ready s → arg (s.me.rd b) = 0 → Faults (exec i s) (s.woken f) 0x02 0)
    let low (w : Word) : Int := (w.extractLsb' 0 32).toInt
    let lowU (w : Word) : Int := (w.extractLsb' 0 32).toNat
    row (.div d a m b n) (fun w => w.toInt) (fun p q => BitVec.ofInt 64 (p.tdiv q)) ∧
    row (.rem d a m b n) (fun w => w.toInt) (fun p q => BitVec.ofInt 64 (p - q * p.tdiv q)) ∧
    row (.divu d a m b n) (fun w => w.toNat) (fun p q => BitVec.ofInt 64 (p.tdiv q)) ∧
    row (.remu d a m b n) (fun w => w.toNat) (fun p q => BitVec.ofInt 64 (p - q * p.tdiv q)) ∧
    row (.divw d a m b n) low (fun p q => ((BitVec.ofInt 32 (p.tdiv q)).signExtend 64)) ∧
    row (.remw d a m b n) low (fun p q => ((BitVec.ofInt 32 (p - q * p.tdiv q)).signExtend 64)) ∧
    row (.divuw d a m b n) lowU (fun p q => ((BitVec.ofInt 32 (p.tdiv q)).zeroExtend 64)) ∧
    row (.remuw d a m b n) lowU (fun p q => ((BitVec.ofInt 32 (p - q * p.tdiv q)).zeroExtend 64))

/-- R64, R68, R70, R98, R99: control transfers. R111, R112: REPN with its count at zero is a taken transfer past its target;
otherwise the count is one less, the target comes next, and an instruction that retires as its target goes back to the REPN. A
fault of the target restores the count. By the model's choice REPN retires in a step of its own, the pair kept until its
target retires (log entry 8). -/
def Obligations.TransfersAndRepeats : Prop :=
  (∀ (c : BitVec 3) (d a b : BitVec 5) (m : BitVec 2) (i : BitVec 12) (o : BitVec 11) (j : BitVec 24) (e : BitVec 4)
     (p : BitVec 7),
     let rel (x : Word) (k : Ctx) : Word := k.pc + 2 * x
     let keep : Ctx → Ctx → Ctx := fun _ t => t
     let holds (x y : Word) : Bool := match c with
       | 0 => decide (x = y)
       | 1 => decide (x ≠ y)
       | 2 => decide (x.toInt < y.toInt)
       | 3 => decide (x.toInt ≥ y.toInt)
       | 4 => decide (x.toNat < y.toNat)
       | _ => decide (x.toNat ≥ y.toNat)
     let compact (l : List (BitVec 4)) : Form :=
       { srcs := l.map fun r => (low r, 0), names := l.map fun r => .g (low r), rep := false, size := 2 }
     (c.toNat ≤ 5 → Transfers (.br c a b o) { srcs := [(a, 0), (b, 0)], names := [.g a, .g b], rep := false }
       (fun k => holds (k.rd a) (k.rd b)) (rel (o.signExtend 64)) keep) ∧
     Transfers (.j j) { rep := false } (fun _ => true) (rel (j.signExtend 64)) keep ∧
     Transfers (.call j) { names := [.g 31], rep := false } (fun _ => true) (rel (j.signExtend 64))
       (fun k t => t.wr 31 (k.pc + 4)) ∧
     Transfers (.jr d a m i) { srcs := [(a, m)], names := [.g d, .g a], rep := false } (fun _ => true)
       (fun k => k.rd a + i.signExtend 64) (fun k t => t.wr d (k.pc + 4)) ∧
     Transfers (.beqzC e p) (compact [e]) (fun k => decide (k.rd (low e) = 0)) (rel (p.signExtend 64)) keep ∧
     Transfers (.bnezC e p) (compact [e]) (fun k => decide (k.rd (low e) ≠ 0)) (rel (p.signExtend 64)) keep ∧
     Transfers (.jC o) (compact []) (fun _ => true) (rel (o.signExtend 64)) keep ∧
     Transfers (.jrC e) (compact [e]) (fun _ => true) (fun k => k.rd (low e)) keep) ∧
  (∀ (d : BitVec 5), d ≠ 0 →
     let f : Form := { srcs := [(d, 0)], names := [.g d], rep := false }
     (∀ s, f.ready s → s.me.rd d = 0 → (s.me.pc + 8).getLsbD 0 = false → (s.me.pc + 8).toNat ≤ 0xFFFE →
       exec (.repn d) s = .next ((s.woken f).retireTo f (s.me.pc + 8) 0 id)) ∧
     (∀ s, f.ready s → s.me.rd d ≠ 0 → Gives (exec (.repn d) s) fun t =>
       t.me.rd d = s.me.rd d - 1 ∧ t.me.pc = s.me.pc + 4 ∧ t.me.rep = some ⟨s.me.pc, d, s.me.rd d⟩ ∧
       (∀ r, r ≠ d → t.me.rd r = s.me.rd r) ∧ OnlyRunningContext s t ∧ MemoryKept s t) ∧
     (∀ (s : State) (g : Form) (n i : Word) (upd : Ctx → Ctx) (r : Repeat), s.me.rep = some r →
       (s.retireTo g n i upd).me.pc = r.pc ∧ (s.retireTo g n i upd).me.rep = none) ∧
     (∀ (t : Ctx) (p : Word), t.rep = some ⟨p, d, t.rd d + 1⟩ → t.annul.rd d = t.rd d + 1 ∧ t.annul.pc = p ∧ t.annul.rep = none))

/-- R71: FMT sets PFX, PFMT and PRND, and nothing else of STATUS but sleeping banks. R72: what retires after a prefix leaves PFX,
PFMT and PRND zero; an instruction whose entry does not list the prefix's format carries ILLEGAL. R117: MKEMPTY leaves its
register FREE; RSTATE reads the state code of a register in any state. R78: every word of majors 0x78 to 0x7F is a hint, the
halfword 0xFFFF begins one, and a hint retires as a no-op whatever the states of the registers, the banks and the mode,
consuming a prefix unchecked: PFX, PFMT and PRND are then zero. R63, R76: a word that is no instruction carries ILLEGAL with
its bits; a packet outside the store carries BOUNDS with the first address outside. -/
def Obligations.PrefixesStatesAndHints : Prop :=
  (∀ (x : BitVec 4) (r : BitVec 3) (s : State), Form.ready { rep := false, size := 2 } s →
     Gives (exec (.fmt x r) s) fun t =>
       t.me.pc = s.me.pc + 2 ∧ t.me.pfx = true ∧ t.me.pfmt = x ∧ t.me.prnd = r ∧
       (∀ k, plainStatusBit k ∨ (32 ≤ k ∧ k < 46) → t.me.status.getLsbD k = s.me.status.getLsbD k) ∧
       t.me.g = s.me.g ∧ t.me.gs = s.me.gs ∧ s.me.restKept t.me ∧ OnlyRunningContext s t ∧ MemoryKept s t) ∧
  ((∀ (s : State) (f : Form) (n i : Word) (upd : Ctx → Ctx), s.me.pfx = true →
     (s.retireTo f n i upd).me.status.extractLsb' 16 8 = 0) ∧
   ∀ (i : Instr) (f : Form) (s : State) (k : State → Out), s.me.pfx = true → ¬ f.fmts.contains s.me.pfmt.toNat →
     Faults (issue i f s k) s 0x01 (codeInfo (encode i))) ∧
  (∀ (d r : BitVec 5),
     (∀ s, d ≠ 0 → Form.ready { names := [.g d], rep := false } s → Gives (exec (.mkempty d) s) fun t =>
       t.me.rst d = .free ∧ t.me.pc = s.me.pc + 4 ∧
       (∀ q, q ≠ d → t.me.rst q = s.me.rst q) ∧ (∀ q, q ≠ d → t.me.rd q = s.me.rd q) ∧ MemoryKept s t) ∧
     Completes (.rstate d r) { names := [.g d, .g r], rep := false } fun k t => (t.wr d (match k.rst r with
       | .full => 0
       | .empty tag => 1 + 4 * tag.setWidth 64
       | .free => 2)).serial) ∧
  ((∀ (w : BitVec 32), w.extractLsb' 27 5 = 0x1F → decode (.c32 w) = some (.hint (w.extractLsb' 24 3) (w.extractLsb' 0 24))) ∧
   (∀ (w : BitVec 32), w.extractLsb' 16 16 = 0xFFFF → w.extractLsb' 27 5 = 0x1F) ∧
   ∀ (o : BitVec 3) (h : BitVec 24) (s : State), s.me.rep = none →
     Gives (exec (.hint o h) s) fun t =>
       t.me.pc = s.me.pc + 4 ∧ t.me.g = s.me.g ∧ t.me.gs = s.me.gs ∧
       (s.me.pfx = true → t.me.pfx = false ∧ t.me.pfmt = 0 ∧ t.me.prnd = 0) ∧
       (∀ k, plainStatusBit k ∨ (32 ≤ k ∧ k < 46) → t.me.status.getLsbD k = s.me.status.getLsbD k) ∧
       s.me.restKept t.me ∧ OnlyRunningContext s t ∧ MemoryKept s t) ∧
  (∀ (s : State),
     (∀ (h : BitVec 16), Faults (refuseCode (.c16 h) s) s 0x01 (h.zeroExtend 64)) ∧
     (∀ (w : BitVec 32), Faults (refuseCode (.c32 w) s) s 0x01 (w.zeroExtend 64 + 0x100000000)) ∧
     (∀ (w : BitVec 32), Faults (exec (.illegalEncoding w false) s) s 0x01 (w.zeroExtend 64)) ∧
     (∀ (w : BitVec 32), Faults (exec (.illegalEncoding w true) s) s 0x01 (w.zeroExtend 64 + 0x100000000)) ∧
     (∀ (a : Word), Faults (exec (.fetchBounds a) s) s 0x06 a) ∧
     (∀ (c : Nat), s.fetch c 0xFFFE = .outside 0x10000 ∨ ∃ h : BitVec 16, s.fetch c 0xFFFE = .code (.c16 h)) ∧
     (∀ (c : Nat) (pc : Word), pc.toNat ≥ 0x10000 → s.fetch c pc = .outside pc))

/-- R46, R50, R55, R56, R100: scalar arithmetic retires with its operation on the operands' values, rounded once in the mode in
force, its flags raised, one draw taken in mode SR. -/
def Obligations.FloatArithmeticResults : Prop :=  ∀ (d a b : BitVec 5) (m n : BitVec 2),
    let row (i : Instr) (f : Form) (op : FloatFmt → Mode → Nat → (BitVec 5 → FVal) → Conv) : Prop :=
      Completes i { f with fmts := [0, 1, 2] } fun k t =>
        afterRounding d (op (wideFormat k) k.roundMode (nextDraw k).1 fun r => unpack (wideFormat k) (k.rd r).toNat)
          (nextDraw k).2 t
    let f3 := Form.f3 d a m b n
    let f2 := Form.f2 d a m
    let fd : Form := { srcs := [(d, 0), (a, m), (b, n)], names := [.g d, .g a, .g b] }
    row (.fadd d a m b n) f3 (fun f r w v => fAdd f r w (v a) (v b)) ∧
    row (.fsub d a m b n) f3 (fun f r w v => fAdd f r w (v a) (v b).neg) ∧
    row (.fmul d a m b n) f3 (fun f r w v => fMul f r w (v a) (v b)) ∧
    row (.fdiv d a m b n) f3 (fun f r w v => fDiv f r w (v a) (v b)) ∧
    row (.fsqrt d a m) f2 (fun f r w v => fSqrt f r w (v a)) ∧
    row (.fma d a m b n) fd (fun f r w v => fFma f r w (v a) (v b) (v d)) ∧
    row (.fmsub d a m b n) fd (fun f r w v => fFma f r w (v a) (v b) (v d).neg) ∧
    row (.fnma d a m b n) fd (fun f r w v => fFma f r w (v a).neg (v b) (v d)) ∧
    row (.fnms d a m b n) fd (fun f r w v => fFma f r w (v a).neg (v b) (v d).neg)

/-- R100, R102, R103: minimum and maximum, sign operations, compares, classes and the exact conversion raise no flag; CVTD rounds
under its policy, and under policy 11 an overflow or a NaN without a place carries CONV_OVERFLOW and writes nothing (R53). -/
def Obligations.FloatMoveAndConvertResults : Prop :=  ∀ (d a b : BitVec 5) (m n c p : BitVec 2) (e sf : BitVec 4),
    let exact (i : Instr) (f : Form) (l : List Nat) (v : FloatFmt → (BitVec 5 → Nat) → Nat) : Prop :=
      Completes i { f with fmts := l } fun k t => t.wr d (BitVec.ofNat 64 (v (wideFormat k) fun r => (k.rd r).toNat))
    let f3 := Form.f3 d a m b n
    let f2 := Form.f2 d a m
    let fe : Form := { f2 with fmts := [e.toNat] }
    exact (.fmin d a m b n) f3 [0, 1, 2] (fun f v => fMinMax f false (v a) (v b)) ∧
    exact (.fmax d a m b n) f3 [0, 1, 2] (fun f v => fMinMax f true (v a) (v b)) ∧
    exact (.fabs d a m) f2 [0, 1, 2] (fun f v => fAbs f (v a)) ∧
    exact (.fneg d a m) f2 [0, 1, 2] (fun f v => fNeg f (v a)) ∧
    exact (.fcmp d a m b n c) f3 [0, 1, 2] (fun f v => if fCompare f c (v a) (v b) then 1 else 0) ∧
    exact (.fclass d a m) f2 [0, 1, 2, 3, 4, 5] (fun f v => fClass f (v a)) ∧
    Completes (.cvt d a m e sf) f2 (fun k t =>
      t.wr d (placeFmt e.toNat (convertTo e.toNat .rne 0 1 (sourceVal sf.toNat (k.rd a).toNat)).bits)) ∧
    ∀ s, fe.ready s →
      let k := (s.woken fe).me
      let r := convertTo e.toNat k.roundMode (nextDraw k).1 p.toNat (sourceVal sf.toNat (k.rd a).toNat)
      (r.trap = none → exec (.cvtd d a m e p sf) s = .next ((s.woken fe).retire fe fun t =>
        { (t.wr d (placeFmt e.toNat r.bits)).raise r.flags with srgen := (nextDraw k).2.setWidth 64 })) ∧
      (∀ nan, r.trap = some nan → Faults (exec (.cvtd d a m e p sf) s) (s.woken fe) 0x09
        (BitVec.ofNat 64 (e.toNat + if nan then 16 else 0)))

/-- R46: a magnitude cut at a weight is rounded to the nearest multiple in mode RNE, a tie to the even one; toward zero, up and
down otherwise; and it is inexact exactly where something is cut off. R54, R102: a widening conversion to FP32 is exact: no
flag, and the value of every FP8, FP4 and 16-bit encoding. -/
def Obligations.RoundingAndWidening : Prop :=
  (∀ (m k : Nat) (e : Int) (draw : Nat) (neg : Bool), 0 < k → k ≤ m.log2 + 20 →
     let at_ (mode : Mode) := roundAt mode draw neg m e false (e + k)
     let r := m % 2 ^ k
     let q := m / 2 ^ k
     (at_ .rne).1 = (if 2 * r < 2 ^ k then q else if 2 * r > 2 ^ k then q + 1 else q + q % 2) ∧
     (at_ .rtz).1 = q ∧
     (at_ .rup).1 = (if r ≠ 0 ∧ neg = false then q + 1 else q) ∧
     (at_ .rdn).1 = (if r ≠ 0 ∧ neg = true then q + 1 else q) ∧
     (∀ mode, (at_ mode).2 = decide (r ≠ 0)) ∧
     (draw < 65536 → (at_ .sr).1 = q ∨ (at_ .sr).1 = q + 1)) ∧
  (∀ (f bits : Nat), f ∈ [1, 2, 3, 4, 5] → bits < 2 ^ fmtWidth f →
     let r := convertTo 0 .rne 0 1 (sourceVal f bits)
     r.flags = Flags.clear ∧ r.trap = none ∧
     match unpack (floatFmt f) bits, unpack (floatFmt 0) r.bits with
     | .nan, v => v = .nan
     | .inf neg, v => v = .inf neg
     | .fin neg m e, .fin neg' m' e' => neg = neg' ∧ m * 2 ^ (e + 200).toNat = m' * 2 ^ (e' + 200).toNat
     | _, _ => False)

/-- R70, R105, R107, R281: where the checks of a load pass and its bytes can be had, it retires with them: read little-endian and
sign-extended into a general register, or as they lie into a vector register. R202, R213: a load from quad memory whose place
no engine owns, no own store precedes and no error touches brings the bytes that memory holds there. R104, R105, R215: the
order of an access's checks. A binding that is not valid carries HANDLE with its number; then an offset that is not a multiple
of the width carries ALIGN with the offset; then bytes outside the bound carry BOUNDS with it. R18, R213, R222, R240, R279,
R280: LD.a retires with its destination EMPTY under the lowest free slot's tag; the slot holds the value that the fill will
bring, or, where the home or an older access of the context holds the read back, none yet, with the slots of the older reads
that come first: future versions, LD.a of its line, and ORDERED ones before an ORDERED one. Through a REMOTE handle the
request has left for the device, or is held back in its slot in the same way (R419). With every slot busy it waits. -/
def Obligations.LoadResults : Prop :=
  (∀ (t b : BitVec 5) (v : BitVec 4) (m : BitVec 2) (h : BitVec 4) (o : BitVec 8) (d a : BitVec 4) (q : BitVec 3),
     let f : Form := { srcs := [(b, m)], names := [.g t, .g b] }
     let fv : Form := { srcs := [(b, m)], names := [.v v, .g b] }
     let fc : Form := { srcs := [(low a, 0)], names := [.g (low d), .g (low a)], size := 2, rep := false }
     let off (s : State) (size : Nat) : Nat := (s.me.rd b).toNat + o.toNat * size
     let scalar (i : Instr) (size : Nat) (nc : Bool) : Prop :=
       ∀ s, f.ready s → ∀ u x, (s.woken f).Loads h (off s size) size [0, 1, 2, 3, 4, 5] nc u x →
         exec i s = .next (u.retire f fun k => k.wr t ((BitVec.ofNat (8 * size) (leNat x)).signExtend 64))
     let vector (i : Instr) (nc : Bool) : Prop :=
       ∀ s, fv.ready s → ∀ u x, (s.woken fv).Loads h (off s 128) 128 [0, 1, 2, 4] nc u x →
         exec i s = .next (u.retire fv fun k => k.vwr v (BitVec.ofNat 1024 (leNat x)))
     scalar (.ld t b m h o) 8 false ∧ scalar (.ldw t b m h o) 4 false ∧ scalar (.ldh t b m h o) 2 false ∧
     scalar (.ldb t b m h o) 1 false ∧ scalar (.ldNc t b m h o) 8 true ∧
     vector (.vld v b m h o) false ∧ vector (.vldNc v b m h o) true ∧
     ∀ s, fc.ready s → ∀ u x, (s.woken fc).Loads 0 ((s.me.rd (low a)).toNat + 8 * q.toNat) 8 [0, 1, 2, 3, 4, 5] false u x →
       exec (.ldC d a q) s = .next (u.retire fc fun k => k.wr (low d) (BitVec.ofNat 64 (leNat x)))) ∧
  (∀ (s : State) (h : BitVec 256) (off n : Nat) (nc : Bool) (spans : List Span) (u : State), hSpace h = 1 →
     s.placeCore s.cur.1 h off n false = .ok (spans, u) → s.me.versionPending = false → s.me.heldAt spans = false →
     s.ownStoreAt s.cur.1 s.cur.2 spans = false → s.ownedLine spans = none →
     s.poisoned (quadKey (hQuad h s.cur.1) (field h 0 20 + off)) n = false →
     ∃ t, u.load h off spans nc = .ok t (Memory.bytes s.mem (quadKey (hQuad h s.cur.1) (field h 0 20 + off)) n) ∧
       t.mem = s.mem ∧ ∀ c x, t.ctx c x = s.ctx c x) ∧
  (∀ (t b : BitVec 5) (m : BitVec 2) (h : BitVec 4) (o : BitVec 8) (s : State),
     let f : Form := { srcs := [(b, m)], names := [.g t, .g b] }
     let u := s.woken f
     let off := (s.me.rd b).toNat + 8 * o.toNat
     f.ready s →
       (∀ e, u.chkHandle s.cur.1 s.hbs h = .error e → Faults (exec (.ld t b m h o) s) u e.1 e.2 ∧ e.1 = 0x07) ∧
       ((s.me.hbrd h).getLsbD 12 = false → Faults (exec (.ld t b m h o) s) u 0x07
         (h.setWidth 64 ||| (((s.me.hbrd h).extractLsb' 0 12).setWidth 64 <<< 4) ||| 0x10000)) ∧
       (∀ hd, u.chkHandle s.cur.1 s.hbs h = .ok hd → off % 8 ≠ 0 → Faults (exec (.ld t b m h o) s) u 0x0A (BitVec.ofNat 64 off)) ∧
       (∀ hd, u.chkHandle s.cur.1 s.hbs h = .ok hd → off % 8 = 0 → off + 8 > hBound hd →
         Faults (exec (.ld t b m h o) s) u 0x06 (BitVec.ofNat 64 off))) ∧
  (∀ (t b : BitVec 5) (m : BitVec 2) (h : BitVec 4) (o : BitVec 8) (s : State),
     let f : Form := { srcs := [(b, m)], names := [.g t, .g b] }
     let u := s.woken f
     let off := (s.me.rd b).toNat + o.toNat * 8
     (∀ (k : Ctx) (hd : BitVec 256) (key n : Nat) (log : Bool), n ∈ k.goFirst hd [⟨key, 8, log⟩] ↔
       ∃ e, (n, e) ∈ k.fills ∧ e.orphan = false ∧ ((∃ word i wide, e.kind = .version word i wide) ∨
         ∃ g p old l, e.kind = .held g p old l ∧
           ((hSpace hd = 4 ∧ hSpace g = 4) ∨ ∃ q ∈ linePieces [⟨key, 8, log⟩], q.key / 64 = old / 64))) ∧
     (f.ready s → t ≠ 0 → ∀ hd, u.chkAccess s.cur.1 s.hbs h off 8 ⟨false, [0, 1, 2, 3, 4, 5, 6], 8, true⟩ = .ok hd →
       (∀ k : Fin 16, u.me.freeSlot = some k → hSpace hd ≠ 6 →
         ∀ spans w, u.placeCore s.cur.1 hd off 8 false = .ok (spans, w) →
         ∀ z x, w.load hd off spans false = .ok z x → x.length = 8 →
         Gives (exec (.ldA t b m h o) s) fun v =>
           v.me.rst t = .empty (BitVec.ofNat 4 k.val) ∧ MemoryKept z v ∧
           v.me.fills.find k.val = some ⟨t, .load, some (BitVec.ofNat 64 (leNat x)), false, false, false⟩ ∧
           (∀ r, r ≠ t → v.me.rd r = z.me.rd r) ∧ v.me.pc = s.me.nextPc (s.me.pc + 4)) ∧
       (∀ k : Fin 16, u.me.freeSlot = some k → hSpace hd ≠ 6 →
         ∀ key log w, u.placeCore s.cur.1 hd off 8 false = .ok ([⟨key, 8, log⟩], w) →
         ∀ why, w.load hd off [⟨key, 8, log⟩] false = .wait why →
         Gives (exec (.ldA t b m h o) s) fun v =>
           v.me.rst t = .empty (BitVec.ofNat 4 k.val) ∧ MemoryKept s v ∧ v.me.pc = s.me.nextPc (s.me.pc + 4) ∧
           v.me.fills.find k.val =
             some ⟨t, .held hd off key (w.me.goFirst hd [⟨key, 8, log⟩]), none, false, false, false⟩) ∧
       (∀ k : Fin 16, u.me.freeSlot = some k → hSpace hd = 6 →
         ∀ spans w, u.placeCore s.cur.1 hd off 8 false = .ok (spans, w) →
         let far : List Span := [⟨2 ^ 60, 8, false⟩]
         let held := w.readHeld hd far
         Gives (exec (.ldA t b m h o) s) fun v =>
           v.me.rst t = .empty (BitVec.ofNat 4 k.val) ∧ MemoryKept s v ∧ v.me.pc = s.me.nextPc (s.me.pc + 4) ∧
           (held = true → v.remotes = s.remotes ∧
             v.me.fills.find k.val = some ⟨t, .held hd off (2 ^ 60) (w.me.goFirst hd far), none, false, false, false⟩) ∧
           (held = false → v.me.fills.find k.val = some ⟨t, .remote, none, false, false, false⟩ ∧
             ∃ r, v.remotes = s.remotes ++ [r] ∧ r.slot = some k.val ∧ r.op = .read ∧ r.rdev = hRdev hd ∧ r.offset = hBase hd + off)) ∧
       (u.me.freeSlot = none → Gives (exec (.ldA t b m h o) s) fun v => v.me.wait = some .fillSlot ∧ v.me.pc = s.me.pc)))

/-- R29, R30, R70, R105, R281: where the checks of a store pass, it retires and its core holds its bytes, the low ones of the
register little-endian or the vector's, to be performed; memory changes only then. R281, R282: a strided load gathers 32 lanes
of four bytes from base + i × stride; a strided store sends one. R108 to R110: one step of BLKMV moves up to the end of the
destination's 64-byte line, takes the bytes moved from the count and adds them to both offsets, and comes back to itself while
bytes are left; BLKSET stores the low byte of its third register so and leaves that register. A count of zero retires in
sequence. Every step is serialising. -/
def Obligations.StoreResults : Prop :=
  (∀ (t b : BitVec 5) (v : BitVec 4) (m : BitVec 2) (h : BitVec 4) (o : BitVec 8) (r a : BitVec 4) (q : BitVec 3),
     let f : Form := { srcs := [(t, 0), (b, m)], names := [.g t, .g b] }
     let fv : Form := { srcs := [(b, m)], names := [.v v, .g b] }
     let fc : Form := { srcs := [(low r, 0), (low a, 0)], names := [.g (low r), .g (low a)], size := 2, rep := false }
     let row (i : Instr) (f : Form) (n : BitVec 4) (off : State → Nat) (size : Nat) (spaces : List Nat)
         (bytes : Ctx → List Byte) : Prop :=
       ∀ s, f.ready s → ∀ hd spans u, (s.woken f).Stores n (off s) size size spaces hd spans u →
         Gives (exec i s) fun w => RetiresStore s w f spans (bytes s.me) .write false
     let scalar (i : Instr) (size : Nat) : Prop :=
       row i f h (fun s => (s.me.rd b).toNat + o.toNat * size) size [0, 1, 2, 3, 4, 5, 6]
         fun k => leBytes size (k.rd t).toNat
     scalar (.st t b m h o) 8 ∧ scalar (.stw t b m h o) 4 ∧ scalar (.sth t b m h o) 2 ∧ scalar (.stb t b m h o) 1 ∧
     row (.stC r a q) fc 0 (fun s => (s.me.rd (low a)).toNat + 8 * q.toNat) 8 [0, 1, 2, 3, 4, 5, 6]
       (fun k => leBytes 8 (k.rd (low r)).toNat) ∧
     row (.vst v b m h o) fv h (fun s => (s.me.rd b).toNat + o.toNat * 128) 128 [6, 0, 1, 2, 4]
       fun k => leBytes 128 (k.vrd v).toNat) ∧
  (∀ (v : BitVec 4) (a b : BitVec 5) (h : BitVec 4) (s : State),
     let f : Form := { srcs := [(a, 0), (b, 0)], names := [.v v, .g a, .g b] }
     let u := s.woken f
     let lanes : List Int := (List.range 32).map fun (i : Nat) => ((s.me.rd a).toNat : Int) + i * (s.me.rd b).toInt
     f.ready s →
       (∀ hd places w, u.placeLanes h false 0 lanes = .ok (hd, places, w) →
         ∀ z x, w.loadLanes hd (lanes.zip places) [] = (.ok z x, 0) → x.length = 128 →
         exec (.vlds v a b h) s = .next (z.retire f fun k => k.vwr v (BitVec.ofNat 1024 (leNat x)))) ∧
       (∀ hd places w, u.placeLanes h true 0 lanes = .ok (hd, places, w) →
         w.me.versionPending = false → w.me.chkWatch places.flatten = .ok () → places.length = 32 →
         Gives (exec (.vsts v a b h) s) fun z =>
           StoresAdded s z ((places.zipIdx).flatMap fun p =>
             storedPieces p.1 (leBytes 4 ((s.me.vrd v).extractLsb' (32 * p.2) 32).toNat)) .write false ∧
           MemoryKept s z ∧ z.me.v = s.me.v ∧ (∀ r, z.me.rd r = s.me.rd r))) ∧
  (∀ (d a b : BitVec 5) (s : State), d ≠ 0 → a ≠ 0 → d ≠ a → d ≠ b → a ≠ b →
     let f : Form := { srcs := [(d, 0), (a, 0), (b, 0)], names := [.g d, .g a, .g b], rep := false }
     let u := s.woken f
     let left := field (s.me.rd d) 0 48
     let dst := (s.me.rd a).toNat
     let src := (s.me.rd b).toNat
     let n := min left (64 - dst % 64)
     let sb := (s.me.rd d).extractLsb' 56 4
     let db := (s.me.rd d).extractLsb' 60 4
     let after (w : State) (t : State) (dp : List Span) (x : List Byte) (move : Bool) : Prop :=
       StoresAdded w t (storedPieces dp x) .write false ∧ MemoryKept w t ∧
       t.me.rd a = s.me.rd a + BitVec.ofNat 64 n ∧
       t.me.rd b = (if move then s.me.rd b + BitVec.ofNat 64 n else s.me.rd b) ∧
       field (t.me.rd d) 0 48 = left - n ∧ (t.me.rd d).extractLsb' 48 16 = (s.me.rd d).extractLsb' 48 16 ∧
       t.me.pc = (if left = n then s.me.pc + 4 else s.me.pc) ∧
       (∀ r, r ≠ d → r ≠ a → r ≠ b → t.me.rd r = s.me.rd r)
     f.ready s →
       (b ≠ 0 → left = 0 → exec (.blkmv d a b) s = .next (u.retire f Ctx.serial)) ∧
       (left = 0 → (s.me.rd d).extractLsb' 56 4 = 0 → exec (.blkset d a b) s = .next (u.retire f Ctx.serial)) ∧
       (b ≠ 0 → left ≠ 0 →
         ∀ sh, u.chkAccess s.cur.1 s.hbs sb src 1 ⟨false, [0, 1, 2, 3, 4, 5], n, true⟩ = .ok sh →
         ∀ dh, u.chkAccess s.cur.1 s.hbs db dst 1 ⟨true, [0, 1, 2, 3, 4, 5, 6], n, true⟩ = .ok dh →
         ∀ sp w, u.placeCore s.cur.1 sh src n false = .ok (sp, w) → ∀ dp z, w.placeCore s.cur.1 dh dst n true = .ok (dp, z) →
         z.me.chkWatch (if hSpace dh = 6 then [] else dp) = .ok () → ∀ y x, z.load sh src sp false = .ok y x → x.length = n →
         Gives (exec (.blkmv d a b) s) fun t => after y t dp x true) ∧
       (left ≠ 0 → (s.me.rd d).extractLsb' 56 4 = 0 →
         ∀ dh, u.chkAccess s.cur.1 s.hbs db dst 1 ⟨true, [0, 1, 2, 3, 4, 5, 6], n, true⟩ = .ok dh →
         ∀ dp w, u.placeCore s.cur.1 dh dst n true = .ok (dp, w) →
         w.me.chkWatch (if hSpace dh = 6 then [] else dp) = .ok () → w.me.versionPending = false →
         Gives (exec (.blkset d a b) s) fun t => after w t dp (List.replicate n ((s.me.rd b).setWidth 8)) false))

/-- R285 to R287: where the checks pass and the read-modify-write can be performed, an AMO retires with the old value,
sign-extended from its width; what it stores is the operation on the old value and the register at that width. CAS stores its
second register only where the old value equals the first. R228, R230, R235, R287: a read-modify-write in quad memory at a
scope within the quad, with nothing before it: the old value is the number that memory holds there, the new one is stored
there, and every other byte of memory is as before. While an older LD.a, RAMO or future version of its context is still to be
read, or a store that a release fence has gone by to be performed, it waits. -/
def Obligations.ReadModifyWrites : Prop :=
  (∀ (d a : BitVec 5) (sc : BitVec 3) (w : BitVec 1) (h : BitVec 4) (o : BitVec 2),
     let size := if w = 1 then 4 else 8
     let row (i : Instr) (f : Form) (new : Nat → Nat → Ctx → Option Nat) : Prop :=
       ∀ s, f.ready s →
         ∀ hd, (s.woken f).chkAccess s.cur.1 s.hbs h (s.me.rd a).toNat size ⟨true, [0, 1, 3], size, true⟩ = .ok hd →
         ∀ spans u, (s.woken f).placeCore s.cur.1 hd (s.me.rd a).toNat size true = .ok (spans, u) → u.me.chkWatch spans = .ok () →
         ∀ z m, u.rmw hd (s.me.rd a).toNat spans size (u.wideScope s.cur.1 s.cur.2 sc) (o.getLsbD 0) (o.getLsbD 1)
           (fun m => new (8 * size) m s.me) = .ok z m →
         exec i s = .next (z.retire f fun k => k.wr d ((BitVec.ofNat (8 * size) m).signExtend 64))
     let amo (i : Instr) (op : Nat → Nat → Nat → Nat) : Prop :=
       row i { srcs := [(d, 0), (a, 0)], names := [.g d, .g a] } fun n m k => some (op n m ((k.rd d).toNat % 2 ^ n))
     amo (.amoswap d a sc w h o) (fun _ _ v => v) ∧
     amo (.amoadd d a sc w h o) (fun n m v => (m + v) % 2 ^ n) ∧
     amo (.amoand d a sc w h o) (fun _ m v => m &&& v) ∧
     amo (.amoor d a sc w h o) (fun _ m v => m ||| v) ∧
     amo (.amoxor d a sc w h o) (fun _ m v => m ^^^ v) ∧
     amo (.amomin d a sc w h o) (fun n m v => if asSigned n m ≤ asSigned n v then m else v) ∧
     amo (.amomax d a sc w h o) (fun n m v => if asSigned n m ≥ asSigned n v then m else v) ∧
     amo (.amominu d a sc w h o) (fun _ m v => min m v) ∧
     amo (.amomaxu d a sc w h o) (fun _ m v => max m v) ∧
     row (.cas d a sc w h o) { srcs := [(d, 0), (d + 1, 0), (a, 0)], names := [.g d, .g (d + 1), .g a] }
       fun n m k => if m = (k.rd d).toNat % 2 ^ n then some ((k.rd (d + 1)).toNat % 2 ^ n) else none) ∧
  (∀ (s : State) (h : BitVec 256) (off key size : Nat) (log acq rel : Bool) (new : Nat → Option Nat), s.MemoryForm → hSpace h = 1 →
     let spans : List Span := [⟨key, size, log⟩]
     s.me.versionPending = false → s.mayWrite s.cur.1 s.cur.2 = true → s.ownStoreAt s.cur.1 s.cur.2 spans = false →
     (rel = true → s.quiet s.cur.1 s.cur.2 = true) → s.ownedLine spans = none → s.poisoned key size = false →
     ∃ z, s.rmw h off spans size false acq rel new = .ok z (Memory.nat s.mem key size) ∧
       Memory.bytes z.mem key size = (match new (Memory.nat s.mem key size) with
         | some v => leBytes size v
         | none => Memory.bytes s.mem key size) ∧
       (∀ p, ¬(key ≤ p ∧ p < key + size) → Memory.get z.mem p = Memory.get s.mem p) ∧
       ∀ (t : State) (wide : Bool), t.me.versionPending = true ∨ t.me.unread ≠ [] ∨ t.fenceOpen t.cur.1 t.cur.2 = true →
         t.rmw h off spans size wide acq rel new = .wait .drain)

/-- R283, R284: LD.acq retires with its eight bytes; ST.rel is a store released after every older one; through a REMOTE handle it
carries ILLEGAL at any scope but .sys, to which .grp is widened where its group does not hold the core (R278, R419). R228,
R289 to R291: a fence retires once the context's stores and reads are performed, and waits before; at .ctx and .core (scope
codes 0 and 1) it waits for no store but those that its quad cache or its quad's own memory performs, and a release or full
fence marks the others: they go before the stores after it. FENCE.acq.inv leaves the core's L1 empty; a release or full fence
wider than the quad, and DRAIN, leave the quad no dirty byte; after FFENCE the core fetches the newest code. R227, R277: the
scopes .ctx, .core and .quad lie within the quad; .die, .pkg and .sys do not; .grp lies within it where the core and every
member of its group are of that quad. R220: an acquire by a quad leaves at most itself in the word's release record. -/
def Obligations.AcquireReleaseAndFences : Prop :=
  (∀ (d a : BitVec 5) (sc : BitVec 3) (e : BitVec 5) (h : BitVec 4) (s : State),
     let fl : Form := { srcs := [(a, 0)], names := [.g d, .g a] }
     let fs : Form := { srcs := [(d, 0), (a, 0)], names := [.g d, .g a] }
     let off := (s.me.rd a).toNat + 8 * e.toNat
     let atSys : Prop := sc = 5 ∨ sc = 6 ∧ ∀ n l, s.launchOf s.cur.1 = some (n, l) → s.cur.1 ∉ l.group (field s.me.scopeGrp 0 8)
     (fl.ready s →
       ∀ hd, (s.woken fl).chkAccess s.cur.1 s.hbs h off 8 ⟨false, [0, 1, 2, 3, 4, 5], 8, true⟩ = .ok hd →
       ∀ spans u, (s.woken fl).placeCore s.cur.1 hd off 8 false = .ok (spans, u) →
       ∀ z x, u.acquireRead hd off spans (u.wideScope s.cur.1 s.cur.2 sc) = .ok z x → x.length = 8 →
       exec (.ldAcq d a sc e h) s = .next (z.retire fl fun k => k.wr d (BitVec.ofNat 64 (leNat x)))) ∧
     (fs.ready s → ∀ hd spans u, (s.woken fs).Stores h off 8 8 [0, 1, 2, 3, 4, 5, 6] hd spans u → (hSpace hd = 6 → atSys) →
       Gives (exec (.stRel d a sc e h) s) fun w => RetiresStore s w fs spans (leBytes 8 (s.me.rd d).toNat) .write true) ∧
     (fs.ready s → ∀ hd, (s.woken fs).chkHandle s.cur.1 s.hbs h = .ok hd → hSpace hd = 6 → ¬atSys →
       Faults (exec (.stRel d a sc e h) s) (s.woken fs) 0x01 (codeInfo (encode (.stRel d a sc e h))))) ∧
  (∀ (sc : BitVec 3) (s : State), Form.ready {} s →
     let u := s.woken {}
     let q := quadOf s.cur.1
     let wide := u.wideScope s.cur.1 s.cur.2 sc
     let near : Prop := s.me.readsDone = true ∧
       ∀ r ∈ (s.core s.cur.1).stores, r.ctx = s.cur.2.val → match r.dest with
         | .cached .. => r.wide = true
         | .home .. => r.addr / 2 ^ 20 ≠ quadKey q 0 / 2 ^ 20
         | .remote .. => True
     let retired (t : State) : Prop :=
       (∀ r, t.me.rd r = s.me.rd r) ∧ t.me.gs = s.me.gs ∧ t.me.pc = s.me.nextPc (s.me.pc + 4)
     let clean (t : State) : Prop := retired t ∧ ∀ line, (t.quad q).dirtyAt line = false
     let marked (full : Bool) (t : State) : Prop := retired t ∧ MemoryKept s t ∧
       (t.core s.cur.1).stores = (s.core s.cur.1).stores.map fun r =>
         if r.ctx = s.cur.2.val then { r with fences := r.fences + 1, full := r.full || full } else r
     let fences : Prop :=
       exec (.fenceAcq sc) s = .next (if wide then (u.retire {} id).acknowledged else u.retire {} id) ∧
       Gives (exec (.fenceAcqInv sc) s) (fun t => retired t ∧ (t.core s.cur.1).l1 = []) ∧
       (wide = true → Gives (exec (.fenceRel sc) s) clean ∧ Gives (exec (.fenceFull sc) s) clean) ∧
       (sc.toNat < 2 → Gives (exec (.fenceRel sc) s) (marked false) ∧ Gives (exec (.fenceFull sc) s) (marked true)) ∧
       (2 ≤ sc.toNat → wide = false →
         exec (.fenceRel sc) s = .next (u.retire {} id) ∧ exec (.fenceFull sc) s = .next (u.retire {} id))
     let wait (l : List Instr) : Prop := ∀ i ∈ l, exec i s = u.waitFor .drain
     let all := [Instr.fenceAcq sc, .fenceAcqInv sc, .fenceRel sc, .fenceFull sc]
     (s.quiet s.cur.1 s.cur.2 = true → fences ∧ Gives (exec .drain s) clean ∧
       Gives (exec .ffence s) fun t => retired t ∧ (t.core s.cur.1).stale = [] ∧ MemoryKept s t) ∧
     (s.quiet s.cur.1 s.cur.2 = false → wait [.drain, .ffence] ∧ (2 ≤ sc.toNat → wait all)) ∧
     (sc.toNat < 2 → (near → fences) ∧ (¬near → wait all)) ∧
     ∀ (c i j : Nat) (a r : StoreRec), (s.core c).stores[i]? = some a → (s.core c).stores[j]? = some r → i < j → a.ctx = r.ctx →
       r.fences < a.fences → s.storeReady c j = false) ∧
  (∀ (s : State) (c : Nat) (x : Fin 8),
     (∀ sc : BitVec 3, sc.toNat ≤ 2 → s.wideScope c x sc = false) ∧
     (∀ sc : BitVec 3, sc = 3 ∨ sc = 4 ∨ sc = 5 → s.wideScope c x sc = true) ∧
     ∀ n l, s.launchOf c = some (n, l) →
       (s.wideScope c x 6 = false ↔
         c ∈ l.group (field (s.ctx c x).scopeGrp 0 8) ∧ ∀ k ∈ l.group (field (s.ctx c x).scopeGrp 0 8), quadOf k = quadOf c)) ∧
  (∀ (s : State) (word q : Nat),
     ∀ r, (s.acquire word q).releases.find word = some r → ∀ e ∈ r.quads, e.1 = q)

/-- R240, R292: LDV of a held version retires with its value; of a later one it retires with its destination EMPTY and its request
waiting; of a retired one it carries VERSION_RETIRED with the last version and the one asked for. The word is read at its
home, to which the dirty bytes of its line have come (R229), once no engine owns its line (R222). R293, R294: STV is a release
store that will create a version, VRECL a store that will retire the versions below its operand. R240, R294: a created version
is the last one plus one and is held with its value, the word at its home reads as that value, of four versions held the
oldest goes, and none more than three below the last is held; VRECL keeps the held versions that are not below its operand.
R295, R296: OBJDECL with nothing against it declares its object for the launch with the shape it read; OBJDROP of an object of
the launch leaves it undeclared and every other object declared. An index beyond 14 bits or an object already declared carries
BOUNDS with its reason. -/
def Obligations.VersionsAndObjects : Prop :=
  (∀ (d a b : BitVec 5) (sc : BitVec 3) (h : BitVec 4) (s : State), d ≠ 0 →
     let f : Form := { srcs := [(a, 0), (b, 0)], names := [.g d, .g a, .g b] }
     let off := (s.me.rd a).toNat
     let n := (s.me.rd b).setWidth 32
     f.ready s → ∀ hd, (s.woken f).chkAccess s.cur.1 s.hbs h off 8 ⟨false, [3], 8, true⟩ = .ok hd →
       ∀ slot : Fin 16, s.me.freeSlot = some slot →
       ∀ key log u, (s.woken f).placeCore s.cur.1 hd off 8 false = .ok ([⟨key, 8, log⟩], u) → u.readHeld hd [⟨key, 8, log⟩] = false →
       u.ownStoreAt s.cur.1 s.cur.2 [⟨key, 8, log⟩] = false → u.ownedLine [⟨key, 8, log⟩] = none → u.poisoned key 8 = false →
       let z := u.atHome 3 (key / 64)
       let w := z.vword key
       let ahead := (n - w.last).toNat
       (∀ e, w.held.find? (fun e => e.1 == n) = some e →
         exec (.ldv d a sc b h) s = .next
           ((if u.wideScope s.cur.1 s.cur.2 sc then z.acquire (key / 8) (quadOf s.cur.1) else z).retire f
             fun k => k.wr d e.2)) ∧
       (w.held.find? (fun e => e.1 == n) = none → 1 ≤ ahead → ahead < 2 ^ 31 →
         Gives (exec (.ldv d a sc b h) s) fun t =>
           t.me.rst d = .empty (BitVec.ofNat 4 slot.val) ∧
           ((t.vwords.find (key / 8)).map (·.waiting)) = some (w.waiting ++ [(s.cur.1, s.cur.2.val, slot.val, n)]) ∧
           t.me.pc = s.me.nextPc (s.me.pc + 4) ∧ MemoryKept z t) ∧
       (w.held.find? (fun e => e.1 == n) = none → ahead = 0 ∨ 2 ^ 31 ≤ ahead →
         Faults (exec (.ldv d a sc b h) s) z 0x0B (w.last ++ n))) ∧
  (∀ (d a : BitVec 5) (sc : BitVec 3) (h : BitVec 4) (s : State),
     let f : Form := { srcs := [(d, 0), (a, 0)], names := [.g d, .g a] }
     f.ready s → ∀ hd spans u, (s.woken f).Stores h (s.me.rd a).toNat 8 8 [3] hd spans u →
       Gives (exec (.stv d a sc h) s) (fun w => RetiresStore s w f spans (leBytes 8 (s.me.rd d).toNat) .stv true) ∧
       Gives (exec (.vrecl d a h) s) fun w =>
         RetiresStore s w f spans (List.replicate 8 0) (.vrecl ((s.me.rd d).setWidth 32)) false) ∧
  (∀ (s : State) (key : Nat) (v : Word) (n : BitVec 32), s.MemoryForm →
     let w := s.vword key
     let t := (s.createVersion key v).vword key
     t.last = w.last + 1 ∧ (w.last + 1, v) ∈ t.held ∧ (w.held.length ≤ 4 → t.held.length ≤ 4) ∧
     (s.createVersion key v).memWord key = v ∧
     (∀ e ∈ w.held, (t.last - e.1).toNat ≤ 3 → e ∈ t.held ∨ w.held.head? = some e) ∧ (∀ e ∈ t.held, (t.last - e.1).toNat ≤ 3) ∧
     ∀ e, e ∈ ((s.retireVersions key n).vword key).held ↔
       e ∈ w.held ∧ ¬(1 ≤ (n - e.1).toNat ∧ (n - e.1).toNat ≤ 2 ^ 31 - 1)) ∧
  (∀ (d a : BitVec 5) (h : BitVec 4) (s : State),
     let f : Form := { srcs := [(d, 0), (a, 0)], names := [.g d, .g a] }
     let f1 : Form := { srcs := [(d, 0)], names := [.g d] }
     let o := field (s.me.rd d) 0 14
     (f.ready s → ∀ u x, (s.woken f).Loads h (s.me.rd a).toNat 64 [0, 1, 2, 3, 4, 5] true u x →
       (u.declReason s.cur.1 (s.me.rd d) (BitVec.ofNat 512 (leNat x)) = none →
         let k : Obj := ⟨(u.core s.cur.1).launch.getD 0, BitVec.ofNat 512 (leNat x), none⟩
         let t : State := { u.retire f Ctx.serial with objects := u.objects.put o k }
         exec (.objdecl d a h) s = .next t) ∧
       (field (s.me.rd d) 14 50 ≠ 0 → Faults (exec (.objdecl d a h) s) u 0x06 0xFFFD000000000001) ∧
       (field (s.me.rd d) 14 50 = 0 → (u.objects.find o).isSome = true →
         Faults (exec (.objdecl d a h) s) u 0x06 0xFFFD000000000002)) ∧
     (f1.ready s → field (s.me.rd d) 14 50 = 0 → ∀ k, s.objects.find o = some k → k.launch = (s.core s.cur.1).launch.getD 0 →
       Gives (exec (.objdrop d) s) fun t =>
         t.objects.find o = none ∧ (∀ p, p ≠ o → t.objects.find p = s.objects.find p) ∧
         t.me.pc = s.me.nextPc (s.me.pc + 4) ∧ (∀ r, t.me.rd r = s.me.rd r) ∧ MemoryKept s t))

/-- R14, R115, R116: CRR retires with the value of the register its number names; a number that names none carries ILLEGAL. R14,
R48, R114 to R116, R119, R149, R278, R345, R357: what CWR stores in each control register it may write in a mode other than
TASK; of these, TRAPVEC, PROMO, SRGEN, SCOPEGRP and the bindings may be written in mode TASK as well. A register that may not
be written carries ILLEGAL. R14, R15, R126, R346: a write of TSTATUS in a mode other than TASK. The flags, the prefix, IE and
SWEN take the operand's bits; the rounding mode and each bank's state keep their value where the operand's is reserved; MODE
takes the operand's but for the reserved code, SYS being stored as TASK in a task of privilege TASK; no other bit changes, and
no register but TSTATUS. -/
def Obligations.ControlRegisters : Prop :=
  (∀ (d : BitVec 5) (n : BitVec 12) (s : State), (Form.dst d).ready s →
     let f := Form.dst d
     let u := s.woken f
     let k := u.me
     let reads (i : BitVec 12) (v : Word) : Prop := n = i → exec (.crr d n) s = .next (u.retire f fun t => t.wr d v)
     reads 0x000 k.status ∧ reads 0x001 k.trapCause ∧ reads 0x002 k.trapPc ∧ reads 0x003 k.trapInfo ∧ reads 0x004 k.trapMsg ∧
     reads 0x005 k.trapVec ∧ reads 0x006 k.tstatus ∧ reads 0x008 k.taskId ∧ reads 0x009 (BitVec.ofNat 64 s.cur.2.val) ∧
     reads 0x00A (BitVec.ofNat 64 (s.cur.1 % 2 ^ 13)) ∧ reads 0x00B (s.core s.cur.1).grpMask ∧
     reads 0x00C (s.core s.cur.1).cycle ∧ reads 0x010 k.budget ∧ reads 0x011 k.enquota ∧ reads 0x018 (s.melt s.cur.1) ∧
     reads 0x019 (u.lease s.cur.1 s.cur.2) ∧ reads 0x020 k.watch[0] ∧ reads 0x021 k.watch[1] ∧ reads 0x022 k.watch[2] ∧
     reads 0x023 k.watch[3] ∧ reads 0x024 k.stepCtl ∧ reads 0x028 k.promo ∧ reads 0x030 k.srgen ∧ reads 0x031 s.wsPhase ∧
     reads 0x032 k.scopeGrp ∧ reads 0x033 (s.devid.setWidth 64) ∧
     (∀ i : BitVec 4, reads (0x100 + i.setWidth 12) (k.hbrd i)) ∧
     (n.toNat ∉ [0, 1, 2, 3, 4, 5, 6, 8, 9, 0xA, 0xB, 0xC, 0x10, 0x11, 0x18, 0x19, 0x20, 0x21, 0x22, 0x23, 0x24, 0x28, 0x30,
         0x31, 0x32, 0x33] → n.toNat < 0x100 ∨ 0x10F < n.toNat →
       Faults (exec (.crr d n) s) s 0x01 (codeInfo (encode (.crr d n))))) ∧
  (∀ (r : BitVec 5) (n : BitVec 12) (s : State),
     let f : Form := { srcs := [(r, 0)], names := [.g r], rep := false }
     let v := s.me.rd r
     let writes (i : BitVec 12) (upd : Ctx → Ctx) : Prop :=
       n = i → f.ready s → exec (.cwr r n) s = .next ((s.woken f).retire f fun t => (upd t).serial)
     let guarded (i : BitVec 12) (upd : Ctx → Ctx) : Prop := s.me.mode ≠ taskMode → writes i upd
     guarded 0x001 (fun t => { t with trapCause := v &&& 0x7FF }) ∧ guarded 0x002 (fun t => { t with trapPc := v }) ∧
     guarded 0x003 (fun t => { t with trapInfo := v }) ∧ guarded 0x004 (fun t => { t with trapMsg := v }) ∧
     guarded 0x020 (fun t => { t with watch := t.watch.set 0 v }) ∧ guarded 0x021 (fun t => { t with watch := t.watch.set 1 v }) ∧
     guarded 0x022 (fun t => { t with watch := t.watch.set 2 v }) ∧ guarded 0x023 (fun t => { t with watch := t.watch.set 3 v }) ∧
     guarded 0x024 (fun t => { t with stepCtl := v &&& 3 }) ∧
     writes 0x005 (fun t => { t with trapVec := v &&& 0xFFFE }) ∧
     writes 0x028 (fun t => if 1 ≤ field v 0 7 ∧ field v 0 7 ≤ 64 then { t with promo := v &&& 0x7F } else t) ∧
     writes 0x030 (fun t => { t with srgen := if v.setWidth 32 = 0 then 1 else (v.setWidth 32).setWidth 64 }) ∧
     writes 0x032 (fun t => { t with scopeGrp := v &&& 0xFF }) ∧
     (∀ i : BitVec 4, n = 0x100 + i.setWidth 12 → f.ready s → Gives (exec (.cwr r n) s) fun t =>
       t.me.hbrd i = v &&& 0x1FFF ∧ (∀ j, j ≠ i → t.me.hbrd j = s.me.hbrd j) ∧ t.me.g = s.me.g ∧ t.me.pc = s.me.pc + 4) ∧
     (s.me.mode = taskMode → n.toNat ∈ [1, 2, 3, 4, 6, 0x20, 0x21, 0x22, 0x23, 0x24] →
       Faults (exec (.cwr r n) s) s 0x01 (codeInfo (encode (.cwr r n)))) ∧
     (n.toNat ∈ [8, 9, 0xA, 0xB, 0xC, 0x10, 0x11, 0x18, 0x19, 0x31, 0x33] →
       Faults (exec (.cwr r n) s) s 0x01 (codeInfo (encode (.cwr r n)))) ∧
     (n.toNat ∉ [0, 1, 2, 3, 4, 5, 6, 8, 9, 0xA, 0xB, 0xC, 0x10, 0x11, 0x18, 0x19, 0x20, 0x21, 0x22, 0x23, 0x24, 0x28, 0x30,
         0x31, 0x32, 0x33] → n.toNat < 0x100 ∨ 0x10F < n.toNat →
       Faults (exec (.cwr r n) s) s 0x01 (codeInfo (encode (.cwr r n))))) ∧
  (∀ (r : BitVec 5) (s : State),
     let f : Form := { srcs := [(r, 0)], names := [.g r], rep := false }
     let v := s.me.rd r
     let old := s.me.tstatus
     f.ready s → s.me.mode ≠ taskMode → Gives (exec (.cwr r 6) s) fun t =>
       let w := t.me.tstatus
       (∀ i, i = 2 ∨ i = 5 ∨ (8 ≤ i ∧ i < 13) ∨ (16 ≤ i ∧ i < 24) → w.getLsbD i = v.getLsbD i) ∧
       field w 13 3 = (if field v 13 3 < 5 then field v 13 3 else field old 13 3) ∧
       (∀ j, j < 7 → field w (32 + 2 * j) 2 = if field v (32 + 2 * j) 2 = 3 then field old (32 + 2 * j) 2 else field v (32 + 2 * j) 2) ∧
       modeOf w = (if modeOf v = 3 then modeOf old else if modeOf v = sysMode ∧ s.me.lowly then taskMode else modeOf v) ∧
       (∀ i, i ∈ [0, 1, 3, 4] ∨ (24 ≤ i ∧ i < 32) ∨ 46 ≤ i → w.getLsbD i = old.getLsbD i) ∧
       t.me.g = s.me.g ∧ t.me.gs = s.me.gs ∧ s.me.restKept { t.me with tstatus := old } ∧ t.me.pc = s.me.pc + 4 ∧ MemoryKept s t)

/-- R15, R18, R36, R126: a write of STATUS. The flags take the operand's bits; the rounding mode and each bank's power state keep
their value where the operand's is reserved; in mode TASK nothing else changes, in another the prefix, IE and SWEN change too,
and MODE but for the reserved code, SYS being stored as TASK in a task of privilege TASK. A general register whose bank goes
to OFF or leaves it is FREE and zero. R346, R353, R385: TRET restores MODE, IE, SWEN and the prefix from TSTATUS, and goes to
TRAPPC; STATUS is else as it was, and every register keeps its value; where TRAPCAUSE names TRANSLATION the core will
translate afresh. An odd TRAPPC carries ALIGN and one beyond the store BOUNDS; outside TRAP mode it carries ILLEGAL. That a
TRET after TRANSLATION drops every translation of its core is the model's way to translate afresh (log entry 67). -/
def Obligations.StatusAndTrapReturn : Prop :=
  (∀ (r : BitVec 5) (s : State),
     let f : Form := { srcs := [(r, 0)], names := [.g r], rep := false }
     let v := s.me.rd r
     let k := (s.woken f).me
     f.ready s → Gives (exec (.cwr r 0) s) fun t =>
       let w := t.me.status
       (∀ i, 8 ≤ i → i < 13 → w.getLsbD i = v.getLsbD i) ∧
       field w 13 3 = (if field v 13 3 < 5 then field v 13 3 else field k.status 13 3) ∧
       (∀ j, j < 7 → field w (32 + 2 * j) 2 = if field v (32 + 2 * j) 2 = 3 then field k.status (32 + 2 * j) 2 else field v (32 + 2 * j) 2) ∧
       (s.me.mode = taskMode → ∀ i, i < 8 ∨ (16 ≤ i ∧ i < 32) → w.getLsbD i = s.me.status.getLsbD i) ∧
       (s.me.mode ≠ taskMode →
         (∀ i, i = 2 ∨ i = 5 ∨ (16 ≤ i ∧ i < 24) → w.getLsbD i = v.getLsbD i) ∧
         modeOf w = (if modeOf v = 3 then s.me.mode else if modeOf v = sysMode ∧ s.me.lowly then taskMode else modeOf v)) ∧
       (∀ i, i ∈ [0, 1, 3, 4] ∨ (24 ≤ i ∧ i < 32) ∨ 46 ≤ i → w.getLsbD i = s.me.status.getLsbD i) ∧
       (∀ q : BitVec 5, 8 ≤ q.toNat → (bankState w (.g q) = 2) ≠ (bankState k.status (.g q) = 2) →
         t.me.rst q = .free ∧ t.me.rd q = 0) ∧
       t.me.pc = s.me.pc + 4) ∧
  (∀ (s : State), s.me.rep = none →
     let f : Form := { modes := [trapMode] }
     let u := s.woken f
     let target := s.me.trapPc
     (f.ready s → target.getLsbD 0 = false → target.toNat ≤ 0xFFFE → Gives (exec .tret s) fun t =>
       t.me.pc = target ∧
       (∀ i, i ∈ [2, 5, 6, 7] ∨ (16 ≤ i ∧ i < 24) → t.me.status.getLsbD i = s.me.tstatus.getLsbD i) ∧
       (∀ i, ¬(i ∈ [2, 5, 6, 7] ∨ (16 ≤ i ∧ i < 24)) → t.me.status.getLsbD i = s.me.status.getLsbD i) ∧
       (∀ r, t.me.rd r = s.me.rd r ∧ t.me.rst r = s.me.rst r) ∧ s.me.restKept t.me ∧ MemoryKept s t ∧
       (s.me.trapCause.setWidth 8 ≠ (0x08 : BitVec 8) → OnlyRunningContext s t) ∧
       (s.me.trapCause.setWidth 8 = (0x08 : BitVec 8) → (t.core s.cur.1).tlb = [] ∧ OnlyRunningContext (s.forgetPlaces s.cur.1) t)) ∧
     (f.ready s → target.getLsbD 0 = true → Faults (exec .tret s) u 0x0A target) ∧
     (f.ready s → target.getLsbD 0 = false → target.toNat > 0xFFFE → Faults (exec .tret s) u 0x06 target) ∧
     (s.me.mode ≠ trapMode → Faults (exec .tret s) s 0x01 (codeInfo (encode .tret))))

/-- R344 to R347: trap entry saves STATUS in TSTATUS, sets MODE to TRAP and IE, PFX, PFMT and PRND to 0, writes the report and
goes to the handler; every other bit of STATUS and every register stays. With no handler, and for a synchronous fault in TRAP
mode, the task is aborted: the report has ABORT (and NESTED) set and the context is DORMANT. TRAPMSG holds the MSGID of the
message that a task from a queue came from, and 0 for a deque's record or a SPAWN child, entered or aborted. -/
def Obligations.TrapEntry : Prop :=  ∀ (s : State) (c : Nat) (x : Fin 8) (r : Report),
    let k := s.ctx c x
    let t := s.takeTrap c x r
    let u := t.ctx c x
    (∀ i, k.task = some i → u.trapMsg = match i.origin with
      | .queue _ _ => i.task.msgId
      | .deque | .child => 0) ∧
    (field k.trapVec 1 15 ≠ 0 → (k.mode ≠ 1 ∨ r.async = true) → k.rep = none →
      u.tstatus = k.status ∧ u.mode = 1 ∧ u.ie = false ∧ field u.status 16 8 = 0 ∧
      (∀ b, b ≠ 5 → b ≠ 6 → b ≠ 7 → b < 16 ∨ 24 ≤ b → u.status.getLsbD b = k.status.getLsbD b) ∧
      field u.trapCause 0 8 = r.code.toNat ∧ u.trapCause.getLsbD 8 = r.async ∧ u.trapCause.getLsbD 9 = false ∧
      u.trapCause.getLsbD 10 = decide (k.mode = 1) ∧ u.trapPc = r.pc ∧ u.trapInfo = r.info ∧
      u.pc = BitVec.ofNat 64 (2 * field k.trapVec 1 15) ∧ (∀ g, u.rd g = k.rd g ∧ u.rst g = k.rst g) ∧ u.v = k.v ∧ u.hb = k.hb ∧
      u.cstate = k.cstate ∧ MemoryKept s t) ∧
    (field k.trapVec 1 15 = 0 ∨ (k.mode = 1 ∧ r.async = false) →
      u.cstate = .dormant ∧ u.task = none ∧ u.send = [] ∧ MemoryKept s t ∧
      (0 < k.enquota.toInt → field u.trapCause 0 8 = r.code.toNat ∧ u.trapCause.getLsbD 8 = r.async ∧
        u.trapCause.getLsbD 9 = true ∧ u.trapCause.getLsbD 10 = decide (k.mode = 1) ∧ u.trapPc = r.pc ∧ u.trapInfo = r.info) ∧
      ∀ i, k.task = some i → ∀ q e, i.origin = .queue q e → q < 8 → (t.core c).hold.getLsbD q = true)

/-- R345 to R348, R387: HALT ends its task: the context is DORMANT with nothing to send, and its record names BREAK with ABORT and
the HALT's address; in TRAP mode the trap's own record, with ABORT. (A context with quota left; where none is left QUOTA is
recorded, R373.) R386: SLEEP with a time retires and the context leaves the pipe until that mesh cycle, unless an event is
pending; with a time of zero it only leaves the pipe where another context is ready. R388: KILLCTX answers 2 for its own
launch, 1 for one not in the package, else 0, and then that launch is being removed, every core of its group 0 still to be
reached. -/
def Obligations.HaltSleepAndKill : Prop :=
  (∀ (s : State), s.me.rep = none → s.me.enquota.toInt > 0 → Form.ready { modes := [trapMode, sysMode] } s →
     Gives (exec .halt s) fun t =>
       t.me.cstate = .dormant ∧ t.me.task = none ∧ t.me.send = [] ∧
       (s.me.mode = sysMode → t.me.trapCause = 0x20E ∧ t.me.trapPc = s.me.pc ∧ t.me.trapInfo = 0) ∧
       (s.me.mode = trapMode → t.me.trapCause = s.me.trapCause ||| 0x200 ∧ t.me.trapPc = s.me.trapPc ∧
         t.me.trapInfo = s.me.trapInfo)) ∧
  (∀ (r : BitVec 5) (s : State),
     let f : Form := { srcs := [(r, 0)], names := [.g r] }
     let n := ((s.me.rd r).setWidth 32).toNat
     f.ready s → (s.core s.cur.1).pipe = some s.cur.2 → Gives (exec (.sleep r) s) fun t =>
       t.me.pc = s.me.nextPc (s.me.pc + 4) ∧ (∀ q, t.me.rd q = s.me.rd q) ∧ MemoryKept s t ∧
       (n ≠ 0 → s.me.stepCtl.getLsbD 0 = false → s.me.async = Async.empty →
         t.me.sleep = some (s.mesh + n) ∧ (t.core s.cur.1).pipe ≠ some s.cur.2) ∧
       (n = 0 → (s.core s.cur.1).otherReady s.cur.2 = false → (t.core s.cur.1).pipe = some s.cur.2) ∧
       (n = 0 → (s.core s.cur.1).otherReady s.cur.2 = true → (t.core s.cur.1).pipe ≠ some s.cur.2)) ∧
  (∀ (d a : BitVec 5) (m : BitVec 2) (s : State),
     let f : Form := { Form.f2 d a m with modes := [trapMode, sysMode] }
     let n := field (s.me.rd a) 0 16
     f.ready s → Gives (exec (.killctx d a m) s) fun t =>
       t.me.pc = s.me.nextPc (s.me.pc + 4) ∧
       ((s.core s.cur.1).launch = some n → t.me.got d 2 ∧ t.launches = s.launches) ∧
       ((s.core s.cur.1).launch ≠ some n → s.launch n = none → t.me.got d 1 ∧ t.launches = s.launches) ∧
       ((s.core s.cur.1).launch ≠ some n → ∀ l, s.launch n = some l → l.state ≠ .removing →
         t.me.got d 0 ∧ t.launch n = some { l with state := .removing, flood := l.group 0, swept := false } ∧
         ∀ k, k ≠ n → t.launch k = s.launch k))

/-- R389: TLBI drops the translations of its page, or all, from its own core at once, and the other cores of its launch have them
to drop; a selector beyond 1 carries ILLEGAL, other reserved bits BOUNDS. TLBSYNC retires when every one of them has been
reached and every store held under an old translation has left its core, every read under one has been performed (R353), and
no line noted as written under one stays dirty in its quad (R245). R354, R390: WATCH sets its watchpoint register to the
granule's physical address and the mask of its first register. R392: SNAP fires the trigger, or joins one that is still to
latch, and waits for its latch cycle; after it, SNAP retires with the trigger's number. -/
def Obligations.TranslationWatchAndSnap : Prop :=
  (∀ (a b : BitVec 5) (m n : BitVec 2) (s : State),
     let f : Form := { srcs := [(a, m), (b, n)], names := [.g a, .g b], modes := [trapMode, sysMode] }
     let g : Form := { modes := [trapMode, sysMode] }
     let va := s.me.rd a
     let sel := s.me.rd b
     (f.ready s → field sel 0 2 ≥ 2 → Faults (exec (.tlbi a m b n) s) (s.woken f) 0x01 (codeInfo (encode (.tlbi a m b n)))) ∧
     (f.ready s → field sel 0 2 < 2 → field sel 2 62 ≠ 0 ∨ field va 48 16 ≠ 0 →
       Faults (exec (.tlbi a m b n) s) (s.woken f) 0x06 0xFFFA000000000001) ∧
     (f.ready s → sel.toNat ≤ 1 → va.toNat < 2 ^ 48 → Gives (exec (.tlbi a m b n) s) fun t =>
       (∀ p e, (t.core s.cur.1).tlb.find p = some e → sel = 0 ∧ p ≠ tlbKey e.1 va.toNat) ∧
       (∀ c, c ≠ s.cur.1 → t.core c = s.core c) ∧
       (∀ k l, s.launchOf s.cur.1 = some (k, l) → t.me.tlbi = s.me.tlbi ++ [s.shootdownCtr] ∧
         (t.shootdowns.find s.shootdownCtr).map (·.cores) = some ((l.group 0).filter (· != s.cur.1))) ∧
       t.me.pc = s.me.nextPc (s.me.pc + 4) ∧ (∀ r, t.me.rd r = s.me.rd r) ∧ MemoryKept s t) ∧
     (g.ready s →
       let u := s.me.tlbi.foldl State.reachAll (s.woken g)
       (s.me.tlbi.all u.shotDown = true →
         (∀ k ∈ s.me.tlbi, ∀ d, u.shootdowns.find k = some d → d.cores = [] ∧
           (∀ c r, (c, r) ∈ d.stores → ∀ a ∈ (u.core c).stores, a.fixed ≠ r.fixed) ∧
           ∀ c x i h o p l, (c, x, i, .held h o p l) ∈ d.reads →
             ∀ g, (u.ctx c (Fin.ofNat 8 x)).fills.find i = some g → g.orphan = false → ∀ l', g.kind ≠ .held h o p l') ∧
         Gives (exec .tlbsync s) fun t =>
         t.me.tlbi = [] ∧ t.me.pc = s.me.nextPc (s.me.pc + 4) ∧ (∀ c, (t.core c).tlb = (u.core c).tlb) ∧
         MemoryKept (s.me.tlbi.foldl State.mergeShot u) t ∧
         ∀ k ∈ s.me.tlbi, ∀ d, u.shootdowns.find k = some d → ∀ p ∈ d.lines, (t.quad p.1).dirtyAt p.2 = false) ∧
       (s.me.tlbi.all u.shotDown = false → Gives (exec .tlbsync s) fun t => t.me.wait = some .shootdown ∧ t.me.pc = s.me.pc))) ∧
  (∀ (m r : BitVec 5) (n : BitVec 2) (h : BitVec 4) (s : State),
     let f : Form := { srcs := [(m, 0), (r, 0)], names := [.g m, .g r], modes := [trapMode, sysMode] }
     let off := (s.me.rd r).toNat
     f.ready s →
       ∀ hd, (s.woken f).chkAccess s.cur.1 s.hbs h off 16 ⟨false, [0, 3, 4], 16, false⟩ = .ok hd →
       ∀ p l u, (s.woken f).placeCore s.cur.1 hd off 16 false = .ok (p :: l, u) →
       Gives (exec (.watch m n h r) s) fun t =>
         t.me.watch[n.toNat]'n.isLt = BitVec.ofNat 64 (p.key % 2 ^ 52 / 16 + field (s.me.rd m) 0 16 * 2 ^ 48) ∧
         (∀ k : Fin 4, k.val ≠ n.toNat → t.me.watch[k] = s.me.watch[k]) ∧ (∀ q, t.me.rd q = s.me.rd q) ∧
         t.me.pc = s.me.nextPc (s.me.pc + 4) ∧ MemoryKept s t) ∧
  (∀ (d : BitVec 5) (s : State), (Form.dst d).ready s →
     (s.me.held = none → s.trigger.latchAt = none → Gives (exec (.snap d) s) fun t =>
       t.trigger.number = s.trigger.number + 1 ∧ t.trigger.latchAt = some (s.mesh + 2048) ∧
       t.me.held = some ((s.trigger.number + 1).setWidth 64) ∧ t.me.wait = some (.latch (s.mesh + 2048)) ∧ t.me.pc = s.me.pc) ∧
     (∀ n, s.me.held = none → s.trigger.latchAt = some n → Gives (exec (.snap d) s) fun t =>
       t.trigger = s.trigger ∧ t.me.held = some (s.trigger.number.setWidth 64) ∧ t.me.wait = some (.latch n) ∧
       t.me.pc = s.me.pc ∧ MemoryKept s t) ∧
     (∀ v, s.me.held = some v → s.trigger.latchAt = none →
       exec (.snap d) s = .next ((s.woken (.dst d)).retire (.dst d) fun t => t.wr d v)) ∧
     (∀ n, s.me.held = some (s.trigger.number.setWidth 64) → s.trigger.latchAt = some n →
       exec (.snap d) s = (s.woken (.dst d)).waitFor (.latch n)))

/-- R376, R393, R394: the leases. A granted GUST retires with 0 and its cluster holds a grant pending for the time asked, or the
holder's lease for a new time from now, in mesh cycles from the last boundary, a millisecond being 2,000,000; a refused one
retires with its reason, GUST.t carrying LEASE_REFUSED with it instead. GUSTREL by the holder ends the lease with 0; by
another it answers 1. R369, R372, R374, R377 to R381: the firmware's budgets are clamped to their ranges; its silence returns
the fused defaults and ends every lease; a lease that has ended leaves and its holder is told; a context's work is charged to
its quota; an update of the firmware begins and ends. The order in which events happen is the model's choice (log entry 1). By
the model's choice a write for any one cluster counts for the watchdog (log entry 32), and a GUST_EXPIRED already pending
keeps its information, of which this says nothing (log entry 34). -/
def Obligations.LeasesAndEnergyEvents : Prop :=
  (∀ (d r : BitVec 5) (s : State),
     let f : Form := { srcs := [(r, 0)], names := [.g d, .g r] }
     let ms := field (s.me.rd r) 0 16
     let n := clusterOf s.cur.1
     let k := s.cluster n
     let mine := (k.gust.map fun g => g.mine s.cur.1 s.cur.2).getD false
     let reason : Nat :=
       if ms < 1 ∨ ms > 60000 then 5
       else if k.refrz then 1
       else if s.fwUpdate then 2
       else if k.gust.isSome ∧ mine = false then 3
       else if k.permil ≥ 950 then 4
       else 0
     (f.ready s → reason = 0 → ∀ i ∈ [Instr.gust d r, .gustT d r], Gives (exec i s) fun t =>
       (d ≠ 0 → t.me.rd d = 0) ∧ t.me.pc = s.me.nextPc (s.me.pc + 4) ∧
       (k.gust = none → (t.cluster n).gust = some ⟨s.cur.1, s.cur.2.val, true, ms * 2000000, 0⟩) ∧
       (∀ g, k.gust = some g → (t.cluster n).gust = some
         { g with remain := ms * 2000000 + (if g.pending then 0 else s.mesh % 16000), due := 0 })) ∧
     (f.ready s → reason ≠ 0 →
       exec (.gust d r) s = .next ((s.woken f).retire f fun t => (t.wr d (BitVec.ofNat 64 reason)).serial) ∧
       Faults (exec (.gustT d r) s) (s.woken f) 0x14 (BitVec.ofNat 64 reason)) ∧
     ((Form.dst d).ready s →
       (mine = true → Gives (exec (.gustrel d) s) fun t =>
         (d ≠ 0 → t.me.rd d = 0) ∧ (t.cluster n).gust = none ∧ (t.cluster n).lastEnd = 1) ∧
       (mine = false → exec (.gustrel d) s = .next ((s.woken (.dst d)).retire (.dst d) fun t => (t.wr d 1).serial)))) ∧
  (∀ (s : State),
     (∀ n, n < 256 → ∀ eb ib, Gives (exec (.firmwareBudgetWrite n eb ib) s) fun t =>
       let u := t.cluster n
       u.eb = (if eb < 65536 then 65536 else if eb > 81250 then 81250 else eb) ∧
       u.ib = (if ib < 15 then 15 else if ib > 96 then 96 else ib) ∧ u.remE = (s.cluster n).remE ∧ t.fwWrote = true ∧ MemoryKept s t) ∧
     (s.fwDue = false → exec .firmwareWatchdog s = .next s) ∧
     (s.fwDue = true → Gives (exec .firmwareWatchdog s) fun t =>
       t.fwDue = false ∧ MemoryKept s t ∧ ∀ n, let u := t.cluster n
         u.eb = 81250 ∧ u.ib = 96 ∧ ∀ g, (s.cluster n).gust = some g → u.gust = some { g with due := if g.due = 4 then 4 else 6 }) ∧
     (∀ n g, (s.cluster n).gust = some g → g.due ≠ 0 → Gives (exec (.gustLeaseExpiry n) s) fun t =>
       let x : Fin 8 := Fin.ofNat 8 g.ctx
       (t.cluster n).gust = none ∧ (t.cluster n).lastEnd = g.due ∧
       ((s.ctx g.core x).cstate = .running → (s.ctx g.core x).async.gust = none → (t.ctx g.core x).async.gust =
         some (BitVec.ofNat 64 (g.due.toNat + (s.cluster n).permil * 2 ^ 16))) ∧
       ((s.ctx g.core x).cstate ≠ .running → t.cores = s.cores) ∧ MemoryKept s t) ∧
     (∀ c (x : Fin 8) nj id l, s.launchOf c = some (id, l) → l.quota ≠ 0 → Gives (exec (.energyMeterUpdate c x.val nj) s) fun t =>
       t.ctx c x = { s.ctx c x with enquota := BitVec.ofInt 64 ((s.ctx c x).enquota.toInt - nj) } ∧ MemoryKept s t) ∧
     (∀ b, exec (.powerFirmwareUpdate b) s = .next { s with fwUpdate := b }))

/-- R259 to R262, R297 to R299, R304: WREC and WPLAY. With a window open they answer WINDOW; a recording whose state does not
allow the window answers STATE; else the window opens with its stream and ordinal 1, and the recording has one more window
open. WPLAY of a READY recording begins a replay round. A window that is open stays so where they answer WINDOW: R298 and R299
say that no window opens, and that the open one stays is the model's choice (log entry 40). R257, R261, R298: WREC on an
EMPTY, READY or FALLBACK recording with a buffer that passes its checks starts a record round: the recording holds no entry,
takes CAP and THRESH from the buffer, and the window is its first. R222, R259, R274, R299, R305: WEND answers WINDOW with no
window open, else 0 and closes it; WSTAT reads the state, the flags, RDEP, the windows open and the entries; WDROP answers
BUSY while a window is open on the recording, else empties it, once no engine owns the line of the header it writes. R222,
R261, R266 to R268, R271: a record round that has closed is sealed, once no engine owns a line of what is written of its
buffer: its recording is READY with the same entries; a push that arrives puts its line into a cache with room for it, clean;
a stale one, one for a line that is there or that a miss of the quad waits for, and one that times out leave their quad's
list; a round whose pushes have settled closes; a window of a replay round loads its next entry. The order in which events
happen is the model's choice (log entry 1). By the model's choice a stale push is discarded at its arrival (log entry 40),
WREC over a FALLBACK recording with windows open counts its own window alone, and its buffer's handle needs no write
permission (log entry 64), and WINDOW comes before STATE (log entry 66). -/
def Obligations.TradewindRecordings : Prop :=
  (∀ (d a b : BitVec 5) (h : BitVec 4) (s : State),
     let fr : Form := { srcs := [(a, 0), (b, 0)], names := [.g d, .g a, .g b] }
     let fp : Form := { srcs := [(b, 0)], names := [.g d, .g b] }
     let n := field (s.me.rd b) 0 10
     let stream := field (s.me.rd b) 16 8
     let answers (i : Instr) (f : Form) (v : Word) : Prop := exec i s = .next ((s.woken f).retire f fun k => (k.wr d v).serial)
     let opens (i : Instr) (f : Form) (launch : Nat) (r : Recording) (replay : Bool) : Prop :=
       Gives (exec i s) fun t =>
         t.me.rd d = 0 ∧ t.me.pc = s.me.nextPc (s.me.pc + BitVec.ofNat 64 f.size) ∧
         t.me.window = some ⟨n, stream, 1, replay, r.windowCtr⟩ ∧ t.recording launch n = some (r.join stream).1 ∧
         MemoryKept s t
     (fr.ready s → s.me.window.isSome = true → answers (.wrec d a b h) fr 2) ∧
     (fp.ready s → s.me.window.isSome = true → answers (.wplay d b) fp 2) ∧
     ∀ launch l, s.launchOf s.cur.1 = some (launch, l) → s.me.window = none →
       let r := l.recording n
       let play : Recording := { r.openRound true with state := .replaying }
       r.closing = false →
         (fr.ready s →
           (r.state = .sealing ∨ r.state = .replaying → answers (.wrec d a b h) fr 1) ∧
           (r.state = .recording → opens (.wrec d a b h) fr launch r false) ∧
           (r.state = .empty ∨ r.state = .ready ∨ r.state = .fallback →
             ∀ hd, (s.woken fr).chkAccess s.cur.1 s.hbs h (s.me.rd a).toNat 64 ⟨false, [0], 64, false⟩ = .ok hd →
             ∀ spans u, (s.woken fr).placeCore s.cur.1 hd (s.me.rd a).toNat 64 true = .ok (spans, u) →
             ∀ v x, u.load hd (s.me.rd a).toNat (rowRange (spans.map fun p => (p.key, p.len, p.log)) 0 8) true = .ok v x →
             leNat (x.take 4) < 1 ∨ leNat (x.take 4) > 65536 ∨ leNat (x.drop 4) ≥ 2 ^ 16 →
             exec (.wrec d a b h) s = .next (v.retire fr fun k => (k.wr d 4).serial))) ∧
         (fp.ready s →
           (r.state = .empty ∨ r.state = .recording → answers (.wplay d b) fp 1) ∧
           (r.state = .ready → opens (.wplay d b) fp launch play true) ∧
           (r.state = .replaying → opens (.wplay d b) fp launch r true) ∧
           (r.state = .fallback → r.openCount ≠ 0 → opens (.wplay d b) fp launch r true))) ∧
  (∀ (d a b : BitVec 5) (h : BitVec 4) (s : State),
     let f : Form := { srcs := [(a, 0), (b, 0)], names := [.g d, .g a, .g b] }
     let n := field (s.me.rd b) 0 10
     let off := (s.me.rd a).toNat
     f.ready s → s.me.window = none → ∀ launch l, s.launchOf s.cur.1 = some (launch, l) → (l.recording n).closing = false →
       (l.recording n).state = .empty ∨ (l.recording n).state = .ready ∨ (l.recording n).state = .fallback →
         ∀ hd, (s.woken f).chkAccess s.cur.1 s.hbs h off 64 ⟨false, [0], 64, false⟩ = .ok hd →
         ∀ spans u, (s.woken f).placeCore s.cur.1 hd off 64 true = .ok (spans, u) →
         ∀ v x, u.load hd off (rowRange (spans.map fun p => (p.key, p.len, p.log)) 0 8) true = .ok v x →
         1 ≤ leNat (x.take 4) → leNat (x.take 4) ≤ 65536 → leNat (x.drop 4) < 2 ^ 16 →
         ∀ hd2, v.chkAccess s.cur.1 s.hbs h off 64 ⟨false, [0], 64 + 16 * leNat (x.take 4), false⟩ = .ok hd2 →
         ∀ spans2 w, v.placeCore s.cur.1 hd2 off (64 + 16 * leNat (x.take 4)) true = .ok (spans2, w) →
         Gives (exec (.wrec d a b h) s) fun t =>
           t.me.rd d = 0 ∧ t.me.pc = s.me.nextPc (s.me.pc + 4) ∧
           t.me.window.map (fun k => (k.recNo, k.stream, k.ordinal, k.replay)) = some (n, field (s.me.rd b) 16 8, 1, false) ∧
           (t.recording launch n).map (fun r => (r.state, r.cap, r.thresh, r.entries, r.openCount)) =
             some (.recording, leNat (x.take 4), leNat (x.drop 4), [], 1)) ∧
  (∀ (d b : BitVec 5) (s : State),
     let fb : Form := { srcs := [(b, 0)], names := [.g d, .g b] }
     let n := field (s.me.rd b) 0 10
     ((Form.dst d).ready s →
       (s.me.window = none → exec (.wend d) s = .next ((s.woken (.dst d)).retire (.dst d) fun k => (k.wr d 2).serial)) ∧
       (∀ w, s.me.window = some w → (s.core s.cur.1).launch ≠ none → Gives (exec (.wend d) s) fun t =>
         t.me.rd d = 0 ∧ t.me.window = none ∧ t.me.pc = s.me.nextPc (s.me.pc + 4) ∧ MemoryKept s t)) ∧
     (fb.ready s → ∀ launch l, s.launchOf s.cur.1 = some (launch, l) →
       let r := l.recording n
       Gives (exec (.wstat d b) s) (fun t =>
         let v := t.me.rd d
         (d ≠ 0 → field v 0 3 = (match r.state with
           | .empty => 0
           | .recording => 1
           | .sealing => 2
           | .ready => 3
           | .replaying => 4
           | .fallback => 5) ∧
         v.getLsbD 3 = r.fb ∧ v.getLsbD 4 = r.ovfl ∧ v.getLsbD 5 = r.conflict ∧ field v 14 16 = min r.rdep 65535 ∧
         field v 30 17 = r.openCount % 2 ^ 17 ∧ field v 47 17 = r.entries.length % 2 ^ 17) ∧
         t.launches = s.launches ∧ MemoryKept s t) ∧
       (s.windowOpen launch n = true → exec (.wdrop d b) s = .next ((s.woken fb).retire fb fun k => k.wr d 3)) ∧
       (s.windowOpen launch n = false → r.closing = false → r.state ≠ .sealing →
         (r.state = .empty ∨ s.bufferOwned r 8 56 = false → Gives (exec (.wdrop d b) s) fun t =>
           t.me.rd d = 0 ∧ (t.recording launch n).map (fun r => (r.state, r.entries)) = some (.empty, []) ∧
           t.me.pc = s.me.nextPc (s.me.pc + 4)) ∧
         (r.state ≠ .empty → s.bufferOwned r 8 56 = true → Gives (exec (.wdrop d b) s) fun t =>
           t.me.wait = some (.recording n) ∧ t.me.pc = s.me.pc ∧ t.launches = s.launches)))) ∧
  (∀ (s : State),
     (∀ launch n r, s.recording launch n = some r → r.state = .sealing →
       (s.bufferOwned r 8 (56 + 16 * r.entries.length) = true → exec (.seal launch n) s = .next s) ∧
       (s.bufferOwned r 8 (56 + 16 * r.entries.length) = false → Gives (exec (.seal launch n) s) fun t =>
         ∃ q, t.recording launch n = some q ∧ q.state = .ready ∧ q.sealed = true ∧ q.entries.length = r.entries.length ∧
           (∀ e, e ∈ q.entries ↔ e ∈ r.entries) ∧ q.cap = r.cap ∧ q.thresh = r.thresh)) ∧
     (∀ q i p, (s.quad q).pushes[i]? = some p →
       Gives (exec (.pushTimeout q i) s) (fun t => (t.quad q).pushes = dropPlace (s.quad q).pushes i ∧
         (t.quad q).cache = (s.quad q).cache ∧ MemoryKept s t) ∧
       (p.stale = true ∨ ((s.quad q).cache.find p.line).isSome = true ∨ s.missAt q p.line = true →
         Gives (exec (.pushArrival q i) s) fun t =>
           (t.quad q).pushes = dropPlace (s.quad q).pushes i ∧ (t.quad q).cache = (s.quad q).cache ∧ MemoryKept s t) ∧
       (p.stale = false → (s.quad q).cache.find p.line = none → s.missAt q p.line = false →
         ((s.quad q).cache.filter fun e => e.1 % 256 == p.line % 256).length < 16 → Gives (exec (.pushArrival q i) s) fun t =>
           (t.quad q).pushes = dropPlace (s.quad q).pushes i ∧
           ((t.quad q).cache.find p.line).map (fun e => (e.data, e.valid, e.dirty, e.writable)) =
             some (p.data, BitVec.allOnes 64, 0, false) ∧ MemoryKept s t)) ∧
     (∀ launch n r, s.recording launch n = some r → r.closing = true → r.unsettled = 0 → s.bufferOwned r 8 56 = false →
       Gives (exec (.roundClose launch n) s) fun t =>
         ∃ q, t.recording launch n = some q ∧ q.closing = false ∧ q.rounds = r.rounds + 1 ∧ q.windows = [] ∧
           (r.state = .replaying → q.state = if r.rdep + r.unconsumed > r.thresh then .fallback else .ready) ∧
           (r.state ≠ .replaying → q.state = r.state)) ∧
     (∀ c x w, (s.ctx c (Fin.ofNat 8 x)).window = some w → ∀ launch, (s.core c).launch = some launch →
       ∀ r, s.recording launch w.recNo = some r → ∀ v, r.windows.find w.id = some v → w.replay = true → r.state = .replaying →
       v.loaded.length < 128 → ∀ i, r.nextLoad v w.ordinal = some i →
       Gives (exec (.replayEntryLoad c x) s) fun t =>
         ∃ q, t.recording launch w.recNo = some q ∧ (q.windows.find w.id).map (·.loaded) = some (v.loaded ++ [i]) ∧
           MemoryKept s t))

/-- R122, R123, R131, R168, R172: SEND, SENDH and PUSHT with nothing against them retire with one more entry in the send buffer,
its record made from the header word, the budget and the arguments, its payload copied into the lowest free slot; PUSHT also
reserves a place of the deque. A payload is read where no engine owns its lines and no earlier access of the context is to
come first. The first reason that applies carries BOUNDS. R131, R170: the order of the reasons a SEND can fail for: a full
send buffer, no free payload slot, too long a payload, a class without an entry, a destination outside group 0, a payload out
of quad memory. R135, R147, R173, R174, R358: SENDNZ captures its vector and takes a TASKID for each element that is not zero,
and a step on it reports the first of them, zero where there is none; SPAWN leaves its register EMPTY with a fill slot and its
request in the send buffer. By the model's choice the payload holds the context's own stores on their way (log entry 47). -/
def Obligations.Sending : Prop :=
  (∀ (d a b : BitVec 5) (m n : BitVec 2) (s : State),
     let f : Form := if b = 0 then { srcs := [(d, 0), (a, m)], names := [.g d, .g a] }
       else { srcs := [(d, 0), (a, m), (b, n), (b + 1, n)], names := [.g d, .g a, .g b, .g (b + 1)] }
     let u := s.woken f
     let ctl := s.me.rd d
     let hdr := s.me.rd a
     let args : BitVec 256 := if b = 0 then 0 else recArgs (s.me.rd b) (s.me.rd (b + 1))
     let task : Task := ⟨headerRecord hdr (field ctl 0 24) args, s.nextTaskId s.cur.1, 0, 0, none⟩
     let src : List Span := [⟨quadKey (quadOf s.cur.1) (field ctl 32 20), 8 * hdrPlen hdr, false⟩]
     let free : Prop := hdrPlen hdr ≠ 0 → s.ownedLine src = none ∧ s.me.versionPending = false ∧ s.me.heldAt src = false ∧
       s.fullOpen s.cur.1 s.cur.2 = false
     let row (i : Instr) (k : SendForm) (kind : SendKind) (places : Nat) : Prop :=
       f.ready s →
         (∀ r, u.sendReason k hdr ctl = some r → Faults (exec i s) u 0x06 (BitVec.ofNat 64 (0xFFFF000000000000 + r))) ∧
         (u.sendReason k hdr ctl = none → free → Gives (exec i s) fun t =>
           t.me.send = s.me.send ++ [⟨kind, task, if hdrPlen hdr = 0 then none else s.me.freePayload⟩] ∧
           (t.core s.cur.1).created = (s.core s.cur.1).created + 1 ∧
           (t.core s.cur.1).deque.reserved = (s.core s.cur.1).deque.reserved + places ∧
           (hdrPlen hdr = 0 → t.mem = s.mem) ∧
           (∀ e, hdrPlen hdr ≠ 0 → s.me.freePayload = some e →
             t.mem = Memory.store s.mem (slotKey s.cur.1 s.cur.2.val e)
               (u.ownQuadBytes s.cur.1 s.cur.2.val (quadKey (quadOf s.cur.1) (field ctl 32 20)) (8 * hdrPlen hdr))) ∧
           t.me.pc = s.me.nextPc (s.me.pc + 4) ∧ (∀ r, t.me.rd r = s.me.rd r))
     row (.send d a m b n) .send (.msg (hdrDest hdr)) 0 ∧ row (.sendh d a m b n) .hint .hint 0 ∧
     row (.pusht d a m b n) .push .push 1) ∧
  (∀ (s : State) (hdr ctl : Word),
     let plen := hdrPlen hdr
     let psrc := field ctl 32 20
     let full := s.me.send.length ≥ 32
     let noSlot := plen ≠ 0 ∧ s.me.freePayload = none
     let noClass := s.classEntry s.cur.1 (hdrClass hdr) = none
     let away := s.inGroup0 s.cur.1 (hdrDest hdr) = false
     let r := s.sendReason .send hdr ctl
     (full → r = some 1) ∧ (¬full → noSlot → r = some 2) ∧ (¬full → ¬noSlot → plen > 16 → r = some 3) ∧
     (¬full → ¬noSlot → plen ≤ 16 → noClass → r = some 5) ∧ (¬full → ¬noSlot → plen ≤ 16 → ¬noClass → away → r = some 6) ∧
     (¬full → ¬noSlot → plen ≤ 16 → ¬noClass → ¬away → plen ≠ 0 → psrc % 8 ≠ 0 ∨ psrc + 8 * plen > 2 ^ 20 → r = some 7) ∧
     (r = none → ¬full ∧ ¬noSlot ∧ plen ≤ 16 ∧ ¬noClass ∧ ¬away ∧ field hdr 29 3 = 0 ∧ field ctl 24 8 = 0 ∧ field ctl 52 12 = 0)) ∧
  (∀ (h v p : BitVec 4) (sel : BitVec 3) (d a b : BitVec 5) (m n : BitVec 2) (s : State),
     let gh := low h
     let gp := low p
     let fz : Form := { srcs := [(gh, 0), (gp, 0), (gp + 1, 0)], names := [.g gh, .v v, .g gp, .g (gp + 1)] }
     let hdr := s.me.rd gh
     let fw : Form := {
       srcs := [(a, m), (b, n), (b + 1, n), (b + 2, n), (b + 3, n)]
       names := [.g d, .g a, .g b, .g (b + 1), .g (b + 2), .g (b + 3)] }
     let w := s.me.rd a
     (fz.ready s → (s.woken fz).sendReason .nz hdr 0 = none → (∀ i : Fin 4, (s.quad (quadOf s.cur.1)).lanes[i] = []) →
       Gives (exec (.sendnz h v p sel) s) fun t =>
         (∃ task, t.me.send = s.me.send ++ [⟨.nz (hdrDest hdr) (s.me.vrd v) sel ((s.me.rd gp).setWidth 32), task, none⟩]) ∧
         (t.core s.cur.1).created = (s.core s.cur.1).created + (nonZero sel (s.me.vrd v)).length ∧
         (s.me.stepCtl.getLsbD 0 = true → s.me.mode ≠ trapMode → s.me.async.step = none → t.me.async.step = some
           (if nonZero sel (s.me.vrd v) = [] then 0 else BitVec.ofNat 64 (3 * 2 ^ 61 + field (s.nextTaskId s.cur.1) 0 34))) ∧
         t.me.pc = s.me.nextPc (s.me.pc + 4) ∧ (∀ r, t.me.rd r = s.me.rd r) ∧ t.me.v = s.me.v ∧ MemoryKept s t) ∧
     (fw.ready s → d ≠ 0 → s.me.send.length < 32 → s.inGroup0 s.cur.1 (field w 0 13) = true → field w 13 3 = 0 →
       field w 32 32 = 0 → w.getLsbD 16 = false → ∀ slot : Fin 16, s.me.freeSlot = some slot →
       Gives (exec (.spawn d a m b n) s) fun t =>
         t.me.rst d = .empty (BitVec.ofNat 4 slot.val) ∧
         t.me.fills.find slot.val = some ⟨d, .spawn, none, false, false, false⟩ ∧
         (∃ task, t.me.send = s.me.send ++ [⟨.child (field w 0 13) slot.val none, task, none⟩] ∧
           task.childPc = w.extractLsb' 16 16) ∧
         (t.core s.cur.1).created = (s.core s.cur.1).created + 1 ∧ t.me.pc = s.me.nextPc (s.me.pc + 4) ∧
         (∀ r, r ≠ d → t.me.rd r = s.me.rd r) ∧ MemoryKept s t))

/-- R176, R177: QSTAT counts a queue's messages, those not yet dispatched, and whether any is spilled; QPRI answers the hold mask
and sets it; GRPQ answers a group's size and the core's own number in it, GRPQ.m the number of a member's core, or all ones.
R121, R127, R171: DONE waits while a fill, an array command or an engine command of the context is outstanding; then the
context runs no task, its send buffer is empty, its window closed and its message's hardware entry free. With nothing to send
it is DORMANT at once. -/
def Obligations.QueriesAndDone : Prop :=
  (∀ (d r : BitVec 5) (q : BitVec 3) (s : State),
     let f : Form := { srcs := [(r, 0)], names := [.g d, .g r] }
     let c := s.cur.1
     let u := (s.core c).queues[q.toNat]'q.isLt
     let v := s.me.rd r
     let members := ((s.launchOf c).map fun l => l.2.group (field v 0 8)).getD []
     ((Form.dst d).ready s → exec (.qstat d q) s = .next ((s.woken (.dst d)).retire (.dst d) fun t => t.wr d
       (BitVec.ofNat 64 (u.hw.length + u.spillCount +
         ((u.hw.filter fun e => !e.dispatched).length + u.spillCount) * 2 ^ 9 + if u.spillCount = 0 then 0 else 2 ^ 18)))) ∧
     (f.ready s → Gives (exec (.qpri d r) s) fun t =>
       t.me.got d ((s.core c).hold.setWidth 64) ∧ (t.core c).hold = v.setWidth 8 ∧ t.me.pc = s.me.nextPc (s.me.pc + 4) ∧
       MemoryKept s t) ∧
     (f.ready s → c ∉ members →
       exec (.grpq d r) s = .next ((s.woken f).retire f fun t => t.wr d (BitVec.ofNat 64 members.length))) ∧
     (f.ready s → ∀ i, members[i]? = some c → (∀ j, j < i → members[j]? ≠ some c) → exec (.grpq d r) s =
       .next ((s.woken f).retire f fun t => t.wr d (BitVec.ofNat 64 (members.length + 2 ^ 14 + i * 2 ^ 15)))) ∧
     (f.ready s → exec (.grpqM d r) s = .next ((s.woken f).retire f fun t => t.wr d
       (match members[field v 8 14]? with
         | some k => BitVec.ofNat 64 (k % 2 ^ 13)
         | none => BitVec.allOnes 64)))) ∧
  (∀ (s : State), Form.ready {} s →
     (s.doneReady s.cur.1 s.cur.2 = false → Gives (exec .done s) fun t => t.me.wait = some .done ∧ t.me.pc = s.me.pc) ∧
     (s.doneReady s.cur.1 s.cur.2 = true → Gives (exec .done s) fun t =>
       t.me.task = none ∧ t.me.send = [] ∧ (t.me.cstate = .dormant ∨ t.me.cstate = .draining) ∧
       ((s.core s.cur.1).launch ≠ none → t.me.window = none) ∧
       (s.me.send = [] → t.me.cstate = .dormant) ∧
       (∀ i (q : Fin 8) e, s.me.task = some i → i.origin = .queue q.val e →
         ∀ k ∈ ((t.core s.cur.1).queues[q]).hw, k.entry ≠ e)))

/-- R46, R50, R55, R178, R179, R186: the float operations of the vector unit round each element in the mode in force, with a draw
for each in mode SR; their flags are the OR of the elements'. R53, R184, R185: conversions of the vector unit. Each converted
element lies at its place in the destination, every other element of it is as before; under policy 11 the first element
without a place carries CONV_OVERFLOW with its number; a pair of formats or a part that the instruction does not have carries
ILLEGAL. By the model's choice VCVT takes no draw (log entry 42) and a prefix that names FP32 is accepted (log entry 64). -/
def Obligations.VectorFloatAndConversions : Prop :=
  (∀ (d a b : BitVec 4) (c : BitVec 3),
     let fmts : List Nat := [0, 1, 2]
     let f2 : Form := { names := [.v d, .v a], fmts := fmts }
     let f3 (c : BitVec 3) : Form :=
       { srcs := if c = 1 then [(low b, 0)] else [], names := [.v d, .v a, if c = 1 then .g (low b) else .v b], fmts := fmts }
     let one (i : Instr) (op : FloatFmt → Mode → Nat → FVal → Conv) : Prop :=
       VectorRounds i f2 d fun k e f r w => op f r w (unpack f (elemAt (k.vrd a) f.width e))
     let two (i : Instr) (c : BitVec 3) (op : FloatFmt → Mode → Nat → FVal → FVal → Conv) : Prop :=
       VectorRounds i (f3 c) d fun k e f r w =>
         op f r w (unpack f (elemAt (k.vrd a) f.width e)) (unpack f (secondAt k b c f.width e))
     (two (.vfadd d a b c) c fun f r w x y => fAdd f r w x y) ∧ (two (.vfsub d a b c) c fun f r w x y => fAdd f r w x y.neg) ∧
     (two (.vfmul d a b c) c fun f r w x y => fMul f r w x y) ∧ (two (.vfdiv d a b) 0 fun f r w x y => fDiv f r w x y) ∧
     VectorRounds (.vfma d a b c) (f3 c) d (fun k e f r w =>
       fFma f r w (unpack f (elemAt (k.vrd a) f.width e)) (unpack f (secondAt k b c f.width e))
         (unpack f (elemAt (k.vrd d) f.width e))) ∧
     (one (.vfsqrt d a) fun f r w x => fSqrt f r w x) ∧ (one (.vrcp d a) fun f r w x => fTranscend f 0 r w x) ∧
     (one (.vrsqrt d a) fun f r w x => fTranscend f 1 r w x) ∧ (one (.vexp2 d a) fun f r w x => fTranscend f 2 r w x) ∧
     (one (.vlog2 d a) fun f r w x => fTranscend f 3 r w x) ∧ (one (.vtanh d a) fun f r w x => fTranscend f 4 r w x) ∧
     (one (.vsigm d a) fun f r w x => fTranscend f 5 r w x)) ∧
  (∀ (d a b : BitVec 4) (p : BitVec 3) (o : BitVec 2) (e : BitVec 4) (s : State),
     let sf := if s.me.pfx then s.me.pfmt.toNat else 0
     let ws := fmtWidth sf
     let wd := fmtWidth e.toNat
     let n := if ws ≥ wd then 1024 / ws else 1024 / wd
     let src (i : Nat) : Nat := if ws ≥ wd then i else p.toNat * n + i
     let dst (i : Nat) : Nat := if ws ≥ wd then p.toNat * n + i else i
     let partOk : Prop := if ws ≥ wd then p.toNat < ws / wd else p.toNat < wd / ws
     let row (i : Instr) (more : List RegName) (accepts draws : Bool) (policy : Nat) (value : Ctx → Nat → Nat → FVal → FVal) : Prop :=
       let f : Form := { names := .v d :: .v a :: more, fmts := [sf] }
       let k := (s.woken f).me
       let r (j : Nat) : Conv := convertTo e.toNat (if draws then k.roundMode else .rne) (if draws then drawAt k j else 0) policy
         (value k (src j) (dst j) (sourceVal sf (elemAt (k.vrd a) ws (src j))))
       (accepts = false ∨ ¬partOk → Faults (exec i s) s 0x01 (codeInfo (encode i))) ∧
       (accepts = true → partOk → f.ready s → s.lanesEmpty →
         ((∀ j, j < n → (r j).trap = none) → Gives (exec i s) fun t =>
           (∀ j, j < n → elemAt (t.me.vrd d) wd (dst j) = (r j).bits % 2 ^ wd) ∧
           (∀ m, m < 1024 / wd → (∀ j, j < n → m ≠ dst j) → elemAt (t.me.vrd d) wd m = elemAt (k.vrd d) wd m) ∧
           VectorFrame d s t ∧ FlagsRaised s.me.status t.me.status n r ∧
           t.me.srgen = if draws then drawnFrom k n else (k.srgen.setWidth 32).setWidth 64) ∧
         (∀ j, j < n → ∀ nan, (r j).trap = some nan → (∀ m, m < j → (r m).trap = none) →
           Faults (exec i s) (s.inUnit f) 0x09
             (BitVec.ofNat 64 (e.toNat + (if nan then 16 else 0) + dst j % 256 * 32))))
     let narrow (f : Nat) : Bool := f == 3 || f == 4 || f == 5
     row (.vcvt d a p e) [] (Format.cvtPair (BitVec.ofNat 4 sf) e && sf != 10) false 1 (fun _ _ _ v => v) ∧
     row (.vcvtd d a p o e) [] (Format.cvtdPair (BitVec.ofNat 4 sf) e) true o.toNat (fun _ _ _ v => v) ∧
     row (.vcvtS d a b p o e) [.v b] (narrow sf && decide (e.toNat ≤ 2)) true o.toNat
       (fun k i _ v => (mulVal v (scaleOf (k.vrd b) i)).1) ∧
     row (.vcvtdS d a b p o e) [.v b] (decide (sf ≤ 2) && narrow e.toNat) true o.toNat
       (fun k _ j v => (mulVal v (scaleOf (k.vrd b) j).inverse).1))

/-- R178, R180, R181: the exact element-wise operations of the vector unit: minimum, maximum and sign of floats, integer
arithmetic at the format's width, compares, which give all ones or zero, and selection by the destination. R182: permutation,
broadcasts, rotation and lane moves. R150: an operation behind others of its core waits in its lane, at most four deep; the
unit issues the heads of the lanes in turn. By the model's choice a prefix that names the family's own format, FP32 or INT32,
is accepted (log entry 64). -/
def Obligations.VectorExactAndMoves : Prop :=
  (∀ (d a b : BitVec 4) (c k3 : BitVec 3) (k2 : BitVec 2),
     let form (fmts : List Nat) : Form :=
       { srcs := if c = 1 then [(low b, 0)] else [], names := [.v d, .v a, if c = 1 then .g (low b) else .v b], fmts := fmts }
     let code (k : Ctx) (default : Nat) : Nat := if k.pfx then k.pfmt.toNat else default
     let float (i : Instr) (op : FloatFmt → Nat → Nat → Nat) : Prop :=
       VectorResult i (form [0, 1, 2]) d (fun k => (wideFormat k).width) fun k e =>
         op (wideFormat k) (elemAt (k.vrd a) (wideFormat k).width e) (secondAt k b c (wideFormat k).width e)
     let sign (i : Instr) (op : FloatFmt → Nat → Nat) : Prop :=
       VectorResult i { names := [.v d, .v a], fmts := [0, 1, 2] } d (fun k => (wideFormat k).width) fun k e =>
         op (wideFormat k) (elemAt (k.vrd a) (wideFormat k).width e)
     let int (i : Instr) (op : Nat → Nat → Nat → Nat) : Prop :=
       VectorResult i (form [6, 7, 8]) d (fun k => fmtWidth (code k 8)) fun k e =>
         op (code k 8) (elemAt (k.vrd a) (fmtWidth (code k 8)) e) (secondAt k b c (fmtWidth (code k 8)) e)
     let wrap (f : Nat) (z : Int) : Nat := (z % 2 ^ fmtWidth f).toNat
     let clamp (f : Nat) (z : Int) : Nat := wrap f (max (intRange f).1 (min (intRange f).2 z))
     let ones (w : Nat) (p : Bool) : Nat := if p then 2 ^ w - 1 else 0
     let signed (w x : Nat) : Int := if x ≥ 2 ^ (w - 1) then (x : Int) - 2 ^ w else x
     float (.vfmin d a b c) (fun f x y => fMinMax f false x y) ∧ float (.vfmax d a b c) (fun f x y => fMinMax f true x y) ∧
     sign (.vfabs d a) fAbs ∧ sign (.vfneg d a) fNeg ∧
     float (.vfcmp d a b c k2) (fun f x y => ones f.width (fCompare f k2 x y)) ∧
     int (.vadd d a b c) (fun f x y => wrap f (elemInt f x + elemInt f y)) ∧
     int (.vsub d a b c) (fun f x y => wrap f (elemInt f x - elemInt f y)) ∧
     int (.vmul d a b c) (fun f x y => wrap f (elemInt f x * elemInt f y)) ∧
     int (.vmin d a b c) (fun f x y => wrap f (min (elemInt f x) (elemInt f y))) ∧
     int (.vmax d a b c) (fun f x y => wrap f (max (elemInt f x) (elemInt f y))) ∧
     int (.vand d a b c) (fun _ x y => x &&& y) ∧ int (.vor d a b c) (fun _ x y => x ||| y) ∧
     int (.vxor d a b c) (fun _ x y => x ^^^ y) ∧
     int (.vsll d a b c) (fun f x y => x * 2 ^ (y % fmtWidth f)) ∧
     int (.vsrl d a b c) (fun f x y => x / 2 ^ (y % fmtWidth f)) ∧
     int (.vsra d a b c) (fun f x y => wrap f (elemInt f x / 2 ^ (y % fmtWidth f))) ∧
     int (.vadds d a b c) (fun f x y => clamp f (elemInt f x + elemInt f y)) ∧
     int (.vsubs d a b c) (fun f x y => clamp f (elemInt f x - elemInt f y)) ∧
     int (.vicmp d a b c k3) (fun f x y =>
       let w := fmtWidth f
       ones w (match k3.toNat with
         | 0 => decide (x = y)
         | 1 => decide (x ≠ y)
         | 2 => decide (signed w x < signed w y)
         | 3 => decide (signed w x ≥ signed w y)
         | 4 => decide (x < y)
         | 5 => decide (x ≥ y)
         | _ => false)) ∧
     VectorResult (.vsel d a b c) (form (List.range 9)) d (fun k => fmtWidth (code k 0)) fun k e =>
       let w := fmtWidth (code k 0)
       if elemAt (k.vrd d) w e ≠ 0 then elemAt (k.vrd a) w e else secondAt k b c w e) ∧
  (∀ (d a b : BitVec 4) (l : BitVec 6),
     let fl : Form := { names := [.v d, .v a] }
     let fr : Form := { srcs := [(low a, 0)], names := [.v d, .g (low a)] }
     let fb : Form := { fr with fmts := List.range 9 }
     let fx : Form := { names := [.g (low d), .v a] }
     let w (k : Ctx) : Nat := fmtWidth (if k.pfx then k.pfmt.toNat else 0)
     VectorResult (.vperm d a b) { names := [.v d, .v a, .v b] } d (fun _ => 32)
       (fun k e => elemAt (k.vrd a) 32 (elemAt (k.vrd b) 32 e % 32)) ∧
     VectorResult (.vbcast d a) fb d w (fun k _ => (k.rd (low a)).toNat) ∧
     VectorResult (.vbcastl d a l) fl d (fun _ => 32) (fun k _ => elemAt (k.vrd a) 32 l.toNat) ∧
     VectorResult (.vrot d a l) fl d (fun _ => 32) (fun k e => elemAt (k.vrd a) 32 ((e + l.toNat) % 32)) ∧
     (l.toNat < 32 → VectorResult (.vins d a l) fr d (fun _ => 32)
       (fun k e => if e = l.toNat then (k.rd (low a)).toNat else elemAt (k.vrd d) 32 e)) ∧
     CompletesVector (.vext d a l) fx fun k t => t.wr (low d) (BitVec.ofNat 64 (elemAt (k.vrd a) 32 l.toNat))) ∧
  (∀ (s : State) (d a b : BitVec 4) (i : Fin 4),
     let f : Form := { names := [.v d, .v a, .v b] }
     let q := quadOf s.cur.1
     let c := inQuad s.cur.1
     let lane := (s.quad q).lanes[c]
     (f.ready s → (s.quad q).lanes[i] ≠ [] → (∀ o ∈ lane, o.ctx ≠ s.cur.2) → lane.length < 4 →
       Gives (exec (.vperm d a b) s) fun t =>
         (t.quad q).lanes[c] = lane ++ [⟨s.cur.2, false⟩] ∧ t.me.wait = some .vector ∧ t.me.pc = s.me.pc) ∧
     ∀ quad, (s.quad quad).lastLane = i - 1 → ∀ o l, (s.quad quad).lanes[i] = o :: l → o.issued = false →
       Gives (exec (.vectorIssue quad) s) fun t =>
         (t.quad quad).lanes[i] = { o with issued := true } :: l ∧ (t.quad quad).lastLane = i)

/-- R61, R183: the reductions: each level of the tree joins adjacent nodes, until one node of each segment is left; the sum of
floats rounds each node, the others are exact. R183: VRISUM over the whole vector leaves in its first lane the sum of all
elements, in INT32 without prefix, modulo 2^32. R173: the elements SENDNZ sends are the non-zero ones in ascending order, by
every selector: 32-bit integers and FP32, the two 16-bit formats, 8-bit integers and the two FP8 formats, FP4; −0 counts as
zero where the format has a sign. -/
def Obligations.ReductionsOfVectors : Prop :=
  (∀ (d a : BitVec 4) (g : BitVec 3),
     let ff : Form := { names := [.v d, .v a], fmts := [0, 1, 2] }
     let fi : Form := { names := [.v d, .v a], fmts := [6, 7, 8] }
     let code (k : Ctx) (default : Nat) : Nat := if k.pfx then k.pfmt.toNat else default
     let elems (k : Ctx) (f : Nat) : List Nat := (List.range (1024 / fmtWidth f)).map fun e => elemAt (k.vrd a) (fmtWidth f) e
     let depth (f : Nat) : Nat := (1024 / fmtWidth f).log2 - g.toNat
     let fp := floatFmt 0
     let exact (i : Instr) (greater : Bool) : Prop :=
       CompletesVector i ff fun k t => t.vwr d (packVector 32
         (reduceExact (fMinMax fp greater) (depth (code k 0)) ((elems k (code k 0)).map (widen (code k 0)))))
     let int (i : Instr) (op : Int → Int → Int) : Prop :=
       CompletesVector i fi fun k t => t.vwr d (packVector 32
         (reduceExact (fun x y => ((op (elemInt 8 x) (elemInt 8 y)) % 2 ^ 32).toNat) (depth (code k 8))
           ((elems k (code k 8)).map fun x => ((elemInt (code k 8) x) % 2 ^ 32).toNat)))
     CompletesVector (.vrsum d a g) ff (fun k t =>
       let r := reduceRounded k.roundMode (fun draw x y => fAdd fp k.roundMode draw (unpack fp x) (unpack fp y))
         (depth (code k 0)) (k.srgen.setWidth 32) ((elems k (code k 0)).map (widen (code k 0))) Flags.clear
       { (t.vwr d (packVector 32 r.1)).raise r.2.1 with srgen := r.2.2.setWidth 64 }) ∧
     exact (.vrmax d a g) true ∧ exact (.vrmin d a g) false ∧
     int (.vrisum d a g) (fun x y => x + y) ∧
     int (.vrisums d a g) (fun x y => max (-2 ^ 31) (min (2 ^ 31 - 1) (x + y))) ∧
     int (.vrimax d a g) max ∧ int (.vrimin d a g) min) ∧
  (∀ (d a : BitVec 4) (s : State),
     let f : Form := { names := [.v d, .v a], fmts := [6, 7, 8] }
     f.ready s → s.me.pfx = false → s.lanesEmpty → Gives (exec (.vrisum d a 0) s) fun t =>
       elemAt (t.me.vrd d) 32 0 = ((List.range 32).map fun e => elemAt (s.me.vrd a) 32 e).sum % 2 ^ 32) ∧
  (∀ (v : VWord) (sel : BitVec 3) (w n : Nat) (signed : Bool),
     (sel, w, n, signed) ∈ [(0, 32, 32, false), (1, 32, 32, true), (2, 16, 64, true), (3, 16, 64, true), (4, 8, 128, false),
         (5, 8, 128, true), (6, 8, 128, true), ((7 : BitVec 3), 4, 256, true)] →
       nonZero sel v = ((List.range n).map fun e => (e, (v.extractLsb' (w * e) w).toNat)).filter fun p =>
         p.2 != 0 && !(signed && p.2 == 2 ^ (w - 1)))

/-- R151, R152, R190: XLEASE retires under its core's lease, whose clock still runs, and waits, having asked, without it, as every
command does; XFREE gives up the tiles it names that are the context's own and ends the lease; XWAIT, serialising, retires
with no command of the context outstanding. R165, R190: XSTAT reads a tile's and the lease's fields once the context's
commands have completed; XSTAT.clr reads the same and clears the sticky fields of a tile that is not another context's. That
neither claims a tile without owner, and that XSTAT.clr clears such a tile, is the model's choice (R158 speaks of commands
that name a tile; log entry 57). R151, R152, R187: the lease and the queue as they go on. A free lease falls to the next core
that still waits for it, with 16 commands, 4,096 cycles and the default configuration; it ends by its clock; the oldest
command executes once, where no engine owns a line of quad memory that it reads or writes, and then leaves. The order in which
events happen is the model's choice (log entry 1). -/
def Obligations.ArrayLeasesAndStatus : Prop :=
  (∀ (a : BitVec 5) (s : State),
     let q := quadOf s.cur.1
     let me := inQuad s.cur.1
     let u := s.arrayOf q
     let fa : Form := { srcs := [(a, 0)], names := [.g a] }
     let asks (i : Instr) : Prop := Gives (exec i s) fun t =>
       t.me.wait = some .lease ∧ me ∈ (t.arrayOf q).requests ∧ t.me.pc = s.me.pc ∧ MemoryKept s t
     let holds : Prop := u.lease = some me ∧ u.clock ≠ 0
     (Form.ready {} s → holds → exec .xlease s = .next ((s.woken {}).retire {} id)) ∧
     (Form.ready {} s → ¬holds → asks .xlease) ∧ (fa.ready s → ¬holds → asks (.xfree a)) ∧
     (fa.ready s → holds → u.queued ≥ 8 → Gives (exec (.xfree a) s) fun t =>
       t.me.wait = some .arrayRoom ∧ t.me.pc = s.me.pc) ∧
     (fa.ready s → s.hasArray → Gives (exec (.xfree a) s) fun t =>
       Accepted s t .free false true u.cfg ∧
       ∀ n : Fin 8, ((t.arrayOf q).tiles[n]).owner =
         if (s.me.rd a).getLsbD n.val ∧ (u.tiles[n]).owner = some (me, s.cur.2) then none else (u.tiles[n]).owner) ∧
     (Form.ready {} s → s.arrayOpen s.cur.1 s.cur.2 = false → exec .xwait s = .next ((s.woken {}).retire {} Ctx.serial)) ∧
     (Form.ready {} s → s.arrayOpen s.cur.1 s.cur.2 = true → Gives (exec .xwait s) fun t =>
       t.me.wait = some .arrayDone ∧ t.me.pc = s.me.pc)) ∧
  (∀ (c : BitVec 3) (a : BitVec 5) (s : State), (Form.dst a).ready s → s.arrayOpen s.cur.1 s.cur.2 = false →
     let q := quadOf s.cur.1
     let u := s.arrayOf q
     let i : Fin 8 := c.toFin
     let k := u.tiles[i]
     let reads (t : State) : Prop :=
       let v := t.me.rd a
       (a ≠ 0 → field v 0 4 = k.skip % 16 ∧ field v 4 4 = u.queued % 16 ∧
       v.getLsbD 10 = u.lease.isSome ∧ (∀ h, u.lease = some h → field v 8 2 = h.val ∧ field v 11 5 = u.count % 32 ∧
         field v 16 13 = min u.clock 4096) ∧
       v.getLsbD 34 = k.owner.isSome ∧ (∀ h x, k.owner = some (h, x) → field v 32 2 = h.val ∧ field v 29 3 = x.val) ∧
       field v 35 2 = (match k.kind with
         | .none => 0
         | .float => 1
         | .int => 2) ∧
       v.getLsbD 37 = k.inx ∧ v.getLsbD 38 = k.unf ∧ v.getLsbD 39 = k.ovf ∧ v.getLsbD 40 = k.inv ∧ v.getLsbD 41 = k.cvt ∧
       field v 42 10 = k.cidx % 1024) ∧ t.me.pc = s.me.nextPc (s.me.pc + 4) ∧ MemoryKept s t
     k.skip < 16 →
     Gives (exec (.xstat c a) s) (fun t => reads t ∧ (t.arrayOf q).tiles[i] = k) ∧
     Gives (exec (.xstatClr c a) s) fun t => reads t ∧
       ((k.owner = none ∨ k.owner = some (inQuad s.cur.1, s.cur.2)) →
         let t := (t.arrayOf q).tiles[i]
         t.inv = false ∧ t.ovf = false ∧ t.unf = false ∧ t.inx = false ∧ t.cvt = false ∧ t.cidx = 0 ∧ t.cells = k.cells ∧
         t.kind = k.kind)) ∧
  (∀ (s : State) (q : Nat) (i : Fin 4) (k : ArrayCmd) (l : List ArrayCmd),
     let u := s.arrayOf q
     (u.lease = none → u.lastHolder = i - 1 → i ∈ u.requests → (s.core (4 * q + i.val)).wantsLease = true →
       Gives (exec (.leaseGrant q) s) fun t =>
         let v := t.arrayOf q
         v.lease = some i ∧ v.lastHolder = i ∧ v.count = 16 ∧ v.clock = 4096 ∧ v.cfg = 0x3300 ∧ i ∉ v.requests) ∧
     (u.lease.isSome = true → Gives (exec (.leaseClockExpiry q) s) fun t => (t.arrayOf q).lease = none ∧
       (t.arrayOf q).queue = u.queue) ∧
     (u.queue = k :: l → k.executed = true → (∀ j ∈ l, j.op ≠ .grant) → Gives (exec (.arrayCommandCompletion q) s) fun t =>
       (t.arrayOf q).queue = l) ∧
     (u.queue = k :: l → k.executed = false → s.quadHeld q (u.regions k) = false → Gives (exec (.arrayCommandExecute q) s) fun t =>
       (t.arrayOf q).queue = { k with executed := true } :: l ∧ (t.arrayOf q).lease = u.lease ∧
       (∀ base stride rows, k.op = .loadA base stride rows → rows ≤ 32 → (t.arrayOf q).a.take (32 * rows) =
         (List.range rows).flatMap fun r => Memory.bytes s.mem (quadKey q (base + r * stride)) 32) ∧
       (∀ n, k.op = .zero n none → ∀ x y, ((t.arrayOf q).tiles[n]).cell x y = ⟨0, 0, false⟩) ∧
       (∀ n isInt v, k.op = .zero n (some (isInt, v)) → ∀ x, x < 32 → ∀ y, y < 32 →
         ((t.arrayOf q).tiles[n]).cell x y = ⟨0, v.extractLsb' (32 * y) 32, false⟩)))

/-- R155, R163, R189, R190: XCFG takes a valid configuration, an invalid one carries ILLEGAL; XCFG.tab takes a table aligned at 4
within quad memory, another place carries BOUNDS with reason 4. A command that reads quad memory waits for the context's own
stores, for a future version (R240) and for what a FENCE.full has gone by (R228); one that writes it waits for older reads as
well (R230). R155, R156: the configurations that XCFG takes: a pair of formats of one kind, none of its reserved bits, no
complex numbers with a codebook, no unfolding of integers or BF16. R161, R165, R191: the operand loads: rows of A, columns of
B, scales and the unfolding descriptor, each from an aligned place within quad memory; another place carries BOUNDS with
reason 4, and a descriptor that reaches beyond it reason 3, the lower, first (R188; that an unaligned one is read for it is
the model's choice, log entry 57). -/
def Obligations.ArrayConfigurationAndLoads : Prop :=
  (∀ (a : BitVec 5) (s : State),
     let f : Form := { srcs := [(a, 0)], names := [.g a] }
     let u := s.arrayOf (quadOf s.cur.1)
     let v := s.me.rd a
     let first : Prop := s.me.versionPending = true ∨ s.fullOpen s.cur.1 s.cur.2 = true
     (s.arrayWaits .none = false) ∧ (s.arrayWaits .reads = true ↔ s.ownStores s.cur.1 s.cur.2.val = true ∨ first) ∧
     (s.arrayWaits .writes = true ↔ first ∨ s.mayWrite s.cur.1 s.cur.2 = false) ∧
     (s.arrayWaits .both = true ↔ s.arrayWaits .reads = true ∨ s.arrayWaits .writes = true) ∧
     (f.ready s → s.hasArray →
       (cfgValid v = true → Gives (exec (.xcfg a) s) fun t => Accepted s t .cfg false false v) ∧
       (cfgValid v = false → Faults (exec (.xcfg a) s) (s.woken f) 0x01 (codeInfo (encode (.xcfg a)))) ∧
       (s.arrayWaits .reads = false → v.toNat % 4 = 0 → v.toNat + 768 ≤ 2 ^ 20 →
         Gives (exec (.xcfgTab a) s) fun t => Accepted s t (.table v.toNat) false false u.cfg) ∧
       (s.arrayWaits .reads = false → v.toNat % 4 ≠ 0 ∨ v.toNat + 768 > 2 ^ 20 →
         Faults (exec (.xcfgTab a) s) (s.woken f) 0x06 0xFFFE000000000004) ∧
       (s.arrayWaits .reads = true → Gives (exec (.xcfgTab a) s) fun t =>
         t.me.wait = some .arrayDone ∧ t.me.pc = s.me.pc))) ∧
  (∀ (v : Word), cfgValid v = true ↔
     let fa := field v 12 4
     let fb := field v 8 4
     ((fa ∈ [3, 4] ∧ fb ∈ [3, 4]) ∨ (fa ∈ [6, 7] ∧ fb ∈ [6, 7]) ∨ (fa = 5 ∧ fb ∈ [5, 9]) ∨ (fa = 1 ∧ fb = 1)) ∧
     ¬(v.getLsbD 7 = true ∧ fb = 9) ∧ ¬(v.getLsbD 4 = true ∧ fa ∈ [1, 6, 7]) ∧ field v 16 48 = 0 ∧ field v 0 4 = 0) ∧
  (∀ (a b : BitVec 5) (r : BitVec 2) (s : State),
     let fab : Form := { srcs := [(a, 0), (b, 0)], names := [.g a, .g b] }
     let fa : Form := { srcs := [(a, 0)], names := [.g a] }
     let u := s.arrayOf (quadOf s.cur.1)
     let base := (s.me.rd a).toNat
     let stride := (s.me.rd b).toNat
     let rows := (r.toNat + 1) * 8
     let row (i : Instr) (op : ArrayOp) (size : Nat) : Prop :=
       let inside := base % size = 0 ∧ stride % size = 0 ∧ size ≤ stride ∧ base + (rows - 1) * stride + size ≤ 2 ^ 20
       (inside → Gives (exec i s) fun t => Accepted s t op false false u.cfg) ∧
       (¬inside → Faults (exec i s) (s.woken fab) 0x06 0xFFFE000000000004)
     let scale (i : Instr) (op : ArrayOp) : Prop :=
       let inside := base % 2 = 0 ∧ base + 2 * rows ≤ 2 ^ 20
       (inside → Gives (exec i s) fun t => Accepted s t op false false u.cfg) ∧
       (¬inside → Faults (exec i s) (s.woken fa) 0x06 0xFFFE000000000004)
     let d : BitVec 256 := BitVec.ofNat 256 (Memory.nat s.mem (quadKey (quadOf s.cur.1) base) 32)
     let readable : Prop := base + 32 ≤ 2 ^ 20 ∧ u.drainsAt base 32 = false ∧ s.quadHeld (quadOf s.cur.1) [(base, 32)] = false
     s.hasArray → s.arrayWaits .reads = false →
       (fab.ready s → row (.xlda a b r) (.loadA base stride rows) 32 ∧
         row (.xldb a b r) (.loadB base stride rows) (if field u.cfg 8 4 = 9 then 16 else 32)) ∧
       (fa.ready s → scale (.xldsa a r) (.scaleA base rows) ∧ scale (.xldsb a r) (.scaleB base rows) ∧
         (base % 32 = 0 → readable → unfoldOutside d (fmtWidth (field u.cfg 12 4)) = false →
           Gives (exec (.xunf a) s) fun t => Accepted s t (.unfold d) false false u.cfg ∧
             (t.arrayOf (quadOf s.cur.1)).unfolding = true) ∧
         (base + 32 > 2 ^ 20 → Faults (exec (.xunf a) s) (s.woken fa) 0x06 0xFFFE000000000004) ∧
         (readable → unfoldOutside d (fmtWidth (field u.cfg 12 4)) = true →
           Faults (exec (.xunf a) s) (s.woken fa) 0x06 0xFFFE000000000003) ∧
         (readable → unfoldOutside d (fmtWidth (field u.cfg 12 4)) = false → base % 32 ≠ 0 →
           Faults (exec (.xunf a) s) (s.woken fa) 0x06 0xFFFE000000000004)))

/-- R158, R159, R188, R192, R193: commands on a tile: one without an owner is claimed for the context; another context's carries
BOUNDS with reason 1 and the tile's number. XMMA and XCMMA need a configuration of their kind (reason 5) and a tile of no
other kind of accumulator (reason 2); with VA set they read quad memory, and wait for the context's own stores (R189) and a
future version (R240). That XZERO without a bias makes a tile float under a float AFMT is the model's choice (log entry 57).
R50, R164, R188, R194: XDRN is accepted with a destination that its layout keeps within quad memory below the message area and
a target its tile's kind has; without KEEP the tile has no kind after it; in mode SR it takes a draw for each element. As a
write it waits for older reads of its context, a future version, and what a release fence has gone by (R228, R230, R240). A
tile of another context carries BOUNDS with reason 1 (R158). Of the requantisation table the entries of the drained columns
count for reason 4 (R196); that a drain that reads no table has its table's alignment tested and not its bound is the model's
choice (log entry 66). -/
def Obligations.ArrayTilesAndDrains : Prop :=
  (∀ (c : BitVec 3) (m n : BitVec 2) (v : BitVec 4) (s : State),
     let q := quadOf s.cur.1
     let u := s.arrayOf q
     let me := (inQuad s.cur.1, s.cur.2)
     let i : Fin 8 := c.toFin
     let fv : Form := { names := [.v v] }
     let mine := (u.tiles[i]).owner = none ∨ (u.tiles[i]).owner = some me
     let claim : Bool := (u.tiles[i]).owner.isNone
     let before : TileKind := if claim then .none else (u.tiles[i]).next
     let kind : TileKind := if field u.cfg 12 4 = 6 ∨ field u.cfg 12 4 = 7 then .int else .float
     let fault (x : Instr) (f : Form) (reason : Nat) : Prop :=
       Faults (exec x s) (s.woken f) 0x06 (BitVec.ofNat 64 (0xFFFE000000000000 + c.toNat * 16 + reason))
     let takes (x : Instr) (op : ArrayOp) (next : TileKind) : Prop := Gives (exec x s) fun t =>
       Accepted s t op claim false u.cfg ∧ ((t.arrayOf q).tiles[i]).owner = some me ∧ ((t.arrayOf q).tiles[i]).next = next ∧
       ∀ k : Fin 8, k ≠ i → (t.arrayOf q).tiles[k] = u.tiles[k]
     let mma (x : Instr) (complex : Bool) : Prop := Form.ready {} s →
       (u.cfg.getLsbD 4 = true ∧ s.arrayWaits .reads = true → Gives (exec x s) fun t =>
         t.me.wait = some .arrayDone ∧ t.me.pc = s.me.pc) ∧
       ((u.cfg.getLsbD 4 = true → s.arrayWaits .reads = false) → (¬mine → fault x {} 1) ∧ (mine → before ≠ .none → before ≠ kind → fault x {} 2) ∧
       (mine → before = .none ∨ before = kind → u.cfg.getLsbD 7 ≠ complex → fault x {} 5) ∧
       (mine → before = .none ∨ before = kind → u.cfg.getLsbD 7 = complex → u.cfg.getLsbD 4 = true → u.unfolding = false →
         fault x {} 5) ∧
       (mine → before = .none ∨ before = kind → u.cfg.getLsbD 7 = complex → (u.cfg.getLsbD 4 = true → u.unfolding = true) →
         takes x (.mma i complex ((m.toNat + 1) * 8) ((n.toNat + 1) * 8)) kind))
     s.hasArray → mma (.xmma c m n) false ∧ mma (.xcmma c m n) true ∧
       (Form.ready {} s → mine → takes (.xzero c) (.zero i none) kind) ∧
       (fv.ready s → mine → takes (.xzeroF c v) (.zero i (some (false, s.me.vrd v))) .float ∧
         takes (.xzeroI c v) (.zero i (some (true, s.me.vrd v))) .int) ∧
       (Form.ready {} s → ¬mine → fault (.xzero c) {} 1) ∧ (fv.ready s → ¬mine → fault (.xzeroF c v) fv 1 ∧ fault (.xzeroI c v) fv 1)) ∧
  (∀ (c : BitVec 3) (a b : BitVec 5) (f : BitVec 4) (p : BitVec 2) (keep raw : BitVec 1) (s : State),
     let form : Form := { srcs := [(a, 0), (b, 0)], names := [.g a, .g b] }
     let q := quadOf s.cur.1
     let u := s.arrayOf q
     let me := (inQuad s.cur.1, s.cur.2)
     let i : Fin 8 := c.toFin
     let w := s.me.rd b
     let dest := (s.me.rd a).toNat
     let rows := (field w 40 2 + 1) * 8
     let cols := (field w 42 2 + 1) * 8
     let bytes := cols * fmtWidth f.toNat / 8
     let before : TileKind := if (u.tiles[i]).owner = some me then (u.tiles[i]).next else .none
     let inside := dest % 4 = 0 ∧ field w 0 20 % 4 = 0 ∧ bytes ≤ field w 0 20 ∧ field w 20 20 % 8 = 0 ∧
       dest + (rows - 1) * field w 0 20 + bytes ≤ 0xE0000 ∧
       (before = .int → raw = 0 → field w 20 20 + 8 * cols ≤ 2 ^ 20)
     let target := field w 44 20 = 0 ∧ drainAccepts before f.toNat (raw == 1) = true
     form.ready s → s.hasArray → (s.arrayWaits .writes = true → Gives (exec (.xdrn c a b f p keep raw) s) fun t =>
       t.me.wait = some .arrayDone ∧ t.me.pc = s.me.pc ∧ MemoryKept s t) ∧
       (s.arrayWaits .both = false → (u.tiles[i]).owner ≠ none → (u.tiles[i]).owner ≠ some me →
         Faults (exec (.xdrn c a b f p keep raw) s) (s.woken form) 0x06 (BitVec.ofNat 64 (0xFFFE000000000000 + c.toNat * 16 + 1))) ∧
       (s.arrayWaits .both = false → (u.tiles[i]).owner = none ∨ (u.tiles[i]).owner = some me →
       (inside → target → Gives (exec (.xdrn c a b f p keep raw) s) fun t =>
         ((t.arrayOf q).queue = u.queue ++ [⟨inQuad s.cur.1, s.cur.2, .drain i dest w f p (keep == 1) (raw == 1),
           (u.tiles[i]).owner.isNone, u.cfg, field s.me.promo 0 7, s.me.rnd, s.me.srgen.setWidth 32, false⟩]) ∧
         ((t.arrayOf q).tiles[i]).next = (if keep = 1 then before else .none) ∧
         t.me.srgen = (if s.me.rnd = 4 ∧ f.toNat ≤ 5 then (lfsrSteps (16 * (rows * cols)) (s.me.srgen.setWidth 32)).setWidth 64
           else (s.me.srgen.setWidth 32).setWidth 64) ∧
         t.me.pc = s.me.nextPc (s.me.pc + 4) ∧ MemoryKept s t) ∧
       (¬inside → Faults (exec (.xdrn c a b f p keep raw) s) (s.woken form) 0x06
         (BitVec.ofNat 64 (0xFFFE000000000000 + c.toNat * 16 + 4))) ∧
       (inside → ¬target → Faults (exec (.xdrn c a b f p keep raw) s) (s.woken form) 0x06
         (BitVec.ofNat 64 (0xFFFE000000000000 + c.toNat * 16 + 5)))))

/-- R58, R59, R159: an INT8 multiply without unfolding or skipping adds to each cell of its block the sum of the products of its
row of A and its column of B, modulo 2^32, and leaves the other cells as they were. -/
def Obligations.IntegerMultiplyAccumulates : Prop :=  ∀ (u : ArrayUnit) (t : Tile) (interval rows cols : Nat), t.kind ≠ .float → t.cells.length = 1024 → rows ≤ 32 → cols ≤ 32 →
    let raw := u.rawA [] 0 0 0x6600 rows
    let r := u.multiply t 0x6600 interval raw rows cols
    let x (i k : Nat) : Int := (BitVec.ofNat 8 (elemOf 8 (rowOf u.a i) k)).toInt
    let y (j k : Nat) : Int := (BitVec.ofNat 8 (elemOf 8 (rowOf u.b j) k)).toInt
    ∀ i, i < 32 → ∀ j, j < 32 →
      (i < rows → j < cols → (r.cell i j).s =
        (t.cell i j).s + BitVec.ofInt 32 ((List.range 32).map fun k => x i k * y j k).sum) ∧
      (¬(i < rows ∧ j < cols) → r.cell i j = t.cell i j)

/-- R308, R310, R311, R331, R332: CPY with room in the FIFO and a request that passes its checks retires with the command's
number, and the command is the last of its core's FIFO, behind the future versions that its context awaits, and, where it will
take a ring's slot, noting the commands whose destination lines come before its own (R312); with the FIFO full CPY waits and
CPY.nb answers with bit 63 alone. A malformed request carries BOUNDS with its reason. R327, R328, R333: CPYST with selector 0
reads the commands in the FIFO, those of the context, those completed and the sticky error, which it clears; with 1 to 6 a
stall counter of the quad's engine. R240, R307, R309, R312: a FIFO's head begins, under the event of its operation, once every
store that its core had released before it has been performed, a remote one acknowledged, and the future versions that its
context awaited have come; not before. The order in which events happen is the model's choice (log entry 1). That a FILL too
begins only once the older stores are performed, remote ones acknowledged, is the model's choice (log entry 45). -/
def Obligations.CopyCommands : Prop :=
  (∀ (d a : BitVec 5) (m : BitVec 2) (s : State),
     let f : Form := {
       srcs := [(a, m), (a + 1, m), (a + 2, m), (a + 3, m)]
       names := [.g d, .g a, .g (a + 1), .g (a + 2), .g (a + 3)] }
     let u := s.woken f
     let c := s.cur.1
     let k := s.core c
     let w : Vector Word 4 := #v[s.me.rd a, s.me.rd (a + 1), s.me.rd (a + 2), s.me.rd (a + 3)]
     f.ready s →
       (∀ r, requestReason w = some r → ∀ i ∈ [Instr.cpy d a m, .cpyNb d a m],
         Faults (exec i s) u 0x06 (BitVec.ofNat 64 (0xFFFC000000000000 + r))) ∧
       (u.chkCopy c s.me.hb w = .ok () →
         (k.fifo.length < 16 → ∀ i ∈ [Instr.cpy d a m, .cpyNb d a m], Gives (exec i s) fun t =>
           t.me.got d (BitVec.ofNat 64 (c % 2 ^ 13 * 2 ^ 48 + (k.fifoAccepted + 1) % 2 ^ 48)) ∧
           (t.core c).fifoAccepted = k.fifoAccepted + 1 ∧
           (t.core c).fifo = k.fifo ++ [⟨s.cur.2.val, k.fifoAccepted + 1, w, s.me.hb,
             (s.me.fills.filter fun e => e.2.futureVersion).map (·.1), if (copyReq w).ckind = 2 then u.claimsNow else [],
             false, 0, none, none,
             (s.me.task.map (·.task.taskId)).getD 0⟩] ∧
           t.me.pc = s.me.nextPc (s.me.pc + 4) ∧ (∀ r, r ≠ d → t.me.rd r = s.me.rd r)) ∧
         (k.fifo.length ≥ 16 →
           exec (.cpyNb d a m) s = .next (u.retire f fun t => t.wr d 0x8000000000000000) ∧
           Gives (exec (.cpy d a m) s) fun t => t.me.wait = some .fifo ∧ t.me.pc = s.me.pc))) ∧
  (∀ (d sel : BitVec 5) (s : State), (Form.dst d).ready s →
     let k := s.core s.cur.1
     (sel = 0 → k.fifo.length < 2 ^ 5 → Gives (exec (.cpyst d sel) s) fun t =>
       let v := t.me.rd d
       (d ≠ 0 → field v 0 5 = k.fifo.length ∧ field v 5 5 = (k.fifo.filter fun e => e.ctx == s.cur.2.val).length ∧
       field v 10 48 = k.fifoDone % 2 ^ 48 ∧ v.getLsbD 63 = s.me.errSticky) ∧ t.me.errSticky = false ∧
       t.me.pc = s.me.nextPc (s.me.pc + 4) ∧ MemoryKept s t) ∧
     (∀ i : Fin 6, sel.toNat = i.val + 1 → exec (.cpyst d sel) s = .next ((s.woken (.dst d)).retire (.dst d) fun t =>
       t.wr d (BitVec.ofNat 64 (s.quad (quadOf s.cur.1)).stalls[i])))) ∧
  (∀ (s : State) (c : Nat) (k : CopyCmd) (l : List CopyCmd), (s.core c).fifo = k :: l → k.begun = false →
     let ready : Prop := (∀ r ∈ (s.core c).stores, k.count ≤ r.copies) ∧
       (∀ q ∈ s.remotes, q.core = c → q.slot = none → k.count ≤ q.copies) ∧
       ∀ i ∈ k.after, ∀ f, (s.ctx c (Fin.ofNat 8 k.ctx)).fills.find i = some f → f.futureVersion = false
     ∀ i op, (i, op) ∈ [(Instr.copyOp c, 0), (.pack c, 1), (.unpack c, 2), (.fill c, 3)] → (copyReq k.req).op = op →
       (ready → Gives (exec i s) fun t =>
         (t.core c).fifo = { k with begun := true } :: l ∧ ∀ e, e ≠ c → t.core e = s.core e) ∧
       (¬ready → exec i s = .next s))

/-- R316, R317, R330, R334: GATHER reads its descriptor once, on entry; with one that passes its checks, room in its stream and
the context's stores performed it retires with the command's number, and its stream has it last with that descriptor; until
then it waits and keeps what it read; reserved bits of its operands carry BOUNDS with reason 1. R316, R317: a row whose index
is all ones is copied as zeros; the stream's head has come one row further. The order in which events happen is the model's
choice (log entry 1). -/
def Obligations.GatherCommands : Prop :=
  (∀ (d a b : BitVec 5) (m n : BitVec 2) (s : State),
     let f := Form.f3 d a m b n
     let ref := s.me.rd a
     let sel := s.me.rd b
     let c := s.cur.1
     let e := dieOf c * 32 + field sel 0 5
     let i : Fin 4 := Fin.ofNat 4 (field sel 5 2)
     f.ready s →
       (field ref 48 12 ≠ 0 ∨ field sel 7 57 ≠ 0 → Faults (exec (.gather d a m b n) s) (s.woken f) 0x06 0xFFFB000000000001) ∧
       (field ref 48 12 = 0 → field sel 7 57 = 0 →
         ∀ h, (s.woken f).chkAccess c s.hbs (ref.extractLsb' 60 4) (field ref 0 48) 64 ⟨false, [0, 1], 64, false⟩ = .ok h →
         ∀ spans w, (s.woken f).placeCore c h (field ref 0 48) 64 false = .ok (spans, w) →
         ∀ u desc, (s.me.desc = some desc ∧ u = w ∨
           s.me.desc = none ∧ ∃ x, w.load h (field ref 0 48) spans false = .ok u x ∧ desc = BitVec.ofNat 512 (leNat x)) →
         ∀ dh, u.chkGather c s.me.hb desc = .ok dh →
         let room := ((u.gather e).streams[i]).length < 8 ∧ u.quiet c s.cur.2 = true ∧ u.me.versionPending = false
         (¬room → Gives (exec (.gather d a m b n) s) fun t =>
           t.me.desc = some desc ∧ t.me.wait.isSome = true ∧ t.me.pc = s.me.pc ∧ MemoryKept u t) ∧
         (room → Gives (exec (.gather d a m b n) s) fun t =>
           let k := 4 * (s.core c).launch.getD 0 + i.val
           let count := ((u.gather e).accepted.find k).getD 0 + 1
           t.me.got d (BitVec.ofNat 64 (2 ^ 62 + c % 2 ^ 13 * 2 ^ 48 + count % 2 ^ 48)) ∧
           ((t.gather e).streams[i]).length = ((u.gather e).streams[i]).length + 1 ∧
           ((t.gather e).streams[i]).getLast? = some ⟨c, s.cur.2.val, (s.core c).launch.getD 0, count,
             desc, s.me.hb, 0, none, (s.me.task.map (·.task.taskId)).getD 0⟩ ∧
           t.me.pc = s.me.nextPc (s.me.pc + 4) ∧ (∀ line, (t.quad (quadOf c)).dirtyAt line = false)))) ∧
  (∀ (s : State) (die engine : Nat) (i : Fin 4) (k : GatherCmd) (h ih : BitVec 256),
     let e := die * 32 + engine % 32
     let r := gatherReq k.desc
     let isize := 2 * 2 ^ r.isz
     let from_ := quadKey (hQuad ih k.core) (field ih 0 20 + (r.ioff + k.row * isize))
     let key := quadKey (hQuad h k.core) (field h 0 20 + (r.doff + k.row * r.rb))
     s.MemoryForm → (s.gather e).streams[i].head? = some k → (s.gather e).lastStream = i - 1 → k.err = none → k.row < r.count →
       s.chkHandle k.core k.hbs r.dhb = .ok h → s.chkHandle k.core k.hbs r.ihb = .ok ih → hSpace h = 1 → hSpace ih = 1 →
       (∀ line, s.heldFrom (.gather die engine i.val k.count) line = false) → s.poison = [] → s.tileReads = [] →
       Memory.nat s.mem from_ isize = 2 ^ (8 * isize) - 1 →
       Gives (exec (.gatherRow die engine i.val) s) fun t =>
         Memory.bytes t.mem key r.rb = List.replicate r.rb 0 ∧
         (∀ p, ¬(key ≤ p ∧ p < key + r.rb) → Memory.get t.mem p = Memory.get s.mem p) ∧
         ((t.gather e).streams[i].head?.map (·.row)) = some (k.row + 1))

/-- R319 to R322, R330, R335, R337, R408: the updates of ring and barrier objects are stores to be performed at the object's home,
with the LOG bit of its page, a release but for BARXB; operand words out of their ranges carry BOUNDS with their reason. R214,
R229, R320, R322, R330, R339, R342: the waits on an object or a sequence word are evaluated at its home, its line's dirty
bytes merged and no L2 data kept where the handle's policy says so, and retire when what they want has come: a slot filled,
which RAWAIT answers with its offset and the ring's error bit, a phase passed, a word at least so large; until then they wait;
one that its home has found met meanwhile retires with what was met. R241, R322: an update of a barrier object takes arrivals
and bytes from what is pending; when both are used up the phase rises and both counts start again. R319, R320, R336: a
reservation takes the next slot while the ring has room, and none when it is full; a filled slot moves WR past itself where it
is the next, and past every filled slot that follows; a mark of an earlier ring at the same place sets ERR alone; a release
lets RD rise, and on an empty ring sets ERR. -/
def Obligations.RingsAndBarriers : Prop :=
  (∀ (a b : BitVec 5) (m n : BitVec 2) (s : State),
     let fp : Form := { srcs := [(a, m), (b, n), (b + 1, n)], names := [.g a, .g b, .g (b + 1)] }
     let fo : Form := { srcs := [(a, m), (b, n)], names := [.g a, .g b] }
     let fa : Form := { srcs := [(a, m)], names := [.g a] }
     let ref := s.me.rd a
     let x := s.me.rd b
     let y := s.me.rd (b + 1)
     let row (i : Instr) (f : Form) (reason : Option Nat) (op : HomeOp) (bytes : List Byte) (rel : Bool) : Prop := f.ready s →
       (∀ r, (if field ref 48 12 ≠ 0 then some 1 else reason) = some r →
         Faults (exec i s) (s.woken f) 0x06 (BitVec.ofNat 64 (0xFFFB000000000000 + r))) ∧
       (field ref 48 12 = 0 → reason = none →
         ∀ h, (s.woken f).chkAccess s.cur.1 s.hbs (ref.extractLsb' 60 4) (field ref 0 48) 32 ⟨true, [3], 32, false⟩ = .ok h →
         ∀ p l u, (s.woken f).placeCore s.cur.1 h (field ref 0 48) 32 true = .ok (p :: l, u) → u.me.versionPending = false →
         (rel = false → u.me.chkWatch [⟨p.key, 32, false⟩] = .ok ()) →
         Gives (exec i s) fun t => RetiresStore s t f [⟨p.key, bytes.length, false⟩] bytes op rel ∧
           (t.core s.cur.1).stores.getLast?.map (·.dest) = some (.home 3 ((p :: l).any fun r => r.log)))
     row (.rainit a m b n) fp (if field x 48 16 ≠ 0 ∨ field y 40 24 ≠ 0 then some 1
       else if field y 0 24 % 64 ≠ 0 ∨ field y 0 24 < 64 ∨ field y 0 24 > 2 ^ 24 - 64 then some 2 else none)
       .rainit (leBytes 8 x.toNat ++ leBytes 8 y.toNat) true ∧
     row (.rarel a m) fa none .rarel (leBytes 8 0) true ∧
     row (.barinit a m b n) fp (if field x 32 32 ≠ 0 ∨ field y 48 16 ≠ 0 then some 1 else none) .barinit
       (leBytes 8 x.toNat ++ leBytes 8 y.toNat) true ∧
     row (.bararr a m b n) fo (if field x 32 32 ≠ 0 then some 1 else none) (.bararr x.toNat) (leBytes 8 0) true ∧
     row (.barxb a m b n) fo (if field x 48 16 ≠ 0 then some 1 else none) (.barxb x.toNat) (leBytes 8 0) false) ∧
  (∀ (d a b : BitVec 5) (m n : BitVec 2) (s : State),
     let f3 := Form.f3 d a m b n
     let fo : Form := { srcs := [(a, m), (b, n)], names := [.g a, .g b] }
     let ref := s.me.rd a
     let v := s.me.rd b
     let q := quadOf s.cur.1
     let past (x y : BitVec 32) : Prop := 1 ≤ (x - y).toNat ∧ (x - y).toNat ≤ 2 ^ 31 - 1
     let left (h : BitVec 256) (v : State) (key size : Nat) : State := v.l2Leave h [⟨key, size, false⟩]
     let placed (f : Form) (size : Nat) (spaces : List Nat) (sp : Nat) (h : BitVec 256) (u : State) (key : Nat) : Prop :=
       f.ready s ∧ field ref 48 12 = 0 ∧ ∃ p l,
         (s.woken f).chkAccess s.cur.1 s.hbs (ref.extractLsb' 60 4) (field ref 0 48) size ⟨false, spaces, size, false⟩ = .ok h ∧
         hSpace h = sp ∧ (s.woken f).placeCore s.cur.1 h (field ref 0 48) size false = .ok (p :: l, u) ∧ key = p.key ∧
         u.me.versionPending = false
     let finds (f : Form) (size : Nat) (spaces : List Nat) (sp : Nat) (h : BitVec 256) (u : State) (key : Nat) (z : State) : Prop :=
       placed f size spaces sp h u key ∧ u.me.held = none ∧ u.me.heldAt [⟨key, size, false⟩] = false ∧
         u.ownStoreAt s.cur.1 s.cur.2 [⟨key, size, false⟩] = false ∧
         u.ownedLine [⟨key, size, false⟩] = none ∧ z = left h (u.mergeSpans [⟨key, size, false⟩]) key size ∧
         z.poisoned key size = false
     let waits (i : Instr) (z : State) (w : Wait) : Prop := Gives (exec i s) fun t =>
       t.me.wait = some w ∧ t.me.pc = s.me.pc ∧ MemoryKept z t
     ∀ h u key z,
       (finds f3 32 [3] 3 h u key z → z.unknown key true = false →
         (past ((z.memWord key).setWidth 32) (v.setWidth 32) → exec (.rawait d a m b n) s =
           .next ((z.acquire (key / 8) q).retire f3 fun t => t.wr d (BitVec.ofNat 64 (field (z.memWord (key + 8)) 32 1 * 2 ^ 63 +
             slotOffset (z.memWord (key + 16)) (z.memWord (key + 24)) (v.setWidth 32 : BitVec 32).toNat)))) ∧
         (¬past ((z.memWord key).setWidth 32) (v.setWidth 32) → waits (.rawait d a m b n) z (.sync key (.slot (v.setWidth 32))))) ∧
       (finds fo 32 [3] 3 h u key z → z.unknown key false = false →
         (past ((z.memWord key).setWidth 32) (v.setWidth 32) →
           exec (.barwait a m b n) s = .next ((z.acquire (key / 8) q).retire fo id)) ∧
         (¬past ((z.memWord key).setWidth 32) (v.setWidth 32) → waits (.barwait a m b n) z (.sync key (.phase (v.setWidth 32))))) ∧
       (∀ sp, finds fo 8 [0, 3] sp h u key z → (sp = 3 → ((z.syncObj key).map (·.wild)).getD false = false) →
         (v.toNat ≤ (z.memWord key).toNat →
           exec (.seqwait a m b n) s = .next ((z.acquire (key / 8) q).retire fo id)) ∧
         (¬v.toNat ≤ (z.memWord key).toNat →
           waits (.seqwait a m b n) z (if sp = 3 then .sync key (.atLeast v) else .word key v))) ∧
       (∀ x, u.me.held = some x →
         (placed f3 32 [3] 3 h u key →
           exec (.rawait d a m b n) s = .next ((u.acquire (key / 8) q).retire f3 fun t => t.wr d x)) ∧
         (placed fo 32 [3] 3 h u key → exec (.barwait a m b n) s = .next ((u.acquire (key / 8) q).retire fo id)) ∧
         (∀ sp, placed fo 8 [0, 3] sp h u key →
           exec (.seqwait a m b n) s = .next (((left h u key 8).acquire (key / 8) q).retire fo id)))) ∧
  (∀ (s : State) (key n x : Nat), s.MemoryForm → s.unknown key false = false →
     let a := s.memWord key
     let b := s.memWord (key + 8)
     let c := s.memWord (key + 16)
     let d := s.memWord (key + 24)
     let t := s.barUpdate key n x false
     let pending := (highHalf b).toNat
     let bytes := field d 0 48
     n ≤ pending → x ≤ bytes →
       (n = pending ∧ x = bytes →
         lowHalf (t.memWord key) = lowHalf a + 1 ∧ highHalf (t.memWord key) = highHalf a ∧
         highHalf (t.memWord (key + 8)) = lowHalf b ∧ (t.memWord (key + 24)).toNat = field c 0 48) ∧
       (¬(n = pending ∧ x = bytes) →
         t.memWord key = a ∧ (highHalf (t.memWord (key + 8))).toNat = pending - n ∧
         (t.memWord (key + 24)).toNat = bytes - x) ∧
       lowHalf (t.memWord (key + 8)) = lowHalf b ∧ t.memWord (key + 16) = c ∧
       ∀ p, ¬(key ≤ p ∧ p < key + 32) → Memory.get t.mem p = Memory.get s.mem p) ∧
  (∀ (s : State) (key : Nat), s.MemoryForm → s.unknown key true = false →
     let a := s.memWord key
     let b := s.memWord (key + 8)
     let c := s.memWord (key + 16)
     let d := s.memWord (key + 24)
     let res := highHalf a
     ((res - lowHalf b).toNat ≥ field d 24 16 + 1 → (s.ringReserve key).1 = none ∧ (s.ringReserve key).2.memWord key = a) ∧
     ((res - lowHalf b).toNat < field d 24 16 + 1 →
       (s.ringReserve key).1 = some ((res.toNat, s.ringGen key,
         field c 0 48 + res.toNat % (field d 24 16 + 1) * field d 0 24), field d 0 24) ∧
       highHalf ((s.ringReserve key).2.memWord key) = res + 1 ∧ lowHalf ((s.ringReserve key).2.memWord key) = lowHalf a) ∧
     (∀ g, s.ringGen key = g → s.ringFilled key = [] →
       let t := s.ringFill key (lowHalf a).toNat g false
       lowHalf (t.memWord key) = lowHalf a + 1 ∧ highHalf (t.memWord key) = res ∧ t.memWord (key + 8) = b) ∧
     (∀ g, s.ringGen key = g → s.ringFilled key = [] → (s.ringFill key (lowHalf a + 1).toNat g false).memWord key = a ∧
       lowHalf (((s.ringFill key (lowHalf a + 1).toNat g false).ringFill key (lowHalf a).toNat g false).memWord key) =
         lowHalf a + 2) ∧
     (∀ g, s.ringGen key ≠ g → ∀ slot, (s.ringFill key slot g false).memWord key = a ∧
       (s.ringFill key slot g false).memWord (key + 8) = (b ||| 0x100000000)) ∧
     (lowHalf b ≠ lowHalf a → lowHalf ((s.raRel key).memWord (key + 8)) = lowHalf b + 1) ∧
     (lowHalf b = lowHalf a → (s.raRel key).memWord (key + 8) = (b ||| 0x100000000)))

/-- R222, R307, R309, R312: one chunk of a FILL into quad memory writes up to 4,096 bytes of its value where the command had come
to, and nothing else. R222, R314, R320: a begun ring-advancing command takes the next slot of a ring with room, at the home of
its object, where its line has merged and no other engine owns it; the write is one that a watchpoint on the object reports.
R222, R313: a command without a completion object leaves its FIFO or stream once its bytes are performed, and gives up every
line it claimed. The order in which events happen is the model's choice (log entry 1). -/
def Obligations.EngineCommandsEnd : Prop :=
  (∀ (s : State) (c : Nat) (k : CopyCmd) (l : List CopyCmd) (h : BitVec 256),
     let r := copyReq k.req
     let n := min 4096 (r.len - k.done)
     let key := quadKey (hQuad h c) (field h 0 20 + (r.doff + k.done))
     s.MemoryForm → (s.core c).fifo = k :: l → r.op = 3 → r.ckind ≠ 2 → k.begun = true → k.err = none → k.slot = none →
       k.done < r.len → s.chkHandle c k.hbs r.dhb = .ok h → hSpace h = 1 → (s.quad (quadOf c)).copyLast = inQuad c - 1 →
       (∀ line, s.heldFrom (.copy c k.count) line = false) →
       Gives (exec (.engineChunk (quadOf c)) s) fun t =>
         Memory.bytes t.mem key n = List.replicate n (r.word2.setWidth 8) ∧
         (∀ p, ¬(key ≤ p ∧ p < key + n) → Memory.get t.mem p = Memory.get s.mem p) ∧
         (t.core c).fifo = { k with done := k.done + n } :: l) ∧
  (∀ (s : State) (c : Nat) (k : CopyCmd) (l : List CopyCmd) (oh dh : BitVec 256) (key : Nat) (log : Bool),
     let r := copyReq k.req
     let z := (s.recall (key / 64)).dirtyLine ((s.core c).launch.getD 0) (key / 64) log false
     let a := z.memWord key
     let w3 := z.memWord (key + 24)
     let off := slotOffset (z.memWord (key + 16)) w3 (highHalf a).toNat
     (s.core c).fifo = k :: l → k.begun = true → r.ckind = 2 → k.slot = none → k.err = none →
       s.chkHandle c k.hbs r.ohb = .ok oh → s.objectKey c oh r.ooff 32 = .ok (key, log) →
       z.unknown key true = false → s.ringHeld c k = false →
       (highHalf a - lowHalf (z.memWord (key + 8))).toNat < field w3 24 16 + 1 → r.len ≤ field w3 0 24 →
       ((z.ringReserve key).2.watchWrite [⟨key, 8, false⟩] 2 (quadOf c) none).chkDest c k.hbs r.dhb off r.w r.align = .ok dh →
       Gives (exec (.ringReserve c) s) fun t =>
         (t.core c).fifo = { k with slot := some ((highHalf a).toNat, z.ringGen key, off) } :: l) ∧
  (∀ (s : State),
     (∀ c k l, (s.core c).fifo = k :: l → (copyReq k.req).ckind = 0 → k.begun = true → k.err = none →
       k.done ≥ (copyReq k.req).w → Gives (exec (.commandCompletion (.copy c)) s) fun t =>
         (t.core c).fifo = l ∧ (t.core c).fifoDone = (s.core c).fifoDone + 1 ∧
         (∀ line o, t.owners.find line = some o → Claim.copy c k.count ∉ o) ∧ MemoryKept s t) ∧
     (∀ die engine (i : Fin 4) k l, let e := die * 32 + engine % 32
       (s.gather e).streams[i] = k :: l → (gatherReq k.desc).ckind = 0 → k.err = none → k.row ≥ (gatherReq k.desc).count →
       Gives (exec (.commandCompletion (.gather die engine i.val)) s) fun t =>
         (t.gather e).streams[i] = l ∧ (∀ line o, t.owners.find line = some o → Claim.gather die engine i.val k.count ∉ o) ∧
         MemoryKept s t))

/-- R427, R428: XRED with a request that passes its checks, the context's stores performed and its source readable retires with
the command's number, and a reduction with the bytes of its source is on its way to the switch; before its stores are
performed it waits; a malformed request carries BOUNDS with its reason. R222, R313, R428: the switch's result of the length
sent is written where the command says, and nothing else; a mismatch ends the command with cause 5. A settled command without
an object ends and gives up its claims. R429 to R432: COLL reads its descriptor once; with one that passes its checks it
retires with the collective id, and the member's part has joined, while its engine holds fewer than 16 collectives or this one
already; until then it waits. CWAIT answers 2 for an id its core has no part of in its launch, 0 for a chunk performed, with
an acquire from it, 1 for a part that failed; a chunk beyond the last carries BOUNDS; else it waits. R425, R430: a chunk of a
collective that its one or two members have joined, their regions in quad memory: the combination of their bytes, in ascending
member number, is written to each member's destination and nothing else; with a REDID it leaves for the switch first, one
chunk after another, and the switch's result is what is written. A sum of INT32 elements is the sum modulo 2^32. The order in
which events happen is the model's choice (log entry 1). By the model's choice XRED and COLL wait for the context's own stores
and XRED reads its source at issue (log entry 30). -/
def Obligations.ReductionsAndCollectives : Prop :=
  (∀ (d a : BitVec 5) (m : BitVec 2) (s : State),
     let f : Form := {
       srcs := [(a, m), (a + 1, m), (a + 2, m), (a + 3, m)]
       names := [.g d, .g a, .g (a + 1), .g (a + 2), .g (a + 3)] }
     let u := s.woken f
     let c := s.cur.1
     let w : Vector Word 4 := #v[s.me.rd a, s.me.rd (a + 1), s.me.rd (a + 2), s.me.rd (a + 3)]
     let r := xredReq w
     let n := (s.core c).xredAccepted + 1
     f.ready s →
       (field w[0] 13 31 ≠ 0 ∨ r.ckind = 2 ∨ (r.ckind = 0 ∧ r.ohb ≠ 0) →
         Faults (exec (.xred d a m) s) u 0x06 0xFFF9000000000001) ∧
       (∀ k, xredReason w = some k → Faults (exec (.xred d a m) s) u 0x06 (BitVec.ofNat 64 (0xFFF9000000000000 + k))) ∧
       (xredReason w = none → ∀ dh,
         u.chkReduction c s.me.hb r.shb r.dhb r.ohb r.soff r.doff r.len r.ckind r.ooff = .ok dh →
         (u.quiet c s.cur.2 = false ∨ s.me.versionPending = true →
           Gives (exec (.xred d a m) s) fun t => t.me.wait = some .drain ∧ t.me.pc = s.me.pc) ∧
         (u.quiet c s.cur.2 = true → s.me.versionPending = false → ∀ sh, u.chkHandle c s.me.hb r.shb = .ok sh →
           ∀ v b, u.reductionSource c (.xred c n) sh r.soff r.len = .ok v b →
           Gives (exec (.xred d a m) s) fun t =>
             t.me.got d (BitVec.ofNat 64 (2 ^ 61 + c % 2 ^ 13 * 2 ^ 48 + n % 2 ^ 48)) ∧ (t.core c).xredAccepted = n ∧
             t.reductions = s.reductions ++ [⟨c, s.cur.2.val, (s.core c).launch.getD 0, 2 ^ 61 + c % 2 ^ 13 * 2 ^ 48 + n % 2 ^ 48,
               w, s.me.hb, b, none, none, (s.me.task.map (·.task.taskId)).getD 0, s.redLink r.redid⟩] ∧
             t.me.pc = s.me.nextPc (s.me.pc + 4) ∧ ∀ r, r ≠ d → t.me.rd r = s.me.rd r))) ∧
  (∀ (s : State) (i : Nat) (r : Reduction), s.reductions[i]? = some r →
     let q := xredReq r.req
     (∀ data, r.settled = none → r.err = none →
       Gives (exec (.reductionResult i data true) s) (fun t =>
         t.reductions[i]? = some { r with err := some (5, false) } ∧ MemoryKept s t) ∧
       (data.length = q.len → s.MemoryForm → ∀ h, s.chkHandle r.core r.hbs q.dhb = .ok h → hSpace h = 1 →
         (∀ line, s.heldFrom r.claim line = false) →
         let key := quadKey (hQuad h r.core) (field h 0 20 + q.doff)
         Gives (exec (.reductionResult i data false) s) fun t =>
           Memory.bytes t.mem key q.len = data ∧ t.reductions[i]? = some { r with settled := some (data, true) } ∧
           ∀ p, ¬(key ≤ p ∧ p < key + q.len) → Memory.get t.mem p = Memory.get s.mem p)) ∧
     (∀ data, r.settled = some (data, true) → r.err = none → q.ckind = 0 →
       Gives (exec (.commandCompletion (.xred i)) s) fun t =>
         t.reductions = dropPlace s.reductions i ∧ (∀ line o, t.owners.find line = some o → r.claim ∉ o) ∧ MemoryKept s t)) ∧
  (∀ (d a b : BitVec 5) (m n : BitVec 2) (s : State),
     let f := Form.f2 d a m
     let fw := Form.f3 d a m b n
     let ref := s.me.rd a
     let c := s.cur.1
     (f.ready s →
       (field ref 48 12 ≠ 0 → Faults (exec (.coll d a m) s) (s.woken f) 0x06 0xFFFB000000000001) ∧
       (field ref 48 12 = 0 →
         ∀ h, (s.woken f).chkAccess c s.hbs (ref.extractLsb' 60 4) (field ref 0 48) 64 ⟨false, [0, 1], 64, false⟩ = .ok h →
         ∀ spans w, (s.woken f).placeCore c h (field ref 0 48) 64 false = .ok (spans, w) →
         ∀ u desc, (s.me.desc = some desc ∧ u = w ∨
           s.me.desc = none ∧ ∃ x, w.load h (field ref 0 48) spans false = .ok u x ∧ desc = BitVec.ofNat 512 (leNat x)) →
         let r := collReq desc
         let all := u.collsAt (collEngine c r.key)
         let n := (s.core c).launch.getD 0
         (∀ k, u.collReason c desc = some k →
           Faults (exec (.coll d a m) s) u 0x06 (BitVec.ofNat 64 (0xFFF8000000000000 + k))) ∧
         (u.collReason c desc = none → ∀ dh,
           u.chkReduction c s.me.hb r.shb r.dhb r.ohb r.soff r.doff (collLen desc) r.ckind r.ooff = .ok dh →
           let free := (all.length < 16 ∨ (n, r.key, collGroup desc) ∈ all) ∧ u.quiet c s.cur.2 = true ∧ s.me.versionPending = false
           (¬free → Gives (exec (.coll d a m) s) fun t =>
             t.me.desc = some desc ∧ t.me.wait.isSome = true ∧ t.me.pc = s.me.pc ∧ t.collectives = u.collectives) ∧
           (free → Gives (exec (.coll d a m) s) fun t =>
             t.me.got d (BitVec.ofNat 64 (field r.key 0 2 * 2 ^ 61 + c % 2 ^ 13 * 2 ^ 48 + r.key.toNat)) ∧
             t.collectives.getLast? = some ⟨c, s.cur.2.val, n, dieOf c * 4 + field r.key 0 2, r.key, desc,
               s.me.hb, [], [], [], false, none, (s.me.task.map (·.task.taskId)).getD 0⟩ ∧
             t.me.pc = s.me.nextPc (s.me.pc + 4) ∧ ∀ r, r ≠ d → t.me.rd r = s.me.rd r)))) ∧
     (fw.ready s →
       let parts := s.collectives.filter fun r => r.core == c && some r.launch == (s.core c).launch && collId c r.key == ref.toNat
       let k := field (s.me.rd b) 0 10
       let answers (v : Word) : Prop := exec (.cwait d a m b n) s = .next ((s.woken fw).retire fw fun t => t.wr d v)
       (parts = [] → answers 2) ∧
       ∀ r, parts.getLast? = some r →
         (k ≥ collChunks r.desc → Faults (exec (.cwait d a m b n) s) (s.woken fw) 0x06 0xFFF8000000000005) ∧
         (k < collChunks r.desc → (k ∈ r.chunksDone → exec (.cwait d a m b n) s =
             .next (((s.woken fw).acquirePart r).retire fw fun t => t.wr d 0)) ∧
           (k ∉ r.chunksDone → (r.err.isSome = true → answers 1) ∧
             (r.err = none → Gives (exec (.cwait d a m b n) s) fun t =>
               t.me.wait = some (.coll (decide ((collReq r.desc).redid = 0)) ref.toNat k) ∧ t.me.pc = s.me.pc ∧
               MemoryKept s t))))) ∧
  ((∀ (s : State) (i k : Nat) (r : Collective) (parts : List Collective) (from_ to_ : Collective → BitVec 256) (sw : List Byte)
       (bad : Bool), s.collectives[i]? = some r → s.collOrder r = parts → r.ended = false →
     r.finished = false → s.collJoined r = true → k < collChunks r.desc → k ∉ r.chunksDone →
     let q := collReq r.desc
     let n := chunkLen r.desc k
     let src (p : Collective) := quadKey (hQuad (from_ p) p.core) (field (from_ p) 0 20 + ((collReq p.desc).soff + k * collChunk p.desc))
     let dest (p : Collective) := quadKey (hQuad (to_ p) p.core) (field (to_ p) 0 20 + ((collReq p.desc).doff + k * collChunk p.desc))
     (∃ x, parts = [x]) ∨ (∃ x y, parts = [x, y] ∧ x.core ≠ y.core ∧ (dest x + n ≤ dest y ∨ dest y + n ≤ dest x)) →
     s.MemoryForm → s.poison = [] → s.tileReads = [] →
     (∀ p ∈ parts, (collReq p.desc).op = q.op ∧ (collReq p.desc).fmt = q.fmt ∧ collLen p.desc = collLen r.desc ∧
       collChunk p.desc = collChunk r.desc ∧ s.chkHandle p.core p.hbs (collReq p.desc).shb = .ok (from_ p) ∧
       s.chkHandle p.core p.hbs (collReq p.desc).dhb = .ok (to_ p) ∧ hSpace (from_ p) = 1 ∧ hSpace (to_ p) = 1 ∧
       ∀ line, s.heldFrom p.claim line = false) →
     let b := reduceBytes q.op q.fmt n (parts.map fun p => Memory.bytes s.mem (src p) n)
     let written (b : List Byte) : Prop := b.length = n → Gives (exec (.collectiveChunk i k sw bad) s) fun t =>
       (∀ p ∈ parts, Memory.bytes t.mem (dest p) n = b ∧
         ∃ c ∈ t.collectives, c.core = p.core ∧ c.key = p.key ∧ c.chunksDone = p.chunksDone ++ [k]) ∧
       ∀ a, (∀ p ∈ parts, ¬(dest p ≤ a ∧ a < dest p + n)) → Memory.get t.mem a = Memory.get s.mem a
     (q.redid = 0 → written b) ∧
     (q.redid ≠ 0 → k = r.sent.length → Gives (exec (.collectiveChunk i k sw bad) s) fun t =>
       (∀ p ∈ parts, ∃ c ∈ t.collectives, c.core = p.core ∧ c.key = p.key ∧ c.sent = p.sent ++ [(s.redLink q.redid, b)]) ∧
       MemoryKept s t) ∧
     (q.redid ≠ 0 → k < r.sent.length → bad = false → written sw)) ∧
   (∀ (len : Nat) (l : List (List Byte)), ∀ e, e < len / 4 →
     (((reduceBytes 0 fINT32 len l).drop (4 * e)).take 4) =
       leBytes 4 ((l.map fun p => leNat ((p.drop (4 * e)).take 4)).sum % 2 ^ 32)))

/-- R285, R286, R419, R421, R433: the RAMO forms, once the older reads of their context have been performed, leave their register
EMPTY with a fill slot and send one request to the device their handle names: the operation, the operand and, for CAS, the new
value; reserved bits of the reference carry BOUNDS. R419, R420, R423: a packet's store lands in the window of its launch:
every quad's copy of its lines is recalled and its bytes are written; one outside the window changes nothing. A
read-modify-write adds at the home. R413, R417, R421, R423: an acknowledgement ends its store, and one in error posts
EXT_ERROR to the context whose task runs; a good replay clears the failures of its link, a bad one counts, and the eighth
takes the link down, which ends what was in flight on it; the fabric gives the device its id. The order in which events happen
is the model's choice (log entry 1). By the model's choice a good replay sets the failures to 0, so that eight in a row count
(log entry 37). -/
def Obligations.RemoteOperations : Prop :=
  (∀ (d a b : BitVec 5) (m n : BitVec 2) (w : BitVec 1) (s : State), d ≠ 0 →
     let fo := Form.f3 d a m b n
     let fp : Form := { srcs := [(a, m), (b, n), (b + 1, n)], names := [.g d, .g a, .g b, .g (b + 1)] }
     let ref := s.me.rd a
     let c := s.cur.1
     let size := if w = 1 then 4 else 8
     let row (i : Instr) (f : Form) (op : BitVec 4) (new : Word) : Prop := f.ready s →
       (field ref 48 12 ≠ 0 → Faults (exec i s) (s.woken f) 0x06 0xFFFB000000000001) ∧
       (field ref 48 12 = 0 → ∀ h (slot : Fin 16),
         (s.woken f).chkAccess c s.hbs (ref.extractLsb' 60 4) (field ref 0 48) size ⟨true, [6], size, false⟩ = .ok h →
         s.me.freeSlot = some slot → s.me.versionPending = false → s.mayWrite c s.cur.2 = true →
         s.remoteStores c s.cur.2 (hRdev h) = false →
         Gives (exec i s) fun t =>
           t.me.rst d = .empty (BitVec.ofFin slot) ∧ t.me.fills.find slot.val = some ⟨d, .remote, none, false, false, false⟩ ∧
           t.remotes = s.remotes ++ [⟨c, s.cur.2.val, (s.core c).launch.getD 0, hRdev h, hRlid h, hBase h + field ref 0 48,
             s.linkOf c (hRdev h), .amo op (decide (w = 1)) (s.me.rd b) new, some slot.val, (s.me.task.map (·.task.taskId)).getD 0, 0, false, 0⟩] ∧
           t.me.pc = s.me.nextPc (s.me.pc + 4) ∧ (∀ r, t.me.rd r = s.me.rd r) ∧ MemoryKept s t)
     row (.ramoSwap d a m b n w) fo 0 0 ∧ row (.ramoAdd d a m b n w) fo 1 0 ∧ row (.ramoAnd d a m b n w) fo 2 0 ∧
     row (.ramoOr d a m b n w) fo 3 0 ∧ row (.ramoXor d a m b n w) fo 4 0 ∧ row (.ramoMin d a m b n w) fo 5 0 ∧
     row (.ramoMax d a m b n w) fo 6 0 ∧ row (.ramoMinu d a m b n w) fo 7 0 ∧ row (.ramoMaxu d a m b n w) fo 8 0 ∧
     row (.ramoCas d a m b n w) fp 9 (s.me.rd (b + 1))) ∧
  (∀ (link rlid offset : Nat) (s : State),
     (∀ data, s.windowPlace rlid offset data.length true = none →
       exec (.remotePacketArrival ⟨link, rlid, offset, .store data none⟩) s = .next s) ∧
     (∀ l, s.launch rlid = some l → l.state ≠ .removing → s.MemoryForm →
       ∀ data p, s.windowPlace rlid offset data.length true = some (rlid, [p]) → p.len = data.length → p.log = false →
       s.owned [p] = false →
       Gives (exec (.remotePacketArrival ⟨link, rlid, offset, .store data none⟩) s) fun t =>
         Memory.bytes t.mem p.key p.len = data ∧
         (∀ q, p.len ≠ 0 → (q < p.key / 64 * 64 ∨ (p.key + p.len + 63) / 64 * 64 ≤ q) → s.log = none →
           Memory.get t.mem q = Memory.get s.mem q)) ∧
     (∀ l, s.launch rlid = some l → l.state ≠ .removing → s.MemoryForm →
       ∀ p, s.windowPlace rlid offset 8 true = some (rlid, [p]) → p.len = 8 → p.log = false → s.owned [p] = false →
       s.Uncached → ∀ v,
       Gives (exec (.remotePacketArrival ⟨link, rlid, offset, .amo 1 false v 0⟩) s) fun t =>
         t.memWord p.key = s.memWord p.key + v)) ∧
  (∀ (s : State),
     (∀ i r, s.remotes[i]? = some r → r.slot = none →
       exec (.remoteAck i false) s = .next { s with remotes := dropPlace s.remotes i } ∧
       Gives (exec (.remoteAck i true) s) fun t =>
         t.remotes = dropPlace s.remotes i ∧
         let x : Fin 8 := Fin.ofNat 8 r.ctx
         let k := s.ctx r.core x
         (k.cstate = .running → k.task.map (·.task.taskId) = some r.taskId → k.async.extError = none →
           (t.ctx r.core x).async.extError =
             some (BitVec.ofNat 64 (2 ^ 61 + r.rdev % 2 ^ 12 * 2 ^ 48 + r.offset % 2 ^ 48))) ∧
         (k.cstate ≠ .running → t.cores = s.cores)) ∧
     (∀ link, link < 36 → ∀ l, s.links.find link = some l → l.up = true →
       Gives (exec (.flitReplay link true) s) (fun t => t.links.find link = some ⟨true, 0⟩ ∧ t.remotes = s.remotes) ∧
       Gives (exec (.flitReplay link false) s) fun t =>
         t.links.find link = some (if l.failures + 1 < 8 then ⟨true, l.failures + 1⟩ else ⟨false, 8⟩) ∧
         (l.failures + 1 < 8 → t.remotes = s.remotes) ∧
         (l.failures + 1 ≥ 8 → (∀ r ∈ t.remotes, r.link ≠ link) ∧
           ∀ r ∈ t.reductions, r.link = link → r.settled = none → r.err.isSome = true)) ∧
     (∀ id, exec (.deviceIdAssignment id) s = .next { s with devid := id }))

/-- R206, R222, R324, R409, R412: COPY carries up to 4,096 bytes at a time from one range of its address space to another, giving
up the lines that it has written, and ends when it has carried them all; into a weight store it writes every byte of its range
while no launch has a core of the die, and none with STATUS 2 where one has: that the test is made once, before the first
byte, is the model's choice (log entry 63). FLUSH leaves no L2 copy of its range dirty; LOGCFG starts a log with P and C zero.
R410, R411: the next entry of a slice is written to the place of the log that the count of written entries names, and the
count rises, both at their homes after the dirty bytes of their lines have merged; with the log full the entry is lost and OVF
is set. The order in which events happen is the model's choice (log entry 1). That COPY carries up to 4,096 bytes a step is
the model's choice (log entry 23). -/
def Obligations.CopyFlushAndLogEntries : Prop :=
  (∀ (s : State) (ch : Nat) (e : List Byte), s.MemoryForm → s.log = none →
     let root := (s.chain ch).root
     let done := (s.chain ch).progress
     let total := bytesNat e 24 8
     let n := min 4096 (total - done)
     let cl := Claim.chain ch ((s.chain ch).current.getD 0)
     (s.EntryInProgress ch 3 e →
       (∀ va, copyDest e = some (.virtual va) → total ≤ done → Gives (exec (.copy ch) s) fun t => EntryEnds s t ch 0) ∧
       (copyDest e = none → Gives (exec (.copy ch) s) fun t => EntryEnds s t ch 7) ∧
       (done < total → s.poison = [] → ∀ p, s.placeVirtual root (bytesNat e 16 8 + done) n false = .ok [p] → p.len = n →
         ∀ va, copyDest e = some (.virtual va) → ∀ q, s.placeVirtual root (va + done) n true = .ok [q] → q.len = n → q.log = false →
           (s.heldSpans cl [p] = true ∨ s.heldSpans cl [q] = true → exec (.copy ch) s = .next s) ∧
           (s.heldSpans cl [p] = false → s.heldSpans cl [q] = false → s.Uncached → Gives (exec (.copy ch) s) fun t =>
             Memory.bytes t.mem q.key n = Memory.bytes s.mem p.key n ∧ (t.chain ch).progress = done + n ∧
             (t.chain ch).status = none ∧ (∀ x, ¬(q.key ≤ x ∧ x < q.key + n) → Memory.get t.mem x = Memory.get s.mem x) ∧
             (done + n = total → ∀ x ∈ linePieces [q], ∀ o, t.owners.find (x.key / 64) = some o → cl ∉ o))) ∧
       (∀ die o, copyDest e = some (.weight die o) →
         (s.dieInLaunch die = true → Gives (exec (.copy ch) s) fun t => EntryEnds s t ch 2 ∧ MemoryKept s t) ∧
         (s.dieInLaunch die = false → ∀ parts, s.weightSources root (bytesNat e 16 8) (total / 4096 + 1) total = (parts, true) →
           let dest : List Span := [⟨weightKey die o, total, false⟩]
           (∀ p ∈ parts, s.heldSpans cl p = false) → s.heldSpans cl dest = false → s.refreshAt dest = false → s.Uncached →
           Gives (exec (.copy ch) s) fun t =>
             let b := parts.flatMap s.homeBytes
             EntryEnds s t ch 0 ∧ Memory.bytes t.mem (weightKey die o) b.length = b ∧ (∀ line o, t.owners.find line = some o → cl ∉ o) ∧
             ∀ x, ¬(weightKey die o ≤ x ∧ x < weightKey die o + b.length) → Memory.get t.mem x = Memory.get s.mem x))) ∧
     (s.EntryInProgress ch 0x0B e → entryClean e (words 3) = true →
       let pa := bytesNat e 8 8
       let len := bytesNat e 16 8
       pa % 64 = 0 → len % 64 = 0 → total < 3 → pa + len ≤ targetCapacity total → s.Uncached → s.poison = [] →
       (∀ line, physKey total pa / 64 ≤ line → line < physKey total pa / 64 + len / 64 → s.owners.find line = none) →
       Gives (exec (.flush ch) s) fun t =>
         EntryEnds s t ch 0 ∧ (∀ line ∈ t.l2dirty, ¬(physKey total pa / 64 ≤ line ∧ line < physKey total pa / 64 + len / 64)) ∧
         MemoryKept s t) ∧
     (s.EntryInProgress ch 0x0A e → entryClean e (words 3) = true →
       let ring := bytesNat e 8 8
       let count := bytesNat e 16 8
       ring % 4096 = 0 → isPow2 count = true → 256 ≤ count → count ≤ 1048576 → s.Uncached →
       s.owned [⟨physKey 0 total, 16, false⟩] = false →
       Gives (exec (.logcfg ch) s) fun t =>
         EntryEnds s t ch 0 ∧ t.log = some ⟨ring, count, physKey 0 total, [], []⟩ ∧ t.memWord (physKey 0 total) = 0 ∧
         t.memWord (physKey 0 total + 8) = 0)) ∧
  (∀ (s : State) (g : LogRing) (slice launch target first lines : Nat), s.MemoryForm → s.log = some g → s.logOwned = false →
     g.due slice = some (launch, target, first, lines) →
     let z := ({ s with log := some (g.taken slice) } : State).mergeSpans [⟨g.control, 16, false⟩]
     let p := (z.memWord g.control).toNat
     let n := p % 2 ^ 63
     let c := (z.memWord (g.control + 8)).toNat % 2 ^ 63
     let place := physKey 0 (g.base + 16 * (n % g.count))
     (n - c ≠ g.count → g.control + 8 ≤ place ∨ place + 16 ≤ g.control → target < 4 → launch < 2 ^ 16 → 1 ≤ lines → lines ≤ 4096 →
       Gives (exec (.logEntryWrite slice) s) fun t =>
         let e : BitVec 128 := BitVec.ofNat 128 (Memory.nat t.mem place 16)
         field e 4 2 = target ∧ field e 6 46 = first % 2 ^ 46 ∧ field e 52 12 = lines - 1 ∧ field e 64 16 = launch ∧
         (t.memWord g.control).toNat % 2 ^ 63 = (n + 1) % 2 ^ 63 ∧
         (t.memWord g.control).getLsbD 63 = (z.memWord g.control).getLsbD 63) ∧
     (n - c = g.count → Gives (exec (.logEntryWrite slice) s) fun t =>
       (t.memWord g.control).getLsbD 63 = true ∧ (t.memWord g.control).toNat % 2 ^ 63 = n ∧
       ∀ q, ¬(g.control ≤ q ∧ q < g.control + 8) → Memory.get t.mem q = Memory.get z.mem q))

/-- R18, R279, R280, R433: a fill puts its value in the register that is EMPTY with its tag, and releases its slot; one that has
lost its register, or whose task was aborted, releases the slot alone; one in error leaves its register FREE and EXT_ERROR
pending. The request of a remote LD.a that was held back leaves once no older read of its context is to come first. R28, R33,
R34, R106, R130, R349: what happens to the context in a core's pipe: its wait ends, a line it waits for is free, an
asynchronous event becomes its kill token in the order of causes, a deep miss or the end of its slice, at a boundary or 56
cycles later, makes it leave, and the token at the foot is carried out. The order in which events happen is the model's choice
(log entry 1). -/
def Obligations.FillsAndPipe : Prop :=
  (∀ (s : State) (c : Nat) (x : Fin 8) (slot : Fin 16) (f : FillSlot) (data : Option (BitVec 64)) (err : Bool),
     let k := s.ctx c x
     k.fills.find slot.val = some f →
     let run := exec (.fillArrival c x.val slot.val data err) s
     (∀ v, f.kind = .load → f.value = some v → f.err = false →
       (f.orphan = false → k.rst f.reg = .empty (BitVec.ofFin slot) → Gives run fun t =>
         let u := t.ctx c x
         u.rd f.reg = v ∧ u.rst f.reg = .full ∧ u.fills.find slot.val = none ∧
         (∀ g, g ≠ f.reg → u.rd g = k.rd g ∧ u.rst g = k.rst g) ∧ MemoryKept s t) ∧
       (f.orphan = true ∨ k.rst f.reg ≠ .empty (BitVec.ofFin slot) → Gives run fun t =>
         let u := t.ctx c x
         u.fills.find slot.val = none ∧ (∀ g, u.rd g = k.rd g ∧ u.rst g = k.rst g) ∧ MemoryKept s t)) ∧
     (∀ v, f.kind = .load → f.value = some v → f.err = true → f.orphan = false → k.rst f.reg = .empty (BitVec.ofFin slot) →
       k.async.extError = none → Gives run fun t =>
         let u := t.ctx c x
         u.rst f.reg = .free ∧ u.fills.find slot.val = none ∧
         u.async.extError = some (BitVec.ofNat 64 (2 ^ 63 + f.reg.toNat * 16 + slot.val))) ∧
     (f.kind = .remote → f.value = none → f.orphan = false → k.rst f.reg = .empty (BitVec.ofFin slot) → err = false →
       ∀ v, data = some v → ∀ r, (s.remotes.find? fun q => q.core == c && q.ctx == x.val && q.slot == some slot.val) = some r →
       Gives run fun t =>
         let u := t.ctx c x
         u.rd f.reg = (match r.op with
           | .amo _ true _ _ => (v.setWidth 32).signExtend 64
           | _ => v) ∧
         u.rst f.reg = .full ∧ u.fills.find slot.val = none ∧
         t.remotes = s.remotes.filter fun q => !(q.core == c && q.ctx == x.val && q.slot == some slot.val)) ∧
     (∀ h off key after, f.kind = .held h off key after → hSpace h = 6 → f.value = none →
       (after = [] → s.fullOpen c x = false → Gives run fun t =>
         (t.ctx c x).fills.find slot.val = some { f with kind := .remote } ∧ MemoryKept s t ∧
         ∃ r, t.remotes = s.remotes ++ [r] ∧ r.slot = some slot.val ∧ r.op = .read ∧ r.rdev = hRdev h ∧ r.offset = hBase h + off) ∧
       (after ≠ [] ∨ s.fullOpen c x = true → run = .next s)) ∧
     (f.kind = .load ∨ (∃ h off key after, f.kind = .held h off key after) → Gives (exec (.deepMissNotice c x.val slot.val) s) fun t =>
       (t.ctx c x).fills.find slot.val = some { f with deep := true } ∧ (t.ctx c x).pc = k.pc ∧ MemoryKept s t)) ∧
  (∀ (s : State) (c : Nat) (x : Fin 8), (s.core c).pipe = some x →
     let k := s.ctx c x
     let becomes (i : Instr) (u : Ctx) : Prop := Gives (exec i s) fun t =>
       t.ctx c x = u ∧ (∀ d y, (d, y) ≠ (c, x) → t.ctx d y = s.ctx d y) ∧ MemoryKept s t
     let trap (code : BitVec 8) (info : Word) : Option Token := some (.trap ⟨code, true, k.faultPc, info⟩)
     (∀ w, k.wait = some w → (∀ l, w ≠ .source l) → w ≠ .lost → w ≠ .fillSlot → (∀ l, w ≠ .miss l) →
       becomes (.sidingRejoin c) { k with wait := none }) ∧
     (∀ line, k.wait = some (.miss line) → s.owners.find line = none → becomes (.missReturn c) { k with wait := none }) ∧
     (k.token = none → k.takeable = true → ∀ i, (i = .asyncEventTaken c ∧ k.wait = none) ∨ (i = .forcedBoundary c ∧ k.wait ≠ none) →
       let a := k.async
       (∀ n, a.extError = some n → becomes i { k with async := { a with extError := none }, token := trap 0x15 n }) ∧
       (∀ n, a.extError = none → a.doldrums = some n →
         becomes i { k with async := { a with doldrums := none }, token := trap 0x12 n }) ∧
       (∀ n, a.extError = none → a.doldrums = none → a.watch = some n →
         becomes i { k with async := { a with watch := none }, token := trap 0x0C n }) ∧
       (∀ n, a.extError = none → a.doldrums = none → a.watch = none → a.gust = some n → k.ie = true →
         becomes i { k with async := { a with gust := none }, token := trap 0x11 n }) ∧
       (∀ n, a.extError = none → a.doldrums = none → a.watch = none → a.gust = none ∨ k.ie = false → a.step = some n →
         becomes i { k with
           async := { a with step := none }
           token := trap 0x0D n
           stepCtl := if k.stepCtl.getLsbD 1 then k.stepCtl &&& ~~~1 else k.stepCtl })) ∧
     (k.token = none → k.takeable = false → (s.core c).otherReady x = true →
       (∀ n, k.deepSlot = some n → k.swen = true → becomes (.missSwitch c) { k with token := some (.park (some n)) }) ∧
       ((s.core c).slice ≥ 4096 → (k.wait = none ∧ k.rep = none) ∨ (s.core c).slice ≥ 4152 →
         becomes (.pipeSliceExpiry c) { k with token := some (.park none) })) ∧
     (∀ r, k.token = some (.trap r) → exec (.trapEntry c) s = .next (s.takeTrap c x r)) ∧
     (∀ n, k.token = some (.park (some n)) → (k.fills.find n).isSome = true → Gives (exec (.trapEntry c) s) fun t =>
       (t.ctx c x).parked = some [n] ∧ (t.core c).pipe ≠ some x ∧ (t.ctx c x).wait = none ∧ (t.ctx c x).cstate = k.cstate ∧
       MemoryKept s t))

/-- R203, R205, R222, R229, R233, R293: a released store that nothing holds back is performed: in quad memory its bytes are there
and nothing else changes; a GLOBAL store into a line its quad's cache has, with no invalidation on its way to it, leaves them
there, dirty, and memory as it was; a versioned store makes the next version at its word's home. Every other record of the
core's list stays. R203, R205: a merge writes a line's dirty bytes at its home and no others; the quad's copy is then clean,
or gone when it is evicted. The order in which events happen is the model's choice (log entry 1). -/
def Obligations.StoresReachMemory : Prop :=
  (∀ (s : State) (c i : Nat) (r : StoreRec), s.storeReady c i = true → (s.core c).stores[i]? = some r →
     (s.ctx c (Fin.ofNat 8 r.ctx)).cstate ≠ .draining → s.MemoryForm →
     (∀ log, r.dest = .home 1 log → r.op = .write → r.wide = false → Gives (exec (.storePerformed c i) s) fun t =>
       Memory.bytes t.mem r.addr r.bytes.length = r.bytes ∧
       (∀ a, ¬(r.addr ≤ a ∧ a < r.addr + r.bytes.length) → Memory.get t.mem a = Memory.get s.mem a) ∧
       (t.core c).stores = dropPlace (s.core c).stores i) ∧
     (∀ obj log policy, r.dest = .cached obj log policy → r.wide = false → r.tag = none →
       ∀ e, s.cacheLine (quadOf c) (r.addr / 64) = some e → e.doomed = false → r.addr % 64 + r.bytes.length ≤ 64 →
       Gives (exec (.storePerformed c i) s) fun t =>
         ∃ u, t.cacheLine (quadOf c) (r.addr / 64) = some u ∧ u.writable = true ∧
           lineBytes u.data (r.addr % 64) r.bytes.length = r.bytes ∧
           (∀ b, b < 64 → ¬(r.addr % 64 ≤ b ∧ b < r.addr % 64 + r.bytes.length) →
             u.data.extractLsb' (8 * b) 8 = e.data.extractLsb' (8 * b) 8 ∧ u.dirty.getLsbD b = e.dirty.getLsbD b) ∧
           (∀ b, r.addr % 64 ≤ b → b < r.addr % 64 + r.bytes.length → u.dirty.getLsbD b = true) ∧ MemoryKept s t ∧
           (t.core c).stores = dropPlace (s.core c).stores i) ∧
     (∀ log v, r.dest = .home 3 log → r.op = .stv → r.wide = false → r.bytes = leBytes 8 v → s.syncObj r.addr = none →
       Gives (exec (.storePerformed c i) s) fun t =>
         t.memWord r.addr = BitVec.ofNat 64 v ∧ (t.vword r.addr).last = (s.vword r.addr).last + 1 ∧
         (t.core c).stores = dropPlace (s.core c).stores i)) ∧
  (∀ (s : State) (q line : Nat) (e : CacheLine) (evict : Bool), s.MemoryForm → s.log = none → s.cacheLine q line = some e →
     (∀ p ∈ s.quads, p.1 ≠ q → p.2.cache.find line = none) →
     Gives (exec (.dirtyMerge q line evict) s) fun t =>
       (∀ b, b < 64 → Memory.get t.mem (line * 64 + b) =
         if e.dirty.getLsbD b then e.data.extractLsb' (8 * b) 8 else Memory.get s.mem (line * 64 + b)) ∧
       (∀ a, ¬(line * 64 ≤ a ∧ a < line * 64 + 64) → Memory.get t.mem a = Memory.get s.mem a) ∧
       (evict = true → t.cacheLine q line = none) ∧
       (evict = false → ∃ u, t.cacheLine q line = some u ∧ u.dirty = 0 ∧ u.data = e.data))

/-- R207, R345, R350, R365, R366, R386: a sleep ends at its time, and the mesh clock reaches the next refresh window, 240 cycles
on, where nothing else is due before (canReach: no boundary of the control interval, no other sleep's end, no latch); a
RUNNING task whose budget is used up is aborted with TASK_OVERRUN, NESTED where it was in TRAP mode, and the budget it was
granted; a launch whose every core is asleep posts DOLDRUMS to every context that waits, with their number. A reset leaves the
state of State.reset but for the streams the model draws its choices from: that it comes as an event of its own is the model's
choice (log entry 38). R222, R379 to R381: a sag halves a core's clock, and once it clears the clock climbs 100 MHz each
microsecond to its ceiling; a trip pauses the clocks of its cluster until it recovers; a loss of supply, which finds no engine
with the line of a marker, stops dispatch, writes every dirty line back and stores the marker of each running launch that has
one. The order in which events happen is the model's choice (log entry 1). By the model's choice a lease's clock is 4.4 GHz
exactly (log entry 50), NESTED is set for TASK_OVERRUN in TRAP mode (log entry 34), and a marker at a line that an engine owns
is waited for (log entry 67). -/
def Obligations.ClocksSupplyAndHeat : Prop :=
  (∀ (s : State),
     (∀ c (x : Fin 8) n, (s.ctx c x).sleep = some n → s.canReach n = true →
       Gives (exec (.sleepExpiry c x.val) s) fun t => (t.ctx c x).sleep = none ∧ t.mesh = max s.mesh n ∧ MemoryKept s t) ∧
     (s.canReach ((s.mesh / 240 + 1) * 240) = true → Gives (exec .bankRefresh s) fun t =>
       t.mesh = (s.mesh / 240 + 1) * 240 ∧ (∀ c, t.core c = s.core c) ∧ MemoryKept s t) ∧
     (∀ c (x : Fin 8) i, let k := s.ctx c x
       k.cstate = .running → k.budget = 0 → k.task = some i → 0 < k.enquota.toInt →
       Gives (exec (.taskOverrun c x.val) s) fun t =>
         let u := t.ctx c x
         u.cstate = .dormant ∧ u.trapCause = (if k.mode = 1 then 0x70F else 0x30F) ∧ u.trapPc = k.faultPc ∧ u.trapInfo = BitVec.ofNat 64 i.granted ∧
         u.task = none ∧ MemoryKept s t) ∧
     (∀ n l, s.launch n = some l →
       (s.inDoldrums n l = false → exec (.doldrums n) s = .next s) ∧
       (s.inDoldrums n l = true → (∀ w ∈ s.waiters l, (s.ctx w.1 w.2).mode ≠ 1) →
         Gives (exec (.doldrums n) s) fun t =>
           (∀ w ∈ s.waiters l, (s.ctx w.1 w.2).async.doldrums = none →
             (t.ctx w.1 w.2).async.doldrums = some (BitVec.ofNat 64 (min (s.waiters l).length 65536))) ∧ MemoryKept s t)) ∧
     exec .reset s = .next { State.reset with inputs := s.inputs, picks := s.picks, delays := s.delays, freeCtr := s.freeCtr }) ∧
  (∀ (s : State),
     (∀ c, Gives (exec (.supplySag c) s) fun t => (t.core c).sag = true ∧ MemoryKept s t ∧
       ((s.cluster (clusterOf c)).gust = none → t.clock c = 20) ∧
       (∀ g, (s.cluster (clusterOf c)).gust = some g → g.pending = false → g.due = 0 → t.clock c = 22)) ∧
     (∀ c, (s.core c).sag = true → Gives (exec (.sagClear c) s) fun t =>
       (t.core c).sag = false ∧ (t.core c).sagEnd = some s.mesh ∧ MemoryKept s t ∧
       ((s.cluster (clusterOf c)).gust = none → ∀ n, ({ t with mesh := s.mesh + 2000 * n } : State).clock c = min 40 (20 + n))) ∧
     (∀ n, Gives (exec (.thermalTrip n) s) fun t => (∀ c, clusterOf c = n → t.paused c = true) ∧ MemoryKept s t) ∧
     (∀ n, Gives (exec (.thermalRecover n) s) fun t => (∀ c, clusterOf c = n → t.paused c = false) ∧ MemoryKept s t) ∧
     (s.markerHeld = true → exec .supplyLossWarning s = .next s) ∧
     (s.supplyLost = false → s.Uncached → s.MemoryForm → s.log = none → s.markerHeld = false → ∀ n l, s.launches = [(n, l)] → l.state = .running →
       l.ckpt ≠ 0 → Gives (exec .supplyLossWarning s) fun t =>
         t.supplyLost = true ∧ (∀ c, t.mayDispatch c = false) ∧ t.l2dirty = [] ∧
         (t.memWord (physKey 0 l.ckpt)).getLsbD 63 = true ∧ field (t.memWord (physKey 0 l.ckpt)) 0 48 = s.l2dirty.length % 2 ^ 48 ∧
         ∀ a, ¬(physKey 0 l.ckpt ≤ a ∧ a < physKey 0 l.ckpt + 8) → Memory.get t.mem a = Memory.get s.mem a))

/-- R125, R126, R129, R138, R222, R370, R371: DISPATCH on a core that may dispatch and has a DORMANT context starts the oldest
waiting message of its lowest queue, on every eighth dispatch of the next queue in rotation after the last served so, else the
bottom record of its deque, where the cluster admits it, which is charged, else the stolen record, which its steal has
charged; a message the cluster has no energy for is not started and is noted as refused. R135, R174, R370: a SPAWN's request
reserves the lowest DORMANT context of the named core and its reply is 1; with none there it is 0 and the child is given up. A
released child starts on its reserved context, at its own address, when its cluster admits it. R127, R128, R132, R133: a
finished task's message, first offered or offered again, takes the lowest free entry of its queue at the destination, with its
payload and zeros in the inbox slot, and leaves its context, which is then DORMANT; a queue of another launch or a full one
refuses it, and it waits. R134: a hinted task is claimed by the first core of its walk that may, and starts there; when none
may it goes on the top of the deque of the hint quad's core with the fewest records. The order in which events happen is the
model's choice (log entry 1). By the model's choice a start loads reserved RND and bank codes of the entry as they stand (log
entry 57). -/
def Obligations.DispatchAndMessages : Prop :=
  (∀ (s : State) (c : Nat) (x : Fin 8), (s.core c).dormant = some x → s.mayDispatch c = true → s.taskStops = [] →
     let k := s.core c
     let eighth : Prop := k.dispatches % 8 = 7
     let order (i : Fin 8) : Fin 8 := if k.dispatches % 8 = 7 then k.lastQueue + 1 + i else i
     let none_ (q : Fin 8) : Prop := k.hold.getLsbD q.val = true ∨ k.queues[q].waiting = none
     (∀ (i : Fin 8) e, (∀ j : Fin 8, j < i → none_ (order j)) → let q := order i
       k.hold.getLsbD q.val = false → k.queues[q].waiting = some e → s.Admits c e.task →
       Gives (exec (.dispatch c) s) fun t =>
         let en := s.entryOf c e.task.record
         (t.ctx c x).StartedAs e.task en (BitVec.ofNat 64 (2 * field en 1 15)) (0xE0000 + 0x4000 * (c % 4) + 0x800 * q.val + 0x80 * e.entry) ∧
         Charged s t c e.task ∧ (t.core c).dispatches = k.dispatches + 1 ∧
         (eighth → (t.core c).lastQueue = q) ∧ (¬eighth → (t.core c).lastQueue = k.lastQueue) ∧
         (t.core c).queues[q].hw = k.queues[q].hw.map fun m => if m.entry = e.entry then { m with dispatched := true } else m) ∧
     ((∀ q : Fin 8, none_ q) → ∀ r l, k.deque.hw = r :: l → k.deque.spillCount = 0 → s.dequeHeld c = false →
       field r.record 181 5 = 0 → s.Admits c r.task → Gives (exec (.dispatch c) s) fun t =>
         let en := s.entryOf c r.record
         (t.ctx c x).StartedAs r.task en (BitVec.ofNat 64 (2 * field en 1 15)) 0 ∧ Charged s t c r.task ∧
         (t.core c).deque.hw = l ∧ (t.core c).dispatches = k.dispatches + 1 ∧ (t.core c).lastQueue = k.lastQueue) ∧
     ((∀ q : Fin 8, none_ q) → k.deque = Deque.empty → ∀ r, k.stolen = some r → field r.record 181 5 = 0 →
       Gives (exec (.dispatch c) s) fun t =>
         let en := s.entryOf c r.record
         (t.ctx c x).StartedAs r.task en (BitVec.ofNat 64 (2 * field en 1 15)) 0 ∧ (t.core c).stolen = none ∧
         (t.core c).dispatches = k.dispatches + 1 ∧ (t.core c).lastQueue = k.lastQueue ∧
         (t.cluster (clusterOf c)).remE = (s.cluster (clusterOf c)).remE ∧
         (t.cluster (clusterOf c)).usedI = (s.cluster (clusterOf c)).usedI) ∧
     (∀ e, k.hold = 0xFE → k.queues[0].waiting = some e → (s.cluster (clusterOf c)).starved = [] →
       field e.task.record 216 16 > (s.cluster (clusterOf c)).remE → k.deque = Deque.empty → k.stolen = none →
       Gives (exec (.dispatch c) s) fun t =>
         t.ctx c x = s.ctx c x ∧ e.task.taskId ∈ (t.cluster (clusterOf c)).refusedNow ∧
         (t.cluster (clusterOf c)).remE = (s.cluster (clusterOf c)).remE)) ∧
  (∀ (s : State) (c : Nat) (x : Fin 8),
     let k := s.ctx c x
     (k.cstate = .running → ∀ slot f, k.fills.find slot = some f → f.kind = .spawn → f.value = none → ∀ e, k.send = [e] →
       ∀ dest, e.kind = .child dest slot none → ∀ parent, k.task = some parent →
       (∀ y, (s.core dest).launch = (s.core c).launch → (s.core dest).started = true → (s.core dest).lowestDormant = some y →
         Gives (exec (.spawnRequest c x.val slot) s) fun t =>
           (t.ctx dest y).cstate = .reserved ∧ (t.ctx dest y).reservation = some ⟨parent.entry, parent.sys, none⟩ ∧
           (t.ctx c x).send = [{ e with kind := .child dest slot (some y.val) }] ∧
           ((t.ctx c x).fills.find slot).map (·.value) = some (some 1) ∧ MemoryKept s t) ∧
       ((s.core dest).lowestDormant = none → Gives (exec (.spawnRequest c x.val slot) s) fun t =>
         (t.ctx c x).send = [] ∧ ((t.ctx c x).fills.find slot).map (·.value) = some (some 0) ∧ MemoryKept s t)) ∧
     (k.cstate = .reserved → ∀ en sys task, k.reservation = some ⟨en, sys, some task⟩ → k.barred = false → s.paused c = false →
       s.supplyLost = false → s.taskStops = [] → s.Admits c task → Gives (exec (.childStart c x.val) s) fun t =>
         (t.ctx c x).StartedAs task en (task.childPc.setWidth 64) 0 ∧ Charged s t c task)) ∧
  (∀ (s : State) (c : Nat) (x : Fin 8) (d : Drain) (dest launch : Nat) (l : Launch), s.launchOf c = some (launch, l) →
     s.storesOpen c x.val = false → (s.ctx c x).drain = [d] → d.kind = .msg dest → (s.ctx c x).cstate = .draining →
     let i : Instr := if d.refused then .messageReoffer c x.val else .messageOffer c x.val
     let q : Fin 8 := Fin.ofNat 8 (field d.task.record 186 3)
     let k := s.core dest
     let u := k.queues[q]
     let payload := s.payloadOf c x.val d
     (s.MemoryForm → k.launch = some launch → k.started = true → u.spillCount = 0 → u.hw.length < 256 → field d.task.record 181 5 ≤ 16 →
       ∀ e, u.freeEntry = some e → Gives (exec i s) fun t =>
         let v := (t.core dest).queues[q]
         (v.hw.map fun m => (m.entry, m.task.record, m.task.taskId, m.dispatched)) =
           (u.hw.map fun m => (m.entry, m.task.record, m.task.taskId, m.dispatched)) ++
             [(e, d.task.record, d.task.taskId, false)] ∧
         v.accepted = u.accepted + 1 ∧
         Memory.bytes t.mem (quadKey (quadOf dest) (0xE0000 + 0x4000 * (dest % 4) + 0x800 * q.val + 0x80 * e)) 128 =
           payload ++ List.replicate (128 - payload.length) 0 ∧
         (t.ctx c x).drain = [] ∧ (t.ctx c x).cstate = .dormant) ∧
     (k.launch ≠ some launch ∨ u.hw.length + u.spillCount ≥ 256 → s.queueHeld dest q = false → Gives (exec i s) fun t =>
       (t.ctx c x).drain = [{ d with refused := true }] ∧ (t.ctx c x).cstate = .draining ∧ t.core dest = (if dest = c then t.core c else k) ∧
       MemoryKept s t)) ∧
  (∀ (s : State) (c : Nat) (x : Fin 8) (d : Drain) (launch : Nat) (l : Launch), s.launchOf c = some (launch, l) →
     s.storesOpen c x.val = false → (s.ctx c x).drain = [d] → d.kind = .hint → d.refused = false → (s.ctx c x).cstate = .draining →
     let r := d.task.record
     let q := field r 186 3
     (∀ b rest, walkCores c r = b :: rest → s.mayClaim launch b q = true → s.Admits b d.task → s.taskStops = [] →
       ∀ e, (s.core b).queues[(Fin.ofNat 8 q : Fin 8)].freeEntry = some e → ∀ y, (s.core b).dormant = some y →
       Gives (exec (.hintWalk c x.val) s) fun t =>
         let en := s.entryOf b r
         (t.ctx b y).StartedAs d.task en (BitVec.ofNat 64 (2 * field en 1 15)) (0xE0000 + 0x4000 * (b % 4) + 0x800 * q + 0x80 * e) ∧
         Charged s t b d.task ∧ (t.ctx c x).drain = []) ∧
     ((∀ b ∈ walkCores c r, s.mayClaim launch b q = false) →
       (∀ b, s.hintCore launch l r = some b → (s.core b).deque.spillCount = 0 → (s.core b).deque.hw.length < 64 →
         (s.core b).deque.reserved = 0 → Gives (exec (.hintWalk c x.val) s) fun t =>
           ((t.core b).deque.hw.map fun e => (e.record, e.taskId)) =
             ((s.core b).deque.hw.map fun e => (e.record, e.taskId)) ++ [(r, d.task.taskId)] ∧
           (t.ctx c x).drain = [] ∧ MemoryKept s t) ∧
       (s.hintCore launch l r = none → Gives (exec (.hintWalk c x.val) s) fun t =>
         (t.ctx c x).drain = [{ d with refused := true }] ∧ MemoryKept s t)))

/-- R138, R222, R360, R370, R380: a core with a DORMANT context and no candidate probes its victims in turn; the victim gives the
top record of its deque where the record's group has the thief, which is admitted there and waits for its dispatch, or goes to
the bottom of the thief's deque, as it does where the thief has no DORMANT context that is not barred; a victim that has saved
its records, and one after the supply warning, gives none. A probe without a record counts as a miss, and a fruitless pass
ends in a pause. R6, R127, R143: a spilled message moves into a free hardware entry with its payload in the inbox, the
reserved bits of its record zero; a start message lets its core take part and gives it the start task, whose ARG3 is the
core's place in group 0. R143, R206, R256, R296: a launch whose every core is quiescent and whose every packet has been
performed leaves the package: its cores belong to no launch, its objects and its recordings are dropped, with the tags its
homes kept, and its LAUNCH entry has status 0. The order in which events happen is the model's choice (log entry 1). That a
stolen record goes to the thief's deque also where no DORMANT context is left is the model's choice (log entry 41). -/
def Obligations.StealsQueuesAndCompletion : Prop :=
  (∀ (s : State) (c : Nat),
     let k := s.core c
     (∀ v, k.steal = .idle → k.stolen = none → k.dormant.isSome = true → s.mayDispatch c = true → s.hasCandidate c = false →
       (s.victims c)[k.stealPtr % (s.victims c).length]? = some v → Gives (exec (.stealProbe c) s) fun t =>
         (t.core c).steal = .probing v ∧ (t.core c).stealPtr = (k.stealPtr + 1) % (s.victims c).length ∧ MemoryKept s t) ∧
     (∀ v, k.steal = .probing v → v ≠ c → ∀ launch l, s.launchOf c = some (launch, l) → (s.core v).launch = some launch →
       (s.core v).started = true → (s.core v).released = false → s.supplyLost = false → s.dequeHeld v = false → s.dequeHeld c = false →
       (s.core v).deque.spillCount = 0 → ∀ r rest, (s.core v).deque.hw = rest ++ [r] →
       c ∈ l.group (field r.record 204 8) →
       (k.dormant.isSome = true → s.Admits c r.task → Gives (exec (.stealReply c) s) fun t =>
         (t.core c).stolen = some r ∧ (t.core c).steal = .idle ∧ (t.core v).deque.hw = rest ∧ Charged s t c r.task ∧ MemoryKept s t) ∧
       (k.dormant = none ∨ ((s.cluster (clusterOf c)).starved = [] ∧ ¬s.Admits c r.task) → k.deque.hw.length < 64 →
         Gives (exec (.stealReply c) s) fun t =>
         (t.core c).stolen = k.stolen ∧ (t.core c).deque.hw = r :: k.deque.hw ∧ (t.core c).steal = .idle ∧
         (t.core v).deque.hw = rest ∧ (t.cluster (clusterOf c)).remE = (s.cluster (clusterOf c)).remE ∧ MemoryKept s t)) ∧
     (∀ v, k.steal = .probing v → (s.core v).started = false ∨ (s.core v).released = true ∨ s.supplyLost = true →
       s.dequeHeld v = false → s.dequeHeld c = false → Gives (exec (.stealReply c) s) fun t =>
       (k.stealMiss + 1 < (s.victims c).length → (t.core c).steal = .idle ∧ (t.core c).stealMiss = k.stealMiss + 1) ∧
       (k.stealMiss + 1 ≥ (s.victims c).length → (t.core c).steal = .paused ∧ (t.core c).stealMiss = 0)) ∧
     (k.steal = .paused → exec (.stealPauseExpiry c) s = .next (s.setCore c { k with steal := .idle }))) ∧
  (∀ (s : State) (c launch : Nat) (l : Launch), s.launchOf c = some (launch, l) → s.MemoryForm →
     (∀ (q : Fin 8) e b, let u := (s.core c).queues[q]
       u.spillCount ≠ 0 → u.freeEntry = some e →
       s.readVirtual l (l.qspill.toNat + (8 * c + q.val) * (240 * 256) + u.spillHead % 240 * 256) 256 = some b → b.length = 256 →
       Gives (exec (.spillMove c q.val) s) fun t =>
         let v := (t.core c).queues[q]
         v.spillCount = u.spillCount - 1 ∧ v.spillHead = (u.spillHead + 1) % 240 ∧ v.hw.length = u.hw.length + 1 ∧
         (∃ m, v.hw.getLast? = some m ∧ m.entry = e ∧ m.task.taskId = BitVec.ofNat 64 (leNat ((b.drop 32).take 8)) ∧
           m.dispatched = false ∧ ∀ i, i < 256 → m.task.record.getLsbD i =
             if 136 ≤ i ∧ i < 181 then false else (BitVec.ofNat 256 (leNat (b.take 32))).getLsbD i) ∧
         Memory.bytes t.mem (quadKey (quadOf c) (0xE0000 + 0x4000 * (c % 4) + 0x800 * q.val + 0x80 * e)) 128 = b.drop 128) ∧
     (c ∈ l.toStart → l.resuming = false →
       let q : Fin 8 := Fin.ofNat 8 (field l.startWord 8 3)
       let u := (s.core c).queues[q]
       u.spillCount = 0 → u.hw.length < 256 → ∀ e, u.freeEntry = some e → ∀ ord, (l.group 0)[ord]? = some c →
         (∀ j, j < ord → (l.group 0)[j]? ≠ some c) → Gives (exec (.startMessage c) s) fun t =>
         (t.core c).started = true ∧ (t.launch launch).map (·.toStart) = some (l.toStart.filter (· != c)) ∧
         ∃ m, (t.core c).queues[q].hw = u.hw ++ [m] ∧ m.entry = e ∧ m.dispatched = false ∧
           field m.task.record 128 8 = field l.startWord 0 8 ∧ field m.task.record 0 32 = l.args[0].toNat ∧
           field m.task.record 32 32 = l.args[1].toNat ∧ field m.task.record 64 32 = l.args[2].toNat ∧
           field m.task.record 96 32 = ord % 2 ^ 32)) ∧
  (∀ (s : State) (n : Nat) (l : Launch), s.launch n = some l →
     (l.state = .running → s.quiescent l = true → s.packets n l = false → s.recsSettled l = true →
       Gives (exec (.launchComplete n) s) fun t =>
         t.launch n = none ∧ (∀ o e, t.objects.find o = some e → e.launch ≠ n) ∧ (∀ k, t.recording n k = none) ∧
         (∀ line g, t.tags.find line = some g → g.launch ≠ n) ∧ (∀ c ∈ l.group 0, (s.core c).launch = some n → (t.core c).launch = none ∧ (t.core c).started = false ∧
           (t.core c).l1 = []) ∧
         ((s.chain l.chain).current.isSome = true → (s.chain l.chain).status = none → (t.chain l.chain).status = some 0) ∧
         ∀ m, m ≠ n → t.launch m = s.launch m) ∧
     (s.quiescent l = false → exec (.launchComplete n) s = .next s))

/-- R402 to R404, R440: what the host writes. A registration entry keeps its 67 bits, and an enabled chain's header is to be read
again; the error register and the breakpoints take their values; bytes below the weight windows land in main memory, those of
a window in its weight store, or, while a launch has a core of that die, nowhere, with the error noted. R222, R323, R325,
R403, R404, R440: a command processor with no entry in progress reads TAIL. TAIL beyond SEQ by more than the ring's length
halts the chain with reason 1; no entry there changes nothing; else the next entry begins and HEAD rises, a COPY taking
ownership of the lines of its destination. A chain whose header is to be read takes it from memory. A breakpoint's halt, once
cleared, lets its entry begin. The order in which events happen is the model's choice (log entry 1). By the model's choice the
error register takes the value written (log entry 27), and a header is read again where HDR changes with EN set (log entry
22). -/
def Obligations.HostAndTailPolls : Prop :=
  (∀ (s : State),
     (∀ ch (value : BitVec 128), ch < 128 → Gives (exec (.chainRegistrationWrite ch value) s) fun t =>
       let h := s.chain ch
       field (t.chain ch).reg 0 67 = field value 0 67 ∧ field (t.chain ch).reg 67 61 = 0 ∧
       (t.chain ch).reload = (h.reload || (value.getLsbD 64 && (!h.reg.getLsbD 64 || decide (field value 0 64 ≠ field h.reg 0 64)))) ∧
       MemoryKept s t) ∧
     (∀ v, exec (.hostRegisterWrite 0 v) s = .next { s with bar0Error := v }) ∧
     (∀ n, n < 8 → ∀ v, Gives (exec (.hostRegisterWrite (0x100 + 16 * n) v) s) fun t =>
       ∃ b, t.breakpoints.find n = some b ∧ field b 0 9 = field v 0 9 ∧ field b 9 7 = 0 ∧ field b 16 48 = field v 16 48 ∧
         ∀ m, m ≠ n → t.breakpoints.find m = s.breakpoints.find m) ∧
     (s.MemoryForm → ∀ data, data ≠ [] → ∀ offset, offset + data.length ≤ 0xC000000000 → s.hostWaits offset data.length = false → ∀ link,
       Gives (exec (.hostWrite link offset data) s) fun t =>
         Memory.bytes t.mem offset data.length = data ∧
         (s.log = none → ∀ a, a < offset / 64 * 64 ∨ (offset + data.length + 63) / 64 * 64 ≤ a →
           Memory.get t.mem a = Memory.get s.mem a)) ∧
     (∀ link o data (die : Fin 4), s.MemoryForm → o + data.length ≤ 2 ^ 30 →
       (s.dieInLaunch die.val = false → s.hostWaits (0xC000000000 + die.val * 2 ^ 30 + o) data.length = false →
         Gives (exec (.hostWrite link (0xC000000000 + die.val * 2 ^ 30 + o) data) s) fun t =>
         Memory.bytes t.mem (weightKey die.val o) data.length = data ∧
         ∀ a, ¬(weightKey die.val o ≤ a ∧ a < weightKey die.val o + data.length) → Memory.get t.mem a = Memory.get s.mem a) ∧
       (s.dieInLaunch die.val = true → data ≠ [] →
         exec (.hostWrite link (0xC000000000 + die.val * 2 ^ 30 + o) data) s = .next { s with bar0Error := s.bar0Error ||| 1 }))) ∧
  (∀ (s : State) (ch : Nat),
     let h := s.chain ch
     h.enabled = true → h.current = none → s.Uncached → s.releases = [] → s.syncObjs = [] → s.MemoryForm → s.log = none →
     (s.chainHalt.find ch = none → h.reload = false → s.headerOwned h = true → exec (.tailPoll ch) s = .next s) ∧
     (s.chainHalt.find ch = none → h.reload = false → h.halted = false → h.nent ≠ 0 → s.headerOwned h = false →
       let tail := s.memWord (physKey 0 (h.hdr + 0x10))
       let left := (tail - BitVec.ofNat 64 h.seq).toNat
       (left > h.nent → Gives (exec (.tailPoll ch) s) fun t =>
         (t.chain ch).halted = true ∧ (t.chain ch).current = none ∧ t.memWord (physKey 0 (h.hdr + 0x30)) = 0x101) ∧
       (left = 0 → Gives (exec (.tailPoll ch) s) fun t => t.chain ch = h ∧ MemoryKept s t) ∧
       (0 < left → left ≤ h.nent → s.breakpoints = [] → s.entryOwned h h.head = false → Gives (exec (.tailPoll ch) s) fun t =>
         (t.chain ch).current = some h.head ∧ (t.chain ch).head = h.head + 1 ∧ (t.chain ch).seq = h.seq ∧
         t.memWord (physKey 0 (h.hdr + 0x18)) = BitVec.ofNat 64 (h.head + 1) ∧
         (∀ p ∈ linePieces (t.copyClaims h.root (t.chainEntry ch h.head)), ∃ o, t.owners.find (p.key / 64) = some o ∧
           Claim.chain ch h.head ∈ o) ∧
         ∀ a, ¬(h.hdr + 0x18 ≤ a ∧ a < h.hdr + 0x20) → Memory.get t.mem a = Memory.get s.mem a)) ∧
     (s.chainHalt.find ch = none → h.reload = true →
       let hdr := field h.reg 0 64 / 64 * 64
       let word (o : Nat) : Nat := Memory.nat s.mem (physKey 0 (hdr + o)) 8
       word 0x10 = word 0x20 → s.headerOwned { h with hdr := h.header } = false → Gives (exec (.tailPoll ch) s) fun t =>
         let c := t.chain ch
         c.reload = false ∧ c.hdr = hdr ∧ c.base = word 0 ∧ c.nent = word 8 ∧ c.head = word 0x18 ∧ c.seq = word 0x20 ∧
         c.root = word 0x28 ∧ c.halted = decide (word 0x30 % 2 = 1) ∧ MemoryKept s t) ∧
     (∀ v, s.chainHalt.find ch = some v → s.headerOwned h = false → Gives (exec (.breakpointClear ch) s) fun t =>
       t.chainHalt.find ch = none ∧ (t.chain ch).current = some h.head ∧ (t.chain ch).head = h.head + 1))

/-- R324, R325: an entry that has its STATUS completes: STATUS and then SEQ are written, and the chain is ready for the next, with
its interrupt if it has asked for one. An unknown TYPE halts the chain with reason 2. R324, R420, R435: ROOT, WAIT, SIGNAL,
WINDOW and OBSCFG. A malformed entry ends with STATUS 7. ROOT sets the chain's root; WAIT ends when its word is at least its
value, and changes nothing before; SIGNAL writes its word; WINDOW gives a launch its window; OBSCFG starts sampling. The order
in which events happen is the model's choice (log entry 1). -/
def Obligations.ChainEntries : Prop :=
  (∀ (s : State) (ch n : Nat),
     let h := s.chain ch
     h.current = some n → s.Uncached → s.MemoryForm → s.log = none → s.headerOwned h = false →
     (∀ st, h.status = some st → s.entryOwned h n = false → (h.entryKey n + 8 ≤ h.hdr + 0x20 ∨ h.hdr + 0x28 ≤ h.entryKey n + 4) →
       Gives (exec (.chainEntryCompletion ch) s) fun t =>
         Memory.nat t.mem (h.entryKey n + 4) 4 = st % 2 ^ 32 ∧ t.memWord (h.hdr + 0x20) = BitVec.ofNat 64 (h.seq + 1) ∧
         (∀ a, ¬(h.entryKey n + 4 ≤ a ∧ a < h.entryKey n + 8) → ¬(h.hdr + 0x20 ≤ a ∧ a < h.hdr + 0x28) →
           Memory.get t.mem a = Memory.get s.mem a) ∧
         (t.chain ch).current = none ∧ (t.chain ch).seq = h.seq + 1 ∧ (t.chain ch).head = h.head ∧
         t.msix = (if h.reg.getLsbD 65 then s.msix ++ [ch] else s.msix)) ∧
     (h.status = none → bytesNat (s.chainEntry ch n) 0 1 = 0 ∨ bytesNat (s.chainEntry ch n) 0 1 > 12 →
       Gives (exec (.unknownChainEntryType ch) s) fun t =>
         (t.chain ch).halted = true ∧ (t.chain ch).current = none ∧ t.memWord (h.hdr + 0x30) = 0x201)) ∧
  (∀ (s : State) (ch : Nat) (e : List Byte),
     let a := bytesNat e 8 8
     let root := (s.chain ch).root
     (s.EntryInProgress ch 1 e →
       (entryClean e (words 1) = false ∨ a % 4096 ≠ 0 → Gives (exec (.root ch) s) fun t => EntryEnds s t ch 7) ∧
       (entryClean e (words 1) = true → a % 4096 = 0 → Gives (exec (.root ch) s) fun t =>
         t.chain ch = { s.chain ch with root := a, status := some 0 } ∧ MemoryKept s t)) ∧
     (s.EntryInProgress ch 4 e → entryClean e (words 2) = true → a % 8 = 0 → ∀ p, s.placeVirtual root a 8 false = .ok [p] →
       s.poison = [] → s.owned [p] = false → s.Uncached → s.releases = [] → s.syncObjs = [] →
       (bytesNat e 16 8 ≤ (s.memWord p.key).toNat → Gives (exec (.wait ch) s) fun t => EntryEnds s t ch 0 ∧ MemoryKept s t) ∧
       ((s.memWord p.key).toNat < bytesNat e 16 8 → exec (.wait ch) s = .next s)) ∧
     (s.EntryInProgress ch 5 e → entryClean e (words 2) = true → a % 8 = 0 → ∀ p, s.placeVirtual root a 8 true = .ok [p] →
       p.len = 8 → p.log = false → s.poison = [] → s.owned [p] = false → s.MemoryForm → s.Uncached → s.log = none →
       Gives (exec (.signal ch) s) fun t =>
         EntryEnds s t ch 0 ∧ Memory.nat t.mem p.key 8 = bytesNat e 16 8 ∧
         ∀ q, ¬(p.key ≤ q ∧ q < p.key + 8) → Memory.get t.mem q = Memory.get s.mem q) ∧
     (s.EntryInProgress ch 9 e → entryClean e (words 3) = true → ∀ l, s.launch a = some l → a < 2 ^ 16 →
       bytesNat e 16 8 % 2 ^ 16 = 0 → Gives (exec (.window ch) s) fun t =>
         EntryEnds s t ch 0 ∧ (t.launch a).map (·.window) = some (some (BitVec.ofNat 64 (bytesNat e 16 8), bytesNat e 24 8)) ∧
         MemoryKept s t) ∧
     (s.EntryInProgress ch 0x0C e → entryClean e (words 4) = true → a % 4096 = 0 → bytesNat e 32 8 % 4096 = 0 →
       let interval := bytesNat e 16 8
       let frames := bytesNat e 24 8
       ((interval ≠ 0 ∧ interval < 125) ∨ interval > 65535 ∨ frames < 1 ∨ frames > 256 →
         Gives (exec (.obscfg ch) s) fun t => EntryEnds s t ch 5) ∧
       (interval = 0 ∨ 125 ≤ interval → interval ≤ 65535 → 1 ≤ frames → frames ≤ 256 → s.obs = none →
         Gives (exec (.obscfg ch) s) fun t =>
           EntryEnds s t ch 0 ∧ t.obs = some ⟨a, interval, frames, bytesNat e 32 8, 0, s.mesh, 0⟩ ∧ MemoryKept s t)))

/-- R142, R143, R222, R325, R361: LAUNCH whose descriptor passes the tests of R325, with no core of its group 0 in a launch and
its id free, loads its cores: each belongs to the launch with nothing started, its contexts DORMANT with their registers as
R143 says; one that fails a test ends with that test's STATUS, and one whose cores are taken, or of which an engine owns a
line that it reads, waits. RESUME of a launch that is not suspended ends with 3. R244, R359 to R361: SUSPEND of a running
launch with a save area sets the flag in every core; it ends when every core has released and no packet is left, and the cores
then belong to no launch. A core that may saves its queues, each entry with its payload at its own place, and its deque and is
released; a resumed core is started with its L1 empty, after the bytes that the suspended quads released have merged. R305,
R345, R362, R363: REMOVE starts the removal of a launch. The kill flood leaves every context of a core DORMANT with KILLED
recorded, its queues, deque and commands empty; the sweep discards the launch's stores and packets once the flood has reached
every core; the confirmation ends the launch once its seals are complete, with STATUS 0 for the REMOVE entry. The order in
which events happen is the model's choice (log entry 1). By the model's choice LAUNCH also waits while its id is in use (log
entry 24), and RESUME makes LAUNCH's tests and ends with their STATUS (log entry 25); the sweep performs no store, and the
launch leaves once its seals are complete (log entry 26). -/
def Obligations.LaunchSuspensionRemoval : Prop :=
  (∀ (s : State) (ch : Nat) (e : List Byte),
     (s.EntryInProgress ch 2 e → (s.chain ch).progress = 0 →
       (s.loadLaunch ch e = .error none → exec (.launch ch) s = .next s) ∧
       (∀ st, s.loadLaunch ch e = .error (some st) → Gives (exec (.launch ch) s) fun t => EntryEnds s t ch st ∧ MemoryKept s t) ∧
       (∀ x, s.loadLaunch ch e = .ok x →
         ((s.launch x.id).isSome = true ∨ (∃ c ∈ x.launch.group 0, (s.core c).launch.isSome = true) → exec (.launch ch) s = .next s) ∧
         (s.launch x.id = none → (∀ c ∈ x.launch.group 0, (s.core c).launch = none) → Gives (exec (.launch ch) s) fun t =>
           t.launch x.id = some x.launch ∧ (t.chain ch).progress = 1 ∧ (t.chain ch).status = none ∧
           ∀ c ∈ x.launch.group 0,
             let k := t.core c
             k.launch = some x.id ∧ k.started = false ∧ k.hold = 0 ∧ k.created = 0 ∧ k.deque = Deque.empty ∧ k.l1 = [] ∧
             k.fifo = [] ∧ (∀ q : Fin 8, k.queues[q] = Queue.empty) ∧
             ∀ y : Fin 8, (k.ctx y).cstate = .dormant ∧ (∀ r, (k.ctx y).vrd r = 0) ∧ (k.ctx y).trapVec = 0 ∧
               (k.ctx y).srgen = 1 ∧ (k.ctx y).promo = 16 ∧ (k.ctx y).scopeGrp = 0 ∧ (k.ctx y).stepCtl = 0 ∧
               (k.ctx y).enquota = (if x.launch.quota = 0 then 0x7FFFFFFFFFFFFFFF else BitVec.ofNat 64 x.launch.quota)))) ∧
     (s.EntryInProgress ch 7 e →
       (s.loadLaunch ch e = .error none → exec (.resume ch) s = .next s) ∧
       (∀ st, s.loadLaunch ch e = .error (some st) → Gives (exec (.resume ch) s) fun t => EntryEnds s t ch st) ∧
       (∀ x, s.loadLaunch ch e = .ok x →
         (s.launch x.id = none → Gives (exec (.resume ch) s) fun t => EntryEnds s t ch 3) ∧
         (∀ old, s.launch x.id = some old → old.state ≠ .suspended → Gives (exec (.resume ch) s) fun t => EntryEnds s t ch 3) ∧
         (∀ old, s.launch x.id = some old → old.state = .suspended → x.launch.group 0 = old.group 0 → s.saveHeld x.launch (old.group 0) = false →
           (∀ c ∈ old.group 0, (s.core c).launch = none ∧ ∃ k r, old.saved.find c = some k ∧
             s.restoreCore { x.launch with
               chain := old.chain
               recs := old.recs.mapVals fun _ r => r.emptied
               window := old.window
               resuming := true
               saved := old.saved } c k = some r) →
           Gives (exec (.resume ch) s) fun t =>
             (t.chain ch).status = some 0 ∧
             (t.launch x.id).map (fun l => (l.state, l.chain, l.window, l.resuming, l.toStart)) =
               some (.running, old.chain, old.window, true, x.launch.toStart) ∧
             (∀ k r, t.recording x.id k = some r → r.state = .empty) ∧
             (∀ a o, t.objects.find a = some o → o.launch = x.id → o.boundTo = none) ∧
             ∀ c ∈ old.group 0, (t.core c).launch = some x.id ∧ (t.core c).started = false ∧
               ∀ k, old.saved.find c = some k → (t.core c).created = k.created ∧ (t.core c).fifoDone = k.fifoDone)))) ∧
  (∀ (s : State) (id : Nat) (l : Launch), s.launch id = some l →
     (∀ ch e, s.EntryInProgress ch 6 e → entryClean e (words 1) = true → bytesNat e 8 8 = id → id < 2 ^ 16 →
       ((s.chain ch).progress = 0 →
         (l.state ≠ .running ∨ l.save = 0 → Gives (exec (.suspend ch) s) fun t => EntryEnds s t ch 3) ∧
         (l.state = .running → l.save ≠ 0 → Gives (exec (.suspend ch) s) fun t =>
           (t.launch id).map (·.state) = some .suspending ∧ (t.chain ch).progress = 1 ∧ (t.chain ch).status = none ∧
           (∀ c ∈ l.group 0, (t.core c).preempt = true) ∧ MemoryKept s t)) ∧
       ((s.chain ch).progress ≠ 0 → l.state = .suspending → (∀ c ∈ l.group 0, (s.core c).released = true) →
         s.packets id l = false → Gives (exec (.suspend ch) s) fun t =>
           EntryEnds s t ch 0 ∧ (t.launch id).map (·.state) = some .suspended ∧
           (∀ c ∈ l.group 0, (s.core c).launch = some id → (t.core c).launch = none) ∧ MemoryKept s t)) ∧
     (∀ c, s.launchOf c = some (id, l) → s.maySave c l = true → (s.core c).stolen = none →
       (∀ u, s.writePieces id l (l.save.toNat + 0xA000 * (c % 2 ^ 13)) (s.saveImage c) = some u →
         Gives (exec (.coreSuspend c) s) fun t =>
           (t.core c).released = true ∧ t.mem = u.mem ∧
           (∀ q : Fin 8, ∀ m ∈ (s.core c).queues[q].hw, ∃ b, (256 * (16 * q.val + m.entry), b) ∈ s.saveImage c ∧
             b.drop 128 = Memory.bytes s.mem (quadKey (quadOf c) (0xE0000 + 0x4000 * (c % 4) + 0x800 * q.val + 0x80 * m.entry)) 128) ∧
           ((t.launch id).bind fun m => (m.saved.find c).map fun k => (k.queues, k.created)) =
             some ((s.core c).queues.toList, (s.core c).created))) ∧
     (∀ c, s.launchOf c = some (id, l) → l.resuming = true → c ∈ l.toStart → Gives (exec (.resumeMessage c) s) fun t =>
       (t.core c).started = true ∧ (t.core c).l1 = [] ∧ (t.launch id).map (·.toStart) = some (l.toStart.filter (· != c)) ∧
       ((∀ p ∈ l.saved, p.2.rel = none) → MemoryKept s t) ∧
       ∀ p ∈ l.saved, ∀ q objs, p.2.rel = some (q, objs) → q ≠ quadOf c → ∀ line e, t.cacheLine q line = some e →
         e.dirty = 0 ∨ ∀ o ∈ e.objs, o ∉ objs)) ∧
  (∀ (s : State) (id : Nat) (l : Launch), s.launch id = some l →
     (∀ ch e, s.EntryInProgress ch 8 e → entryClean e (words 1) = true → bytesNat e 8 8 = id → id < 2 ^ 16 →
       (s.chain ch).progress = 0 → l.state ≠ .removing → Gives (exec (.remove ch) s) fun t =>
         (t.launch id).map (fun m => (m.state, m.removedBy)) = some (.removing, some ch) ∧ (t.chain ch).progress = 1 ∧
         (t.chain ch).status = none) ∧
     (l.state = .removing →
       (∀ c, c ∈ l.flood → (s.core c).launch = some id → Gives (exec (.killFlood id c) s) fun t =>
         (t.launch id).map (·.flood) = some (l.flood.filter (· != c)) ∧
         (∀ x : Fin 8, (t.ctx c x).cstate = .dormant ∧ (t.ctx c x).trapCause = 0x313 ∧ (t.ctx c x).trapPc = (s.ctx c x).faultPc ∧
           (t.ctx c x).task = none) ∧
         (t.core c).fifo = [] ∧ (t.core c).deque = Deque.empty ∧ (∀ q : Fin 8, (t.core c).queues[q] = Queue.empty) ∧ MemoryKept s t) ∧
       (l.flood = [] → Gives (exec (.sweepEnd id) s) fun t =>
         (t.launch id).map (·.swept) = some true ∧ (∀ c ∈ l.group 0, ∀ r ∈ (t.core c).stores, r.launch ≠ id) ∧
         (∀ r ∈ t.remotes, r.launch ≠ id) ∧ MemoryKept s t) ∧
       (l.swept = true → s.packets id l = false → s.recsSettled l = true → Gives (exec (.removalConfirmation id) s) fun t =>
         t.launch id = none ∧ (∀ c ∈ l.group 0, (s.core c).launch = some id → (t.core c).launch = none) ∧
         ∀ ch, l.removedBy = some ch → (t.chain ch).status = some 0)))

/-- R368, R370 to R373, R375, R376, R378: at the boundary of a control interval each cluster takes its measured melt and its new
budget, a hard stop begins at 1000 and ends below 200, a lease in effect ends at a hard stop, at 950 or when its time is up;
each context of a launch with a quota is refilled, at most to the quota, and its bar ends when it has energy again. R222,
R392, R436, R437, R439, R441: a sample due at a boundary writes its frame, or keeps it while an engine owns a line of it: the
frame number, its times, each count at its place, saturating, and starting again from zero, zeros elsewhere; the flash trigger
counts, or joins one that is still to latch, and latches every context's record 2,048 mesh cycles on; the copy, once no engine
owns a line of it, writes the number of the trigger that was latched and the records; a task stop has the words written. The
order in which events happen is the model's choice (log entry 1). By the model's choice a pending grant is tested at the
boundary at which it takes effect (log entry 32), a port's counts come with the sample's event (log entry 28), and what waits
on an engine's lines is log entry 67's. -/
def Obligations.IntervalsAndObservation : Prop :=
  (∀ (s : State),
     Gives (exec (.controlIntervalBoundary []) s) (fun t =>
       t.mesh = (s.mesh / 16000 + 1) * 16000 ∧ MemoryKept s t ∧
       (∀ c (x : Fin 8) id l, (s.core c).launch = some id → s.launch id = some l →
         let k := s.ctx c x
         let u := t.ctx c x
         let rem := min (l.quota : Int) (k.enquota.toInt + l.quota)
         (l.quota = 0 → u = k) ∧
         (l.quota ≠ 0 → u.enquota = BitVec.ofInt 64 rem ∧ u.barred = (k.barred && decide (rem ≤ 0)) ∧ u.g = k.g ∧ u.pc = k.pc))) ∧
     (∀ n, n < 256 → ∀ k, s.cluster n = k → ∀ p, p ≤ 1000 → Gives (exec (.controlIntervalBoundary [(n, p)]) s) fun t =>
       let u := t.cluster n
       let hard := k.refrz = false ∧ p = 1000
       u.permil = p ∧ (u.refrz = true ↔ hard ∨ (k.refrz = true ∧ 200 ≤ p)) ∧ u.remE = u.budget ∧ u.eb = k.eb ∧ u.usedI = k.usedI ∧
       (∀ id, id ∈ u.starved ↔ id ∈ k.starved ∨ (id ∈ k.refusedNow ∧ id ∈ k.refusedLast)) ∧ u.refusedLast = k.refusedNow ∧
       u.refusedNow = [] ∧
       ∀ g, k.gust = some g → ∃ h, u.gust = some h ∧ h.core = g.core ∧ h.ctx = g.ctx ∧ h.pending = false ∧
         h.remain = (if g.pending then g.remain else g.remain - 16000) ∧ (h.due = 4 ↔ hard) ∧ (h.due = 3 ↔ ¬hard ∧ 950 ≤ p) ∧
         (h.due = 2 ↔ p < 950 ∧ h.remain = 0) ∧ (h.due = 0 ↔ p < 950 ∧ h.remain ≠ 0))) ∧
  (∀ (s : State),
     (∀ o, s.obs = some o → o.interval ≠ 0 → o.interval ≤ o.intervals → s.mesh % 16000 = 0 → s.obsNext = none → s.Uncached → s.MemoryForm →
       ∀ p, 0x40 ≤ p → p + 8 ≤ 0xA0940 → p % 8 = 0 → ∀ v w, s.ports = [(p, w)] → s.frames = [] →
       let place := o.ring + 0xA1000 * ((o.frame + 1) % o.frames)
       (s.fillHeld place 0xA0940 = true → Gives (exec (.isobarSample [(p, v)]) s) fun t =>
         t.frames.map (·.1) = [place] ∧ t.ports = [] ∧ t.obs = some { o with frame := o.frame + 1, lastSample := s.mesh, intervals := 0 } ∧
         MemoryKept s t) ∧
       (s.fillHeld place 0xA0940 = false → Gives (exec (.isobarSample [(p, v)]) s) fun t =>
         let count (i : Nat) : Nat := min (field w i 32 + field v i 32) (2 ^ 32 - 1)
         let key := physKey 0 place
         t.memWord key = BitVec.ofNat 64 (o.frame + 1) ∧ t.memWord (key + 8) = BitVec.ofNat 64 s.mesh ∧
         t.memWord (key + 16) = BitVec.ofNat 64 (s.mesh - o.lastSample) ∧ t.memWord (key + p) = BitVec.ofNat 64 (count 0 + count 32 * 2 ^ 32) ∧ t.ports = [] ∧
         (∀ a, key + 24 ≤ a → a < key + 0xA0940 → ¬(key + p ≤ a ∧ a < key + p + 8) → Memory.get t.mem a = 0) ∧
         (∀ a, ¬(key ≤ a ∧ a < key + 0xA0940) → Memory.get t.mem a = Memory.get s.mem a) ∧
         t.frames = [] ∧ t.obs = some { o with frame := o.frame + 1, lastSample := s.mesh, intervals := 0 })) ∧
     (∀ n, s.trigger.latchAt = some n → exec .hostFlashTrigger s = .next s) ∧
     (s.trigger.latchAt = none → Gives (exec .hostFlashTrigger s) fun t =>
       t.trigger.number = s.trigger.number + 1 ∧ t.trigger.latchAt = some (s.mesh + 2048) ∧ MemoryKept s t) ∧
     (∀ n, s.trigger.latchAt = some n → s.canReach n = true → Gives (exec .snapshotLatch s) fun t =>
       t.trigger.latchAt = none ∧ t.trigger.number = s.trigger.number ∧ t.trigger.latched = s.trigger.number ∧ MemoryKept s t ∧
       ∀ c (x : Fin 8), let k := s.ctx c x
         k.cstate ≠ .dormant → ∃ r, t.trigger.records.find (8 * c + x.val) = some r ∧
           (∀ i, k.task = some i → field r 0 64 = i.task.taskId.toNat) ∧ field r 64 16 = field k.faultPc 0 16 ∧
           field r 80 2 = (match k.cstate with
             | .dormant => 0
             | .reserved => 1
             | .running => 2
             | .draining => 3) ∧
           r.getLsbD 82 = decide ((s.core c).pipe = some x) ∧ r.getLsbD 83 = k.parked.isSome) ∧
     (∀ o, s.obs = some o → o.copy ≠ 0 → s.trigger.copying = true → ∀ i r, s.trigger.records = [(i, r)] → 16 * i + 16 ≤ 0x100000 →
       s.Uncached → s.MemoryForm → s.fillHeld o.copy 0x101000 = false → Gives (exec .snapshotCopy s) fun t =>
         let key := physKey 0 o.copy
         t.memWord key = s.trigger.latched.setWidth 64 ∧ (t.memWord (key + 0x1000 + 16 * i)).toNat = field r 0 64 ∧
         (t.memWord (key + 0x1000 + 16 * i + 8)).toNat = field r 64 64 ∧ t.trigger.copying = false ∧
         ∀ a, ¬(key ≤ a ∧ a < key + 0x101000) → Memory.get t.mem a = Memory.get s.mem a) ∧
     (∀ n, n < 4 → ∀ w0 w1, Gives (exec (.taskStopWrite n w0 w1) s) fun t =>
       ∃ k, t.taskStops.find n = some k ∧ k.taskId = w0 ∧ k.word1 = w1 &&& 0x7FFFD ∧ MemoryKept s t))
end

