-- ==== Sys2Proof/Laws/Memory.lean ====
section
/-!
SUPPORT. Memory: what a byte reads as after a write, that every write keeps the canonical form, and that a form is the only
one of its contents below a bound.
-/

namespace Sys2Proof.Machine

@[simp] theorem get_nil (a : Nat) : Memory.get [] a = Memory.unwritten := rfl

/-- The form holds from any lower bound. -/
theorem wfFrom_mono {lo hi : Nat} (h : lo ≤ hi) {m : List Host.Cell} (w : Memory.wfFrom hi m = true) : Memory.wfFrom lo m = true := by
  cases m with
  | nil => rfl
  | cons c m =>
    obtain ⟨k, v⟩ := c
    simp only [Memory.wfFrom, Bool.and_eq_true, decide_eq_true_eq] at *
    exact ⟨⟨by omega, w.1.2⟩, w.2⟩

/-- Nothing is listed below the bound. -/
theorem get_below {lo a : Nat} (h : a < lo) {m : List Host.Cell} (w : Memory.wfFrom lo m = true) : Memory.get m a = Memory.unwritten := by
  induction m generalizing lo with
  | nil => rfl
  | cons c m ih =>
    obtain ⟨k, v⟩ := c
    simp only [Memory.wfFrom, Bool.and_eq_true, decide_eq_true_eq] at w
    rw [Memory.get, if_neg (by omega)]
    exact ih (by omega) w.2

/-- A byte reads as written, and every other as before. -/
theorem get_set {lo : Nat} {m : List Host.Cell} (w : Memory.wfFrom lo m = true) (a : Nat) (b : Byte) (p : Nat) :
    Memory.get (Memory.set m a b) p = if p = a then b else Memory.get m p := by
  induction m generalizing lo with
  | nil =>
    rw [Memory.set]
    split
    · next h => simp [h]
    · simp only [Memory.get, eq_comm]
  | cons c m ih =>
    obtain ⟨k, v⟩ := c
    simp only [Memory.wfFrom, Bool.and_eq_true, decide_eq_true_eq] at w
    have hk : Memory.get m k = Memory.unwritten := get_below (Nat.lt_succ_self k) w.2
    have hlt (h : a < k) : Memory.get m a = Memory.unwritten := get_below (by omega) w.2
    rw [Memory.set]
    split
    · next h =>
      split
      · next e =>
        by_cases hp : p = a
        · rw [if_pos hp, hp, Memory.get, if_neg (by omega), hlt h, e]
        · rw [if_neg hp]
      · by_cases hp : p = a
        · rw [if_pos hp, Memory.get, if_pos hp.symm]
        · rw [if_neg hp, Memory.get, if_neg (Ne.symm hp)]
    · split
      · next h =>
        subst h
        split
        · next e =>
          by_cases hp : p = a
          · rw [if_pos hp, hp, hk, e]
          · rw [if_neg hp, Memory.get, if_neg (Ne.symm hp)]
        · by_cases hp : p = a
          · rw [if_pos hp, Memory.get, if_pos hp.symm]
          · rw [if_neg hp, Memory.get, Memory.get, if_neg (Ne.symm hp), if_neg (Ne.symm hp)]
      · next hn =>
        rw [Memory.get, Memory.get, ih w.2]
        by_cases hp : k = p
        · rw [if_pos hp, if_pos hp, if_neg (by omega)]
        · rw [if_neg hp, if_neg hp]

theorem wfFrom_set {lo : Nat} {m : List Host.Cell} (w : Memory.wfFrom lo m = true) {a : Nat} (h : lo ≤ a) (b : Byte) :
    Memory.wfFrom lo (Memory.set m a b) = true := by
  induction m generalizing lo with
  | nil =>
    rw [Memory.set]
    split
    · rfl
    · next e => simp [Memory.wfFrom, h, e]
  | cons c m ih =>
    obtain ⟨k, v⟩ := c
    have w' := w
    simp only [Memory.wfFrom, Bool.and_eq_true, decide_eq_true_eq] at w
    rw [Memory.set]
    split
    · split
      · exact w'
      · next hk e =>
        simp only [Memory.wfFrom, Bool.and_eq_true, decide_eq_true_eq, bne_iff_ne, ne_eq]
        exact ⟨⟨h, e⟩, ⟨by omega, by simpa using w.1.2⟩, w.2⟩
    · split
      · next hk =>
        split
        · exact wfFrom_mono (by omega) w.2
        · next e =>
          simp only [Memory.wfFrom, Bool.and_eq_true, decide_eq_true_eq, bne_iff_ne, ne_eq]
          exact ⟨⟨h, e⟩, hk ▸ w.2⟩
      · simp only [Memory.wfFrom, Bool.and_eq_true, decide_eq_true_eq]
        exact ⟨w.1, ih w.2 (by omega)⟩

/-- Writing a byte keeps the canonical form. -/
theorem wf_set {m : List Host.Cell} (w : Memory.wf m = true) (a : Nat) (b : Byte) : Memory.wf (Memory.set m a b) = true :=
  wfFrom_set w (Nat.zero_le a) b

/-- Storing bytes keeps the canonical form. -/
theorem wf_store {m : List Host.Cell} (w : Memory.wf m = true) (a : Nat) (l : List Byte) : Memory.wf (Memory.store m a l) = true := by
  induction l generalizing m a with
  | nil => exact w
  | cons b l ih => exact ih (wf_set w a b) (a + 1)

/-- A byte after a store: the stored one at its place, or as before. -/
theorem get_store {m : List Host.Cell} (w : Memory.wf m = true) (a : Nat) (l : List Byte) (p : Nat) :
    Memory.get (Memory.store m a l) p = if a ≤ p ∧ p < a + l.length then l.getD (p - a) 0 else Memory.get m p := by
  induction l generalizing m a with
  | nil =>
    rw [if_neg (by simp)]
    rfl
  | cons b l ih =>
    rw [Memory.store, ih (wf_set w a b), get_set w, List.length_cons]
    by_cases h : p = a
    · subst h
      rw [if_neg (by omega), if_pos rfl, if_pos (by omega)]
      simp
    · by_cases k : a + 1 ≤ p ∧ p < a + 1 + l.length
      · rw [if_pos k, if_pos (by omega), show p - a = (p - (a + 1)) + 1 by omega, List.getD_cons_succ]
      · rw [if_neg k, if_neg h, if_neg (by omega)]

@[simp] theorem length_bytes (m : List Host.Cell) (a n : Nat) : (Memory.bytes m a n).length = n := by
  induction n generalizing a with
  | zero => rfl
  | succ n ih => simp [Memory.bytes, ih]

/-- Bytes are those of equal memory. -/
theorem bytes_congr {m k : List Host.Cell} {a n : Nat} (h : ∀ p, a ≤ p → p < a + n → Memory.get m p = Memory.get k p) :
    Memory.bytes m a n = Memory.bytes k a n := by
  induction n generalizing a with
  | zero => rfl
  | succ n ih => rw [Memory.bytes, Memory.bytes, h a (Nat.le_refl a) (by omega), ih fun p x y => h p (by omega) (by omega)]

@[simp] theorem length_leBytes (n v : Nat) : (leBytes n v).length = n := by
  induction n generalizing v with
  | zero => rfl
  | succ n ih => simp [leBytes, ih]

/-- A number laid out in n bytes reads back, reduced to them. -/
theorem leNat_leBytes (n v : Nat) : leNat (leBytes n v) = v % 256 ^ n := by
  induction n generalizing v with
  | zero => rw [Nat.pow_zero, Nat.mod_one]; rfl
  | succ n ih => rw [leBytes, leNat, ih, BitVec.toNat_ofNat, show (256 : Nat) ^ (n + 1) = 256 * 256 ^ n by rw [Nat.pow_succ, Nat.mul_comm], Nat.mod_mul]

/-- Memory at reset has the form. -/
theorem wf_reset : Memory.wf State.reset.mem = true := rfl

end Sys2Proof.Machine
end

