-- ==== Sys2Proof/Laws/Ops.lean ====
section
/-!
SUPPORT. The shared operations that write no memory, and the one that writes it.
-/

namespace Sys2Proof.Machine

@[simp] theorem mem_setCore (s : State) (c : Nat) (k : Core) : (s.setCore c k).mem = s.mem := rfl
@[simp] theorem mem_updCore (s : State) (c : Nat) (f : Core → Core) : (s.updCore c f).mem = s.mem := rfl
@[simp] theorem mem_setCtx (s : State) (c : Nat) (x : Fin 8) (t : Ctx) : (s.setCtx c x t).mem = s.mem := rfl
@[simp] theorem mem_updCtx (s : State) (c : Nat) (x : Fin 8) (f : Ctx → Ctx) : (s.updCtx c x f).mem = s.mem := rfl
@[simp] theorem mem_setQuad (s : State) (q : Nat) (k : Quad) : (s.setQuad q k).mem = s.mem := rfl
@[simp] theorem mem_updQuad (s : State) (q : Nat) (f : Quad → Quad) : (s.updQuad q f).mem = s.mem := rfl
@[simp] theorem mem_setCluster (s : State) (n : Nat) (k : Cluster) : (s.setCluster n k).mem = s.mem := rfl
@[simp] theorem mem_setGather (s : State) (n : Nat) (k : Gather) : (s.setGather n k).mem = s.mem := rfl
@[simp] theorem mem_setChain (s : State) (n : Nat) (k : Chain) : (s.setChain n k).mem = s.mem := rfl
@[simp] theorem mem_setLaunch (s : State) (n : Nat) (k : Launch) : (s.setLaunch n k).mem = s.mem := rfl
@[simp] theorem mem_updMe (s : State) (f : Ctx → Ctx) : (s.updMe f).mem = s.mem := rfl
@[simp] theorem mem_clearLane (s : State) (c : Nat) (x : Fin 8) : (s.clearLane c x).mem = s.mem := rfl

@[simp] theorem mem_dropTags (s : State) (n r : Nat) : (s.dropTags n r).mem = s.mem := rfl

/-- The end of a task's array lease, its window, its children and its record writes no memory. -/
@[simp] theorem mem_closeWindow (s : State) (c : Nat) (x : Fin 8) : (s.closeWindow c x).mem = s.mem := by
  unfold State.closeWindow
  split
  · dsimp only
    split
    · rfl
    · split
      · rw [mem_dropTags]; rfl
      · rfl
  · rfl
@[simp] theorem mem_endArray (s : State) (c : Nat) (x : Fin 8) : (s.endArray c x).mem = s.mem := by
  unfold State.endArray
  rfl
@[simp] theorem mem_returnCurrent (s : State) (c : Nat) (t : Option TaskInfo) (a : Bool) : (s.returnCurrent c t a).mem = s.mem := by
  unfold State.returnCurrent
  split <;> rfl
@[simp] theorem mem_endTask (s : State) (c : Nat) (x : Fin 8) (pc : Word) (b : Bool) : (s.endTask c x pc b).mem = s.mem := by
  simp [State.endTask]
@[simp] theorem mem_freeChildren (s : State) (l : List SendEntry) : (s.freeChildren l).mem = s.mem := by
  induction l generalizing s with
  | nil => rfl
  | cons e l ih =>
    rw [State.freeChildren, ih]
    split <;> rfl
@[simp] theorem mem_abort (s : State) (c : Nat) (x : Fin 8) (cause pc info : Word) : (s.abort c x cause pc info).mem = s.mem := by
  simp [State.abort]
/-- Taking an exception writes no memory. -/
@[simp] theorem mem_enterTrap (s : State) (c : Nat) (x : Fin 8) (r : Report) : (s.enterTrap c x r).mem = s.mem := by
  unfold State.enterTrap
  simp only []
  split <;> simp
@[simp] theorem mem_forgetPlaces (s : State) (c : Nat) : (s.forgetPlaces c).mem = s.mem := rfl
@[simp] theorem mem_takeTrap (s : State) (c : Nat) (x : Fin 8) (r : Report) : (s.takeTrap c x r).mem = s.mem := by
  unfold State.takeTrap
  simp only []
  split <;> simp

/-- A synchronous fault is taken in one step, and writes no memory. -/
theorem fault_next (s : State) (code : BitVec 8) (info : Word) :
    ∃ t, s.fault code info = .next t ∧ t.mem = s.mem := ⟨_, rfl, mem_takeTrap _ _ _ _⟩

/-- A wait changes nothing but the wait of the running context. -/
theorem waitFor_next (s : State) (w : Wait) : s.waitFor w = .next (s.setMe { s.me with wait := some w }) := rfl

/-- A read that is found goes on; one that must wait waits. -/
theorem found_ok (s t : State) (a : α) (off : Nat) (k : State → α → Out) : s.found (.ok t a) off k = k t a := rfl

/-- A check that passes goes on; one that fails faults with its cause. -/
theorem orFault_ok (s : State) (a : α) (k : α → Out) : s.orFault (.ok a) k = k a := rfl
theorem orFault_error (s : State) (e : BitVec 8 × Word) (k : α → Out) : s.orFault (.error e) k = s.fault e.1 e.2 := rfl

/-- Bytes put in memory: the canonical form stays, and every other byte. -/
theorem wf_putMem (s : State) (a : Nat) (b : List Byte) (h : Memory.wf s.mem = true) : Memory.wf (s.putMem a b).mem = true := wf_store h a b
theorem get_putMem (s : State) (a : Nat) (b : List Byte) (h : Memory.wf s.mem = true) (p : Nat) :
    Memory.get (s.putMem a b).mem p = if a ≤ p ∧ p < a + b.length then b.getD (p - a) 0 else Memory.get s.mem p := get_store h a b p
theorem wf_putWord (s : State) (a : Nat) (v : Word) (h : Memory.wf s.mem = true) : Memory.wf (s.putWord a v).mem = true := wf_store h a _

/-- The report of a trap that has a handler and does not nest: the registers saved and the handler entered. -/
theorem enterTrap_handled (s : State) (c : Nat) (x : Fin 8) (r : Report) (h : (s.ctx c x).trapVec.extractLsb' 1 15 ≠ 0)
    (m : (s.ctx c x).mode ≠ trapMode) : s.enterTrap c x r = (s.clearLane c x).updCtx c x fun t =>
      { t.annul with
        tstatus := t.annul.status
        status := setBits (clearPrefix t.annul.status) 6 2 trapMode &&& ~~~(0x20 : Word)
        trapCause := causeWord r.code r.async false false
        trapPc := r.pc
        trapInfo := r.info
        trapMsg := t.annul.trapMsgValue
        pc := t.annul.trapVec &&& 0xFFFE } := by
  unfold State.enterTrap
  dsimp only
  rw [if_neg (by rintro (e | e); exact h e; exact m e.1)]
  simp only [m, decide_false]

/-- A trap of any cause but TRANSLATION does nothing more than that; TRANSLATION also has the core translate afresh. -/
theorem takeTrap_other (s : State) (c : Nat) (x : Fin 8) (r : Report) (n : r.code ≠ Cause.translation) :
    s.takeTrap c x r = s.enterTrap c x r := if_neg n
theorem takeTrap_translation (s : State) (c : Nat) (x : Fin 8) (r : Report) (n : r.code = Cause.translation) :
    s.takeTrap c x r = (s.enterTrap c x r).forgetPlaces c := if_pos n

/-! ### Loads and stores -/

/-- A load whose checks and translation pass and whose bytes are found goes on with them. -/
theorem loadAt_ok (s t u : State) (n : BitVec 4) (off size : Nat) (spaces : List Nat) (nc : Bool) (k : State → List Byte → Out)
    (h : BitVec 256) (l : List Span) (b : List Byte) (a : s.chkAccess s.cur.1 s.hbs n off size ⟨false, spaces, size, true⟩ = .ok h)
    (p : s.placeCore s.cur.1 h off size false = .ok (l, t)) (r : t.load h off l nc = .ok u b) :
    s.loadAt n off size spaces nc k = k u b := by
  rw [State.loadAt, a, orFault_ok, p, orFault_ok]
  dsimp only
  rw [r, found_ok]

/-- A load that fails a check faults with that check's cause. -/
theorem loadAt_error (s : State) (n : BitVec 4) (off size : Nat) (spaces : List Nat) (nc : Bool) (k : State → List Byte → Out)
    (e : BitVec 8 × Word) (a : s.chkAccess s.cur.1 s.hbs n off size ⟨false, spaces, size, true⟩ = .error e) :
    s.loadAt n off size spaces nc k = s.fault e.1 e.2 := by
  rw [State.loadAt, a, orFault_error]

/-- A store whose checks, translation and watch pass, with no version pending, goes on with its place. -/
theorem storeAt_ok (s t : State) (n : BitVec 4) (off size align : Nat) (spaces : List Nat) (k : State → BitVec 256 → List Span → Out)
    (h : BitVec 256) (l : List Span) (a : s.chkAccess s.cur.1 s.hbs n off align ⟨true, spaces, size, true⟩ = .ok h)
    (p : s.placeCore s.cur.1 h off size true = .ok (l, t)) (v : t.me.versionPending = false) (x : Unit)
    (w : t.me.chkWatch (if hSpace h = spRemote then [] else l) = .ok x) : s.storeAt n off size align spaces k = k t h l := by
  rw [State.storeAt, a, orFault_ok, p, orFault_ok]
  dsimp only
  rw [v, w]
  rfl

/-- A store that fails a check faults with that check's cause. -/
theorem storeAt_error (s : State) (n : BitVec 4) (off size align : Nat) (spaces : List Nat) (k : State → BitVec 256 → List Span → Out)
    (e : BitVec 8 × Word) (a : s.chkAccess s.cur.1 s.hbs n off align ⟨true, spaces, size, true⟩ = .error e) :
    s.storeAt n off size align spaces k = s.fault e.1 e.2 := by
  rw [State.storeAt, a, orFault_error]

@[simp] theorem mem_takeOrdinal (s : State) (c : Nat) (x : Fin 8) (h : BitVec 256) : (s.takeOrdinal c x h).2.mem = s.mem := by
  unfold State.takeOrdinal
  split
  · split <;> rfl
  · rfl

/-- A fold of steps that write no memory writes none. -/
theorem mem_foldl {α : Type} (l : List α) (s : State) (f : State → α → State) (h : ∀ t a, (f t a).mem = t.mem) :
    (l.foldl f s).mem = s.mem := by
  induction l generalizing s with
  | nil => rfl
  | cons a l ih => rw [List.foldl_cons, ih, h]

/-- A store that leaves its core writes no memory before it is performed. -/
@[simp] theorem mem_releaseStore (s : State) (c : Nat) (x : Fin 8) (h : BitVec 256) (off : Nat) (l : List Span) (b : List Byte)
    (op : HomeOp) (tag : Option Tag) (rel wide : Bool) : (s.releaseStore c x h off l b op tag rel wide).mem = s.mem := by
  unfold State.releaseStore State.releaseLane
  exact mem_foldl _ _ _ fun _ _ => rfl

/-- With a free fill slot the producer goes on with the lowest. -/
theorem withSlot_some (s : State) (k : Fin 16 → Out) (n : Fin 16) (h : s.me.freeSlot = some n) : s.withSlot k = k n := by
  rw [State.withSlot, h]

end Sys2Proof.Machine
end

