-- ==== Sys2Proof/Laws/Cache.lean ====
section
/-!
SUPPORT. The cache operations keep memory in its canonical form; those that only look up, tag or record write none.
-/

namespace Sys2Proof.Machine

/-- The form is a property of the bytes alone. -/
theorem form_of_mem {s t : State} (h : s.MemoryForm) (e : t.mem = s.mem) : t.MemoryForm := by
  unfold State.MemoryForm
  rw [e]
  exact h

/-- A fold of steps that keep the form keeps it. -/
theorem form_foldl {α : Type} (l : List α) (s : State) (f : State → α → State) (h : ∀ t a, t.MemoryForm → (f t a).MemoryForm)
    (k : s.MemoryForm) : (l.foldl f s).MemoryForm := by
  induction l generalizing s with
  | nil => exact k
  | cons a l ih => exact ih _ (h _ _ k)

theorem form_putMem {s : State} (h : s.MemoryForm) (a : Nat) (b : List Byte) : (s.putMem a b).MemoryForm := wf_store h a b
theorem form_putWord {s : State} (h : s.MemoryForm) (a : Nat) (v : Word) : (s.putWord a v).MemoryForm := wf_store h a _

@[simp] theorem mem_putLine (s : State) (q line : Nat) (e : CacheLine) : (s.putLine q line e).mem = s.mem := rfl
@[simp] theorem mem_dropLine (s : State) (q line : Nat) : (s.dropLine q line).mem = s.mem := rfl
@[simp] theorem mem_stalePushes (s : State) (line : Nat) : (s.stalePushes line).mem = s.mem := rfl
@[simp] theorem mem_setRec (s : State) (launch n : Nat) (r : Recording) : (s.setRec launch n r).mem = s.mem := by
  unfold State.setRec
  split <;> rfl
@[simp] theorem mem_keepTag (s : State) (line : Nat) (t : Option Tag) : (s.keepTag line t).mem = s.mem := by
  unfold State.keepTag
  repeat' split
  all_goals rfl
@[simp] theorem mem_pick (s : State) (n : Nat) : (s.pick n).2.mem = s.mem := by
  unfold State.pick
  repeat' split
  all_goals rfl
@[simp] theorem mem_consume (s : State) (q line : Nat) (e : CacheLine) : (s.consume q line e).mem = s.mem := by
  unfold State.consume
  split
  · rfl
  · dsimp only
    split
    · rw [mem_setRec]; rfl
    · rfl
@[simp] theorem mem_l1Lookup (s : State) (c line : Nat) : (s.l1Lookup c line).2.mem = s.mem := by
  unfold State.l1Lookup
  split
  · rfl
  · split <;> rfl
@[simp] theorem mem_l1Allocate (s : State) (c line : Nat) (d : BitVec 512) : (s.l1Allocate c line d).mem = s.mem := by
  unfold State.l1Allocate
  dsimp only
  split <;> simp
@[simp] theorem mem_homeRead (s : State) (q line launch obj : Nat) : (s.homeRead q line launch obj).mem = s.mem := by
  unfold State.homeRead
  split
  · rfl
  · dsimp only
    repeat' split
    all_goals simp

theorem form_putLine {s : State} (h : s.MemoryForm) (q line : Nat) (e : CacheLine) : (s.putLine q line e).MemoryForm := form_of_mem h rfl
theorem form_stalePushes {s : State} (h : s.MemoryForm) (line : Nat) : (s.stalePushes line).MemoryForm := form_of_mem h rfl
theorem form_keepTag {s : State} (h : s.MemoryForm) (line : Nat) (t : Option Tag) : (s.keepTag line t).MemoryForm :=
  form_of_mem h (mem_keepTag _ _ _)

@[simp] theorem mem_closeTiles (s : State) (line : Nat) : (s.closeTiles line).mem = s.mem := rfl
@[simp] theorem mem_metWords (s : State) (line : Nat) : (s.metWords line).mem = s.mem := rfl
@[simp] theorem mem_spoil (s : State) (key len : Nat) : (s.spoil key len).mem = s.mem := rfl
@[simp] theorem mem_spoilLine (s : State) (line : Nat) (dirty : BitVec 64) : (s.spoilLine line dirty).mem = s.mem := by
  unfold State.spoilLine
  dsimp only
  repeat' split
  all_goals rfl
@[simp] theorem mem_acknowledged (s : State) : s.acknowledged.mem = s.mem := rfl
@[simp] theorem mem_l2Drop (s : State) (line : Nat) : (s.l2Drop line).mem = s.mem := rfl
@[simp] theorem mem_l2Keep (s : State) (line : Nat) : (s.l2Keep line).mem = s.mem := by
  unfold State.l2Keep
  dsimp only
  repeat' split
  all_goals first | rfl | exact mem_pick _ _
@[simp] theorem mem_l2KeepAll (s : State) (lines : List Nat) : (s.l2KeepAll lines).mem = s.mem := by
  unfold State.l2KeepAll
  dsimp only
  split
  · rfl
  · exact mem_foldl _ _ _ fun t a => mem_l2Keep t a
@[simp] theorem mem_staleLines (s : State) (inside : Nat → Bool) : (s.staleLines inside).mem = s.mem := rfl
@[simp] theorem mem_metLines (s : State) (inside : Nat → Bool) : (s.metLines inside).mem = s.mem := rfl
/-- What a home notes of a write writes no memory: its log entry is written later (R410). -/
@[simp] theorem mem_dirtyLine (s : State) (launch line : Nat) (log keep : Bool) : (s.dirtyLine launch line log keep).mem = s.mem := by
  unfold State.dirtyLine
  dsimp only
  repeat' split
  all_goals simp
theorem form_dirtyLine {s : State} (h : s.MemoryForm) (launch line : Nat) (log keep : Bool) :
    (s.dirtyLine launch line log keep).MemoryForm := form_of_mem h (mem_dirtyLine _ _ _ _ _)

/-- Words that are at version 0 again keep their bytes (R301). -/
@[simp] theorem mem_resetWords (s : State) (inside : Nat → Bool) : (s.resetWords inside).mem = s.mem := by
  unfold State.resetWords
  split <;> rfl
@[simp] theorem mem_resetSpans (s : State) (spans : List Span) : (s.resetSpans spans).mem = s.mem := mem_resetWords _ _
@[simp] theorem mem_resetLine (s : State) (line : Nat) (dirty : BitVec 64) : (s.resetLine line dirty).mem = s.mem := mem_resetWords _ _

/-- A merge writes one quad's dirty bytes at their home. -/
theorem form_mergeOne {s : State} (h : s.MemoryForm) (q line : Nat) : (s.mergeOne q line).MemoryForm := by
  unfold State.mergeOne
  split
  · exact h
  · split
    · exact h
    · refine form_putLine (form_of_mem ?_
        ((mem_resetLine _ _ _).trans ((mem_spoilLine _ _ _).trans (mem_metWords _ _)))) _ _ _
      exact form_stalePushes (form_keepTag (form_dirtyLine (form_putMem h _ _) _ _ _ _) _ _) _
theorem form_invalidateOthers {s : State} (h : s.MemoryForm) (q line : Nat) : (s.invalidateOthers q line).MemoryForm :=
  form_foldl _ _ _ (fun _ _ k => form_mergeOne k _ _) h
theorem form_mergeLine {s : State} (h : s.MemoryForm) (q line : Nat) : (s.mergeLine q line).MemoryForm := by
  unfold State.mergeLine
  dsimp only
  split <;> exact form_invalidateOthers (form_mergeOne h _ _) _ _
theorem form_mergeLate {s : State} (h : s.MemoryForm) (q line : Nat) : (s.mergeLate q line).MemoryForm := by
  unfold State.mergeLate
  exact form_of_mem (form_foldl _ _ (fun (s : State) (e : Nat × Quad) => (s.mergeOne e.1 line).dropLine e.1 line)
    (fun _ _ k => form_mergeOne k _ _) (form_mergeOne h q line)) rfl
theorem form_recall {s : State} (h : s.MemoryForm) (line : Nat) : (s.recall line).MemoryForm :=
  form_foldl _ _ _ (fun _ _ k => form_mergeOne k _ _) h
theorem form_mergeHome {s : State} (h : s.MemoryForm) (line : Nat) : (s.mergeHome line).MemoryForm := by
  unfold State.mergeHome
  split
  · exact form_mergeLine h _ _
  · exact h
theorem form_mergeSpans {s : State} (h : s.MemoryForm) (l : List Span) : (s.mergeSpans l).MemoryForm :=
  form_foldl _ _ _ (fun _ _ k => form_mergeHome k _) h
theorem form_recallSpans {s : State} (h : s.MemoryForm) (l : List Span) : (s.recallSpans l).MemoryForm :=
  form_foldl _ _ _ (fun _ _ k => form_recall k _) h
theorem form_drainQuad {s : State} (h : s.MemoryForm) (q : Nat) (objs : Option (List Nat)) : (s.drainQuad q objs).MemoryForm :=
  form_foldl _ _ _ (fun _ _ k => form_mergeLine k _ _) h
theorem form_drainAll {s : State} (h : s.MemoryForm) (q : Nat) (objs : Option (List Nat)) : (s.drainAll q objs).MemoryForm :=
  form_of_mem (form_drainQuad h q objs) (mem_acknowledged _)
theorem form_makeRoom {s : State} (h : s.MemoryForm) (q line : Nat) : (s.makeRoom q line).MemoryForm := by
  unfold State.makeRoom
  dsimp only
  split
  · exact h
  · have k (n : Nat) : (s.pick n).2.MemoryForm := form_of_mem h (mem_pick s n)
    split
    · exact k _
    · refine form_of_mem ?_ (mem_dropLine _ _ _)
      split
      · exact form_mergeLate (k _) _ _
      · exact k _
theorem form_allocate {s : State} (h : s.MemoryForm) (q line : Nat) (e : CacheLine) : (s.allocate q line e).MemoryForm :=
  form_of_mem (form_makeRoom h q line) (mem_putLine _ _ _ _)

/-- What is found at a quad's cache comes with memory in its form. -/
theorem form_quadRead {s t : State} (h : s.MemoryForm) (q line o n : Nat) (i : ReadInfo) (d : BitVec 512)
    (e : s.quadRead q line o n i = .ok t d) : t.MemoryForm := by
  have reads : (s.noteRead q line i).MemoryForm := by
    unfold State.noteRead
    split
    · exact form_of_mem h (mem_homeRead _ _ _ _ _)
    · exact h
  have got (old : Option CacheLine) (w u : State) (k : w.MemoryForm) (hu : u = if i.noL2 then w.l2Drop line else w) (data : BitVec 512)
      (e : (if (s.owners.find line).isSome then Found.wait (.miss line)
        else if !i.begun && s.refreshing line then .wait .refresh
        else if s.poisoned (line * 64 + o) n then .bad s
        else if u.poisoned (line * 64) 64 then .ok u data
        else match old with
          | some e => .ok (u.putLine q line { e with data := data, valid := BitVec.allOnes 64, doomed := false }) data
          | none => .ok (u.allocate q line ⟨false, data, BitVec.allOnes 64, 0, [], none, false, i.launch, none, i.stream, i.noL2, false⟩)
              data) = Found.ok t d) : t.MemoryForm := by
    have ku : u.MemoryForm := by
      rw [hu]
      split
      · exact form_of_mem k (mem_l2Drop _ _)
      · exact k
    split at e
    · cases e
    · split at e
      · cases e
      · split at e
        · cases e
        · split at e
          · cases e; exact ku
          · split at e
            · cases e; exact form_of_mem ku (mem_putLine _ _ _ _)
            · cases e; exact form_allocate ku _ _ _
  unfold State.quadRead at e
  dsimp only at e
  split at e
  · split at e
    · cases e
      split
      · exact h
      · exact form_of_mem h (mem_consume _ _ _ _)
    · exact got (some _) _ _ reads rfl _ e
  · exact got none _ _ reads rfl _ e

/-- A load that is found comes with memory in its form. -/
theorem form_loadLine {s t : State} (h : s.MemoryForm) (c : Nat) (x : Fin 8) (p : Span) (policy : Nat) (nc : Bool) (i : ReadInfo)
    (b : List Byte) (e : s.loadLine c x p policy nc i = .ok t b) : t.MemoryForm := by
  unfold State.loadLine at e
  dsimp only at e
  have k : (if (nc || policy == 1) = true then ((none : Option (BitVec 512)), s) else s.l1Lookup c (p.key / 64)).2.MemoryForm := by
    split
    · exact h
    · exact form_of_mem h (mem_l1Lookup _ _ _)
  revert k e
  generalize (if (nc || policy == 1) = true then ((none : Option (BitVec 512)), s) else s.l1Lookup c (p.key / 64)) = u
  obtain ⟨hit, u⟩ := u
  intro e k
  dsimp only at e k
  split at e
  · cases e; exact k
  · split at e
    · cases e
    · split at e
      · cases e
      · cases e
      · next r =>
        have w := form_quadRead k _ _ _ _ _ _ r
        cases e
        split
        · exact w
        · exact form_of_mem w (mem_l1Allocate _ _ _ _)
theorem form_loadPieces {s t : State} (h : s.MemoryForm) (c : Nat) (x : Fin 8) (hd : BitVec 256) (nc : Bool) (l : List Span) (va : Nat)
    (acc b : List Byte) (begun : Bool) (e : s.loadPieces c x hd nc l va acc begun = .ok t b) : t.MemoryForm := by
  induction l generalizing s va acc begun with
  | nil => cases e; exact h
  | cons p l ih =>
    rw [State.loadPieces] at e
    split at e
    · next r => exact ih (form_loadLine h _ _ _ _ _ _ _ r) _ _ _ e
    · cases e
    · cases e
@[simp] theorem mem_free (s : State) : s.free.2.mem = s.mem := rfl
theorem form_loadHome {s t : State} (h : s.MemoryForm) (c : Nat) (x : Fin 8) (space : Nat) (l : List Span) (b : List Byte)
    (e : s.loadHome c x space l = .ok t b) : t.MemoryForm := by
  have k : (l.foldl (fun (s : State) p => s.atHome space (p.key / 64)) s).MemoryForm := by
    refine form_foldl _ _ _ (fun t a k => ?_) h
    unfold State.atHome
    split
    · exact form_mergeHome k _
    · exact k
  unfold State.loadHome at e
  split at e
  · cases e
  · split at e
    · cases e
    · dsimp only at e
      split at e
      · cases e
      · split at e
        · injection e with e; exact e ▸ form_of_mem k (mem_free _)
        · injection e with e; exact e ▸ k
theorem form_readFor {s t : State} (h : s.MemoryForm) (c : Nat) (x : Fin 8) (hd : BitVec 256) (off : Nat) (l : List Span)
    (nc begun : Bool) (b : List Byte) (e : s.readFor c x hd off l nc begun = .ok t b) : t.MemoryForm := by
  unfold State.readFor at e
  split at e
  · exact form_loadPieces h _ _ _ _ _ _ _ _ _ e
  · exact form_loadHome h _ _ _ _ _ e
theorem form_loadOn {s t : State} (h : s.MemoryForm) (hd : BitVec 256) (off : Nat) (l : List Span) (nc begun : Bool) (b : List Byte)
    (e : s.loadOn hd off l nc begun = .ok t b) : t.MemoryForm := by
  unfold State.loadOn at e
  split at e
  · cases e
  · exact form_readFor h _ _ _ _ _ _ _ _ e
theorem form_load {s t : State} (h : s.MemoryForm) (hd : BitVec 256) (off : Nat) (l : List Span) (nc : Bool) (b : List Byte)
    (e : s.load hd off l nc = .ok t b) : t.MemoryForm := form_loadOn h _ _ _ _ _ _ e

/-- Releases and acquires write memory only by merges (R219, R220). -/
theorem form_recordRelease {s : State} (h : s.MemoryForm) (word q : Nat) : (s.recordRelease word q).MemoryForm := by
  unfold State.recordRelease
  dsimp only
  split
  · exact h
  · split
    · split
      · exact form_drainAll h _ _
      · exact h
    · exact h
theorem form_acquire {s : State} (h : s.MemoryForm) (word q : Nat) : (s.acquire word q).MemoryForm := by
  unfold State.acquire
  split
  · exact form_of_mem h (mem_acknowledged _)
  · refine form_of_mem (s := State.acknowledged _) (form_of_mem ?_ (mem_acknowledged _)) rfl
    exact form_foldl _ _ (fun s (e : Nat × List Nat) => s.drainQuad e.1 (some e.2)) (fun _ _ k => form_drainQuad k _ _) h

/-- Writes at the homes keep the form (R205, R222). -/
theorem form_writeHomes {s : State} (h : s.MemoryForm) (l : List Span) (b : List Byte) (launch : Nat) (keep : Bool) :
    (s.writeHomes l b launch keep).MemoryForm := by
  unfold State.writeHomes
  refine form_foldl _ _ _ (fun _ _ k => form_of_mem (form_dirtyLine k _ _ _ _) (mem_metWords _ _)) ?_
  exact form_foldl _ _ (fun s (p : Span × List Byte) => (s.putMem p.1.key p.2).spoil p.1.key p.2.length)
    (fun _ _ k => form_of_mem (form_putMem k _ _) (mem_spoil _ _ _)) (form_recallSpans h l)
theorem form_quietWrite {s : State} (h : s.MemoryForm) (l : List Span) (b : List Byte) (launch : Nat) :
    (s.quietWrite l b launch).MemoryForm := form_writeHomes h l b launch true

/-- Watchpoints and the entries of recordings that a write meets are no bytes of memory. -/
@[simp] theorem mem_spoilEntries (s : State) (rows : List (Nat × Nat × Bool)) (spans : List Span) (i : Nat) (l : List Transfer) :
    (s.spoilEntries rows spans i l).2.mem = s.mem := by
  induction l generalizing s i with
  | nil => rfl
  | cons e l ih =>
    rw [State.spoilEntries]
    dsimp only
    split
    · rw [ih]; rfl
    · rw [ih]
@[simp] theorem mem_foreignWrite (s : State) (spans : List Span) : (s.foreignWrite spans).mem = s.mem := by
  unfold State.foreignWrite
  refine mem_foldl _ _ _ fun t a => ?_
  refine mem_foldl _ _ _ fun u b => ?_
  dsimp only
  split
  · split
    · rw [mem_setLaunch, mem_spoilEntries]
    · rw [mem_spoilEntries]
  · rfl
@[simp] theorem mem_watchWrite (s : State) (spans : List Span) (kind id : Nat) (skip : Option (Nat × Nat)) :
    (s.watchWrite spans kind id skip).mem = s.mem := mem_foreignWrite _ _
theorem form_homeWrite {s : State} (h : s.MemoryForm) (l : List Span) (b : List Byte) (launch kind id : Nat) (skip : Option (Nat × Nat)) :
    (s.homeWrite l b launch kind id skip).MemoryForm := form_of_mem (form_quietWrite h l b launch) (mem_watchWrite _ _ _ _ _)
theorem form_policyWrite {s : State} (h : s.MemoryForm) (l : List Span) (b : List Byte) (launch policy kind id : Nat)
    (skip : Option (Nat × Nat)) : (s.policyWrite l b launch policy kind id skip).MemoryForm :=
  form_of_mem (form_writeHomes h l b launch _) (mem_watchWrite _ _ _ _ _)

/-- The dirty-range log is written in memory, and only there (R410). -/
@[simp] theorem mem_plainWriteSync (s : State) (spans : List Span) : (s.plainWriteSync spans).mem = s.mem := by
  unfold State.plainWriteSync
  refine (mem_foldl _ _ _ fun t a => ?_).trans (mem_resetSpans s spans)
  dsimp only
  repeat' split
  all_goals rfl
theorem form_ownWrite {s : State} (h : s.MemoryForm) (l : List Span) (b : List Byte) : (s.ownWrite l b).MemoryForm :=
  form_of_mem (form_quietWrite h l b 0) (mem_plainWriteSync _ _)
theorem form_writeLog {s : State} (h : s.MemoryForm) (g : LogRing) (launch target line lines : Nat) :
    (s.writeLog g launch target line lines).MemoryForm := by
  unfold State.writeLog
  dsimp only
  have k := form_mergeSpans h [⟨g.control, 16, false⟩]
  split
  · exact form_ownWrite k _ _
  · exact form_ownWrite (form_ownWrite k _ _) _ _
theorem form_flushLog {s : State} (h : s.MemoryForm) (slice : Nat) : (s.flushLog slice).MemoryForm := by
  unfold State.flushLog
  split
  · exact h
  · split
    · exact h
    · have k (l : Option LogRing) : ({ s with log := l } : State).MemoryForm := form_of_mem h rfl
      exact form_writeLog (k _) _ _ _ _ _

end Sys2Proof.Machine
end

