-- ==== Sys2Proof/Laws/Encoding.lean ====
section
/-!
SUPPORT. Reading a field of words laid side by side, for the agreement of the decoder with the encoder.
-/

namespace Sys2Proof

/-- A field within the low part. -/
theorem extract_cat_low {v w : Nat} (x : BitVec v) (y : BitVec w) (s l : Nat) (h : s + l ≤ w) :
    (cat x y).extractLsb' s l = y.extractLsb' s l := by
  unfold cat
  ext i hi
  simp only [BitVec.getElem_extractLsb', BitVec.getLsbD_append]
  rw [if_pos (by omega)]

/-- A field within the high part. -/
theorem extract_cat_high {v w : Nat} (x : BitVec v) (y : BitVec w) (s l : Nat) (h : w ≤ s) :
    (cat x y).extractLsb' s l = x.extractLsb' (s - w) l := by
  unfold cat
  ext i hi
  simp only [BitVec.getElem_extractLsb', BitVec.getLsbD_append]
  rw [if_neg (by omega)]
  congr 1
  omega

end Sys2Proof
end

