-- ==== Sys2Proof/Laws/State.lean ====
section
/-!
SUPPORT. What each update of the state leaves in each field.
-/

namespace Sys2Proof.Machine

@[simp] theorem setCore_cur (s : State) (c : Nat) (k : Core) : (s.setCore c k).cur = s.cur := rfl
@[simp] theorem setCore_inputs (s : State) (c : Nat) (k : Core) : (s.setCore c k).inputs = s.inputs := rfl
@[simp] theorem setCore_picks (s : State) (c : Nat) (k : Core) : (s.setCore c k).picks = s.picks := rfl
@[simp] theorem setCore_delays (s : State) (c : Nat) (k : Core) : (s.setCore c k).delays = s.delays := rfl
@[simp] theorem setCore_freeCtr (s : State) (c : Nat) (k : Core) : (s.setCore c k).freeCtr = s.freeCtr := rfl
@[simp] theorem setCore_mesh (s : State) (c : Nat) (k : Core) : (s.setCore c k).mesh = s.mesh := rfl
@[simp] theorem setCore_quads (s : State) (c : Nat) (k : Core) : (s.setCore c k).quads = s.quads := rfl
@[simp] theorem setCore_clusters (s : State) (c : Nat) (k : Core) : (s.setCore c k).clusters = s.clusters := rfl
@[simp] theorem setCore_gathers (s : State) (c : Nat) (k : Core) : (s.setCore c k).gathers = s.gathers := rfl
@[simp] theorem setCore_collStalls (s : State) (c : Nat) (k : Core) : (s.setCore c k).collStalls = s.collStalls := rfl
@[simp] theorem setCore_ioStalls (s : State) (c : Nat) (k : Core) : (s.setCore c k).ioStalls = s.ioStalls := rfl
@[simp] theorem setCore_mem (s : State) (c : Nat) (k : Core) : (s.setCore c k).mem = s.mem := rfl
@[simp] theorem setCore_l2dirty (s : State) (c : Nat) (k : Core) : (s.setCore c k).l2dirty = s.l2dirty := rfl
@[simp] theorem setCore_poison (s : State) (c : Nat) (k : Core) : (s.setCore c k).poison = s.poison := rfl
@[simp] theorem setCore_tileReads (s : State) (c : Nat) (k : Core) : (s.setCore c k).tileReads = s.tileReads := rfl
@[simp] theorem setCore_owners (s : State) (c : Nat) (k : Core) : (s.setCore c k).owners = s.owners := rfl
@[simp] theorem setCore_tags (s : State) (c : Nat) (k : Core) : (s.setCore c k).tags = s.tags := rfl
@[simp] theorem setCore_vwords (s : State) (c : Nat) (k : Core) : (s.setCore c k).vwords = s.vwords := rfl
@[simp] theorem setCore_releases (s : State) (c : Nat) (k : Core) : (s.setCore c k).releases = s.releases := rfl
@[simp] theorem setCore_syncObjs (s : State) (c : Nat) (k : Core) : (s.setCore c k).syncObjs = s.syncObjs := rfl
@[simp] theorem setCore_objects (s : State) (c : Nat) (k : Core) : (s.setCore c k).objects = s.objects := rfl
@[simp] theorem setCore_launches (s : State) (c : Nat) (k : Core) : (s.setCore c k).launches = s.launches := rfl
@[simp] theorem setCore_chains (s : State) (c : Nat) (k : Core) : (s.setCore c k).chains = s.chains := rfl
@[simp] theorem setCore_msix (s : State) (c : Nat) (k : Core) : (s.setCore c k).msix = s.msix := rfl
@[simp] theorem setCore_msixTable (s : State) (c : Nat) (k : Core) : (s.setCore c k).msixTable = s.msixTable := rfl
@[simp] theorem setCore_msixPending (s : State) (c : Nat) (k : Core) : (s.setCore c k).msixPending = s.msixPending := rfl
@[simp] theorem setCore_bar0Error (s : State) (c : Nat) (k : Core) : (s.setCore c k).bar0Error = s.bar0Error := rfl
@[simp] theorem setCore_log (s : State) (c : Nat) (k : Core) : (s.setCore c k).log = s.log := rfl
@[simp] theorem setCore_obs (s : State) (c : Nat) (k : Core) : (s.setCore c k).obs = s.obs := rfl
@[simp] theorem setCore_obsNext (s : State) (c : Nat) (k : Core) : (s.setCore c k).obsNext = s.obsNext := rfl
@[simp] theorem setCore_ports (s : State) (c : Nat) (k : Core) : (s.setCore c k).ports = s.ports := rfl
@[simp] theorem setCore_frames (s : State) (c : Nat) (k : Core) : (s.setCore c k).frames = s.frames := rfl
@[simp] theorem setCore_trigger (s : State) (c : Nat) (k : Core) : (s.setCore c k).trigger = s.trigger := rfl
@[simp] theorem setCore_breakpoints (s : State) (c : Nat) (k : Core) : (s.setCore c k).breakpoints = s.breakpoints := rfl
@[simp] theorem setCore_chainHalt (s : State) (c : Nat) (k : Core) : (s.setCore c k).chainHalt = s.chainHalt := rfl
@[simp] theorem setCore_taskStops (s : State) (c : Nat) (k : Core) : (s.setCore c k).taskStops = s.taskStops := rfl
@[simp] theorem setCore_devid (s : State) (c : Nat) (k : Core) : (s.setCore c k).devid = s.devid := rfl
@[simp] theorem setCore_links (s : State) (c : Nat) (k : Core) : (s.setCore c k).links = s.links := rfl
@[simp] theorem setCore_remotes (s : State) (c : Nat) (k : Core) : (s.setCore c k).remotes = s.remotes := rfl
@[simp] theorem setCore_reductions (s : State) (c : Nat) (k : Core) : (s.setCore c k).reductions = s.reductions := rfl
@[simp] theorem setCore_collectives (s : State) (c : Nat) (k : Core) : (s.setCore c k).collectives = s.collectives := rfl
@[simp] theorem setCore_supplyLost (s : State) (c : Nat) (k : Core) : (s.setCore c k).supplyLost = s.supplyLost := rfl
@[simp] theorem setCore_shootdowns (s : State) (c : Nat) (k : Core) : (s.setCore c k).shootdowns = s.shootdowns := rfl
@[simp] theorem setCore_shootdownCtr (s : State) (c : Nat) (k : Core) : (s.setCore c k).shootdownCtr = s.shootdownCtr := rfl
@[simp] theorem setCore_fwUpdate (s : State) (c : Nat) (k : Core) : (s.setCore c k).fwUpdate = s.fwUpdate := rfl
@[simp] theorem setCore_fwIdle (s : State) (c : Nat) (k : Core) : (s.setCore c k).fwIdle = s.fwIdle := rfl
@[simp] theorem setCore_fwWrote (s : State) (c : Nat) (k : Core) : (s.setCore c k).fwWrote = s.fwWrote := rfl
@[simp] theorem setCore_fwDue (s : State) (c : Nat) (k : Core) : (s.setCore c k).fwDue = s.fwDue := rfl

@[simp] theorem setQuad_cur (s : State) (q : Nat) (k : Quad) : (s.setQuad q k).cur = s.cur := rfl
@[simp] theorem setQuad_inputs (s : State) (q : Nat) (k : Quad) : (s.setQuad q k).inputs = s.inputs := rfl
@[simp] theorem setQuad_picks (s : State) (q : Nat) (k : Quad) : (s.setQuad q k).picks = s.picks := rfl
@[simp] theorem setQuad_delays (s : State) (q : Nat) (k : Quad) : (s.setQuad q k).delays = s.delays := rfl
@[simp] theorem setQuad_freeCtr (s : State) (q : Nat) (k : Quad) : (s.setQuad q k).freeCtr = s.freeCtr := rfl
@[simp] theorem setQuad_mesh (s : State) (q : Nat) (k : Quad) : (s.setQuad q k).mesh = s.mesh := rfl
@[simp] theorem setQuad_cores (s : State) (q : Nat) (k : Quad) : (s.setQuad q k).cores = s.cores := rfl
@[simp] theorem setQuad_clusters (s : State) (q : Nat) (k : Quad) : (s.setQuad q k).clusters = s.clusters := rfl
@[simp] theorem setQuad_gathers (s : State) (q : Nat) (k : Quad) : (s.setQuad q k).gathers = s.gathers := rfl
@[simp] theorem setQuad_collStalls (s : State) (q : Nat) (k : Quad) : (s.setQuad q k).collStalls = s.collStalls := rfl
@[simp] theorem setQuad_ioStalls (s : State) (q : Nat) (k : Quad) : (s.setQuad q k).ioStalls = s.ioStalls := rfl
@[simp] theorem setQuad_mem (s : State) (q : Nat) (k : Quad) : (s.setQuad q k).mem = s.mem := rfl
@[simp] theorem setQuad_l2dirty (s : State) (q : Nat) (k : Quad) : (s.setQuad q k).l2dirty = s.l2dirty := rfl
@[simp] theorem setQuad_poison (s : State) (q : Nat) (k : Quad) : (s.setQuad q k).poison = s.poison := rfl
@[simp] theorem setQuad_tileReads (s : State) (q : Nat) (k : Quad) : (s.setQuad q k).tileReads = s.tileReads := rfl
@[simp] theorem setQuad_owners (s : State) (q : Nat) (k : Quad) : (s.setQuad q k).owners = s.owners := rfl
@[simp] theorem setQuad_tags (s : State) (q : Nat) (k : Quad) : (s.setQuad q k).tags = s.tags := rfl
@[simp] theorem setQuad_vwords (s : State) (q : Nat) (k : Quad) : (s.setQuad q k).vwords = s.vwords := rfl
@[simp] theorem setQuad_releases (s : State) (q : Nat) (k : Quad) : (s.setQuad q k).releases = s.releases := rfl
@[simp] theorem setQuad_syncObjs (s : State) (q : Nat) (k : Quad) : (s.setQuad q k).syncObjs = s.syncObjs := rfl
@[simp] theorem setQuad_objects (s : State) (q : Nat) (k : Quad) : (s.setQuad q k).objects = s.objects := rfl
@[simp] theorem setQuad_launches (s : State) (q : Nat) (k : Quad) : (s.setQuad q k).launches = s.launches := rfl
@[simp] theorem setQuad_chains (s : State) (q : Nat) (k : Quad) : (s.setQuad q k).chains = s.chains := rfl
@[simp] theorem setQuad_msix (s : State) (q : Nat) (k : Quad) : (s.setQuad q k).msix = s.msix := rfl
@[simp] theorem setQuad_msixTable (s : State) (q : Nat) (k : Quad) : (s.setQuad q k).msixTable = s.msixTable := rfl
@[simp] theorem setQuad_msixPending (s : State) (q : Nat) (k : Quad) : (s.setQuad q k).msixPending = s.msixPending := rfl
@[simp] theorem setQuad_bar0Error (s : State) (q : Nat) (k : Quad) : (s.setQuad q k).bar0Error = s.bar0Error := rfl
@[simp] theorem setQuad_log (s : State) (q : Nat) (k : Quad) : (s.setQuad q k).log = s.log := rfl
@[simp] theorem setQuad_obs (s : State) (q : Nat) (k : Quad) : (s.setQuad q k).obs = s.obs := rfl
@[simp] theorem setQuad_obsNext (s : State) (q : Nat) (k : Quad) : (s.setQuad q k).obsNext = s.obsNext := rfl
@[simp] theorem setQuad_ports (s : State) (q : Nat) (k : Quad) : (s.setQuad q k).ports = s.ports := rfl
@[simp] theorem setQuad_frames (s : State) (q : Nat) (k : Quad) : (s.setQuad q k).frames = s.frames := rfl
@[simp] theorem setQuad_trigger (s : State) (q : Nat) (k : Quad) : (s.setQuad q k).trigger = s.trigger := rfl
@[simp] theorem setQuad_breakpoints (s : State) (q : Nat) (k : Quad) : (s.setQuad q k).breakpoints = s.breakpoints := rfl
@[simp] theorem setQuad_chainHalt (s : State) (q : Nat) (k : Quad) : (s.setQuad q k).chainHalt = s.chainHalt := rfl
@[simp] theorem setQuad_taskStops (s : State) (q : Nat) (k : Quad) : (s.setQuad q k).taskStops = s.taskStops := rfl
@[simp] theorem setQuad_devid (s : State) (q : Nat) (k : Quad) : (s.setQuad q k).devid = s.devid := rfl
@[simp] theorem setQuad_links (s : State) (q : Nat) (k : Quad) : (s.setQuad q k).links = s.links := rfl
@[simp] theorem setQuad_remotes (s : State) (q : Nat) (k : Quad) : (s.setQuad q k).remotes = s.remotes := rfl
@[simp] theorem setQuad_reductions (s : State) (q : Nat) (k : Quad) : (s.setQuad q k).reductions = s.reductions := rfl
@[simp] theorem setQuad_collectives (s : State) (q : Nat) (k : Quad) : (s.setQuad q k).collectives = s.collectives := rfl
@[simp] theorem setQuad_supplyLost (s : State) (q : Nat) (k : Quad) : (s.setQuad q k).supplyLost = s.supplyLost := rfl
@[simp] theorem setQuad_shootdowns (s : State) (q : Nat) (k : Quad) : (s.setQuad q k).shootdowns = s.shootdowns := rfl
@[simp] theorem setQuad_shootdownCtr (s : State) (q : Nat) (k : Quad) : (s.setQuad q k).shootdownCtr = s.shootdownCtr := rfl
@[simp] theorem setQuad_fwUpdate (s : State) (q : Nat) (k : Quad) : (s.setQuad q k).fwUpdate = s.fwUpdate := rfl
@[simp] theorem setQuad_fwIdle (s : State) (q : Nat) (k : Quad) : (s.setQuad q k).fwIdle = s.fwIdle := rfl
@[simp] theorem setQuad_fwWrote (s : State) (q : Nat) (k : Quad) : (s.setQuad q k).fwWrote = s.fwWrote := rfl
@[simp] theorem setQuad_fwDue (s : State) (q : Nat) (k : Quad) : (s.setQuad q k).fwDue = s.fwDue := rfl

@[simp] theorem setCluster_cur (s : State) (n : Nat) (k : Cluster) : (s.setCluster n k).cur = s.cur := rfl
@[simp] theorem setCluster_inputs (s : State) (n : Nat) (k : Cluster) : (s.setCluster n k).inputs = s.inputs := rfl
@[simp] theorem setCluster_picks (s : State) (n : Nat) (k : Cluster) : (s.setCluster n k).picks = s.picks := rfl
@[simp] theorem setCluster_delays (s : State) (n : Nat) (k : Cluster) : (s.setCluster n k).delays = s.delays := rfl
@[simp] theorem setCluster_freeCtr (s : State) (n : Nat) (k : Cluster) : (s.setCluster n k).freeCtr = s.freeCtr := rfl
@[simp] theorem setCluster_mesh (s : State) (n : Nat) (k : Cluster) : (s.setCluster n k).mesh = s.mesh := rfl
@[simp] theorem setCluster_cores (s : State) (n : Nat) (k : Cluster) : (s.setCluster n k).cores = s.cores := rfl
@[simp] theorem setCluster_quads (s : State) (n : Nat) (k : Cluster) : (s.setCluster n k).quads = s.quads := rfl
@[simp] theorem setCluster_gathers (s : State) (n : Nat) (k : Cluster) : (s.setCluster n k).gathers = s.gathers := rfl
@[simp] theorem setCluster_collStalls (s : State) (n : Nat) (k : Cluster) : (s.setCluster n k).collStalls = s.collStalls := rfl
@[simp] theorem setCluster_ioStalls (s : State) (n : Nat) (k : Cluster) : (s.setCluster n k).ioStalls = s.ioStalls := rfl
@[simp] theorem setCluster_mem (s : State) (n : Nat) (k : Cluster) : (s.setCluster n k).mem = s.mem := rfl
@[simp] theorem setCluster_l2dirty (s : State) (n : Nat) (k : Cluster) : (s.setCluster n k).l2dirty = s.l2dirty := rfl
@[simp] theorem setCluster_poison (s : State) (n : Nat) (k : Cluster) : (s.setCluster n k).poison = s.poison := rfl
@[simp] theorem setCluster_tileReads (s : State) (n : Nat) (k : Cluster) : (s.setCluster n k).tileReads = s.tileReads := rfl
@[simp] theorem setCluster_owners (s : State) (n : Nat) (k : Cluster) : (s.setCluster n k).owners = s.owners := rfl
@[simp] theorem setCluster_tags (s : State) (n : Nat) (k : Cluster) : (s.setCluster n k).tags = s.tags := rfl
@[simp] theorem setCluster_vwords (s : State) (n : Nat) (k : Cluster) : (s.setCluster n k).vwords = s.vwords := rfl
@[simp] theorem setCluster_releases (s : State) (n : Nat) (k : Cluster) : (s.setCluster n k).releases = s.releases := rfl
@[simp] theorem setCluster_syncObjs (s : State) (n : Nat) (k : Cluster) : (s.setCluster n k).syncObjs = s.syncObjs := rfl
@[simp] theorem setCluster_objects (s : State) (n : Nat) (k : Cluster) : (s.setCluster n k).objects = s.objects := rfl
@[simp] theorem setCluster_launches (s : State) (n : Nat) (k : Cluster) : (s.setCluster n k).launches = s.launches := rfl
@[simp] theorem setCluster_chains (s : State) (n : Nat) (k : Cluster) : (s.setCluster n k).chains = s.chains := rfl
@[simp] theorem setCluster_msix (s : State) (n : Nat) (k : Cluster) : (s.setCluster n k).msix = s.msix := rfl
@[simp] theorem setCluster_msixTable (s : State) (n : Nat) (k : Cluster) : (s.setCluster n k).msixTable = s.msixTable := rfl
@[simp] theorem setCluster_msixPending (s : State) (n : Nat) (k : Cluster) : (s.setCluster n k).msixPending = s.msixPending := rfl
@[simp] theorem setCluster_bar0Error (s : State) (n : Nat) (k : Cluster) : (s.setCluster n k).bar0Error = s.bar0Error := rfl
@[simp] theorem setCluster_log (s : State) (n : Nat) (k : Cluster) : (s.setCluster n k).log = s.log := rfl
@[simp] theorem setCluster_obs (s : State) (n : Nat) (k : Cluster) : (s.setCluster n k).obs = s.obs := rfl
@[simp] theorem setCluster_obsNext (s : State) (n : Nat) (k : Cluster) : (s.setCluster n k).obsNext = s.obsNext := rfl
@[simp] theorem setCluster_ports (s : State) (n : Nat) (k : Cluster) : (s.setCluster n k).ports = s.ports := rfl
@[simp] theorem setCluster_frames (s : State) (n : Nat) (k : Cluster) : (s.setCluster n k).frames = s.frames := rfl
@[simp] theorem setCluster_trigger (s : State) (n : Nat) (k : Cluster) : (s.setCluster n k).trigger = s.trigger := rfl
@[simp] theorem setCluster_breakpoints (s : State) (n : Nat) (k : Cluster) : (s.setCluster n k).breakpoints = s.breakpoints := rfl
@[simp] theorem setCluster_chainHalt (s : State) (n : Nat) (k : Cluster) : (s.setCluster n k).chainHalt = s.chainHalt := rfl
@[simp] theorem setCluster_taskStops (s : State) (n : Nat) (k : Cluster) : (s.setCluster n k).taskStops = s.taskStops := rfl
@[simp] theorem setCluster_devid (s : State) (n : Nat) (k : Cluster) : (s.setCluster n k).devid = s.devid := rfl
@[simp] theorem setCluster_links (s : State) (n : Nat) (k : Cluster) : (s.setCluster n k).links = s.links := rfl
@[simp] theorem setCluster_remotes (s : State) (n : Nat) (k : Cluster) : (s.setCluster n k).remotes = s.remotes := rfl
@[simp] theorem setCluster_reductions (s : State) (n : Nat) (k : Cluster) : (s.setCluster n k).reductions = s.reductions := rfl
@[simp] theorem setCluster_collectives (s : State) (n : Nat) (k : Cluster) : (s.setCluster n k).collectives = s.collectives := rfl
@[simp] theorem setCluster_supplyLost (s : State) (n : Nat) (k : Cluster) : (s.setCluster n k).supplyLost = s.supplyLost := rfl
@[simp] theorem setCluster_shootdowns (s : State) (n : Nat) (k : Cluster) : (s.setCluster n k).shootdowns = s.shootdowns := rfl
@[simp] theorem setCluster_shootdownCtr (s : State) (n : Nat) (k : Cluster) : (s.setCluster n k).shootdownCtr = s.shootdownCtr := rfl
@[simp] theorem setCluster_fwUpdate (s : State) (n : Nat) (k : Cluster) : (s.setCluster n k).fwUpdate = s.fwUpdate := rfl
@[simp] theorem setCluster_fwIdle (s : State) (n : Nat) (k : Cluster) : (s.setCluster n k).fwIdle = s.fwIdle := rfl
@[simp] theorem setCluster_fwWrote (s : State) (n : Nat) (k : Cluster) : (s.setCluster n k).fwWrote = s.fwWrote := rfl
@[simp] theorem setCluster_fwDue (s : State) (n : Nat) (k : Cluster) : (s.setCluster n k).fwDue = s.fwDue := rfl

@[simp] theorem setGather_cur (s : State) (n : Nat) (k : Gather) : (s.setGather n k).cur = s.cur := rfl
@[simp] theorem setGather_inputs (s : State) (n : Nat) (k : Gather) : (s.setGather n k).inputs = s.inputs := rfl
@[simp] theorem setGather_picks (s : State) (n : Nat) (k : Gather) : (s.setGather n k).picks = s.picks := rfl
@[simp] theorem setGather_delays (s : State) (n : Nat) (k : Gather) : (s.setGather n k).delays = s.delays := rfl
@[simp] theorem setGather_freeCtr (s : State) (n : Nat) (k : Gather) : (s.setGather n k).freeCtr = s.freeCtr := rfl
@[simp] theorem setGather_mesh (s : State) (n : Nat) (k : Gather) : (s.setGather n k).mesh = s.mesh := rfl
@[simp] theorem setGather_cores (s : State) (n : Nat) (k : Gather) : (s.setGather n k).cores = s.cores := rfl
@[simp] theorem setGather_quads (s : State) (n : Nat) (k : Gather) : (s.setGather n k).quads = s.quads := rfl
@[simp] theorem setGather_clusters (s : State) (n : Nat) (k : Gather) : (s.setGather n k).clusters = s.clusters := rfl
@[simp] theorem setGather_collStalls (s : State) (n : Nat) (k : Gather) : (s.setGather n k).collStalls = s.collStalls := rfl
@[simp] theorem setGather_ioStalls (s : State) (n : Nat) (k : Gather) : (s.setGather n k).ioStalls = s.ioStalls := rfl
@[simp] theorem setGather_mem (s : State) (n : Nat) (k : Gather) : (s.setGather n k).mem = s.mem := rfl
@[simp] theorem setGather_l2dirty (s : State) (n : Nat) (k : Gather) : (s.setGather n k).l2dirty = s.l2dirty := rfl
@[simp] theorem setGather_poison (s : State) (n : Nat) (k : Gather) : (s.setGather n k).poison = s.poison := rfl
@[simp] theorem setGather_tileReads (s : State) (n : Nat) (k : Gather) : (s.setGather n k).tileReads = s.tileReads := rfl
@[simp] theorem setGather_owners (s : State) (n : Nat) (k : Gather) : (s.setGather n k).owners = s.owners := rfl
@[simp] theorem setGather_tags (s : State) (n : Nat) (k : Gather) : (s.setGather n k).tags = s.tags := rfl
@[simp] theorem setGather_vwords (s : State) (n : Nat) (k : Gather) : (s.setGather n k).vwords = s.vwords := rfl
@[simp] theorem setGather_releases (s : State) (n : Nat) (k : Gather) : (s.setGather n k).releases = s.releases := rfl
@[simp] theorem setGather_syncObjs (s : State) (n : Nat) (k : Gather) : (s.setGather n k).syncObjs = s.syncObjs := rfl
@[simp] theorem setGather_objects (s : State) (n : Nat) (k : Gather) : (s.setGather n k).objects = s.objects := rfl
@[simp] theorem setGather_launches (s : State) (n : Nat) (k : Gather) : (s.setGather n k).launches = s.launches := rfl
@[simp] theorem setGather_chains (s : State) (n : Nat) (k : Gather) : (s.setGather n k).chains = s.chains := rfl
@[simp] theorem setGather_msix (s : State) (n : Nat) (k : Gather) : (s.setGather n k).msix = s.msix := rfl
@[simp] theorem setGather_msixTable (s : State) (n : Nat) (k : Gather) : (s.setGather n k).msixTable = s.msixTable := rfl
@[simp] theorem setGather_msixPending (s : State) (n : Nat) (k : Gather) : (s.setGather n k).msixPending = s.msixPending := rfl
@[simp] theorem setGather_bar0Error (s : State) (n : Nat) (k : Gather) : (s.setGather n k).bar0Error = s.bar0Error := rfl
@[simp] theorem setGather_log (s : State) (n : Nat) (k : Gather) : (s.setGather n k).log = s.log := rfl
@[simp] theorem setGather_obs (s : State) (n : Nat) (k : Gather) : (s.setGather n k).obs = s.obs := rfl
@[simp] theorem setGather_obsNext (s : State) (n : Nat) (k : Gather) : (s.setGather n k).obsNext = s.obsNext := rfl
@[simp] theorem setGather_ports (s : State) (n : Nat) (k : Gather) : (s.setGather n k).ports = s.ports := rfl
@[simp] theorem setGather_frames (s : State) (n : Nat) (k : Gather) : (s.setGather n k).frames = s.frames := rfl
@[simp] theorem setGather_trigger (s : State) (n : Nat) (k : Gather) : (s.setGather n k).trigger = s.trigger := rfl
@[simp] theorem setGather_breakpoints (s : State) (n : Nat) (k : Gather) : (s.setGather n k).breakpoints = s.breakpoints := rfl
@[simp] theorem setGather_chainHalt (s : State) (n : Nat) (k : Gather) : (s.setGather n k).chainHalt = s.chainHalt := rfl
@[simp] theorem setGather_taskStops (s : State) (n : Nat) (k : Gather) : (s.setGather n k).taskStops = s.taskStops := rfl
@[simp] theorem setGather_devid (s : State) (n : Nat) (k : Gather) : (s.setGather n k).devid = s.devid := rfl
@[simp] theorem setGather_links (s : State) (n : Nat) (k : Gather) : (s.setGather n k).links = s.links := rfl
@[simp] theorem setGather_remotes (s : State) (n : Nat) (k : Gather) : (s.setGather n k).remotes = s.remotes := rfl
@[simp] theorem setGather_reductions (s : State) (n : Nat) (k : Gather) : (s.setGather n k).reductions = s.reductions := rfl
@[simp] theorem setGather_collectives (s : State) (n : Nat) (k : Gather) : (s.setGather n k).collectives = s.collectives := rfl
@[simp] theorem setGather_supplyLost (s : State) (n : Nat) (k : Gather) : (s.setGather n k).supplyLost = s.supplyLost := rfl
@[simp] theorem setGather_shootdowns (s : State) (n : Nat) (k : Gather) : (s.setGather n k).shootdowns = s.shootdowns := rfl
@[simp] theorem setGather_shootdownCtr (s : State) (n : Nat) (k : Gather) : (s.setGather n k).shootdownCtr = s.shootdownCtr := rfl
@[simp] theorem setGather_fwUpdate (s : State) (n : Nat) (k : Gather) : (s.setGather n k).fwUpdate = s.fwUpdate := rfl
@[simp] theorem setGather_fwIdle (s : State) (n : Nat) (k : Gather) : (s.setGather n k).fwIdle = s.fwIdle := rfl
@[simp] theorem setGather_fwWrote (s : State) (n : Nat) (k : Gather) : (s.setGather n k).fwWrote = s.fwWrote := rfl
@[simp] theorem setGather_fwDue (s : State) (n : Nat) (k : Gather) : (s.setGather n k).fwDue = s.fwDue := rfl

@[simp] theorem setChain_cur (s : State) (n : Nat) (k : Chain) : (s.setChain n k).cur = s.cur := rfl
@[simp] theorem setChain_inputs (s : State) (n : Nat) (k : Chain) : (s.setChain n k).inputs = s.inputs := rfl
@[simp] theorem setChain_picks (s : State) (n : Nat) (k : Chain) : (s.setChain n k).picks = s.picks := rfl
@[simp] theorem setChain_delays (s : State) (n : Nat) (k : Chain) : (s.setChain n k).delays = s.delays := rfl
@[simp] theorem setChain_freeCtr (s : State) (n : Nat) (k : Chain) : (s.setChain n k).freeCtr = s.freeCtr := rfl
@[simp] theorem setChain_mesh (s : State) (n : Nat) (k : Chain) : (s.setChain n k).mesh = s.mesh := rfl
@[simp] theorem setChain_cores (s : State) (n : Nat) (k : Chain) : (s.setChain n k).cores = s.cores := rfl
@[simp] theorem setChain_quads (s : State) (n : Nat) (k : Chain) : (s.setChain n k).quads = s.quads := rfl
@[simp] theorem setChain_clusters (s : State) (n : Nat) (k : Chain) : (s.setChain n k).clusters = s.clusters := rfl
@[simp] theorem setChain_gathers (s : State) (n : Nat) (k : Chain) : (s.setChain n k).gathers = s.gathers := rfl
@[simp] theorem setChain_collStalls (s : State) (n : Nat) (k : Chain) : (s.setChain n k).collStalls = s.collStalls := rfl
@[simp] theorem setChain_ioStalls (s : State) (n : Nat) (k : Chain) : (s.setChain n k).ioStalls = s.ioStalls := rfl
@[simp] theorem setChain_mem (s : State) (n : Nat) (k : Chain) : (s.setChain n k).mem = s.mem := rfl
@[simp] theorem setChain_l2dirty (s : State) (n : Nat) (k : Chain) : (s.setChain n k).l2dirty = s.l2dirty := rfl
@[simp] theorem setChain_poison (s : State) (n : Nat) (k : Chain) : (s.setChain n k).poison = s.poison := rfl
@[simp] theorem setChain_tileReads (s : State) (n : Nat) (k : Chain) : (s.setChain n k).tileReads = s.tileReads := rfl
@[simp] theorem setChain_owners (s : State) (n : Nat) (k : Chain) : (s.setChain n k).owners = s.owners := rfl
@[simp] theorem setChain_tags (s : State) (n : Nat) (k : Chain) : (s.setChain n k).tags = s.tags := rfl
@[simp] theorem setChain_vwords (s : State) (n : Nat) (k : Chain) : (s.setChain n k).vwords = s.vwords := rfl
@[simp] theorem setChain_releases (s : State) (n : Nat) (k : Chain) : (s.setChain n k).releases = s.releases := rfl
@[simp] theorem setChain_syncObjs (s : State) (n : Nat) (k : Chain) : (s.setChain n k).syncObjs = s.syncObjs := rfl
@[simp] theorem setChain_objects (s : State) (n : Nat) (k : Chain) : (s.setChain n k).objects = s.objects := rfl
@[simp] theorem setChain_launches (s : State) (n : Nat) (k : Chain) : (s.setChain n k).launches = s.launches := rfl
@[simp] theorem setChain_msix (s : State) (n : Nat) (k : Chain) : (s.setChain n k).msix = s.msix := rfl
@[simp] theorem setChain_msixTable (s : State) (n : Nat) (k : Chain) : (s.setChain n k).msixTable = s.msixTable := rfl
@[simp] theorem setChain_msixPending (s : State) (n : Nat) (k : Chain) : (s.setChain n k).msixPending = s.msixPending := rfl
@[simp] theorem setChain_bar0Error (s : State) (n : Nat) (k : Chain) : (s.setChain n k).bar0Error = s.bar0Error := rfl
@[simp] theorem setChain_log (s : State) (n : Nat) (k : Chain) : (s.setChain n k).log = s.log := rfl
@[simp] theorem setChain_obs (s : State) (n : Nat) (k : Chain) : (s.setChain n k).obs = s.obs := rfl
@[simp] theorem setChain_obsNext (s : State) (n : Nat) (k : Chain) : (s.setChain n k).obsNext = s.obsNext := rfl
@[simp] theorem setChain_ports (s : State) (n : Nat) (k : Chain) : (s.setChain n k).ports = s.ports := rfl
@[simp] theorem setChain_frames (s : State) (n : Nat) (k : Chain) : (s.setChain n k).frames = s.frames := rfl
@[simp] theorem setChain_trigger (s : State) (n : Nat) (k : Chain) : (s.setChain n k).trigger = s.trigger := rfl
@[simp] theorem setChain_breakpoints (s : State) (n : Nat) (k : Chain) : (s.setChain n k).breakpoints = s.breakpoints := rfl
@[simp] theorem setChain_chainHalt (s : State) (n : Nat) (k : Chain) : (s.setChain n k).chainHalt = s.chainHalt := rfl
@[simp] theorem setChain_taskStops (s : State) (n : Nat) (k : Chain) : (s.setChain n k).taskStops = s.taskStops := rfl
@[simp] theorem setChain_devid (s : State) (n : Nat) (k : Chain) : (s.setChain n k).devid = s.devid := rfl
@[simp] theorem setChain_links (s : State) (n : Nat) (k : Chain) : (s.setChain n k).links = s.links := rfl
@[simp] theorem setChain_remotes (s : State) (n : Nat) (k : Chain) : (s.setChain n k).remotes = s.remotes := rfl
@[simp] theorem setChain_reductions (s : State) (n : Nat) (k : Chain) : (s.setChain n k).reductions = s.reductions := rfl
@[simp] theorem setChain_collectives (s : State) (n : Nat) (k : Chain) : (s.setChain n k).collectives = s.collectives := rfl
@[simp] theorem setChain_supplyLost (s : State) (n : Nat) (k : Chain) : (s.setChain n k).supplyLost = s.supplyLost := rfl
@[simp] theorem setChain_shootdowns (s : State) (n : Nat) (k : Chain) : (s.setChain n k).shootdowns = s.shootdowns := rfl
@[simp] theorem setChain_shootdownCtr (s : State) (n : Nat) (k : Chain) : (s.setChain n k).shootdownCtr = s.shootdownCtr := rfl
@[simp] theorem setChain_fwUpdate (s : State) (n : Nat) (k : Chain) : (s.setChain n k).fwUpdate = s.fwUpdate := rfl
@[simp] theorem setChain_fwIdle (s : State) (n : Nat) (k : Chain) : (s.setChain n k).fwIdle = s.fwIdle := rfl
@[simp] theorem setChain_fwWrote (s : State) (n : Nat) (k : Chain) : (s.setChain n k).fwWrote = s.fwWrote := rfl
@[simp] theorem setChain_fwDue (s : State) (n : Nat) (k : Chain) : (s.setChain n k).fwDue = s.fwDue := rfl

@[simp] theorem setLaunch_cur (s : State) (n : Nat) (k : Launch) : (s.setLaunch n k).cur = s.cur := rfl
@[simp] theorem setLaunch_inputs (s : State) (n : Nat) (k : Launch) : (s.setLaunch n k).inputs = s.inputs := rfl
@[simp] theorem setLaunch_picks (s : State) (n : Nat) (k : Launch) : (s.setLaunch n k).picks = s.picks := rfl
@[simp] theorem setLaunch_delays (s : State) (n : Nat) (k : Launch) : (s.setLaunch n k).delays = s.delays := rfl
@[simp] theorem setLaunch_freeCtr (s : State) (n : Nat) (k : Launch) : (s.setLaunch n k).freeCtr = s.freeCtr := rfl
@[simp] theorem setLaunch_mesh (s : State) (n : Nat) (k : Launch) : (s.setLaunch n k).mesh = s.mesh := rfl
@[simp] theorem setLaunch_cores (s : State) (n : Nat) (k : Launch) : (s.setLaunch n k).cores = s.cores := rfl
@[simp] theorem setLaunch_quads (s : State) (n : Nat) (k : Launch) : (s.setLaunch n k).quads = s.quads := rfl
@[simp] theorem setLaunch_clusters (s : State) (n : Nat) (k : Launch) : (s.setLaunch n k).clusters = s.clusters := rfl
@[simp] theorem setLaunch_gathers (s : State) (n : Nat) (k : Launch) : (s.setLaunch n k).gathers = s.gathers := rfl
@[simp] theorem setLaunch_collStalls (s : State) (n : Nat) (k : Launch) : (s.setLaunch n k).collStalls = s.collStalls := rfl
@[simp] theorem setLaunch_ioStalls (s : State) (n : Nat) (k : Launch) : (s.setLaunch n k).ioStalls = s.ioStalls := rfl
@[simp] theorem setLaunch_mem (s : State) (n : Nat) (k : Launch) : (s.setLaunch n k).mem = s.mem := rfl
@[simp] theorem setLaunch_l2dirty (s : State) (n : Nat) (k : Launch) : (s.setLaunch n k).l2dirty = s.l2dirty := rfl
@[simp] theorem setLaunch_poison (s : State) (n : Nat) (k : Launch) : (s.setLaunch n k).poison = s.poison := rfl
@[simp] theorem setLaunch_tileReads (s : State) (n : Nat) (k : Launch) : (s.setLaunch n k).tileReads = s.tileReads := rfl
@[simp] theorem setLaunch_owners (s : State) (n : Nat) (k : Launch) : (s.setLaunch n k).owners = s.owners := rfl
@[simp] theorem setLaunch_tags (s : State) (n : Nat) (k : Launch) : (s.setLaunch n k).tags = s.tags := rfl
@[simp] theorem setLaunch_vwords (s : State) (n : Nat) (k : Launch) : (s.setLaunch n k).vwords = s.vwords := rfl
@[simp] theorem setLaunch_releases (s : State) (n : Nat) (k : Launch) : (s.setLaunch n k).releases = s.releases := rfl
@[simp] theorem setLaunch_syncObjs (s : State) (n : Nat) (k : Launch) : (s.setLaunch n k).syncObjs = s.syncObjs := rfl
@[simp] theorem setLaunch_objects (s : State) (n : Nat) (k : Launch) : (s.setLaunch n k).objects = s.objects := rfl
@[simp] theorem setLaunch_chains (s : State) (n : Nat) (k : Launch) : (s.setLaunch n k).chains = s.chains := rfl
@[simp] theorem setLaunch_msix (s : State) (n : Nat) (k : Launch) : (s.setLaunch n k).msix = s.msix := rfl
@[simp] theorem setLaunch_msixTable (s : State) (n : Nat) (k : Launch) : (s.setLaunch n k).msixTable = s.msixTable := rfl
@[simp] theorem setLaunch_msixPending (s : State) (n : Nat) (k : Launch) : (s.setLaunch n k).msixPending = s.msixPending := rfl
@[simp] theorem setLaunch_bar0Error (s : State) (n : Nat) (k : Launch) : (s.setLaunch n k).bar0Error = s.bar0Error := rfl
@[simp] theorem setLaunch_log (s : State) (n : Nat) (k : Launch) : (s.setLaunch n k).log = s.log := rfl
@[simp] theorem setLaunch_obs (s : State) (n : Nat) (k : Launch) : (s.setLaunch n k).obs = s.obs := rfl
@[simp] theorem setLaunch_obsNext (s : State) (n : Nat) (k : Launch) : (s.setLaunch n k).obsNext = s.obsNext := rfl
@[simp] theorem setLaunch_ports (s : State) (n : Nat) (k : Launch) : (s.setLaunch n k).ports = s.ports := rfl
@[simp] theorem setLaunch_frames (s : State) (n : Nat) (k : Launch) : (s.setLaunch n k).frames = s.frames := rfl
@[simp] theorem setLaunch_trigger (s : State) (n : Nat) (k : Launch) : (s.setLaunch n k).trigger = s.trigger := rfl
@[simp] theorem setLaunch_breakpoints (s : State) (n : Nat) (k : Launch) : (s.setLaunch n k).breakpoints = s.breakpoints := rfl
@[simp] theorem setLaunch_chainHalt (s : State) (n : Nat) (k : Launch) : (s.setLaunch n k).chainHalt = s.chainHalt := rfl
@[simp] theorem setLaunch_taskStops (s : State) (n : Nat) (k : Launch) : (s.setLaunch n k).taskStops = s.taskStops := rfl
@[simp] theorem setLaunch_devid (s : State) (n : Nat) (k : Launch) : (s.setLaunch n k).devid = s.devid := rfl
@[simp] theorem setLaunch_links (s : State) (n : Nat) (k : Launch) : (s.setLaunch n k).links = s.links := rfl
@[simp] theorem setLaunch_remotes (s : State) (n : Nat) (k : Launch) : (s.setLaunch n k).remotes = s.remotes := rfl
@[simp] theorem setLaunch_reductions (s : State) (n : Nat) (k : Launch) : (s.setLaunch n k).reductions = s.reductions := rfl
@[simp] theorem setLaunch_collectives (s : State) (n : Nat) (k : Launch) : (s.setLaunch n k).collectives = s.collectives := rfl
@[simp] theorem setLaunch_supplyLost (s : State) (n : Nat) (k : Launch) : (s.setLaunch n k).supplyLost = s.supplyLost := rfl
@[simp] theorem setLaunch_shootdowns (s : State) (n : Nat) (k : Launch) : (s.setLaunch n k).shootdowns = s.shootdowns := rfl
@[simp] theorem setLaunch_shootdownCtr (s : State) (n : Nat) (k : Launch) : (s.setLaunch n k).shootdownCtr = s.shootdownCtr := rfl
@[simp] theorem setLaunch_fwUpdate (s : State) (n : Nat) (k : Launch) : (s.setLaunch n k).fwUpdate = s.fwUpdate := rfl
@[simp] theorem setLaunch_fwIdle (s : State) (n : Nat) (k : Launch) : (s.setLaunch n k).fwIdle = s.fwIdle := rfl
@[simp] theorem setLaunch_fwWrote (s : State) (n : Nat) (k : Launch) : (s.setLaunch n k).fwWrote = s.fwWrote := rfl
@[simp] theorem setLaunch_fwDue (s : State) (n : Nat) (k : Launch) : (s.setLaunch n k).fwDue = s.fwDue := rfl

@[simp] theorem setCtx_cur (s : State) (c : Nat) (x : Fin 8) (t : Ctx) : (s.setCtx c x t).cur = s.cur := rfl
@[simp] theorem setCtx_inputs (s : State) (c : Nat) (x : Fin 8) (t : Ctx) : (s.setCtx c x t).inputs = s.inputs := rfl
@[simp] theorem setCtx_picks (s : State) (c : Nat) (x : Fin 8) (t : Ctx) : (s.setCtx c x t).picks = s.picks := rfl
@[simp] theorem setCtx_delays (s : State) (c : Nat) (x : Fin 8) (t : Ctx) : (s.setCtx c x t).delays = s.delays := rfl
@[simp] theorem setCtx_freeCtr (s : State) (c : Nat) (x : Fin 8) (t : Ctx) : (s.setCtx c x t).freeCtr = s.freeCtr := rfl
@[simp] theorem setCtx_mesh (s : State) (c : Nat) (x : Fin 8) (t : Ctx) : (s.setCtx c x t).mesh = s.mesh := rfl
@[simp] theorem setCtx_quads (s : State) (c : Nat) (x : Fin 8) (t : Ctx) : (s.setCtx c x t).quads = s.quads := rfl
@[simp] theorem setCtx_clusters (s : State) (c : Nat) (x : Fin 8) (t : Ctx) : (s.setCtx c x t).clusters = s.clusters := rfl
@[simp] theorem setCtx_gathers (s : State) (c : Nat) (x : Fin 8) (t : Ctx) : (s.setCtx c x t).gathers = s.gathers := rfl
@[simp] theorem setCtx_collStalls (s : State) (c : Nat) (x : Fin 8) (t : Ctx) : (s.setCtx c x t).collStalls = s.collStalls := rfl
@[simp] theorem setCtx_ioStalls (s : State) (c : Nat) (x : Fin 8) (t : Ctx) : (s.setCtx c x t).ioStalls = s.ioStalls := rfl
@[simp] theorem setCtx_mem (s : State) (c : Nat) (x : Fin 8) (t : Ctx) : (s.setCtx c x t).mem = s.mem := rfl
@[simp] theorem setCtx_l2dirty (s : State) (c : Nat) (x : Fin 8) (t : Ctx) : (s.setCtx c x t).l2dirty = s.l2dirty := rfl
@[simp] theorem setCtx_poison (s : State) (c : Nat) (x : Fin 8) (t : Ctx) : (s.setCtx c x t).poison = s.poison := rfl
@[simp] theorem setCtx_tileReads (s : State) (c : Nat) (x : Fin 8) (t : Ctx) : (s.setCtx c x t).tileReads = s.tileReads := rfl
@[simp] theorem setCtx_owners (s : State) (c : Nat) (x : Fin 8) (t : Ctx) : (s.setCtx c x t).owners = s.owners := rfl
@[simp] theorem setCtx_tags (s : State) (c : Nat) (x : Fin 8) (t : Ctx) : (s.setCtx c x t).tags = s.tags := rfl
@[simp] theorem setCtx_vwords (s : State) (c : Nat) (x : Fin 8) (t : Ctx) : (s.setCtx c x t).vwords = s.vwords := rfl
@[simp] theorem setCtx_releases (s : State) (c : Nat) (x : Fin 8) (t : Ctx) : (s.setCtx c x t).releases = s.releases := rfl
@[simp] theorem setCtx_syncObjs (s : State) (c : Nat) (x : Fin 8) (t : Ctx) : (s.setCtx c x t).syncObjs = s.syncObjs := rfl
@[simp] theorem setCtx_objects (s : State) (c : Nat) (x : Fin 8) (t : Ctx) : (s.setCtx c x t).objects = s.objects := rfl
@[simp] theorem setCtx_launches (s : State) (c : Nat) (x : Fin 8) (t : Ctx) : (s.setCtx c x t).launches = s.launches := rfl
@[simp] theorem setCtx_chains (s : State) (c : Nat) (x : Fin 8) (t : Ctx) : (s.setCtx c x t).chains = s.chains := rfl
@[simp] theorem setCtx_msix (s : State) (c : Nat) (x : Fin 8) (t : Ctx) : (s.setCtx c x t).msix = s.msix := rfl
@[simp] theorem setCtx_msixTable (s : State) (c : Nat) (x : Fin 8) (t : Ctx) : (s.setCtx c x t).msixTable = s.msixTable := rfl
@[simp] theorem setCtx_msixPending (s : State) (c : Nat) (x : Fin 8) (t : Ctx) : (s.setCtx c x t).msixPending = s.msixPending := rfl
@[simp] theorem setCtx_bar0Error (s : State) (c : Nat) (x : Fin 8) (t : Ctx) : (s.setCtx c x t).bar0Error = s.bar0Error := rfl
@[simp] theorem setCtx_log (s : State) (c : Nat) (x : Fin 8) (t : Ctx) : (s.setCtx c x t).log = s.log := rfl
@[simp] theorem setCtx_obs (s : State) (c : Nat) (x : Fin 8) (t : Ctx) : (s.setCtx c x t).obs = s.obs := rfl
@[simp] theorem setCtx_obsNext (s : State) (c : Nat) (x : Fin 8) (t : Ctx) : (s.setCtx c x t).obsNext = s.obsNext := rfl
@[simp] theorem setCtx_ports (s : State) (c : Nat) (x : Fin 8) (t : Ctx) : (s.setCtx c x t).ports = s.ports := rfl
@[simp] theorem setCtx_frames (s : State) (c : Nat) (x : Fin 8) (t : Ctx) : (s.setCtx c x t).frames = s.frames := rfl
@[simp] theorem setCtx_trigger (s : State) (c : Nat) (x : Fin 8) (t : Ctx) : (s.setCtx c x t).trigger = s.trigger := rfl
@[simp] theorem setCtx_breakpoints (s : State) (c : Nat) (x : Fin 8) (t : Ctx) : (s.setCtx c x t).breakpoints = s.breakpoints := rfl
@[simp] theorem setCtx_chainHalt (s : State) (c : Nat) (x : Fin 8) (t : Ctx) : (s.setCtx c x t).chainHalt = s.chainHalt := rfl
@[simp] theorem setCtx_taskStops (s : State) (c : Nat) (x : Fin 8) (t : Ctx) : (s.setCtx c x t).taskStops = s.taskStops := rfl
@[simp] theorem setCtx_devid (s : State) (c : Nat) (x : Fin 8) (t : Ctx) : (s.setCtx c x t).devid = s.devid := rfl
@[simp] theorem setCtx_links (s : State) (c : Nat) (x : Fin 8) (t : Ctx) : (s.setCtx c x t).links = s.links := rfl
@[simp] theorem setCtx_remotes (s : State) (c : Nat) (x : Fin 8) (t : Ctx) : (s.setCtx c x t).remotes = s.remotes := rfl
@[simp] theorem setCtx_reductions (s : State) (c : Nat) (x : Fin 8) (t : Ctx) : (s.setCtx c x t).reductions = s.reductions := rfl
@[simp] theorem setCtx_collectives (s : State) (c : Nat) (x : Fin 8) (t : Ctx) : (s.setCtx c x t).collectives = s.collectives := rfl
@[simp] theorem setCtx_supplyLost (s : State) (c : Nat) (x : Fin 8) (t : Ctx) : (s.setCtx c x t).supplyLost = s.supplyLost := rfl
@[simp] theorem setCtx_shootdowns (s : State) (c : Nat) (x : Fin 8) (t : Ctx) : (s.setCtx c x t).shootdowns = s.shootdowns := rfl
@[simp] theorem setCtx_shootdownCtr (s : State) (c : Nat) (x : Fin 8) (t : Ctx) : (s.setCtx c x t).shootdownCtr = s.shootdownCtr := rfl
@[simp] theorem setCtx_fwUpdate (s : State) (c : Nat) (x : Fin 8) (t : Ctx) : (s.setCtx c x t).fwUpdate = s.fwUpdate := rfl
@[simp] theorem setCtx_fwIdle (s : State) (c : Nat) (x : Fin 8) (t : Ctx) : (s.setCtx c x t).fwIdle = s.fwIdle := rfl
@[simp] theorem setCtx_fwWrote (s : State) (c : Nat) (x : Fin 8) (t : Ctx) : (s.setCtx c x t).fwWrote = s.fwWrote := rfl
@[simp] theorem setCtx_fwDue (s : State) (c : Nat) (x : Fin 8) (t : Ctx) : (s.setCtx c x t).fwDue = s.fwDue := rfl
@[simp] theorem setMe_cur (s : State) (t : Ctx) : (s.setMe t).cur = s.cur := rfl
@[simp] theorem setMe_inputs (s : State) (t : Ctx) : (s.setMe t).inputs = s.inputs := rfl
@[simp] theorem setMe_picks (s : State) (t : Ctx) : (s.setMe t).picks = s.picks := rfl
@[simp] theorem setMe_delays (s : State) (t : Ctx) : (s.setMe t).delays = s.delays := rfl
@[simp] theorem setMe_freeCtr (s : State) (t : Ctx) : (s.setMe t).freeCtr = s.freeCtr := rfl
@[simp] theorem setMe_mesh (s : State) (t : Ctx) : (s.setMe t).mesh = s.mesh := rfl
@[simp] theorem setMe_quads (s : State) (t : Ctx) : (s.setMe t).quads = s.quads := rfl
@[simp] theorem setMe_clusters (s : State) (t : Ctx) : (s.setMe t).clusters = s.clusters := rfl
@[simp] theorem setMe_gathers (s : State) (t : Ctx) : (s.setMe t).gathers = s.gathers := rfl
@[simp] theorem setMe_collStalls (s : State) (t : Ctx) : (s.setMe t).collStalls = s.collStalls := rfl
@[simp] theorem setMe_ioStalls (s : State) (t : Ctx) : (s.setMe t).ioStalls = s.ioStalls := rfl
@[simp] theorem setMe_mem (s : State) (t : Ctx) : (s.setMe t).mem = s.mem := rfl
@[simp] theorem setMe_l2dirty (s : State) (t : Ctx) : (s.setMe t).l2dirty = s.l2dirty := rfl
@[simp] theorem setMe_poison (s : State) (t : Ctx) : (s.setMe t).poison = s.poison := rfl
@[simp] theorem setMe_tileReads (s : State) (t : Ctx) : (s.setMe t).tileReads = s.tileReads := rfl
@[simp] theorem setMe_owners (s : State) (t : Ctx) : (s.setMe t).owners = s.owners := rfl
@[simp] theorem setMe_tags (s : State) (t : Ctx) : (s.setMe t).tags = s.tags := rfl
@[simp] theorem setMe_vwords (s : State) (t : Ctx) : (s.setMe t).vwords = s.vwords := rfl
@[simp] theorem setMe_releases (s : State) (t : Ctx) : (s.setMe t).releases = s.releases := rfl
@[simp] theorem setMe_syncObjs (s : State) (t : Ctx) : (s.setMe t).syncObjs = s.syncObjs := rfl
@[simp] theorem setMe_objects (s : State) (t : Ctx) : (s.setMe t).objects = s.objects := rfl
@[simp] theorem setMe_launches (s : State) (t : Ctx) : (s.setMe t).launches = s.launches := rfl
@[simp] theorem setMe_chains (s : State) (t : Ctx) : (s.setMe t).chains = s.chains := rfl
@[simp] theorem setMe_msix (s : State) (t : Ctx) : (s.setMe t).msix = s.msix := rfl
@[simp] theorem setMe_msixTable (s : State) (t : Ctx) : (s.setMe t).msixTable = s.msixTable := rfl
@[simp] theorem setMe_msixPending (s : State) (t : Ctx) : (s.setMe t).msixPending = s.msixPending := rfl
@[simp] theorem setMe_bar0Error (s : State) (t : Ctx) : (s.setMe t).bar0Error = s.bar0Error := rfl
@[simp] theorem setMe_log (s : State) (t : Ctx) : (s.setMe t).log = s.log := rfl
@[simp] theorem setMe_obs (s : State) (t : Ctx) : (s.setMe t).obs = s.obs := rfl
@[simp] theorem setMe_obsNext (s : State) (t : Ctx) : (s.setMe t).obsNext = s.obsNext := rfl
@[simp] theorem setMe_ports (s : State) (t : Ctx) : (s.setMe t).ports = s.ports := rfl
@[simp] theorem setMe_frames (s : State) (t : Ctx) : (s.setMe t).frames = s.frames := rfl
@[simp] theorem setMe_trigger (s : State) (t : Ctx) : (s.setMe t).trigger = s.trigger := rfl
@[simp] theorem setMe_breakpoints (s : State) (t : Ctx) : (s.setMe t).breakpoints = s.breakpoints := rfl
@[simp] theorem setMe_chainHalt (s : State) (t : Ctx) : (s.setMe t).chainHalt = s.chainHalt := rfl
@[simp] theorem setMe_taskStops (s : State) (t : Ctx) : (s.setMe t).taskStops = s.taskStops := rfl
@[simp] theorem setMe_devid (s : State) (t : Ctx) : (s.setMe t).devid = s.devid := rfl
@[simp] theorem setMe_links (s : State) (t : Ctx) : (s.setMe t).links = s.links := rfl
@[simp] theorem setMe_remotes (s : State) (t : Ctx) : (s.setMe t).remotes = s.remotes := rfl
@[simp] theorem setMe_reductions (s : State) (t : Ctx) : (s.setMe t).reductions = s.reductions := rfl
@[simp] theorem setMe_collectives (s : State) (t : Ctx) : (s.setMe t).collectives = s.collectives := rfl
@[simp] theorem setMe_supplyLost (s : State) (t : Ctx) : (s.setMe t).supplyLost = s.supplyLost := rfl
@[simp] theorem setMe_shootdowns (s : State) (t : Ctx) : (s.setMe t).shootdowns = s.shootdowns := rfl
@[simp] theorem setMe_shootdownCtr (s : State) (t : Ctx) : (s.setMe t).shootdownCtr = s.shootdownCtr := rfl
@[simp] theorem setMe_fwUpdate (s : State) (t : Ctx) : (s.setMe t).fwUpdate = s.fwUpdate := rfl
@[simp] theorem setMe_fwIdle (s : State) (t : Ctx) : (s.setMe t).fwIdle = s.fwIdle := rfl
@[simp] theorem setMe_fwWrote (s : State) (t : Ctx) : (s.setMe t).fwWrote = s.fwWrote := rfl
@[simp] theorem setMe_fwDue (s : State) (t : Ctx) : (s.setMe t).fwDue = s.fwDue := rfl
@[simp] theorem updMe_cur (s : State) (f : Ctx → Ctx) : (s.updMe f).cur = s.cur := rfl
@[simp] theorem updMe_inputs (s : State) (f : Ctx → Ctx) : (s.updMe f).inputs = s.inputs := rfl
@[simp] theorem updMe_picks (s : State) (f : Ctx → Ctx) : (s.updMe f).picks = s.picks := rfl
@[simp] theorem updMe_delays (s : State) (f : Ctx → Ctx) : (s.updMe f).delays = s.delays := rfl
@[simp] theorem updMe_freeCtr (s : State) (f : Ctx → Ctx) : (s.updMe f).freeCtr = s.freeCtr := rfl
@[simp] theorem updMe_mesh (s : State) (f : Ctx → Ctx) : (s.updMe f).mesh = s.mesh := rfl
@[simp] theorem updMe_quads (s : State) (f : Ctx → Ctx) : (s.updMe f).quads = s.quads := rfl
@[simp] theorem updMe_clusters (s : State) (f : Ctx → Ctx) : (s.updMe f).clusters = s.clusters := rfl
@[simp] theorem updMe_gathers (s : State) (f : Ctx → Ctx) : (s.updMe f).gathers = s.gathers := rfl
@[simp] theorem updMe_collStalls (s : State) (f : Ctx → Ctx) : (s.updMe f).collStalls = s.collStalls := rfl
@[simp] theorem updMe_ioStalls (s : State) (f : Ctx → Ctx) : (s.updMe f).ioStalls = s.ioStalls := rfl
@[simp] theorem updMe_mem (s : State) (f : Ctx → Ctx) : (s.updMe f).mem = s.mem := rfl
@[simp] theorem updMe_l2dirty (s : State) (f : Ctx → Ctx) : (s.updMe f).l2dirty = s.l2dirty := rfl
@[simp] theorem updMe_poison (s : State) (f : Ctx → Ctx) : (s.updMe f).poison = s.poison := rfl
@[simp] theorem updMe_tileReads (s : State) (f : Ctx → Ctx) : (s.updMe f).tileReads = s.tileReads := rfl
@[simp] theorem updMe_owners (s : State) (f : Ctx → Ctx) : (s.updMe f).owners = s.owners := rfl
@[simp] theorem updMe_tags (s : State) (f : Ctx → Ctx) : (s.updMe f).tags = s.tags := rfl
@[simp] theorem updMe_vwords (s : State) (f : Ctx → Ctx) : (s.updMe f).vwords = s.vwords := rfl
@[simp] theorem updMe_releases (s : State) (f : Ctx → Ctx) : (s.updMe f).releases = s.releases := rfl
@[simp] theorem updMe_syncObjs (s : State) (f : Ctx → Ctx) : (s.updMe f).syncObjs = s.syncObjs := rfl
@[simp] theorem updMe_objects (s : State) (f : Ctx → Ctx) : (s.updMe f).objects = s.objects := rfl
@[simp] theorem updMe_launches (s : State) (f : Ctx → Ctx) : (s.updMe f).launches = s.launches := rfl
@[simp] theorem updMe_chains (s : State) (f : Ctx → Ctx) : (s.updMe f).chains = s.chains := rfl
@[simp] theorem updMe_msix (s : State) (f : Ctx → Ctx) : (s.updMe f).msix = s.msix := rfl
@[simp] theorem updMe_msixTable (s : State) (f : Ctx → Ctx) : (s.updMe f).msixTable = s.msixTable := rfl
@[simp] theorem updMe_msixPending (s : State) (f : Ctx → Ctx) : (s.updMe f).msixPending = s.msixPending := rfl
@[simp] theorem updMe_bar0Error (s : State) (f : Ctx → Ctx) : (s.updMe f).bar0Error = s.bar0Error := rfl
@[simp] theorem updMe_log (s : State) (f : Ctx → Ctx) : (s.updMe f).log = s.log := rfl
@[simp] theorem updMe_obs (s : State) (f : Ctx → Ctx) : (s.updMe f).obs = s.obs := rfl
@[simp] theorem updMe_obsNext (s : State) (f : Ctx → Ctx) : (s.updMe f).obsNext = s.obsNext := rfl
@[simp] theorem updMe_ports (s : State) (f : Ctx → Ctx) : (s.updMe f).ports = s.ports := rfl
@[simp] theorem updMe_frames (s : State) (f : Ctx → Ctx) : (s.updMe f).frames = s.frames := rfl
@[simp] theorem updMe_trigger (s : State) (f : Ctx → Ctx) : (s.updMe f).trigger = s.trigger := rfl
@[simp] theorem updMe_breakpoints (s : State) (f : Ctx → Ctx) : (s.updMe f).breakpoints = s.breakpoints := rfl
@[simp] theorem updMe_chainHalt (s : State) (f : Ctx → Ctx) : (s.updMe f).chainHalt = s.chainHalt := rfl
@[simp] theorem updMe_taskStops (s : State) (f : Ctx → Ctx) : (s.updMe f).taskStops = s.taskStops := rfl
@[simp] theorem updMe_devid (s : State) (f : Ctx → Ctx) : (s.updMe f).devid = s.devid := rfl
@[simp] theorem updMe_links (s : State) (f : Ctx → Ctx) : (s.updMe f).links = s.links := rfl
@[simp] theorem updMe_remotes (s : State) (f : Ctx → Ctx) : (s.updMe f).remotes = s.remotes := rfl
@[simp] theorem updMe_reductions (s : State) (f : Ctx → Ctx) : (s.updMe f).reductions = s.reductions := rfl
@[simp] theorem updMe_collectives (s : State) (f : Ctx → Ctx) : (s.updMe f).collectives = s.collectives := rfl
@[simp] theorem updMe_supplyLost (s : State) (f : Ctx → Ctx) : (s.updMe f).supplyLost = s.supplyLost := rfl
@[simp] theorem updMe_shootdowns (s : State) (f : Ctx → Ctx) : (s.updMe f).shootdowns = s.shootdowns := rfl
@[simp] theorem updMe_shootdownCtr (s : State) (f : Ctx → Ctx) : (s.updMe f).shootdownCtr = s.shootdownCtr := rfl
@[simp] theorem updMe_fwUpdate (s : State) (f : Ctx → Ctx) : (s.updMe f).fwUpdate = s.fwUpdate := rfl
@[simp] theorem updMe_fwIdle (s : State) (f : Ctx → Ctx) : (s.updMe f).fwIdle = s.fwIdle := rfl
@[simp] theorem updMe_fwWrote (s : State) (f : Ctx → Ctx) : (s.updMe f).fwWrote = s.fwWrote := rfl
@[simp] theorem updMe_fwDue (s : State) (f : Ctx → Ctx) : (s.updMe f).fwDue = s.fwDue := rfl
@[simp] theorem woken_cur (s : State) (f : Form) : (s.woken f).cur = s.cur := rfl
@[simp] theorem woken_inputs (s : State) (f : Form) : (s.woken f).inputs = s.inputs := rfl
@[simp] theorem woken_picks (s : State) (f : Form) : (s.woken f).picks = s.picks := rfl
@[simp] theorem woken_delays (s : State) (f : Form) : (s.woken f).delays = s.delays := rfl
@[simp] theorem woken_freeCtr (s : State) (f : Form) : (s.woken f).freeCtr = s.freeCtr := rfl
@[simp] theorem woken_mesh (s : State) (f : Form) : (s.woken f).mesh = s.mesh := rfl
@[simp] theorem woken_quads (s : State) (f : Form) : (s.woken f).quads = s.quads := rfl
@[simp] theorem woken_clusters (s : State) (f : Form) : (s.woken f).clusters = s.clusters := rfl
@[simp] theorem woken_gathers (s : State) (f : Form) : (s.woken f).gathers = s.gathers := rfl
@[simp] theorem woken_collStalls (s : State) (f : Form) : (s.woken f).collStalls = s.collStalls := rfl
@[simp] theorem woken_ioStalls (s : State) (f : Form) : (s.woken f).ioStalls = s.ioStalls := rfl
@[simp] theorem woken_mem (s : State) (f : Form) : (s.woken f).mem = s.mem := rfl
@[simp] theorem woken_l2dirty (s : State) (f : Form) : (s.woken f).l2dirty = s.l2dirty := rfl
@[simp] theorem woken_poison (s : State) (f : Form) : (s.woken f).poison = s.poison := rfl
@[simp] theorem woken_tileReads (s : State) (f : Form) : (s.woken f).tileReads = s.tileReads := rfl
@[simp] theorem woken_owners (s : State) (f : Form) : (s.woken f).owners = s.owners := rfl
@[simp] theorem woken_tags (s : State) (f : Form) : (s.woken f).tags = s.tags := rfl
@[simp] theorem woken_vwords (s : State) (f : Form) : (s.woken f).vwords = s.vwords := rfl
@[simp] theorem woken_releases (s : State) (f : Form) : (s.woken f).releases = s.releases := rfl
@[simp] theorem woken_syncObjs (s : State) (f : Form) : (s.woken f).syncObjs = s.syncObjs := rfl
@[simp] theorem woken_objects (s : State) (f : Form) : (s.woken f).objects = s.objects := rfl
@[simp] theorem woken_launches (s : State) (f : Form) : (s.woken f).launches = s.launches := rfl
@[simp] theorem woken_chains (s : State) (f : Form) : (s.woken f).chains = s.chains := rfl
@[simp] theorem woken_msix (s : State) (f : Form) : (s.woken f).msix = s.msix := rfl
@[simp] theorem woken_msixTable (s : State) (f : Form) : (s.woken f).msixTable = s.msixTable := rfl
@[simp] theorem woken_msixPending (s : State) (f : Form) : (s.woken f).msixPending = s.msixPending := rfl
@[simp] theorem woken_bar0Error (s : State) (f : Form) : (s.woken f).bar0Error = s.bar0Error := rfl
@[simp] theorem woken_log (s : State) (f : Form) : (s.woken f).log = s.log := rfl
@[simp] theorem woken_obs (s : State) (f : Form) : (s.woken f).obs = s.obs := rfl
@[simp] theorem woken_obsNext (s : State) (f : Form) : (s.woken f).obsNext = s.obsNext := rfl
@[simp] theorem woken_ports (s : State) (f : Form) : (s.woken f).ports = s.ports := rfl
@[simp] theorem woken_frames (s : State) (f : Form) : (s.woken f).frames = s.frames := rfl
@[simp] theorem woken_trigger (s : State) (f : Form) : (s.woken f).trigger = s.trigger := rfl
@[simp] theorem woken_breakpoints (s : State) (f : Form) : (s.woken f).breakpoints = s.breakpoints := rfl
@[simp] theorem woken_chainHalt (s : State) (f : Form) : (s.woken f).chainHalt = s.chainHalt := rfl
@[simp] theorem woken_taskStops (s : State) (f : Form) : (s.woken f).taskStops = s.taskStops := rfl
@[simp] theorem woken_devid (s : State) (f : Form) : (s.woken f).devid = s.devid := rfl
@[simp] theorem woken_links (s : State) (f : Form) : (s.woken f).links = s.links := rfl
@[simp] theorem woken_remotes (s : State) (f : Form) : (s.woken f).remotes = s.remotes := rfl
@[simp] theorem woken_reductions (s : State) (f : Form) : (s.woken f).reductions = s.reductions := rfl
@[simp] theorem woken_collectives (s : State) (f : Form) : (s.woken f).collectives = s.collectives := rfl
@[simp] theorem woken_supplyLost (s : State) (f : Form) : (s.woken f).supplyLost = s.supplyLost := rfl
@[simp] theorem woken_shootdowns (s : State) (f : Form) : (s.woken f).shootdowns = s.shootdowns := rfl
@[simp] theorem woken_shootdownCtr (s : State) (f : Form) : (s.woken f).shootdownCtr = s.shootdownCtr := rfl
@[simp] theorem woken_fwUpdate (s : State) (f : Form) : (s.woken f).fwUpdate = s.fwUpdate := rfl
@[simp] theorem woken_fwIdle (s : State) (f : Form) : (s.woken f).fwIdle = s.fwIdle := rfl
@[simp] theorem woken_fwWrote (s : State) (f : Form) : (s.woken f).fwWrote = s.fwWrote := rfl
@[simp] theorem woken_fwDue (s : State) (f : Form) : (s.woken f).fwDue = s.fwDue := rfl
@[simp] theorem retireTo_cur (s : State) (f : Form) (n i : Word) (u : Ctx → Ctx) : (s.retireTo f n i u).cur = s.cur := rfl
@[simp] theorem retireTo_inputs (s : State) (f : Form) (n i : Word) (u : Ctx → Ctx) : (s.retireTo f n i u).inputs = s.inputs := rfl
@[simp] theorem retireTo_picks (s : State) (f : Form) (n i : Word) (u : Ctx → Ctx) : (s.retireTo f n i u).picks = s.picks := rfl
@[simp] theorem retireTo_delays (s : State) (f : Form) (n i : Word) (u : Ctx → Ctx) : (s.retireTo f n i u).delays = s.delays := rfl
@[simp] theorem retireTo_freeCtr (s : State) (f : Form) (n i : Word) (u : Ctx → Ctx) : (s.retireTo f n i u).freeCtr = s.freeCtr := rfl
@[simp] theorem retireTo_mesh (s : State) (f : Form) (n i : Word) (u : Ctx → Ctx) : (s.retireTo f n i u).mesh = s.mesh := rfl
@[simp] theorem retireTo_quads (s : State) (f : Form) (n i : Word) (u : Ctx → Ctx) : (s.retireTo f n i u).quads = s.quads := rfl
@[simp] theorem retireTo_clusters (s : State) (f : Form) (n i : Word) (u : Ctx → Ctx) : (s.retireTo f n i u).clusters = s.clusters := rfl
@[simp] theorem retireTo_gathers (s : State) (f : Form) (n i : Word) (u : Ctx → Ctx) : (s.retireTo f n i u).gathers = s.gathers := rfl
@[simp] theorem retireTo_collStalls (s : State) (f : Form) (n i : Word) (u : Ctx → Ctx) : (s.retireTo f n i u).collStalls = s.collStalls := rfl
@[simp] theorem retireTo_ioStalls (s : State) (f : Form) (n i : Word) (u : Ctx → Ctx) : (s.retireTo f n i u).ioStalls = s.ioStalls := rfl
@[simp] theorem retireTo_mem (s : State) (f : Form) (n i : Word) (u : Ctx → Ctx) : (s.retireTo f n i u).mem = s.mem := rfl
@[simp] theorem retireTo_l2dirty (s : State) (f : Form) (n i : Word) (u : Ctx → Ctx) : (s.retireTo f n i u).l2dirty = s.l2dirty := rfl
@[simp] theorem retireTo_poison (s : State) (f : Form) (n i : Word) (u : Ctx → Ctx) : (s.retireTo f n i u).poison = s.poison := rfl
@[simp] theorem retireTo_tileReads (s : State) (f : Form) (n i : Word) (u : Ctx → Ctx) : (s.retireTo f n i u).tileReads = s.tileReads := rfl
@[simp] theorem retireTo_owners (s : State) (f : Form) (n i : Word) (u : Ctx → Ctx) : (s.retireTo f n i u).owners = s.owners := rfl
@[simp] theorem retireTo_tags (s : State) (f : Form) (n i : Word) (u : Ctx → Ctx) : (s.retireTo f n i u).tags = s.tags := rfl
@[simp] theorem retireTo_vwords (s : State) (f : Form) (n i : Word) (u : Ctx → Ctx) : (s.retireTo f n i u).vwords = s.vwords := rfl
@[simp] theorem retireTo_releases (s : State) (f : Form) (n i : Word) (u : Ctx → Ctx) : (s.retireTo f n i u).releases = s.releases := rfl
@[simp] theorem retireTo_syncObjs (s : State) (f : Form) (n i : Word) (u : Ctx → Ctx) : (s.retireTo f n i u).syncObjs = s.syncObjs := rfl
@[simp] theorem retireTo_objects (s : State) (f : Form) (n i : Word) (u : Ctx → Ctx) : (s.retireTo f n i u).objects = s.objects := rfl
@[simp] theorem retireTo_launches (s : State) (f : Form) (n i : Word) (u : Ctx → Ctx) : (s.retireTo f n i u).launches = s.launches := rfl
@[simp] theorem retireTo_chains (s : State) (f : Form) (n i : Word) (u : Ctx → Ctx) : (s.retireTo f n i u).chains = s.chains := rfl
@[simp] theorem retireTo_msix (s : State) (f : Form) (n i : Word) (u : Ctx → Ctx) : (s.retireTo f n i u).msix = s.msix := rfl
@[simp] theorem retireTo_msixTable (s : State) (f : Form) (n i : Word) (u : Ctx → Ctx) : (s.retireTo f n i u).msixTable = s.msixTable := rfl
@[simp] theorem retireTo_msixPending (s : State) (f : Form) (n i : Word) (u : Ctx → Ctx) : (s.retireTo f n i u).msixPending = s.msixPending := rfl
@[simp] theorem retireTo_bar0Error (s : State) (f : Form) (n i : Word) (u : Ctx → Ctx) : (s.retireTo f n i u).bar0Error = s.bar0Error := rfl
@[simp] theorem retireTo_log (s : State) (f : Form) (n i : Word) (u : Ctx → Ctx) : (s.retireTo f n i u).log = s.log := rfl
@[simp] theorem retireTo_obs (s : State) (f : Form) (n i : Word) (u : Ctx → Ctx) : (s.retireTo f n i u).obs = s.obs := rfl
@[simp] theorem retireTo_obsNext (s : State) (f : Form) (n i : Word) (u : Ctx → Ctx) : (s.retireTo f n i u).obsNext = s.obsNext := rfl
@[simp] theorem retireTo_ports (s : State) (f : Form) (n i : Word) (u : Ctx → Ctx) : (s.retireTo f n i u).ports = s.ports := rfl
@[simp] theorem retireTo_frames (s : State) (f : Form) (n i : Word) (u : Ctx → Ctx) : (s.retireTo f n i u).frames = s.frames := rfl
@[simp] theorem retireTo_trigger (s : State) (f : Form) (n i : Word) (u : Ctx → Ctx) : (s.retireTo f n i u).trigger = s.trigger := rfl
@[simp] theorem retireTo_breakpoints (s : State) (f : Form) (n i : Word) (u : Ctx → Ctx) : (s.retireTo f n i u).breakpoints = s.breakpoints := rfl
@[simp] theorem retireTo_chainHalt (s : State) (f : Form) (n i : Word) (u : Ctx → Ctx) : (s.retireTo f n i u).chainHalt = s.chainHalt := rfl
@[simp] theorem retireTo_taskStops (s : State) (f : Form) (n i : Word) (u : Ctx → Ctx) : (s.retireTo f n i u).taskStops = s.taskStops := rfl
@[simp] theorem retireTo_devid (s : State) (f : Form) (n i : Word) (u : Ctx → Ctx) : (s.retireTo f n i u).devid = s.devid := rfl
@[simp] theorem retireTo_links (s : State) (f : Form) (n i : Word) (u : Ctx → Ctx) : (s.retireTo f n i u).links = s.links := rfl
@[simp] theorem retireTo_remotes (s : State) (f : Form) (n i : Word) (u : Ctx → Ctx) : (s.retireTo f n i u).remotes = s.remotes := rfl
@[simp] theorem retireTo_reductions (s : State) (f : Form) (n i : Word) (u : Ctx → Ctx) : (s.retireTo f n i u).reductions = s.reductions := rfl
@[simp] theorem retireTo_collectives (s : State) (f : Form) (n i : Word) (u : Ctx → Ctx) : (s.retireTo f n i u).collectives = s.collectives := rfl
@[simp] theorem retireTo_supplyLost (s : State) (f : Form) (n i : Word) (u : Ctx → Ctx) : (s.retireTo f n i u).supplyLost = s.supplyLost := rfl
@[simp] theorem retireTo_shootdowns (s : State) (f : Form) (n i : Word) (u : Ctx → Ctx) : (s.retireTo f n i u).shootdowns = s.shootdowns := rfl
@[simp] theorem retireTo_shootdownCtr (s : State) (f : Form) (n i : Word) (u : Ctx → Ctx) : (s.retireTo f n i u).shootdownCtr = s.shootdownCtr := rfl
@[simp] theorem retireTo_fwUpdate (s : State) (f : Form) (n i : Word) (u : Ctx → Ctx) : (s.retireTo f n i u).fwUpdate = s.fwUpdate := rfl
@[simp] theorem retireTo_fwIdle (s : State) (f : Form) (n i : Word) (u : Ctx → Ctx) : (s.retireTo f n i u).fwIdle = s.fwIdle := rfl
@[simp] theorem retireTo_fwWrote (s : State) (f : Form) (n i : Word) (u : Ctx → Ctx) : (s.retireTo f n i u).fwWrote = s.fwWrote := rfl
@[simp] theorem retireTo_fwDue (s : State) (f : Form) (n i : Word) (u : Ctx → Ctx) : (s.retireTo f n i u).fwDue = s.fwDue := rfl
@[simp] theorem retire_cur (s : State) (f : Form) (u : Ctx → Ctx) : (s.retire f u).cur = s.cur := rfl
@[simp] theorem retire_inputs (s : State) (f : Form) (u : Ctx → Ctx) : (s.retire f u).inputs = s.inputs := rfl
@[simp] theorem retire_picks (s : State) (f : Form) (u : Ctx → Ctx) : (s.retire f u).picks = s.picks := rfl
@[simp] theorem retire_delays (s : State) (f : Form) (u : Ctx → Ctx) : (s.retire f u).delays = s.delays := rfl
@[simp] theorem retire_freeCtr (s : State) (f : Form) (u : Ctx → Ctx) : (s.retire f u).freeCtr = s.freeCtr := rfl
@[simp] theorem retire_mesh (s : State) (f : Form) (u : Ctx → Ctx) : (s.retire f u).mesh = s.mesh := rfl
@[simp] theorem retire_quads (s : State) (f : Form) (u : Ctx → Ctx) : (s.retire f u).quads = s.quads := rfl
@[simp] theorem retire_clusters (s : State) (f : Form) (u : Ctx → Ctx) : (s.retire f u).clusters = s.clusters := rfl
@[simp] theorem retire_gathers (s : State) (f : Form) (u : Ctx → Ctx) : (s.retire f u).gathers = s.gathers := rfl
@[simp] theorem retire_collStalls (s : State) (f : Form) (u : Ctx → Ctx) : (s.retire f u).collStalls = s.collStalls := rfl
@[simp] theorem retire_ioStalls (s : State) (f : Form) (u : Ctx → Ctx) : (s.retire f u).ioStalls = s.ioStalls := rfl
@[simp] theorem retire_mem (s : State) (f : Form) (u : Ctx → Ctx) : (s.retire f u).mem = s.mem := rfl
@[simp] theorem retire_l2dirty (s : State) (f : Form) (u : Ctx → Ctx) : (s.retire f u).l2dirty = s.l2dirty := rfl
@[simp] theorem retire_poison (s : State) (f : Form) (u : Ctx → Ctx) : (s.retire f u).poison = s.poison := rfl
@[simp] theorem retire_tileReads (s : State) (f : Form) (u : Ctx → Ctx) : (s.retire f u).tileReads = s.tileReads := rfl
@[simp] theorem retire_owners (s : State) (f : Form) (u : Ctx → Ctx) : (s.retire f u).owners = s.owners := rfl
@[simp] theorem retire_tags (s : State) (f : Form) (u : Ctx → Ctx) : (s.retire f u).tags = s.tags := rfl
@[simp] theorem retire_vwords (s : State) (f : Form) (u : Ctx → Ctx) : (s.retire f u).vwords = s.vwords := rfl
@[simp] theorem retire_releases (s : State) (f : Form) (u : Ctx → Ctx) : (s.retire f u).releases = s.releases := rfl
@[simp] theorem retire_syncObjs (s : State) (f : Form) (u : Ctx → Ctx) : (s.retire f u).syncObjs = s.syncObjs := rfl
@[simp] theorem retire_objects (s : State) (f : Form) (u : Ctx → Ctx) : (s.retire f u).objects = s.objects := rfl
@[simp] theorem retire_launches (s : State) (f : Form) (u : Ctx → Ctx) : (s.retire f u).launches = s.launches := rfl
@[simp] theorem retire_chains (s : State) (f : Form) (u : Ctx → Ctx) : (s.retire f u).chains = s.chains := rfl
@[simp] theorem retire_msix (s : State) (f : Form) (u : Ctx → Ctx) : (s.retire f u).msix = s.msix := rfl
@[simp] theorem retire_msixTable (s : State) (f : Form) (u : Ctx → Ctx) : (s.retire f u).msixTable = s.msixTable := rfl
@[simp] theorem retire_msixPending (s : State) (f : Form) (u : Ctx → Ctx) : (s.retire f u).msixPending = s.msixPending := rfl
@[simp] theorem retire_bar0Error (s : State) (f : Form) (u : Ctx → Ctx) : (s.retire f u).bar0Error = s.bar0Error := rfl
@[simp] theorem retire_log (s : State) (f : Form) (u : Ctx → Ctx) : (s.retire f u).log = s.log := rfl
@[simp] theorem retire_obs (s : State) (f : Form) (u : Ctx → Ctx) : (s.retire f u).obs = s.obs := rfl
@[simp] theorem retire_obsNext (s : State) (f : Form) (u : Ctx → Ctx) : (s.retire f u).obsNext = s.obsNext := rfl
@[simp] theorem retire_ports (s : State) (f : Form) (u : Ctx → Ctx) : (s.retire f u).ports = s.ports := rfl
@[simp] theorem retire_frames (s : State) (f : Form) (u : Ctx → Ctx) : (s.retire f u).frames = s.frames := rfl
@[simp] theorem retire_trigger (s : State) (f : Form) (u : Ctx → Ctx) : (s.retire f u).trigger = s.trigger := rfl
@[simp] theorem retire_breakpoints (s : State) (f : Form) (u : Ctx → Ctx) : (s.retire f u).breakpoints = s.breakpoints := rfl
@[simp] theorem retire_chainHalt (s : State) (f : Form) (u : Ctx → Ctx) : (s.retire f u).chainHalt = s.chainHalt := rfl
@[simp] theorem retire_taskStops (s : State) (f : Form) (u : Ctx → Ctx) : (s.retire f u).taskStops = s.taskStops := rfl
@[simp] theorem retire_devid (s : State) (f : Form) (u : Ctx → Ctx) : (s.retire f u).devid = s.devid := rfl
@[simp] theorem retire_links (s : State) (f : Form) (u : Ctx → Ctx) : (s.retire f u).links = s.links := rfl
@[simp] theorem retire_remotes (s : State) (f : Form) (u : Ctx → Ctx) : (s.retire f u).remotes = s.remotes := rfl
@[simp] theorem retire_reductions (s : State) (f : Form) (u : Ctx → Ctx) : (s.retire f u).reductions = s.reductions := rfl
@[simp] theorem retire_collectives (s : State) (f : Form) (u : Ctx → Ctx) : (s.retire f u).collectives = s.collectives := rfl
@[simp] theorem retire_supplyLost (s : State) (f : Form) (u : Ctx → Ctx) : (s.retire f u).supplyLost = s.supplyLost := rfl
@[simp] theorem retire_shootdowns (s : State) (f : Form) (u : Ctx → Ctx) : (s.retire f u).shootdowns = s.shootdowns := rfl
@[simp] theorem retire_shootdownCtr (s : State) (f : Form) (u : Ctx → Ctx) : (s.retire f u).shootdownCtr = s.shootdownCtr := rfl
@[simp] theorem retire_fwUpdate (s : State) (f : Form) (u : Ctx → Ctx) : (s.retire f u).fwUpdate = s.fwUpdate := rfl
@[simp] theorem retire_fwIdle (s : State) (f : Form) (u : Ctx → Ctx) : (s.retire f u).fwIdle = s.fwIdle := rfl
@[simp] theorem retire_fwWrote (s : State) (f : Form) (u : Ctx → Ctx) : (s.retire f u).fwWrote = s.fwWrote := rfl
@[simp] theorem retire_fwDue (s : State) (f : Form) (u : Ctx → Ctx) : (s.retire f u).fwDue = s.fwDue := rfl

@[simp] theorem core_setCtx_pipe (k : Core) (x : Fin 8) (t : Ctx) : (k.setCtx x t).pipe = k.pipe := rfl
@[simp] theorem core_setCtx_slice (k : Core) (x : Fin 8) (t : Ctx) : (k.setCtx x t).slice = k.slice := rfl
@[simp] theorem core_setCtx_lastCtx (k : Core) (x : Fin 8) (t : Ctx) : (k.setCtx x t).lastCtx = k.lastCtx := rfl
@[simp] theorem core_setCtx_l1 (k : Core) (x : Fin 8) (t : Ctx) : (k.setCtx x t).l1 = k.l1 := rfl
@[simp] theorem core_setCtx_stores (k : Core) (x : Fin 8) (t : Ctx) : (k.setCtx x t).stores = k.stores := rfl
@[simp] theorem core_setCtx_stale (k : Core) (x : Fin 8) (t : Ctx) : (k.setCtx x t).stale = k.stale := rfl
@[simp] theorem core_setCtx_tlb (k : Core) (x : Fin 8) (t : Ctx) : (k.setCtx x t).tlb = k.tlb := rfl
@[simp] theorem core_setCtx_cycle (k : Core) (x : Fin 8) (t : Ctx) : (k.setCtx x t).cycle = k.cycle := rfl
@[simp] theorem core_setCtx_grpMask (k : Core) (x : Fin 8) (t : Ctx) : (k.setCtx x t).grpMask = k.grpMask := rfl
@[simp] theorem core_setCtx_launch (k : Core) (x : Fin 8) (t : Ctx) : (k.setCtx x t).launch = k.launch := rfl
@[simp] theorem core_setCtx_started (k : Core) (x : Fin 8) (t : Ctx) : (k.setCtx x t).started = k.started := rfl
@[simp] theorem core_setCtx_queues (k : Core) (x : Fin 8) (t : Ctx) : (k.setCtx x t).queues = k.queues := rfl
@[simp] theorem core_setCtx_hold (k : Core) (x : Fin 8) (t : Ctx) : (k.setCtx x t).hold = k.hold := rfl
@[simp] theorem core_setCtx_dispatches (k : Core) (x : Fin 8) (t : Ctx) : (k.setCtx x t).dispatches = k.dispatches := rfl
@[simp] theorem core_setCtx_lastQueue (k : Core) (x : Fin 8) (t : Ctx) : (k.setCtx x t).lastQueue = k.lastQueue := rfl
@[simp] theorem core_setCtx_deque (k : Core) (x : Fin 8) (t : Ctx) : (k.setCtx x t).deque = k.deque := rfl
@[simp] theorem core_setCtx_created (k : Core) (x : Fin 8) (t : Ctx) : (k.setCtx x t).created = k.created := rfl
@[simp] theorem core_setCtx_steal (k : Core) (x : Fin 8) (t : Ctx) : (k.setCtx x t).steal = k.steal := rfl
@[simp] theorem core_setCtx_stealPtr (k : Core) (x : Fin 8) (t : Ctx) : (k.setCtx x t).stealPtr = k.stealPtr := rfl
@[simp] theorem core_setCtx_stealMiss (k : Core) (x : Fin 8) (t : Ctx) : (k.setCtx x t).stealMiss = k.stealMiss := rfl
@[simp] theorem core_setCtx_stolen (k : Core) (x : Fin 8) (t : Ctx) : (k.setCtx x t).stolen = k.stolen := rfl
@[simp] theorem core_setCtx_fifo (k : Core) (x : Fin 8) (t : Ctx) : (k.setCtx x t).fifo = k.fifo := rfl
@[simp] theorem core_setCtx_fifoAccepted (k : Core) (x : Fin 8) (t : Ctx) : (k.setCtx x t).fifoAccepted = k.fifoAccepted := rfl
@[simp] theorem core_setCtx_fifoDone (k : Core) (x : Fin 8) (t : Ctx) : (k.setCtx x t).fifoDone = k.fifoDone := rfl
@[simp] theorem core_setCtx_xredAccepted (k : Core) (x : Fin 8) (t : Ctx) : (k.setCtx x t).xredAccepted = k.xredAccepted := rfl
@[simp] theorem core_setCtx_preempt (k : Core) (x : Fin 8) (t : Ctx) : (k.setCtx x t).preempt = k.preempt := rfl
@[simp] theorem core_setCtx_seen (k : Core) (x : Fin 8) (t : Ctx) : (k.setCtx x t).seen = k.seen := rfl
@[simp] theorem core_setCtx_released (k : Core) (x : Fin 8) (t : Ctx) : (k.setCtx x t).released = k.released := rfl
@[simp] theorem core_setCtx_sag (k : Core) (x : Fin 8) (t : Ctx) : (k.setCtx x t).sag = k.sag := rfl
@[simp] theorem core_setCtx_sagEnd (k : Core) (x : Fin 8) (t : Ctx) : (k.setCtx x t).sagEnd = k.sagEnd := rfl
@[simp] theorem core_setCtx_parityRefetches (k : Core) (x : Fin 8) (t : Ctx) : (k.setCtx x t).parityRefetches = k.parityRefetches := rfl
@[simp] theorem core_setCtx_lostHits (k : Core) (x : Fin 8) (t : Ctx) : (k.setCtx x t).lostHits = k.lostHits := rfl

@[simp] theorem ctx_wr_cstate (t : Ctx) (r : BitVec 5) (v : Word) : (t.wr r v).cstate = t.cstate := by
  unfold Ctx.wr; split <;> rfl
@[simp] theorem ctx_wr_v (t : Ctx) (r : BitVec 5) (v : Word) : (t.wr r v).v = t.v := by
  unfold Ctx.wr; split <;> rfl
@[simp] theorem ctx_wr_hb (t : Ctx) (r : BitVec 5) (v : Word) : (t.wr r v).hb = t.hb := by
  unfold Ctx.wr; split <;> rfl
@[simp] theorem ctx_wr_pc (t : Ctx) (r : BitVec 5) (v : Word) : (t.wr r v).pc = t.pc := by
  unfold Ctx.wr; split <;> rfl
@[simp] theorem ctx_wr_status (t : Ctx) (r : BitVec 5) (v : Word) : (t.wr r v).status = t.status := by
  unfold Ctx.wr; split <;> rfl
@[simp] theorem ctx_wr_trapCause (t : Ctx) (r : BitVec 5) (v : Word) : (t.wr r v).trapCause = t.trapCause := by
  unfold Ctx.wr; split <;> rfl
@[simp] theorem ctx_wr_trapPc (t : Ctx) (r : BitVec 5) (v : Word) : (t.wr r v).trapPc = t.trapPc := by
  unfold Ctx.wr; split <;> rfl
@[simp] theorem ctx_wr_trapInfo (t : Ctx) (r : BitVec 5) (v : Word) : (t.wr r v).trapInfo = t.trapInfo := by
  unfold Ctx.wr; split <;> rfl
@[simp] theorem ctx_wr_trapMsg (t : Ctx) (r : BitVec 5) (v : Word) : (t.wr r v).trapMsg = t.trapMsg := by
  unfold Ctx.wr; split <;> rfl
@[simp] theorem ctx_wr_trapVec (t : Ctx) (r : BitVec 5) (v : Word) : (t.wr r v).trapVec = t.trapVec := by
  unfold Ctx.wr; split <;> rfl
@[simp] theorem ctx_wr_tstatus (t : Ctx) (r : BitVec 5) (v : Word) : (t.wr r v).tstatus = t.tstatus := by
  unfold Ctx.wr; split <;> rfl
@[simp] theorem ctx_wr_taskId (t : Ctx) (r : BitVec 5) (v : Word) : (t.wr r v).taskId = t.taskId := by
  unfold Ctx.wr; split <;> rfl
@[simp] theorem ctx_wr_budget (t : Ctx) (r : BitVec 5) (v : Word) : (t.wr r v).budget = t.budget := by
  unfold Ctx.wr; split <;> rfl
@[simp] theorem ctx_wr_enquota (t : Ctx) (r : BitVec 5) (v : Word) : (t.wr r v).enquota = t.enquota := by
  unfold Ctx.wr; split <;> rfl
@[simp] theorem ctx_wr_barred (t : Ctx) (r : BitVec 5) (v : Word) : (t.wr r v).barred = t.barred := by
  unfold Ctx.wr; split <;> rfl
@[simp] theorem ctx_wr_srgen (t : Ctx) (r : BitVec 5) (v : Word) : (t.wr r v).srgen = t.srgen := by
  unfold Ctx.wr; split <;> rfl
@[simp] theorem ctx_wr_promo (t : Ctx) (r : BitVec 5) (v : Word) : (t.wr r v).promo = t.promo := by
  unfold Ctx.wr; split <;> rfl
@[simp] theorem ctx_wr_scopeGrp (t : Ctx) (r : BitVec 5) (v : Word) : (t.wr r v).scopeGrp = t.scopeGrp := by
  unfold Ctx.wr; split <;> rfl
@[simp] theorem ctx_wr_watch (t : Ctx) (r : BitVec 5) (v : Word) : (t.wr r v).watch = t.watch := by
  unfold Ctx.wr; split <;> rfl
@[simp] theorem ctx_wr_stepCtl (t : Ctx) (r : BitVec 5) (v : Word) : (t.wr r v).stepCtl = t.stepCtl := by
  unfold Ctx.wr; split <;> rfl
@[simp] theorem ctx_wr_fills (t : Ctx) (r : BitVec 5) (v : Word) : (t.wr r v).fills = t.fills := by
  unfold Ctx.wr; split <;> rfl
@[simp] theorem ctx_wr_rep (t : Ctx) (r : BitVec 5) (v : Word) : (t.wr r v).rep = t.rep := by
  unfold Ctx.wr; split <;> rfl
@[simp] theorem ctx_wr_wait (t : Ctx) (r : BitVec 5) (v : Word) : (t.wr r v).wait = t.wait := by
  unfold Ctx.wr; split <;> rfl
@[simp] theorem ctx_wr_held (t : Ctx) (r : BitVec 5) (v : Word) : (t.wr r v).held = t.held := by
  unfold Ctx.wr; split <;> rfl
@[simp] theorem ctx_wr_desc (t : Ctx) (r : BitVec 5) (v : Word) : (t.wr r v).desc = t.desc := by
  unfold Ctx.wr; split <;> rfl
@[simp] theorem ctx_wr_napping (t : Ctx) (r : BitVec 5) (v : Word) : (t.wr r v).napping = t.napping := by
  unfold Ctx.wr; split <;> rfl
@[simp] theorem ctx_wr_token (t : Ctx) (r : BitVec 5) (v : Word) : (t.wr r v).token = t.token := by
  unfold Ctx.wr; split <;> rfl
@[simp] theorem ctx_wr_async (t : Ctx) (r : BitVec 5) (v : Word) : (t.wr r v).async = t.async := by
  unfold Ctx.wr; split <;> rfl
@[simp] theorem ctx_wr_slotWait (t : Ctx) (r : BitVec 5) (v : Word) : (t.wr r v).slotWait = t.slotWait := by
  unfold Ctx.wr; split <;> rfl
@[simp] theorem ctx_wr_late (t : Ctx) (r : BitVec 5) (v : Word) : (t.wr r v).late = t.late := by
  unfold Ctx.wr; split <;> rfl
@[simp] theorem ctx_wr_fading (t : Ctx) (r : BitVec 5) (v : Word) : (t.wr r v).fading = t.fading := by
  unfold Ctx.wr; split <;> rfl
@[simp] theorem ctx_wr_filled (t : Ctx) (r : BitVec 5) (v : Word) : (t.wr r v).filled = t.filled := by
  unfold Ctx.wr; split <;> rfl
@[simp] theorem ctx_wr_parked (t : Ctx) (r : BitVec 5) (v : Word) : (t.wr r v).parked = t.parked := by
  unfold Ctx.wr; split <;> rfl
@[simp] theorem ctx_wr_sleep (t : Ctx) (r : BitVec 5) (v : Word) : (t.wr r v).sleep = t.sleep := by
  unfold Ctx.wr; split <;> rfl
@[simp] theorem ctx_wr_send (t : Ctx) (r : BitVec 5) (v : Word) : (t.wr r v).send = t.send := by
  unfold Ctx.wr; split <;> rfl
@[simp] theorem ctx_wr_drain (t : Ctx) (r : BitVec 5) (v : Word) : (t.wr r v).drain = t.drain := by
  unfold Ctx.wr; split <;> rfl
@[simp] theorem ctx_wr_task (t : Ctx) (r : BitVec 5) (v : Word) : (t.wr r v).task = t.task := by
  unfold Ctx.wr; split <;> rfl
@[simp] theorem ctx_wr_reservation (t : Ctx) (r : BitVec 5) (v : Word) : (t.wr r v).reservation = t.reservation := by
  unfold Ctx.wr; split <;> rfl
@[simp] theorem ctx_wr_window (t : Ctx) (r : BitVec 5) (v : Word) : (t.wr r v).window = t.window := by
  unfold Ctx.wr; split <;> rfl
@[simp] theorem ctx_wr_errSticky (t : Ctx) (r : BitVec 5) (v : Word) : (t.wr r v).errSticky = t.errSticky := by
  unfold Ctx.wr; split <;> rfl
@[simp] theorem ctx_wr_tlbi (t : Ctx) (r : BitVec 5) (v : Word) : (t.wr r v).tlbi = t.tlbi := by
  unfold Ctx.wr; split <;> rfl

@[simp] theorem ctx_mkEmpty_cstate (t : Ctx) (r : BitVec 5) (k : BitVec 4) : (t.mkEmpty r k).cstate = t.cstate := by
  unfold Ctx.mkEmpty; split <;> rfl
@[simp] theorem ctx_mkEmpty_g (t : Ctx) (r : BitVec 5) (k : BitVec 4) : (t.mkEmpty r k).g = t.g := by
  unfold Ctx.mkEmpty; split <;> rfl
@[simp] theorem ctx_mkEmpty_v (t : Ctx) (r : BitVec 5) (k : BitVec 4) : (t.mkEmpty r k).v = t.v := by
  unfold Ctx.mkEmpty; split <;> rfl
@[simp] theorem ctx_mkEmpty_hb (t : Ctx) (r : BitVec 5) (k : BitVec 4) : (t.mkEmpty r k).hb = t.hb := by
  unfold Ctx.mkEmpty; split <;> rfl
@[simp] theorem ctx_mkEmpty_pc (t : Ctx) (r : BitVec 5) (k : BitVec 4) : (t.mkEmpty r k).pc = t.pc := by
  unfold Ctx.mkEmpty; split <;> rfl
@[simp] theorem ctx_mkEmpty_status (t : Ctx) (r : BitVec 5) (k : BitVec 4) : (t.mkEmpty r k).status = t.status := by
  unfold Ctx.mkEmpty; split <;> rfl
@[simp] theorem ctx_mkEmpty_trapCause (t : Ctx) (r : BitVec 5) (k : BitVec 4) : (t.mkEmpty r k).trapCause = t.trapCause := by
  unfold Ctx.mkEmpty; split <;> rfl
@[simp] theorem ctx_mkEmpty_trapPc (t : Ctx) (r : BitVec 5) (k : BitVec 4) : (t.mkEmpty r k).trapPc = t.trapPc := by
  unfold Ctx.mkEmpty; split <;> rfl
@[simp] theorem ctx_mkEmpty_trapInfo (t : Ctx) (r : BitVec 5) (k : BitVec 4) : (t.mkEmpty r k).trapInfo = t.trapInfo := by
  unfold Ctx.mkEmpty; split <;> rfl
@[simp] theorem ctx_mkEmpty_trapMsg (t : Ctx) (r : BitVec 5) (k : BitVec 4) : (t.mkEmpty r k).trapMsg = t.trapMsg := by
  unfold Ctx.mkEmpty; split <;> rfl
@[simp] theorem ctx_mkEmpty_trapVec (t : Ctx) (r : BitVec 5) (k : BitVec 4) : (t.mkEmpty r k).trapVec = t.trapVec := by
  unfold Ctx.mkEmpty; split <;> rfl
@[simp] theorem ctx_mkEmpty_tstatus (t : Ctx) (r : BitVec 5) (k : BitVec 4) : (t.mkEmpty r k).tstatus = t.tstatus := by
  unfold Ctx.mkEmpty; split <;> rfl
@[simp] theorem ctx_mkEmpty_taskId (t : Ctx) (r : BitVec 5) (k : BitVec 4) : (t.mkEmpty r k).taskId = t.taskId := by
  unfold Ctx.mkEmpty; split <;> rfl
@[simp] theorem ctx_mkEmpty_budget (t : Ctx) (r : BitVec 5) (k : BitVec 4) : (t.mkEmpty r k).budget = t.budget := by
  unfold Ctx.mkEmpty; split <;> rfl
@[simp] theorem ctx_mkEmpty_enquota (t : Ctx) (r : BitVec 5) (k : BitVec 4) : (t.mkEmpty r k).enquota = t.enquota := by
  unfold Ctx.mkEmpty; split <;> rfl
@[simp] theorem ctx_mkEmpty_barred (t : Ctx) (r : BitVec 5) (k : BitVec 4) : (t.mkEmpty r k).barred = t.barred := by
  unfold Ctx.mkEmpty; split <;> rfl
@[simp] theorem ctx_mkEmpty_srgen (t : Ctx) (r : BitVec 5) (k : BitVec 4) : (t.mkEmpty r k).srgen = t.srgen := by
  unfold Ctx.mkEmpty; split <;> rfl
@[simp] theorem ctx_mkEmpty_promo (t : Ctx) (r : BitVec 5) (k : BitVec 4) : (t.mkEmpty r k).promo = t.promo := by
  unfold Ctx.mkEmpty; split <;> rfl
@[simp] theorem ctx_mkEmpty_scopeGrp (t : Ctx) (r : BitVec 5) (k : BitVec 4) : (t.mkEmpty r k).scopeGrp = t.scopeGrp := by
  unfold Ctx.mkEmpty; split <;> rfl
@[simp] theorem ctx_mkEmpty_watch (t : Ctx) (r : BitVec 5) (k : BitVec 4) : (t.mkEmpty r k).watch = t.watch := by
  unfold Ctx.mkEmpty; split <;> rfl
@[simp] theorem ctx_mkEmpty_stepCtl (t : Ctx) (r : BitVec 5) (k : BitVec 4) : (t.mkEmpty r k).stepCtl = t.stepCtl := by
  unfold Ctx.mkEmpty; split <;> rfl
@[simp] theorem ctx_mkEmpty_fills (t : Ctx) (r : BitVec 5) (k : BitVec 4) : (t.mkEmpty r k).fills = t.fills := by
  unfold Ctx.mkEmpty; split <;> rfl
@[simp] theorem ctx_mkEmpty_rep (t : Ctx) (r : BitVec 5) (k : BitVec 4) : (t.mkEmpty r k).rep = t.rep := by
  unfold Ctx.mkEmpty; split <;> rfl
@[simp] theorem ctx_mkEmpty_wait (t : Ctx) (r : BitVec 5) (k : BitVec 4) : (t.mkEmpty r k).wait = t.wait := by
  unfold Ctx.mkEmpty; split <;> rfl
@[simp] theorem ctx_mkEmpty_held (t : Ctx) (r : BitVec 5) (k : BitVec 4) : (t.mkEmpty r k).held = t.held := by
  unfold Ctx.mkEmpty; split <;> rfl
@[simp] theorem ctx_mkEmpty_desc (t : Ctx) (r : BitVec 5) (k : BitVec 4) : (t.mkEmpty r k).desc = t.desc := by
  unfold Ctx.mkEmpty; split <;> rfl
@[simp] theorem ctx_mkEmpty_napping (t : Ctx) (r : BitVec 5) (k : BitVec 4) : (t.mkEmpty r k).napping = t.napping := by
  unfold Ctx.mkEmpty; split <;> rfl
@[simp] theorem ctx_mkEmpty_token (t : Ctx) (r : BitVec 5) (k : BitVec 4) : (t.mkEmpty r k).token = t.token := by
  unfold Ctx.mkEmpty; split <;> rfl
@[simp] theorem ctx_mkEmpty_async (t : Ctx) (r : BitVec 5) (k : BitVec 4) : (t.mkEmpty r k).async = t.async := by
  unfold Ctx.mkEmpty; split <;> rfl
@[simp] theorem ctx_mkEmpty_slotWait (t : Ctx) (r : BitVec 5) (k : BitVec 4) : (t.mkEmpty r k).slotWait = t.slotWait := by
  unfold Ctx.mkEmpty; split <;> rfl
@[simp] theorem ctx_mkEmpty_late (t : Ctx) (r : BitVec 5) (k : BitVec 4) : (t.mkEmpty r k).late = t.late := by
  unfold Ctx.mkEmpty; split <;> rfl
@[simp] theorem ctx_mkEmpty_fading (t : Ctx) (r : BitVec 5) (k : BitVec 4) : (t.mkEmpty r k).fading = t.fading := by
  unfold Ctx.mkEmpty; split <;> rfl
@[simp] theorem ctx_mkEmpty_filled (t : Ctx) (r : BitVec 5) (k : BitVec 4) : (t.mkEmpty r k).filled = t.filled := by
  unfold Ctx.mkEmpty; split <;> rfl
@[simp] theorem ctx_mkEmpty_parked (t : Ctx) (r : BitVec 5) (k : BitVec 4) : (t.mkEmpty r k).parked = t.parked := by
  unfold Ctx.mkEmpty; split <;> rfl
@[simp] theorem ctx_mkEmpty_sleep (t : Ctx) (r : BitVec 5) (k : BitVec 4) : (t.mkEmpty r k).sleep = t.sleep := by
  unfold Ctx.mkEmpty; split <;> rfl
@[simp] theorem ctx_mkEmpty_send (t : Ctx) (r : BitVec 5) (k : BitVec 4) : (t.mkEmpty r k).send = t.send := by
  unfold Ctx.mkEmpty; split <;> rfl
@[simp] theorem ctx_mkEmpty_drain (t : Ctx) (r : BitVec 5) (k : BitVec 4) : (t.mkEmpty r k).drain = t.drain := by
  unfold Ctx.mkEmpty; split <;> rfl
@[simp] theorem ctx_mkEmpty_task (t : Ctx) (r : BitVec 5) (k : BitVec 4) : (t.mkEmpty r k).task = t.task := by
  unfold Ctx.mkEmpty; split <;> rfl
@[simp] theorem ctx_mkEmpty_reservation (t : Ctx) (r : BitVec 5) (k : BitVec 4) : (t.mkEmpty r k).reservation = t.reservation := by
  unfold Ctx.mkEmpty; split <;> rfl
@[simp] theorem ctx_mkEmpty_window (t : Ctx) (r : BitVec 5) (k : BitVec 4) : (t.mkEmpty r k).window = t.window := by
  unfold Ctx.mkEmpty; split <;> rfl
@[simp] theorem ctx_mkEmpty_errSticky (t : Ctx) (r : BitVec 5) (k : BitVec 4) : (t.mkEmpty r k).errSticky = t.errSticky := by
  unfold Ctx.mkEmpty; split <;> rfl
@[simp] theorem ctx_mkEmpty_tlbi (t : Ctx) (r : BitVec 5) (k : BitVec 4) : (t.mkEmpty r k).tlbi = t.tlbi := by
  unfold Ctx.mkEmpty; split <;> rfl

@[simp] theorem ctx_free_cstate (t : Ctx) (r : BitVec 5) : (t.free r).cstate = t.cstate := by
  unfold Ctx.free; split <;> rfl
@[simp] theorem ctx_free_g (t : Ctx) (r : BitVec 5) : (t.free r).g = t.g := by
  unfold Ctx.free; split <;> rfl
@[simp] theorem ctx_free_v (t : Ctx) (r : BitVec 5) : (t.free r).v = t.v := by
  unfold Ctx.free; split <;> rfl
@[simp] theorem ctx_free_hb (t : Ctx) (r : BitVec 5) : (t.free r).hb = t.hb := by
  unfold Ctx.free; split <;> rfl
@[simp] theorem ctx_free_pc (t : Ctx) (r : BitVec 5) : (t.free r).pc = t.pc := by
  unfold Ctx.free; split <;> rfl
@[simp] theorem ctx_free_status (t : Ctx) (r : BitVec 5) : (t.free r).status = t.status := by
  unfold Ctx.free; split <;> rfl
@[simp] theorem ctx_free_trapCause (t : Ctx) (r : BitVec 5) : (t.free r).trapCause = t.trapCause := by
  unfold Ctx.free; split <;> rfl
@[simp] theorem ctx_free_trapPc (t : Ctx) (r : BitVec 5) : (t.free r).trapPc = t.trapPc := by
  unfold Ctx.free; split <;> rfl
@[simp] theorem ctx_free_trapInfo (t : Ctx) (r : BitVec 5) : (t.free r).trapInfo = t.trapInfo := by
  unfold Ctx.free; split <;> rfl
@[simp] theorem ctx_free_trapMsg (t : Ctx) (r : BitVec 5) : (t.free r).trapMsg = t.trapMsg := by
  unfold Ctx.free; split <;> rfl
@[simp] theorem ctx_free_trapVec (t : Ctx) (r : BitVec 5) : (t.free r).trapVec = t.trapVec := by
  unfold Ctx.free; split <;> rfl
@[simp] theorem ctx_free_tstatus (t : Ctx) (r : BitVec 5) : (t.free r).tstatus = t.tstatus := by
  unfold Ctx.free; split <;> rfl
@[simp] theorem ctx_free_taskId (t : Ctx) (r : BitVec 5) : (t.free r).taskId = t.taskId := by
  unfold Ctx.free; split <;> rfl
@[simp] theorem ctx_free_budget (t : Ctx) (r : BitVec 5) : (t.free r).budget = t.budget := by
  unfold Ctx.free; split <;> rfl
@[simp] theorem ctx_free_enquota (t : Ctx) (r : BitVec 5) : (t.free r).enquota = t.enquota := by
  unfold Ctx.free; split <;> rfl
@[simp] theorem ctx_free_barred (t : Ctx) (r : BitVec 5) : (t.free r).barred = t.barred := by
  unfold Ctx.free; split <;> rfl
@[simp] theorem ctx_free_srgen (t : Ctx) (r : BitVec 5) : (t.free r).srgen = t.srgen := by
  unfold Ctx.free; split <;> rfl
@[simp] theorem ctx_free_promo (t : Ctx) (r : BitVec 5) : (t.free r).promo = t.promo := by
  unfold Ctx.free; split <;> rfl
@[simp] theorem ctx_free_scopeGrp (t : Ctx) (r : BitVec 5) : (t.free r).scopeGrp = t.scopeGrp := by
  unfold Ctx.free; split <;> rfl
@[simp] theorem ctx_free_watch (t : Ctx) (r : BitVec 5) : (t.free r).watch = t.watch := by
  unfold Ctx.free; split <;> rfl
@[simp] theorem ctx_free_stepCtl (t : Ctx) (r : BitVec 5) : (t.free r).stepCtl = t.stepCtl := by
  unfold Ctx.free; split <;> rfl
@[simp] theorem ctx_free_fills (t : Ctx) (r : BitVec 5) : (t.free r).fills = t.fills := by
  unfold Ctx.free; split <;> rfl
@[simp] theorem ctx_free_rep (t : Ctx) (r : BitVec 5) : (t.free r).rep = t.rep := by
  unfold Ctx.free; split <;> rfl
@[simp] theorem ctx_free_wait (t : Ctx) (r : BitVec 5) : (t.free r).wait = t.wait := by
  unfold Ctx.free; split <;> rfl
@[simp] theorem ctx_free_held (t : Ctx) (r : BitVec 5) : (t.free r).held = t.held := by
  unfold Ctx.free; split <;> rfl
@[simp] theorem ctx_free_desc (t : Ctx) (r : BitVec 5) : (t.free r).desc = t.desc := by
  unfold Ctx.free; split <;> rfl
@[simp] theorem ctx_free_napping (t : Ctx) (r : BitVec 5) : (t.free r).napping = t.napping := by
  unfold Ctx.free; split <;> rfl
@[simp] theorem ctx_free_token (t : Ctx) (r : BitVec 5) : (t.free r).token = t.token := by
  unfold Ctx.free; split <;> rfl
@[simp] theorem ctx_free_async (t : Ctx) (r : BitVec 5) : (t.free r).async = t.async := by
  unfold Ctx.free; split <;> rfl
@[simp] theorem ctx_free_slotWait (t : Ctx) (r : BitVec 5) : (t.free r).slotWait = t.slotWait := by
  unfold Ctx.free; split <;> rfl
@[simp] theorem ctx_free_late (t : Ctx) (r : BitVec 5) : (t.free r).late = t.late := by
  unfold Ctx.free; split <;> rfl
@[simp] theorem ctx_free_fading (t : Ctx) (r : BitVec 5) : (t.free r).fading = t.fading := by
  unfold Ctx.free; split <;> rfl
@[simp] theorem ctx_free_filled (t : Ctx) (r : BitVec 5) : (t.free r).filled = t.filled := by
  unfold Ctx.free; split <;> rfl
@[simp] theorem ctx_free_parked (t : Ctx) (r : BitVec 5) : (t.free r).parked = t.parked := by
  unfold Ctx.free; split <;> rfl
@[simp] theorem ctx_free_sleep (t : Ctx) (r : BitVec 5) : (t.free r).sleep = t.sleep := by
  unfold Ctx.free; split <;> rfl
@[simp] theorem ctx_free_send (t : Ctx) (r : BitVec 5) : (t.free r).send = t.send := by
  unfold Ctx.free; split <;> rfl
@[simp] theorem ctx_free_drain (t : Ctx) (r : BitVec 5) : (t.free r).drain = t.drain := by
  unfold Ctx.free; split <;> rfl
@[simp] theorem ctx_free_task (t : Ctx) (r : BitVec 5) : (t.free r).task = t.task := by
  unfold Ctx.free; split <;> rfl
@[simp] theorem ctx_free_reservation (t : Ctx) (r : BitVec 5) : (t.free r).reservation = t.reservation := by
  unfold Ctx.free; split <;> rfl
@[simp] theorem ctx_free_window (t : Ctx) (r : BitVec 5) : (t.free r).window = t.window := by
  unfold Ctx.free; split <;> rfl
@[simp] theorem ctx_free_errSticky (t : Ctx) (r : BitVec 5) : (t.free r).errSticky = t.errSticky := by
  unfold Ctx.free; split <;> rfl
@[simp] theorem ctx_free_tlbi (t : Ctx) (r : BitVec 5) : (t.free r).tlbi = t.tlbi := by
  unfold Ctx.free; split <;> rfl

@[simp] theorem vwr_cstate (t : Ctx) (r : BitVec 4) (v : VWord) : (t.vwr r v).cstate = t.cstate := rfl
@[simp] theorem vwr_g (t : Ctx) (r : BitVec 4) (v : VWord) : (t.vwr r v).g = t.g := rfl
@[simp] theorem vwr_gs (t : Ctx) (r : BitVec 4) (v : VWord) : (t.vwr r v).gs = t.gs := rfl
@[simp] theorem vwr_hb (t : Ctx) (r : BitVec 4) (v : VWord) : (t.vwr r v).hb = t.hb := rfl
@[simp] theorem vwr_pc (t : Ctx) (r : BitVec 4) (v : VWord) : (t.vwr r v).pc = t.pc := rfl
@[simp] theorem vwr_status (t : Ctx) (r : BitVec 4) (v : VWord) : (t.vwr r v).status = t.status := rfl
@[simp] theorem vwr_trapCause (t : Ctx) (r : BitVec 4) (v : VWord) : (t.vwr r v).trapCause = t.trapCause := rfl
@[simp] theorem vwr_trapPc (t : Ctx) (r : BitVec 4) (v : VWord) : (t.vwr r v).trapPc = t.trapPc := rfl
@[simp] theorem vwr_trapInfo (t : Ctx) (r : BitVec 4) (v : VWord) : (t.vwr r v).trapInfo = t.trapInfo := rfl
@[simp] theorem vwr_trapMsg (t : Ctx) (r : BitVec 4) (v : VWord) : (t.vwr r v).trapMsg = t.trapMsg := rfl
@[simp] theorem vwr_trapVec (t : Ctx) (r : BitVec 4) (v : VWord) : (t.vwr r v).trapVec = t.trapVec := rfl
@[simp] theorem vwr_tstatus (t : Ctx) (r : BitVec 4) (v : VWord) : (t.vwr r v).tstatus = t.tstatus := rfl
@[simp] theorem vwr_taskId (t : Ctx) (r : BitVec 4) (v : VWord) : (t.vwr r v).taskId = t.taskId := rfl
@[simp] theorem vwr_budget (t : Ctx) (r : BitVec 4) (v : VWord) : (t.vwr r v).budget = t.budget := rfl
@[simp] theorem vwr_enquota (t : Ctx) (r : BitVec 4) (v : VWord) : (t.vwr r v).enquota = t.enquota := rfl
@[simp] theorem vwr_barred (t : Ctx) (r : BitVec 4) (v : VWord) : (t.vwr r v).barred = t.barred := rfl
@[simp] theorem vwr_srgen (t : Ctx) (r : BitVec 4) (v : VWord) : (t.vwr r v).srgen = t.srgen := rfl
@[simp] theorem vwr_promo (t : Ctx) (r : BitVec 4) (v : VWord) : (t.vwr r v).promo = t.promo := rfl
@[simp] theorem vwr_scopeGrp (t : Ctx) (r : BitVec 4) (v : VWord) : (t.vwr r v).scopeGrp = t.scopeGrp := rfl
@[simp] theorem vwr_watch (t : Ctx) (r : BitVec 4) (v : VWord) : (t.vwr r v).watch = t.watch := rfl
@[simp] theorem vwr_stepCtl (t : Ctx) (r : BitVec 4) (v : VWord) : (t.vwr r v).stepCtl = t.stepCtl := rfl
@[simp] theorem vwr_fills (t : Ctx) (r : BitVec 4) (v : VWord) : (t.vwr r v).fills = t.fills := rfl
@[simp] theorem vwr_rep (t : Ctx) (r : BitVec 4) (v : VWord) : (t.vwr r v).rep = t.rep := rfl
@[simp] theorem vwr_wait (t : Ctx) (r : BitVec 4) (v : VWord) : (t.vwr r v).wait = t.wait := rfl
@[simp] theorem vwr_held (t : Ctx) (r : BitVec 4) (v : VWord) : (t.vwr r v).held = t.held := rfl
@[simp] theorem vwr_desc (t : Ctx) (r : BitVec 4) (v : VWord) : (t.vwr r v).desc = t.desc := rfl
@[simp] theorem vwr_napping (t : Ctx) (r : BitVec 4) (v : VWord) : (t.vwr r v).napping = t.napping := rfl
@[simp] theorem vwr_token (t : Ctx) (r : BitVec 4) (v : VWord) : (t.vwr r v).token = t.token := rfl
@[simp] theorem vwr_async (t : Ctx) (r : BitVec 4) (v : VWord) : (t.vwr r v).async = t.async := rfl
@[simp] theorem vwr_slotWait (t : Ctx) (r : BitVec 4) (v : VWord) : (t.vwr r v).slotWait = t.slotWait := rfl
@[simp] theorem vwr_late (t : Ctx) (r : BitVec 4) (v : VWord) : (t.vwr r v).late = t.late := rfl
@[simp] theorem vwr_fading (t : Ctx) (r : BitVec 4) (v : VWord) : (t.vwr r v).fading = t.fading := rfl
@[simp] theorem vwr_filled (t : Ctx) (r : BitVec 4) (v : VWord) : (t.vwr r v).filled = t.filled := rfl
@[simp] theorem vwr_parked (t : Ctx) (r : BitVec 4) (v : VWord) : (t.vwr r v).parked = t.parked := rfl
@[simp] theorem vwr_sleep (t : Ctx) (r : BitVec 4) (v : VWord) : (t.vwr r v).sleep = t.sleep := rfl
@[simp] theorem vwr_send (t : Ctx) (r : BitVec 4) (v : VWord) : (t.vwr r v).send = t.send := rfl
@[simp] theorem vwr_drain (t : Ctx) (r : BitVec 4) (v : VWord) : (t.vwr r v).drain = t.drain := rfl
@[simp] theorem vwr_task (t : Ctx) (r : BitVec 4) (v : VWord) : (t.vwr r v).task = t.task := rfl
@[simp] theorem vwr_reservation (t : Ctx) (r : BitVec 4) (v : VWord) : (t.vwr r v).reservation = t.reservation := rfl
@[simp] theorem vwr_window (t : Ctx) (r : BitVec 4) (v : VWord) : (t.vwr r v).window = t.window := rfl
@[simp] theorem vwr_errSticky (t : Ctx) (r : BitVec 4) (v : VWord) : (t.vwr r v).errSticky = t.errSticky := rfl
@[simp] theorem vwr_tlbi (t : Ctx) (r : BitVec 4) (v : VWord) : (t.vwr r v).tlbi = t.tlbi := rfl
@[simp] theorem raise_cstate (t : Ctx) (r : Flags) : (t.raise r).cstate = t.cstate := rfl
@[simp] theorem raise_g (t : Ctx) (r : Flags) : (t.raise r).g = t.g := rfl
@[simp] theorem raise_gs (t : Ctx) (r : Flags) : (t.raise r).gs = t.gs := rfl
@[simp] theorem raise_v (t : Ctx) (r : Flags) : (t.raise r).v = t.v := rfl
@[simp] theorem raise_hb (t : Ctx) (r : Flags) : (t.raise r).hb = t.hb := rfl
@[simp] theorem raise_pc (t : Ctx) (r : Flags) : (t.raise r).pc = t.pc := rfl
@[simp] theorem raise_trapCause (t : Ctx) (r : Flags) : (t.raise r).trapCause = t.trapCause := rfl
@[simp] theorem raise_trapPc (t : Ctx) (r : Flags) : (t.raise r).trapPc = t.trapPc := rfl
@[simp] theorem raise_trapInfo (t : Ctx) (r : Flags) : (t.raise r).trapInfo = t.trapInfo := rfl
@[simp] theorem raise_trapMsg (t : Ctx) (r : Flags) : (t.raise r).trapMsg = t.trapMsg := rfl
@[simp] theorem raise_trapVec (t : Ctx) (r : Flags) : (t.raise r).trapVec = t.trapVec := rfl
@[simp] theorem raise_tstatus (t : Ctx) (r : Flags) : (t.raise r).tstatus = t.tstatus := rfl
@[simp] theorem raise_taskId (t : Ctx) (r : Flags) : (t.raise r).taskId = t.taskId := rfl
@[simp] theorem raise_budget (t : Ctx) (r : Flags) : (t.raise r).budget = t.budget := rfl
@[simp] theorem raise_enquota (t : Ctx) (r : Flags) : (t.raise r).enquota = t.enquota := rfl
@[simp] theorem raise_barred (t : Ctx) (r : Flags) : (t.raise r).barred = t.barred := rfl
@[simp] theorem raise_srgen (t : Ctx) (r : Flags) : (t.raise r).srgen = t.srgen := rfl
@[simp] theorem raise_promo (t : Ctx) (r : Flags) : (t.raise r).promo = t.promo := rfl
@[simp] theorem raise_scopeGrp (t : Ctx) (r : Flags) : (t.raise r).scopeGrp = t.scopeGrp := rfl
@[simp] theorem raise_watch (t : Ctx) (r : Flags) : (t.raise r).watch = t.watch := rfl
@[simp] theorem raise_stepCtl (t : Ctx) (r : Flags) : (t.raise r).stepCtl = t.stepCtl := rfl
@[simp] theorem raise_fills (t : Ctx) (r : Flags) : (t.raise r).fills = t.fills := rfl
@[simp] theorem raise_rep (t : Ctx) (r : Flags) : (t.raise r).rep = t.rep := rfl
@[simp] theorem raise_wait (t : Ctx) (r : Flags) : (t.raise r).wait = t.wait := rfl
@[simp] theorem raise_held (t : Ctx) (r : Flags) : (t.raise r).held = t.held := rfl
@[simp] theorem raise_desc (t : Ctx) (r : Flags) : (t.raise r).desc = t.desc := rfl
@[simp] theorem raise_napping (t : Ctx) (r : Flags) : (t.raise r).napping = t.napping := rfl
@[simp] theorem raise_token (t : Ctx) (r : Flags) : (t.raise r).token = t.token := rfl
@[simp] theorem raise_async (t : Ctx) (r : Flags) : (t.raise r).async = t.async := rfl
@[simp] theorem raise_slotWait (t : Ctx) (r : Flags) : (t.raise r).slotWait = t.slotWait := rfl
@[simp] theorem raise_late (t : Ctx) (r : Flags) : (t.raise r).late = t.late := rfl
@[simp] theorem raise_fading (t : Ctx) (r : Flags) : (t.raise r).fading = t.fading := rfl
@[simp] theorem raise_filled (t : Ctx) (r : Flags) : (t.raise r).filled = t.filled := rfl
@[simp] theorem raise_parked (t : Ctx) (r : Flags) : (t.raise r).parked = t.parked := rfl
@[simp] theorem raise_sleep (t : Ctx) (r : Flags) : (t.raise r).sleep = t.sleep := rfl
@[simp] theorem raise_send (t : Ctx) (r : Flags) : (t.raise r).send = t.send := rfl
@[simp] theorem raise_drain (t : Ctx) (r : Flags) : (t.raise r).drain = t.drain := rfl
@[simp] theorem raise_task (t : Ctx) (r : Flags) : (t.raise r).task = t.task := rfl
@[simp] theorem raise_reservation (t : Ctx) (r : Flags) : (t.raise r).reservation = t.reservation := rfl
@[simp] theorem raise_window (t : Ctx) (r : Flags) : (t.raise r).window = t.window := rfl
@[simp] theorem raise_errSticky (t : Ctx) (r : Flags) : (t.raise r).errSticky = t.errSticky := rfl
@[simp] theorem raise_tlbi (t : Ctx) (r : Flags) : (t.raise r).tlbi = t.tlbi := rfl

@[simp] theorem finish_cstate (old t : Ctx) (n i : Word) : (Ctx.finish old t n i).cstate = t.cstate := rfl
@[simp] theorem finish_g (old t : Ctx) (n i : Word) : (Ctx.finish old t n i).g = t.g := rfl
@[simp] theorem finish_gs (old t : Ctx) (n i : Word) : (Ctx.finish old t n i).gs = t.gs := rfl
@[simp] theorem finish_v (old t : Ctx) (n i : Word) : (Ctx.finish old t n i).v = t.v := rfl
@[simp] theorem finish_hb (old t : Ctx) (n i : Word) : (Ctx.finish old t n i).hb = t.hb := rfl
@[simp] theorem finish_pc (old t : Ctx) (n i : Word) : (Ctx.finish old t n i).pc = old.nextPc n := rfl
@[simp] theorem finish_status (old t : Ctx) (n i : Word) : (Ctx.finish old t n i).status = old.nextStatus t.status := rfl
@[simp] theorem finish_trapCause (old t : Ctx) (n i : Word) : (Ctx.finish old t n i).trapCause = t.trapCause := rfl
@[simp] theorem finish_trapPc (old t : Ctx) (n i : Word) : (Ctx.finish old t n i).trapPc = t.trapPc := rfl
@[simp] theorem finish_trapInfo (old t : Ctx) (n i : Word) : (Ctx.finish old t n i).trapInfo = t.trapInfo := rfl
@[simp] theorem finish_trapMsg (old t : Ctx) (n i : Word) : (Ctx.finish old t n i).trapMsg = t.trapMsg := rfl
@[simp] theorem finish_trapVec (old t : Ctx) (n i : Word) : (Ctx.finish old t n i).trapVec = t.trapVec := rfl
@[simp] theorem finish_tstatus (old t : Ctx) (n i : Word) : (Ctx.finish old t n i).tstatus = t.tstatus := rfl
@[simp] theorem finish_taskId (old t : Ctx) (n i : Word) : (Ctx.finish old t n i).taskId = t.taskId := rfl
@[simp] theorem finish_budget (old t : Ctx) (n i : Word) : (Ctx.finish old t n i).budget = t.budget := rfl
@[simp] theorem finish_enquota (old t : Ctx) (n i : Word) : (Ctx.finish old t n i).enquota = t.enquota := rfl
@[simp] theorem finish_barred (old t : Ctx) (n i : Word) : (Ctx.finish old t n i).barred = t.barred := rfl
@[simp] theorem finish_srgen (old t : Ctx) (n i : Word) : (Ctx.finish old t n i).srgen = t.srgen := rfl
@[simp] theorem finish_promo (old t : Ctx) (n i : Word) : (Ctx.finish old t n i).promo = t.promo := rfl
@[simp] theorem finish_scopeGrp (old t : Ctx) (n i : Word) : (Ctx.finish old t n i).scopeGrp = t.scopeGrp := rfl
@[simp] theorem finish_watch (old t : Ctx) (n i : Word) : (Ctx.finish old t n i).watch = t.watch := rfl
@[simp] theorem finish_stepCtl (old t : Ctx) (n i : Word) : (Ctx.finish old t n i).stepCtl = t.stepCtl := rfl
@[simp] theorem finish_fills (old t : Ctx) (n i : Word) : (Ctx.finish old t n i).fills = t.fills := rfl
@[simp] theorem finish_rep (old t : Ctx) (n i : Word) : (Ctx.finish old t n i).rep = if old.rep.isSome then none else t.rep := rfl
@[simp] theorem finish_wait (old t : Ctx) (n i : Word) : (Ctx.finish old t n i).wait = none := rfl
@[simp] theorem finish_held (old t : Ctx) (n i : Word) : (Ctx.finish old t n i).held = none := rfl
@[simp] theorem finish_desc (old t : Ctx) (n i : Word) : (Ctx.finish old t n i).desc = none := rfl
@[simp] theorem finish_napping (old t : Ctx) (n i : Word) : (Ctx.finish old t n i).napping = none := rfl
@[simp] theorem finish_token (old t : Ctx) (n i : Word) : (Ctx.finish old t n i).token = t.token := rfl
@[simp] theorem finish_async (old t : Ctx) (n i : Word) : (Ctx.finish old t n i).async = old.nextAsync t n i := rfl
@[simp] theorem finish_slotWait (old t : Ctx) (n i : Word) : (Ctx.finish old t n i).slotWait = false := rfl
@[simp] theorem finish_late (old t : Ctx) (n i : Word) : (Ctx.finish old t n i).late = if old.slotWait then t.late else none := rfl
@[simp] theorem finish_fading (old t : Ctx) (n i : Word) : (Ctx.finish old t n i).fading = t.fade := rfl
@[simp] theorem finish_filled (old t : Ctx) (n i : Word) : (Ctx.finish old t n i).filled = t.settle := rfl
@[simp] theorem finish_parked (old t : Ctx) (n i : Word) : (Ctx.finish old t n i).parked = t.parked := rfl
@[simp] theorem finish_sleep (old t : Ctx) (n i : Word) : (Ctx.finish old t n i).sleep = t.sleep := rfl
@[simp] theorem finish_send (old t : Ctx) (n i : Word) : (Ctx.finish old t n i).send = t.send := rfl
@[simp] theorem finish_drain (old t : Ctx) (n i : Word) : (Ctx.finish old t n i).drain = t.drain := rfl
@[simp] theorem finish_task (old t : Ctx) (n i : Word) : (Ctx.finish old t n i).task = t.task := rfl
@[simp] theorem finish_reservation (old t : Ctx) (n i : Word) : (Ctx.finish old t n i).reservation = t.reservation := rfl
@[simp] theorem finish_window (old t : Ctx) (n i : Word) : (Ctx.finish old t n i).window = t.window := rfl
@[simp] theorem finish_errSticky (old t : Ctx) (n i : Word) : (Ctx.finish old t n i).errSticky = t.errSticky := rfl
@[simp] theorem finish_tlbi (old t : Ctx) (n i : Word) : (Ctx.finish old t n i).tlbi = t.tlbi := rfl

end Sys2Proof.Machine
end

