-- ==== Sys2Proof/Laws/Issue.lean ====
section
/-!
SUPPORT. What issue, retirement and the access to the running context do, said once.
-/

namespace Sys2Proof.Machine

theorem find_put_self (m : NatMap α) (q : Nat) (x : α) : (m.put q x).find q = some x := by
  induction m with
  | nil => simp [NatMap.put, NatMap.find]
  | cons e m ih =>
    obtain ⟨k, v⟩ := e
    unfold NatMap.put
    split
    · simp [NatMap.find]
    · split
      · simp [NatMap.find]
      · rename_i h
        simp [NatMap.find, ih, Ne.symm h]

theorem find_put_ne (m : NatMap α) (p q : Nat) (x : α) (h : p ≠ q) : (m.put q x).find p = m.find p := by
  induction m with
  | nil => simp [NatMap.put, NatMap.find, Ne.symm h]
  | cons e m ih =>
    obtain ⟨k, v⟩ := e
    unfold NatMap.put
    split
    · simp [NatMap.find, Ne.symm h]
    · split
      · rename_i hk
        subst hk
        simp [NatMap.find, Ne.symm h]
      · simp only [NatMap.find, ih]

@[simp] theorem core_setCore (s : State) (c : Nat) (k : Core) : (s.setCore c k).core c = k := by
  simp [State.core, State.setCore, find_put_self]

theorem core_setCore_ne (s : State) (c d : Nat) (k : Core) (h : d ≠ c) : (s.setCore c k).core d = s.core d := by
  simp [State.core, State.setCore, find_put_ne _ _ _ _ h]

@[simp] theorem ctx_setCtx_core (k : Core) (x : Fin 8) (t : Ctx) : (k.setCtx x t).ctx x = t := by
  simp [Core.ctx, Core.setCtx]

theorem ctx_setCtx_core_ne (k : Core) (x y : Fin 8) (t : Ctx) (h : y ≠ x) : (k.setCtx x t).ctx y = k.ctx y := by
  have : x.val ≠ y.val := fun e => h (Fin.ext e.symm)
  simp [Core.ctx, Core.setCtx, this]

@[simp] theorem ctx_setCtx (s : State) (c : Nat) (x : Fin 8) (t : Ctx) : (s.setCtx c x t).ctx c x = t := by
  simp [State.ctx, State.setCtx]

@[simp] theorem me_setMe (s : State) (t : Ctx) : (s.setMe t).me = t := by
  simp [State.me, State.setMe, State.setCtx, State.setCore, State.ctx, State.core, find_put_self]

@[simp] theorem me_updMe (s : State) (f : Ctx → Ctx) : (s.updMe f).me = f s.me := by simp [State.updMe]

theorem me_woken (s : State) (f : Form) : (s.woken f).me =
    { s.me with status := wake s.me.status f.names, filled := s.me.filled.filter fun e => !f.names.contains (.g e.reg) } := by
  simp [State.woken]

/-- Where no source read in a trapping mode has just been filled, the instruction has seen every fill. -/
theorem fillView_seen (s : State) (f : Form) (h : ∀ a ∈ f.srcs, a.2.getLsbD 0 = true → ∀ e ∈ s.me.filled, e.reg ≠ a.1) :
    s.fillView f = ([], s) := by
  have : s.me.readsFilled f = false := by
    simp only [Ctx.readsFilled, List.any_eq_false, Bool.and_eq_true, List.any_eq_true, beq_iff_eq, not_and, not_exists]
    exact fun a ha m e he r => h a ha m e he r
  simp [State.fillView, this]

/-- Where no source is FREE the foot holds nothing back. -/
theorem footView_full (s : State) (f : Form) (h : ∀ a ∈ f.srcs, s.me.rst a.1 = .full) : s.footView f = ([], s) := by
  have : s.me.readsFading f = false := by
    simp only [Ctx.readsFading, List.any_eq_false]
    intro a ha
    simp [h a ha]
  simp [State.footView, this]

/-- An instruction that is ready goes straight to its effect. -/
theorem issueCode_ready (w : Option Code) (f : Form) (s : State) (k : State → Out) (h : f.ready s) :
    issueCode w f s k = k (s.woken f) := by
  obtain ⟨hl, hb, hs⟩ := h
  have e1 : f.names.find? (fun n => bankState s.me.status n == 2) = none := by
    simpa [List.find?_eq_none] using hb
  have r1 (r : BitVec 5) : (s.woken f).me.rst r = s.me.rst r := by simp [Ctx.rst, me_woken]
  have r2 (r : BitVec 5) : (s.woken f).me.awaits r = s.me.awaits r := by simp [Ctx.awaits, Ctx.rst, me_woken]
  have e0 := footView_full (s.woken f) f fun a ha => (r1 a.1).trans (hs a ha).1
  have e6 := fillView_seen s f fun a ha m => ((hs a ha).2 m).2
  have e2 : f.srcs.find? (fun a => (s.woken f).me.rst a.1 == .free && !([] : List Fading).any fun e => e.reg == a.1) = none := by
    simp only [List.find?_eq_none, r1]
    intro a ha
    simp [(hs a ha).1]
  have e3 : f.srcs.find? (fun a => ((s.woken f).me.awaits a.1 ||
      (s.woken f).me.rst a.1 == .free && (lostTag [] a.1).isSome || ([] : List Fading).any fun e => e.reg == a.1) &&
        a.2.getLsbD 0) = none := by
    simp only [List.find?_eq_none, r2]
    intro a ha
    have := (hs a ha).2
    revert this
    cases a.2.getLsbD 0 <;> simp +contextual [lostTag]
  have e5 : (f.srcs.any fun a => (s.woken f).me.rst a.1 == .free && (lostTag [] a.1).isSome) = false := by
    simp [lostTag]
  have e4 : f.srcs.filter (fun a => ((s.woken f).me.rst a.1).isEmpty) = [] := by
    simp only [List.filter_eq_nil_iff, r1]
    intro a ha
    simp [(hs a ha).1, RegState.isEmpty]
  simp only [issueCode, hl, e0, e1, e2, e3, e4, e5, e6, Bool.not_true, Bool.false_eq_true, if_false, List.isEmpty_nil, if_true]

theorem issue_ready (i : Instr) (f : Form) (s : State) (k : State → Out) (h : f.ready s) : issue i f s k = k (s.woken f) :=
  issueCode_ready _ f s k h

end Sys2Proof.Machine
end

