-- ==== Sys2Proof/Laws/Registers.lean ====
section
/-!
SUPPORT. Reading a register after a write, a FREE mark or a retirement; reading one context or core after another is replaced.
-/

namespace Sys2Proof.Machine

theorem reg_ne {r q : BitVec 5} (h : r ≠ q) : r.toNat ≠ q.toNat := fun e => h (BitVec.eq_of_toNat_eq e)

@[simp] theorem rd_zero (t : Ctx) : t.rd 0#5 = 0#64 := by simp [Ctx.rd]
@[simp] theorem rst_zero (t : Ctx) : t.rst 0#5 = .full := by simp [Ctx.rst]

theorem rd_wr (t : Ctx) (r q : BitVec 5) (v : Word) : (t.wr r v).rd q = if q = r ∧ r ≠ 0 then v else t.rd q := by
  by_cases hr : r = 0#5
  · subst hr; simp [Ctx.wr]
  by_cases hq : q = r
  · subst hq; simp [Ctx.rd, Ctx.wr, hr]
  · have hn : r.toNat ≠ q.toNat := fun e => hq (BitVec.eq_of_toNat_eq e.symm)
    simp [Ctx.rd, Ctx.wr, hr, hq, hn]

theorem rst_wr (t : Ctx) (r q : BitVec 5) (v : Word) : (t.wr r v).rst q = if q = r then .full else t.rst q := by
  by_cases hr : r = 0#5
  · subst hr
    by_cases hq : q = 0#5 <;> simp [Ctx.wr, Ctx.rst, hq]
  by_cases hq : q = r
  · subst hq; simp [Ctx.rst, Ctx.wr, hr]
  · have hn : r.toNat ≠ q.toNat := fun e => hq (BitVec.eq_of_toNat_eq e.symm)
    simp [Ctx.rst, Ctx.wr, hr, hq, hn]

theorem rst_free (t : Ctx) (r q : BitVec 5) : (t.free r).rst q = if q = r ∧ r ≠ 0 then .free else t.rst q := by
  by_cases hr : r = 0#5
  · subst hr; simp [Ctx.free]
  by_cases hq : q = r
  · subst hq; simp [Ctx.rst, Ctx.free, hr]
  · have hn : r.toNat ≠ q.toNat := fun e => hq (BitVec.eq_of_toNat_eq e.symm)
    simp [Ctx.rst, Ctx.free, hr, hq, hn]

@[simp] theorem rd_free (t : Ctx) (r q : BitVec 5) : (t.free r).rd q = t.rd q := by simp [Ctx.rd]

theorem rst_mark (t : Ctx) (r q : BitVec 5) : (t.mark r).rst q = if q = r ∧ r ≠ 0 then .free else t.rst q := rst_free t r q

/-- Marking sources FREE changes states alone, and what the foot still has to make known. -/
theorem freeMarked_gs (t : Ctx) (l : List (BitVec 5 × BitVec 2)) :
    freeMarked t l = { t with gs := (freeMarked t l).gs, fading := (freeMarked t l).fading } := by
  induction l generalizing t with
  | nil => rfl
  | cons a l ih =>
    obtain ⟨r, m⟩ := a
    rw [freeMarked, ih]
    split
    · unfold Ctx.mark Ctx.free; split <;> rfl
    · rfl

theorem rst_freeMarked (t : Ctx) (l : List (BitVec 5 × BitVec 2)) (q : BitVec 5)
    (h : ∀ a ∈ l, a.1 = q → a.2.getLsbD 1 = false) : (freeMarked t l).rst q = t.rst q := by
  induction l generalizing t with
  | nil => rfl
  | cons a l ih =>
    obtain ⟨r, m⟩ := a
    rw [freeMarked, ih _ fun b hb => h b (List.mem_cons_of_mem _ hb)]
    split
    · rename_i hm
      rw [rst_mark, if_neg]
      rintro ⟨rfl, -⟩
      exact absurd (h (q, m) List.mem_cons_self rfl) (by simp [hm])
    · rfl

@[simp] theorem rd_freeMarked (t : Ctx) (l : List (BitVec 5 × BitVec 2)) (q : BitVec 5) : (freeMarked t l).rd q = t.rd q := by
  rw [freeMarked_gs]; rfl

@[simp] theorem status_freeMarked (t : Ctx) (l : List (BitVec 5 × BitVec 2)) : (freeMarked t l).status = t.status := by
  rw [freeMarked_gs]

@[simp] theorem g_freeMarked (t : Ctx) (l : List (BitVec 5 × BitVec 2)) : (freeMarked t l).g = t.g := by rw [freeMarked_gs]

@[simp] theorem rd_woken (s : State) (f : Form) (r : BitVec 5) : (s.woken f).me.rd r = s.me.rd r := by
  simp [me_woken, Ctx.rd]
@[simp] theorem rst_woken (s : State) (f : Form) (r : BitVec 5) : (s.woken f).me.rst r = s.me.rst r := by
  simp [me_woken, Ctx.rst]
@[simp] theorem pc_woken (s : State) (f : Form) : (s.woken f).me.pc = s.me.pc := by simp [me_woken]
@[simp] theorem faultPc_woken (s : State) (f : Form) : (s.woken f).me.faultPc = s.me.faultPc := by simp [me_woken, Ctx.faultPc]

/-- Waking banks changes no bit of STATUS outside the bank fields. -/
theorem wake_bit (w : Word) (l : List RegName) (k : Nat) (h : k < 32 ∨ 46 ≤ k) : (wake w l).getLsbD k = w.getLsbD k := by
  induction l generalizing w with
  | nil => rfl
  | cons n l ih =>
    unfold wake
    split
    · rename_i p hp
      split
      · rw [ih]
        have : 32 ≤ p ∧ p ≤ 44 := by
          cases n with
          | g r =>
            simp only [RegName.bankPos, gBankPos] at hp
            split at hp
            · cases hp
            · simp only [Option.some.injEq] at hp
              have := r.isLt
              omega
          | v r =>
            simp only [RegName.bankPos, vBankPos, Option.some.injEq] at hp
            have := r.isLt
            omega
        simp only [setBits, BitVec.getLsbD_or, BitVec.getLsbD_and, BitVec.getLsbD_not, BitVec.getLsbD_shiftLeft,
          BitVec.getLsbD_setWidth, BitVec.getLsbD_allOnes]
        by_cases hk : k < 64
        · rcases h with h | h
          · have : k < p := by omega
            simp [this, hk]
          · have h1 : ¬ k < p := by omega
            have h2 : ¬ (k - p < 2) := by omega
            simp [h1, h2, hk]
        · simp [BitVec.getLsbD_of_ge w k (by omega), hk]
      · exact ih _
    · exact ih _

/-- Clearing a prefix changes no bit of STATUS outside bits 23:16. -/
theorem clearPrefix_bit (w : Word) (k : Nat) (h : k < 16 ∨ 24 ≤ k) : (clearPrefix w).getLsbD k = w.getLsbD k := by
  by_cases hk : k < 64
  · have : ∀ k < 64, (k < 16 ∨ 24 ≤ k) → (~~~(0xFF0000 : Word)).getLsbD k = true := by decide
    simp only [clearPrefix, BitVec.getLsbD_and, this k hk h, Bool.and_true]
  · simp [clearPrefix, BitVec.getLsbD_of_ge _ k (by omega : 64 ≤ k)]

@[simp] theorem me_retireTo (s : State) (f : Form) (n i : Word) (u : Ctx → Ctx) :
    (s.retireTo f n i u).me = s.me.finish (u (freeMarked s.me f.srcs)) n i := by simp [State.retireTo]
@[simp] theorem me_retire (s : State) (f : Form) (u : Ctx → Ctx) :
    (s.retire f u).me = s.me.finish (u (freeMarked s.me f.srcs)) (s.me.pc + BitVec.ofNat 64 f.size) 0 := by
  simp [State.retire]

@[simp] theorem rd_finish (old t : Ctx) (n i : Word) (r : BitVec 5) : (old.finish t n i).rd r = t.rd r := by simp [Ctx.rd]
@[simp] theorem rst_finish (old t : Ctx) (n i : Word) (r : BitVec 5) : (old.finish t n i).rst r = t.rst r := by simp [Ctx.rst]

theorem ctx_setMe_ne (s : State) (t : Ctx) (c : Nat) (x : Fin 8) (h : (c, x) ≠ s.cur) : (s.setMe t).ctx c x = s.ctx c x := by
  by_cases hc : c = s.cur.1
  · subst hc
    have hx : x ≠ s.cur.2 := fun e => h (by rw [e])
    simp [State.ctx, State.setMe, State.setCtx, ctx_setCtx_core_ne _ _ _ _ hx]
  · simp [State.ctx, State.setMe, State.setCtx, core_setCore_ne _ _ _ _ hc]

theorem core_setMe (s : State) (t : Ctx) (c : Nat) :
    ({ (s.setMe t).core c with ctxs := (s.core c).ctxs } : Core) = s.core c := by
  by_cases hc : c = s.cur.1
  · subst hc
    simp [State.setMe, State.setCtx, Core.setCtx]
  · simp [State.setMe, State.setCtx, core_setCore_ne _ _ _ _ hc]

end Sys2Proof.Machine
end

