-- ==== Sys2Proof/Laws/Frame.lean ====
section
/-!
SUPPORT. What a retirement that writes one general register leaves unchanged.
-/

namespace Sys2Proof.Machine

theorem memory_setMe (s : State) (t : Ctx) : (s.setMe t).mem = s.mem := rfl
theorem memory_woken (s : State) (f : Form) : (s.woken f).mem = s.mem := rfl

/-- A change of the running context alone is no change outside it. -/
theorem onlyRunning_setMe (s : State) (t : Ctx) : OnlyRunningContext s (s.setMe t) :=
  ⟨rfl, fun c => core_setMe s t c, fun c x h => ctx_setMe_ne s t c x h⟩

theorem onlyRunning_trans {s t u : State} (hc : t.cur = s.cur) (h : OnlyRunningContext s t) (k : OnlyRunningContext t u) :
    OnlyRunningContext s u := by
  obtain ⟨h1, h2, h3⟩ := h
  obtain ⟨k1, k2, k3⟩ := k
  refine ⟨?_, ?_, ?_⟩
  · rw [← h1, ← k1]
  · intro c
    rw [← h2 c, ← k2 c]
  · intro c x n
    rw [k3 c x (hc ▸ n), h3 c x n]

theorem woken_onlyRunning (s : State) (f : Form) : OnlyRunningContext s (s.woken f) := onlyRunning_setMe _ _
theorem retire_onlyRunning (s : State) (f : Form) (u : Ctx → Ctx) : OnlyRunningContext s (s.retire f u) := onlyRunning_setMe _ _

theorem wr_rest (t : Ctx) (d : BitVec 5) (v : Word) : t.wr d v = { t with g := (t.wr d v).g, gs := (t.wr d v).gs } := by
  unfold Ctx.wr; split <;> rfl

/-- A retirement whose effect is one write keeps the frame of its instruction. -/
theorem registerFrame_retire (s : State) (f : Form) (d : BitVec 5) (v : Word) :
    RegisterFrame f d s ((s.woken f).retire f fun t => t.wr d v) := by
  refine ⟨rfl, ?_, ?_, ?_, ?_, ?_, fun a => rfl⟩
  · intro r h
    simp [rd_wr, h]
  · intro r h hm
    rw [me_retire, rst_finish, rst_wr, if_neg h, rst_freeMarked, rst_woken]
    intro a ha e
    cases hb : a.2.getLsbD 1
    · rfl
    · exact absurd ⟨a, ha, e, hb⟩ hm
  · intro k hk
    have e : (((s.woken f).retire f fun t => t.wr d v).me.status) = (s.woken f).me.nextStatus (s.woken f).me.status := by
      rw [me_retire, wr_rest, freeMarked_gs]; rfl
    rw [e, me_woken]
    have hw : (wake s.me.status f.names).getLsbD k = s.me.status.getLsbD k :=
      wake_bit _ _ _ (by rcases hk with h | h | h <;> omega)
    unfold Ctx.nextStatus
    split
    · rw [clearPrefix_bit _ _ (by rcases hk with h | h | h <;> omega)]; exact hw
    · exact hw
  · unfold Ctx.restKept
    rw [me_retire, wr_rest, freeMarked_gs, me_woken]
    rfl
  · exact onlyRunning_trans (t := s.woken f) rfl (woken_onlyRunning s f) (retire_onlyRunning _ _ _)

end Sys2Proof.Machine
end

