-- ==== Sys2Proof/Tests/Slice0.lean ====
section
/-!
SUPPORT. Small tests. Each `test_met_…` theorem shows concrete states and operands that meet the hypotheses of the statement it names,
clause by clause, at the ends of their ranges where a clause has a range; that an instruction is ready is `test_met_ready`. The other
tests hold one result each, taken from the spec's worked examples and encodings or worked out by hand from its rules.
-/

namespace Sys2Proof.Tests
set_option Elab.async false
open Sys2Proof Sys2Proof.Machine

/-- A vector with some places set. -/
def vec (n : Nat) (z : α) (l : NatMap α) : Vector α n := Vector.ofFn fun i => (l.find i.val).getD z

/-- A context running a task in TASK mode, every register FULL, binding n naming entry n. -/
def ctx (g : NatMap Word) : Ctx :=
  { Ctx.reset with
    cstate := .running
    g := vec 32 0 g
    gs := Vector.replicate 32 .full
    hb := Vector.ofFn fun i => BitVec.ofNat 64 (0x1000 + i.val)
    status := 0
    trapVec := 0x400
    pc := 0x100
    budget := 100 }

/-- A handle entry: base, bound, space, and any other bits. -/
def handle (base bound space rest : Nat) : BitVec 256 :=
  BitVec.ofNat 256 (base + bound * 2 ^ 48 + 2 ^ 96 + space * 2 ^ 97 + rest)

/-- A launch of cores 0, 1 and 4 with an entry for each space. -/
def launch : Launch where
  state := .running
  chain := 0
  root := 0x1000
  code := 0
  codeLen := 0
  qspill := 0
  dspill := 0
  save := 0
  startWord := 0
  args := Vector.replicate 3 0
  quota := 0
  ckpt := 0
  doldOff := false
  handlers := []
  handles := [(0, handle 0x10000 0x1000 0 0), (1, handle 0x100 0x1000 1 (2 ^ 32)), (2, handle 0 0x1000 2 (2 ^ 32)),
    (3, handle 0x20000 0x1000 3 0), (4, handle 0x40000000 0x1000 4 0), (5, handle 0 0x1000 5 0),
    (6, handle 0 0x1000 6 (5 * 2 ^ 128))]
  groups := [(0, [0, 1, 4])]
  recs := []
  window := none
  toStart := []
  resuming := false
  flood := []
  swept := false
  removedBy := none
  saved := []

/-- Two tables: the first GiB of addresses is itself, the second is in host memory. -/
def pages : List Host.Cell := [(0x1000, 0x01), (0x1001, 0x20), (0x2000, 0x07), (0x2008, 0x27)]

def core (t : Ctx) : Core :=
  { Core.reset with
    pipe := some 0
    launch := some 0
    started := true
    ctxs := Vector.ofFn fun i => if i = 0 then t else Ctx.reset }

/-- Core 0 running a context in the launch. -/
def world (t : Ctx) : State :=
  { State.reset with
    cores := [(0, core t)]
    launches := [(0, launch)]
    mem := pages }

/-- The same context with other general registers. -/
def regs (g : NatMap Word) : State := world (ctx g)

/-- The world with memory beside the tables. -/
def withMem (s : State) (m : List Host.Cell) : State := { s with mem := pages ++ m }

/-- Core 0 changed. -/
def onCore (s : State) (f : Core → Core) : State := s.setCore 0 (f (s.core 0))

/-- Quad 0's array changed. -/
def onArray (s : State) (f : ArrayUnit → ArrayUnit) : State := s.setQuad 0 { s.quad 0 with array := f (s.quad 0).array }

/-- A check that passes. -/
def passes (e : Chk α) : Bool := match e with
  | .ok _ => true
  | .error _ => false

/-- A check that fails with a cause. -/
def failsWith (e : Chk α) (code : BitVec 8) : Bool := match e with
  | .ok _ => false
  | .error (k, _) => k == code

/-- What is found satisfies a test. -/
def finds (r : Found α) (p : State → α → Bool) : Bool := match r with
  | .ok s a => p s a
  | _ => false

/-- The next state of an outcome satisfies a test. -/
def next (o : Out) (p : State → Bool) : Bool := match o with
  | .next t => p t
  | _ => false

/-- A check passes and what it gives satisfies a test. -/
def passing (e : Except ε α) (p : α → Bool) : Bool := match e with
  | .ok a => p a
  | .error _ => false

/-- The checks of an access and its translation pass, and what they give satisfies a test. -/
def placed (s : State) (n : BitVec 4) (off align : Nat) (a : Kind) (p : BitVec 256 → List Span → State → Bool) : Bool :=
  passing (s.chkAccess s.cur.1 s.hbs n off align a) fun h =>
    passing (s.placeCore s.cur.1 h off a.size a.write) fun (l, u) => p h l u

/-- A load passes its checks and brings all its bytes. -/
def loads (s : State) (n : BitVec 4) (off size : Nat) (spaces : List Nat) : Bool :=
  placed s n off size ⟨false, spaces, size, true⟩ fun h l u => finds (u.load h off l false) fun _ x => x.length == size

/-- A store passes its checks. -/
def stores (s : State) (n : BitVec 4) (off size : Nat) (spaces : List Nat) : Bool :=
  placed s n off size ⟨true, spaces, size, true⟩ fun _ _ u => !u.me.versionPending

/-- An instruction is ready in a context whose registers are FULL, with no prefix, no REPN and every bank ON. -/
theorem test_met_ready (f : Form) (t : Ctx) (hm : f.modes.contains t.mode = true) (hg : t.gs = Vector.replicate 32 .full)
    (hr : t.rep = none) (hl : t.late = none) (hf : t.filled = [])
    (hs : t.status = 0 ∨ t.status = 0x40 ∨ t.status = 0x80) : f.ready (world t) := by
  have e : (world t).me = t := rfl
  have full (r : BitVec 5) : t.rst r = .full := by
    unfold Ctx.rst
    split
    · rfl
    · simp [hg]
  have on (n : RegName) : bankState t.status n ≠ 2 := by
    rcases hs with h | h | h <;> rw [h] <;> cases n with
    | g r => revert r; decide
    | v r => revert r; decide
  refine ⟨?_, ?_, ?_⟩
  · rw [e]
    have hp : t.pfx = false := by rcases hs with h | h | h <;> simp [Ctx.pfx, h]
    simp only [Form.legal, hp, hr, hm, Option.isNone_none, Bool.not_false, Bool.true_or, Bool.and_true]
  · intro n _
    rw [e]
    exact on n
  · intro a _
    rw [e]
    exact ⟨full _, fun _ => by simp [Ctx.awaits, full, RegState.isEmpty, hl, hf]⟩

theorem test_met_ready_here : (Form.f3 5 1 0 2 0).ready (regs [(1, 5)]) :=
  test_met_ready _ _ rfl rfl rfl rfl rfl (Or.inl rfl)
theorem test_met_ready_trap : Form.ready { modes := [trapMode] } (world { ctx [] with status := 0x40 }) :=
  test_met_ready _ _ rfl rfl rfl rfl rfl (Or.inr (Or.inl rfl))
theorem test_met_ready_sys : Form.ready { modes := [trapMode, sysMode] } (world { ctx [] with status := 0x80 }) :=
  test_met_ready _ _ rfl rfl rfl rfl rfl (Or.inr (Or.inr rfl))

/-! ### What the statements assume -/

theorem test_met_DecodeEncodeAgree : (Instr.add 5 1 0 2 0).wf = true ∧ encode (.add 5 1 0 2 0) = some (.c32 0x81284100) ∧
    decode (.c32 0x81284100) = some (.add 5 1 0 2 0) := by decide

/-- Core 0 after reset with LI g3,5 where it fetches next. -/
def ready1 : State := State.reset.withFetchWord 32 0x8A180005

theorem test_met_StepRunsInstruction : ready1.choose.1 = .instr 0 ∧ ready1.choose.2.runnable 0 = some 0 ∧
    ready1.choose.2.fetch 0 0 = .code (.c32 0x8A180005) ∧ decode (.c32 0x8A180005) = some (.li 3 5) ∧
    ready1.urgent = none ∧ ready1.picks = [] ∧ ready1.running.map (·.1) = [0] ∧ (ready1.runnable 0).isSome = true := by decide
/-- The same where the halfword that the core has not fenced is another. -/
def stale1 : State := onCore ready1 fun k => { k with stale := [(2, 0x7)] }
theorem test_met_stale_fetch : stale1.choose.1 = .instr 0 ∧ stale1.choose.2.runnable 0 = some 0 ∧
    (stale1.choose.2.fetchCode 0 0).1 = .code (.c32 0x8A180005) ∧
    (State.fetchCode { stale1 with picks := [1] } 0 0).1 = .code (.c32 0x8A180007) := by decide
theorem test_met_annulled : (ready1.core 0).pipe = some 0 ∧ trapped (ready1.ctx 0 0) (ready1.ctx 0 0) = false ∧
    ready1.mayLose 0 = false := by decide
theorem test_met_fetch : (0xFFFC : Word).toNat + 4 ≤ 0x10000 ∧
    (Memory.get ready1.mem (istoreKey 0 1)).getLsbD 7 = true ∧ (Memory.get ready1.mem (istoreKey 0 5)).getLsbD 7 = false := by decide
theorem test_met_StepKeepsMemoryForm : Memory.wf ready1.mem = true ∧ next (step ready1) (fun _ => true) = true := by decide
theorem test_met_MemoryReadsWhatWasStored : Memory.wf [(3, 7), (9, 1)] = true := by decide

theorem test_met_ChecksInOrder_illegal : (Form.f3 5 1 0 2 0).legal { ctx [] with status := 0x10000 } = false ∧
    (Form.f3 5 1 0 2 0).legal (ctx []) = true := by decide
theorem test_met_ChecksInOrder_modes : (regs []).me.mode = taskMode ∧ (Instr.fenceFull 3).wf = true ∧ (Instr.qstat 5 7).wf = true := by
  decide
theorem test_met_ChecksInOrder_off : bankState 0x200000000 (.g 15) = 2 ∧ (regs []).me.mode = taskMode := by decide
theorem test_met_ChecksInOrder_sources :
    let t : Ctx := { ctx [] with gs := ((Vector.replicate 32 .full).set 1 .free).set 2 (.empty 3) }
    let late : Ctx := { t with late := some 2 }
    t.rst 1 = .free ∧ t.rst 2 = .empty 3 ∧ t.awaits 2 = true ∧ (1 : BitVec 2).getLsbD 0 = true ∧ late.awaits 2 = true ∧
    t.readsFading (Form.f3 5 1 0 2 0) = false ∧ (Form.f3 5 4 0 2 1).srcs.find? (fun a => t.rst a.1 == .free) = none ∧
    (Form.f3 5 4 0 2 1).srcs.find? (fun a => t.awaits a.1 && a.2.getLsbD 0) = some (2, 1) ∧
    (Form.f3 5 4 0 2 0).srcs.find? (fun a => t.awaits a.1 && a.2.getLsbD 0) = none ∧
    (Form.f3 5 4 0 2 0).names.find? (fun n => bankState t.status n == 2) = none := by decide
theorem test_met_divisors : (regs [(2, 1)]).me.rd 2 ≠ 0 ∧ ((regs [(2, 1)]).me.rd 2).extractLsb' 0 32 ≠ 0 ∧
    ((regs [(2, 0x100000000)]).me.rd 2).extractLsb' 0 32 = 0 ∧ (regs []).me.rd 2 = 0 := by decide
theorem test_met_ZeroHalfword : (0xFFFE : Word).toNat ≤ 0xFFFE ∧ Memory.get State.reset.mem (istoreKey 0 0xFFFE) = 0 ∧
    Memory.get State.reset.mem (istoreKey 0 0xFFFF) = 0 := by decide
theorem test_met_NopTrapBreak : field (regs []).me.trapVec 1 15 ≠ 0 ∧ (regs []).me.mode ≠ trapMode := by decide
theorem test_met_SingleStepForms :
    let s := world { ctx [] with status := 0x40, trapPc := 0xFFFE }
    s.me.mode = trapMode ∧ s.me.async.stopAt = [] ∧ s.me.trapPc.getLsbD 0 = false ∧ s.me.trapPc.toNat ≤ 0xFFFE := by decide
theorem test_met_QuotaReads : (regs []).launchOf 0 = some (0, launch) ∧ (5 : BitVec 3).toNat = 5 := by decide

theorem test_met_transfers : (0xFFFE : Word).getLsbD 0 = false ∧ (0xFFFE : Word).toNat ≤ 0xFFFE ∧ (0x10000 : Word).toNat > 0xFFFE ∧
    (0x101 : Word).getLsbD 0 = true ∧ (5 : BitVec 3).toNat ≤ 5 := by decide
theorem test_met_repeats : (regs []).me.rd 4 = 0 ∧ (regs [(4, 2)]).me.rd 4 ≠ 0 ∧ ((regs []).me.pc + 8).getLsbD 0 = false ∧
    ({ ctx [(4, 1)] with rep := some ⟨0x100, 4, 2⟩ } : Ctx).rep = some ⟨0x100, 4, (ctx [(4, 1)]).rd 4 + 1⟩ := by decide
theorem test_met_prefixes : ({ ctx [] with status := 0x110000 } : Ctx).pfx = true ∧ ([0, 2].contains 1) = false ∧ (4 : BitVec 5) ≠ 0 ∧
    (0xF8000000 : BitVec 32).extractLsb' 27 5 = 0x1F ∧ (0xFFFF0000 : BitVec 32).extractLsb' 16 16 = 0xFFFF := by decide
theorem test_met_fetches : (0x10000 : Word).toNat ≥ 0x10000 ∧ (regs []).me.rep = none := by decide
theorem test_met_conversions : (convertTo 3 .rne 0 0 (sourceVal 0 0x43E00000)).trap = none ∧
    (convertTo 3 .rne 0 3 (sourceVal 0 0x7F800000)).trap = some false ∧
    (convertTo 5 .rne 0 3 (sourceVal 0 0x7FC00000)).trap = some true := by decide
theorem test_met_RoundingAndWidening : 0 < 1 ∧ 20 ≤ Nat.log2 0 + 20 ∧ (65535 : Nat) < 65536 ∧ 255 < 2 ^ fmtWidth 3 := by decide

theorem test_met_loads : loads (regs []) 1 0xFF8 8 [0, 1, 2, 3, 4, 5] = true ∧ loads (regs []) 0 0xFF8 8 [0, 1, 2, 3, 4, 5] = true ∧
    loads (regs []) 1 0xF80 128 [0, 1, 2, 4] = true ∧ loads (regs []) 0 0xFFF 1 [0, 1, 2, 3, 4, 5] = true := by decide +kernel
theorem test_met_load_home : placed (regs []) 1 8 8 ⟨false, [1], 8, true⟩ (fun h l u =>
    hSpace h == 1 && u.me.versionPending == false && u.ownStoreAt 0 0 l == false && u.ownedLine l == none &&
    u.poisoned (quadKey (hQuad h 0) (field h 0 20 + 8)) 8 == false) = true := by decide
theorem test_met_load_faults : failsWith ((regs []).chkHandle 0 (regs []).hbs 9) 0x07 = true ∧
    ((world { ctx [] with hb := Vector.replicate 16 5 }).me.hbrd 2).getLsbD 12 = false ∧
    passing ((regs []).chkHandle 0 (regs []).hbs 1) (fun h => decide (0xFF9 + 8 > hBound h) && decide (0x1000 + 8 > hBound h)) = true ∧
    0xFF9 % 8 ≠ 0 := by decide +kernel
theorem test_met_async_load : (regs []).me.freeSlot = some 0 ∧ (4 : BitVec 5) ≠ 0 ∧
    placed (regs []) 0 8 8 ⟨false, [0, 1, 2, 3, 4, 5, 6], 8, true⟩ (fun h l u => hSpace h != 6 &&
      finds (u.load h 8 l false) fun _ x => x.length == 8) = true ∧
    ({ ctx [] with fills := (List.range 16).map fun n => (n, ⟨1, .load, none, false, false, false⟩) } : Ctx).freeSlot = none := by decide +kernel

/-- A context that waits for a future version. -/
def awaiting : Ctx := { ctx [] with fills := [(0, ⟨1, .version 0 0 false, none, false, false, false⟩)] }
theorem test_met_async_remote : placed (regs []) 6 8 8 ⟨false, [0, 1, 2, 3, 4, 5, 6], 8, true⟩ (fun h _ u => hSpace h == 6 &&
      passes (u.placeCore 0 h 8 8 false) && u.me.freeSlot == some 0 && u.readHeld h [⟨2 ^ 60, 8, false⟩] == false) = true ∧
    placed (world awaiting) 6 8 8 ⟨false, [0, 1, 2, 3, 4, 5, 6], 8, true⟩ (fun h _ u => passes (u.placeCore 0 h 8 8 false) &&
      u.me.freeSlot == some 1 && u.readHeld h [⟨2 ^ 60, 8, false⟩] == true) = true := by decide
/-- An engine command of core 0 owns the first line that binding 1 reaches. -/
def ownedLine1 : State := { regs [] with owners := [(quadKey 0 0x100 / 64, [.copy 0 1])] }
theorem test_met_async_held : placed ownedLine1 1 8 8 ⟨false, [0, 1, 2, 3, 4, 5, 6], 8, true⟩ (fun h l u =>
      hSpace h != 6 && l.length == 1 && u.me.goFirst h l == [] &&
      match u.load h 8 l false with
        | .wait (.miss _) => true
        | _ => false) = true ∧ ownedLine1.me.freeSlot = some 0 := by decide
theorem test_met_stores : stores (regs []) 1 0xFF8 8 [0, 1, 2, 3, 4, 5, 6] = true ∧ stores (regs []) 6 0 8 [0, 1, 2, 3, 4, 5, 6] = true ∧
    stores (regs []) 0 0xF80 128 [6, 0, 1, 2, 4] = true := by decide
/-- Lanes of a strided access. -/
def lanes (base stride : Int) : List Int := (List.range 32).map fun (i : Nat) => base + i * stride
theorem test_met_lanes : passing ((regs []).placeLanes 1 false 0 (lanes 0x1F0 (-16))) (fun (h, p, w) =>
      finds (w.loadLanes h ((lanes 0x1F0 (-16)).zip p) []).1 fun _ x => x.length == 128) = true ∧
    passing ((regs []).placeLanes 1 true 0 (lanes 0 4)) (fun (_, p, w) =>
      !w.me.versionPending && passes (w.me.chkWatch p.flatten) && p.length == 32) = true := by decide +kernel
theorem test_met_blocks : (4 : BitVec 5) ≠ 9 ∧ field (regs []).me.g[4] 0 48 = 0 ∧ ((0 : Word).extractLsb' 56 4) = 0 ∧
    placed (regs []) 1 0xFFF 1 ⟨false, [0, 1, 2, 3, 4, 5], 1, true⟩ (fun h l u =>
      placed u 0 0x40 1 ⟨true, [0, 1, 2, 3, 4, 5, 6], 1, true⟩ fun d p w => passes (w.me.chkWatch (if hSpace d = 6 then [] else p)) &&
        !w.me.versionPending && finds (w.load h 0xFFF l false) fun _ x => x.length == 1) = true := by decide

/-- One of core 0's stores to be performed. -/
def pendingStore : StoreRec := ⟨0, 0, quadKey 0 0x200, [1, 2], .home 1 false, .write, none, false, false, [], none, 0, false, 0⟩
/-- A GLOBAL store of the same context. -/
def cachedStore : StoreRec := { pendingStore with addr := 0x10008, dest := .cached 0 false 0 }
/-- Core 0 with the store to quad memory. -/
def storing : State := onCore (regs []) fun k => { k with stores := [pendingStore] }

theorem test_met_rmw : placed (regs []) 1 0x10 8 ⟨true, [0, 1, 3], 8, true⟩ (fun h l u => passes (u.me.chkWatch l) &&
      finds (u.rmw h 0x10 l 8 false true true (fun m => some (m + 1))) fun _ m => m == 0) = true ∧
    placed (regs []) 1 0xFFC 4 ⟨true, [0, 1, 3], 4, true⟩ (fun h l u =>
      finds (u.rmw h 0xFFC l 4 false false false (fun _ => none)) fun _ m => m == 0) = true := by decide
theorem test_met_rmw_home : Memory.wf (regs []).mem = true ∧ hSpace (handle 0x100 0x1000 1 (2 ^ 32)) = 1 ∧
    (regs []).me.versionPending = false ∧ (regs []).mayWrite 0 0 = true ∧
    (onCore (regs []) fun k => { k with stores := [{ pendingStore with fences := 1 }] }).fenceOpen 0 0 = true ∧
    (regs []).ownStoreAt 0 0 [⟨quadKey 0 0x110, 8, false⟩] = false ∧
    (regs []).ownStores 0 0 = false ∧ (regs []).ownedLine [⟨quadKey 0 0x110, 8, false⟩] = none ∧
    (regs []).poisoned (quadKey 0 0x110) 8 = false := by decide

theorem test_met_acquire_release : placed (regs []) 0 0xFF8 8 ⟨false, [0, 1, 2, 3, 4, 5], 8, true⟩ (fun h l u =>
      finds (u.acquireRead h 0xFF8 l (u.wideScope 0 0 5)) fun _ x => x.length == 8) = true ∧
    stores (regs []) 0 8 8 [0, 1, 2, 3, 4, 5, 6] = true ∧
    passing ((regs []).chkHandle 0 (regs []).hbs 6) (fun h => hSpace h == 6) = true := by decide
theorem test_met_fences : (regs []).quiet 0 0 = true ∧ storing.quiet 0 0 = false ∧ (regs []).wideScope 0 0 5 = true ∧
    (regs []).wideScope 0 0 2 = false ∧ (regs []).launchOf 0 = some (0, launch) := by decide
/-- A store to a SYNC word, which a near fence goes by. -/
def syncStore : StoreRec := { pendingStore with addr := 0x20040, dest := .home 3 false }
theorem test_met_near_fences : storing.me.readsDone = true ∧ (1 : BitVec 3).toNat < 2 ∧
    syncStore.addr / 2 ^ 20 ≠ quadKey 0 0 / 2 ^ 20 ∧ pendingStore.addr / 2 ^ 20 = quadKey 0 0 / 2 ^ 20 ∧
    (match cachedStore.dest with
      | .cached .. => true
      | _ => false) = true ∧ cachedStore.wide = false ∧ cachedStore.ctx = 0 ∧
    (onCore (regs []) fun k => { k with stores := [cachedStore] }).quiet 0 0 = false ∧
    (onCore (regs []) fun k => { k with stores := [{ syncStore with fences := 1 }, syncStore] }).storeReady 0 1 = false := by decide
theorem test_met_remote_release : (6 : BitVec 3) = 6 ∧
    ((world { ctx [] with scopeGrp := 1 }).launchOf 0).map (fun e => e.2.group 1) = some [] ∧
    (world { ctx [] with scopeGrp := 1 }).me.scopeGrp = 1 := by decide
theorem test_met_release_record : (State.acquire { regs [] with releases := [(5, ⟨[(0, [1]), (3, [2])]⟩)] } 5 3).releases.find 5 =
    some ⟨[(3, [2])]⟩ := by decide

/-- A word of versions 3 and 4. -/
def versioned : State := { regs [] with vwords := [(0x20008 / 8, ⟨4, [(3, 7), (4, 9)], []⟩)] }
theorem test_met_versions : placed versioned 3 8 8 ⟨false, [3], 8, true⟩ (fun _ l u =>
      l == [⟨0x20008, 8, false⟩] && !u.readHeld (handle 0x20000 0x1000 3 0) l && !u.ownStoreAt 0 0 l && u.ownedLine l == none &&
      !u.poisoned 0x20008 8) = true ∧
    (versioned.vword 0x20008).held.find? (fun e => e.1 == 4) = some (4, 9) ∧
    (versioned.vword 0x20008).held.find? (fun e => e.1 == 5) = none ∧ (5 - (versioned.vword 0x20008).last).toNat = 1 ∧
    (versioned.vword 0x20008).held.find? (fun e => e.1 == 2) = none ∧ 2 ^ 31 ≤ (2 - (versioned.vword 0x20008).last).toNat ∧
    versioned.me.freeSlot = some 0 ∧ stores versioned 3 8 8 [3] = true ∧ Memory.wf versioned.mem = true := by decide
theorem test_met_versions_kept : ((5 : BitVec 32) - 3).toNat ≤ 3 ∧ ¬((9 : BitVec 32) - 4).toNat ≤ 3 := by decide
/-- Object 5 declared by launch 0. -/
def declared : State := { regs [] with objects := [(5, ⟨0, 1, none⟩)] }
theorem test_met_objects : loads declared 0 0 64 [0, 1, 2, 3, 4, 5] = true ∧
    declared.declReason 0 6 (BitVec.ofNat 512 (2 ^ 16 + 2 ^ 64 + 2 ^ 96 + 2 ^ 128 + 2 ^ 160)) = none ∧ field (0x4000 : Word) 14 50 ≠ 0 ∧ field (5 : Word) 14 50 = 0 ∧
    (declared.objects.find 5).isSome = true ∧ (declared.objects.find 5).map (·.launch) = (declared.core 0).launch := by decide +kernel
theorem test_met_ControlRegisters : (world { ctx [] with status := 0x80 }).me.mode ≠ taskMode ∧ (regs []).me.mode = taskMode ∧
    (0x110 : BitVec 12).toNat > 0x10F ∧ (7 : BitVec 12).toNat < 0x100 ∧ (0x10F : BitVec 12) = 0x100 + (15 : BitVec 4).setWidth 12 := by
  decide
theorem test_met_StatusAndTrapReturn : (regs []).me.rep = none ∧ (0xFFFE : Word).getLsbD 0 = false ∧ (0xFFFE : Word).toNat ≤ 0xFFFE ∧
    (0xFFFF : Word).getLsbD 0 = true ∧ (0x10000 : Word).toNat > 0xFFFE ∧ (regs []).me.mode ≠ trapMode ∧
    bankState 0x200000000 (.g 8) = 2 ∧ (0x8 : Word).setWidth 8 = (0x08 : BitVec 8) ∧ (0x6 : Word).setWidth 8 ≠ (0x08 : BitVec 8) := by decide

/-- A report. -/
def report (async : Bool) : Report := ⟨6, async, 0x200, 77⟩
/-- A context running the task of a message. -/
def tasked : Ctx := { ctx [] with task := some ⟨⟨0, 77, 5, 0, none⟩, .queue 1 3, false, 0, 40⟩ }
theorem test_met_TrapEntry : field tasked.trapVec 1 15 ≠ 0 ∧ tasked.mode ≠ 1 ∧ tasked.rep = none ∧ 0 < tasked.enquota.toInt ∧
    field ({ tasked with trapVec := 0 } : Ctx).trapVec 1 15 = 0 ∧ ({ tasked with status := 0x40 } : Ctx).mode = 1 ∧
    (report true).async = true ∧ tasked.task.map (·.origin) = some (.queue 1 3) ∧
    tasked.task.isSome = true := by decide

theorem test_met_halt_sleep :
    let s := world { ctx [(4, 9)] with status := 0x80 }
    s.me.rep = none ∧ s.me.enquota.toInt > 0 ∧ s.me.mode = sysMode ∧ (world { ctx [] with status := 0x40 }).me.mode = trapMode ∧
    (s.core 0).pipe = some 0 ∧ s.me.stepCtl.getLsbD 0 = false ∧ s.me.async = Async.empty ∧ (s.core 0).otherReady 0 = false ∧
    ((onCore s fun k => { k with ctxs := k.ctxs.set 3 (ctx []) }).core 0).otherReady 0 = true := by decide
/-- A second launch beside the core's own. -/
def twoLaunches : State := { regs [(4, 7)] with launches := [(0, launch), (7, { launch with groups := [(0, [8, 9])] })] }
theorem test_met_killctx : (twoLaunches.core 0).launch = some 0 ∧ (twoLaunches.core 0).launch ≠ some 7 ∧
    twoLaunches.launch 9 = none ∧ (twoLaunches.launch 7).map (·.state) = some .running := by decide

theorem test_met_tlbi : field (2 : Word) 0 2 ≥ 2 ∧ field (1 : Word) 0 2 < 2 ∧ field (4 : Word) 2 62 ≠ 0 ∧ (1 : Word).toNat ≤ 1 ∧
    (0xFFFFFFFFFFFF : Word).toNat < 2 ^ 48 ∧ field (0x1000000000000 : Word) 48 16 ≠ 0 := by decide
theorem test_met_tlbsync :
    let s := { world { ctx [] with tlbi := [3] } with shootdownCtr := 4, shootdowns := [(3, ⟨0, none, [1], [], [(0, 0x400)], []⟩)] }
    s.me.tlbi.all (s.me.tlbi.foldl State.reachAll (s.woken {})).shotDown = true ∧
    (let u := { s with shootdowns := [(3, ⟨0, none, [], [(0, pendingStore)], [], []⟩)], cores := storing.cores }
     [3].all ([3].foldl State.reachAll (u.woken {})).shotDown = false) := by decide
theorem test_met_watch_snap : placed (regs []) 3 0xFF0 16 ⟨false, [0, 3, 4], 16, false⟩ (fun _ l _ => l.length == 1) = true ∧
    (regs []).me.held = none ∧ (regs []).trigger.latchAt = none ∧ ({ ctx [] with held := some 7 } : Ctx).held = some 7 ∧
    (let s : State := { world { ctx [] with held := some 7 } with trigger := ⟨7, 6, some 2048, [], false⟩ }
     s.me.held = some (s.trigger.number.setWidth 64) ∧ s.trigger.latchAt = some 2048) ∧
    (let s : State := { regs [] with trigger := ⟨7, 6, some 2048, [], false⟩ }
     s.me.held = none ∧ s.trigger.latchAt = some 2048) := by decide

/-- A lease of a context in cluster 0. -/
def lease (cx : Nat) (due : BitVec 4) : Gust := ⟨0, cx, false, 10, due⟩
/-- Cluster 0 changed. -/
def cluster0 (k : Cluster) : State := { regs [] with clusters := [(0, k)] }
theorem test_met_gust : (regs []).cluster 0 = Cluster.reset ∧ Cluster.reset.gust = none ∧ Cluster.reset.refrz = false ∧
    (lease 0 0).mine 0 0 = true ∧ (lease 1 0).mine 0 0 = false ∧ (regs []).fwUpdate = false := by decide
theorem test_met_energy : ({ regs [] with fwDue := true } : State).fwDue = true ∧ (regs []).fwDue = false ∧
    ((cluster0 { Cluster.reset with gust := some (lease 0 2) }).cluster 0).gust = some (lease 0 2) ∧ (lease 0 2).due ≠ 0 ∧
    (regs []).me.cstate = .running ∧ (regs []).me.async.gust = none ∧ ({ launch with quota := 1000 } : Launch).quota ≠ 0 := by decide

/-- A launch with one recording. -/
def recording (t : Ctx) (r : Recording) : State := { world t with launches := [(0, { launch with recs := [(5, r)] })] }
/-- A context with a window open on it. -/
def windowed : Ctx := { ctx [] with window := some ⟨5, 2, 1, true, 1⟩ }
theorem test_met_windows :
    let states : List RecState := [.empty, .recording, .sealing, .ready, .replaying, .fallback]
    windowed.window.isSome = true ∧ (ctx []).window = none ∧
    (∀ st ∈ states, ((recording (ctx []) { Recording.reset with state := st, openCount := 1 }).launchOf 0).map
      (fun l => ((l.2.recording 5).state, (l.2.recording 5).closing, (l.2.recording 5).openCount)) = some (st, false, 1)) := by decide
/-- A recording's buffer in memory. -/
def buffered (cap thresh : Byte) : State := withMem (recording (ctx []) Recording.reset) [(0x10000, cap), (0x10004, thresh)]
/-- The header of a buffer is read and satisfies a test. -/
def header (s : State) (p : State → Nat → Nat → Bool) : Bool :=
  placed s 0 0 64 ⟨false, [0], 64, false⟩ fun h _ _ => passing (s.placeCore 0 h 0 64 true) fun (l, u) =>
    finds (u.load h 0 (rowRange (l.map fun p => (p.key, p.len, p.log)) 0 8) true) fun v x => p v (leNat (x.take 4)) (leNat (x.drop 4))
theorem test_met_record_starts : header (buffered 1 0) (fun v c t => c == 1 && t == 0 &&
      passing (v.chkAccess 0 v.hbs 0 0 64 ⟨false, [0], 64 + 16, false⟩) (fun h => passes (v.placeCore 0 h 0 80 true))) = true ∧
    header (buffered 0 0) (fun _ c _ => c == 0) = true := by decide +kernel
theorem test_met_window_queries : windowed.window = some ⟨5, 2, 1, true, 1⟩ ∧ (recording windowed Recording.reset).windowOpen 0 5 = true ∧
    (recording (ctx []) Recording.reset).windowOpen 0 5 = false ∧ Recording.reset.closing = false ∧
    Recording.reset.state ≠ .sealing := by decide
/-- A recording whose buffer begins at 0x10000, that line an engine's or not. -/
def bufferHeld (st : RecState) (held : Bool) : State :=
  let r : Recording := { Recording.reset with state := st, buffer := [(0x10000, 4096, false)] }
  { recording (ctx []) r with owners := if held then [(0x10000 / 64, [.copy 0 1])] else [] }
theorem test_met_buffers_held : ∀ held ∈ [false, true], ∀ st ∈ [RecState.sealing, .ready], let s := bufferHeld st held
    (s.recording 0 5).map (fun r => (r.state, r.closing, s.bufferOwned r 8 56, s.windowOpen 0 5)) = some (st, false, held, false) := by
  decide +kernel
/-- A push on its way to quad 0. -/
def push (stale : Bool) : Push := ⟨0x100, 0x77, ⟨0, 5, 3, none⟩, stale⟩
/-- A clean line of a quad's cache. -/
def clean : CacheLine := ⟨false, 5, BitVec.allOnes 64, 0, [], none, false, 0, none, false, false, false⟩
/-- Core 0 waits for the data of a line. -/
def missing : State := world { ctx [] with wait := some (.miss 0x100) }
theorem test_met_push_misses : missing.missAt 0 0x100 = true ∧ (regs []).missAt 0 0x100 = false := by decide +kernel
theorem test_met_tradewind_events :
    let r : Recording := { Recording.reset with
      state := .replaying, windows := [(1, ⟨2, [], []⟩)], entries := [⟨0, 5, 0, 1, 2, 1, false⟩] }
    (recording windowed { r with state := .sealing }).recording 0 5 = some { r with state := .sealing } ∧
    ({ Quad.reset with pushes := [push true] } : Quad).pushes[0]? = some (push true) ∧
    NatMap.find [(0x100, clean)] 0x100 = some clean ∧ NatMap.find ([] : NatMap CacheLine) 0x100 = none ∧
    r.nextLoad ⟨2, [], []⟩ 1 = some 0 ∧ ({ r with closing := true } : Recording).unsettled = 0 ∧ r.thresh = 0 := by decide +kernel

/-- Class 3 has a handler-table entry. -/
def classed (t : Ctx) : State := { world t with launches := [(0, { launch with handlers := [(3, 1)] })] }
theorem test_met_sends : (classed (ctx [])).sendReason .send 0x10003 0 = none ∧ (classed (ctx [])).sendReason .push 3 0 = none ∧
    (classed (ctx [])).sendReason .send 0x10803 0 = none ∧
    (classed (ctx [])).sendReason .hint 3 0 = none ∧ (classed (ctx [])).sendReason .send 3 1 = none ∧ hdrPlen 0x10803 ≠ 0 ∧
    (classed (ctx [])).me.freePayload = some 0 ∧ (classed (ctx [])).sendReason .send 0x10004 0 = some 5 := by decide +kernel
theorem test_met_send_payloads :
    let t := classed (ctx [])
    hdrPlen 0x10803 = 1 ∧ t.ownedLine [⟨quadKey 0 0x40, 8, false⟩] = none ∧ t.me.versionPending = false ∧
    t.me.heldAt [⟨quadKey 0 0x40, 8, false⟩] = false ∧ t.fullOpen 0 0 = false := by decide +kernel
theorem test_met_send_reasons :
    let e : SendEntry := ⟨.hint, ⟨0, 0, 0, 0, none⟩, none⟩
    let full := List.replicate 32 e
    let slots := (List.finRange 16).map fun (i : Fin 16) => ({ e with slot := some i.val } : SendEntry)
    full.length ≥ 32 ∧ ({ ctx [] with send := slots } : Ctx).freePayload = none ∧ hdrPlen 0x8803 = 17 ∧ hdrPlen 0x8003 = 16 ∧
    (classed (ctx [])).classEntry 0 4 = none ∧ (classed (ctx [])).inGroup0 0 9 = false ∧ (classed (ctx [])).inGroup0 0 4 = true ∧
    (0xFFFF8 + 8 * 2 > 2 ^ 20) := by decide
theorem test_met_send_nonzero_spawn : (classed (ctx [])).sendReason .nz 0x10003 0 = none ∧
    (∀ i : Fin 4, ((classed (ctx [])).quad 0).lanes[i] = []) ∧ (classed (ctx [])).inGroup0 0 (field (0x100001 : Word) 0 13) = true ∧
    field (0x100001 : Word) 13 3 = 0 ∧ field (0x100001 : Word) 32 32 = 0 ∧ (0x100001 : Word).getLsbD 16 = false ∧
    (classed (ctx [])).me.freeSlot = some 0 ∧ (classed (ctx [])).me.send.length < 32 ∧
    (let t := ({ ctx [] with stepCtl := 1 } : Ctx)
     t.stepCtl.getLsbD 0 = true ∧ t.mode ≠ trapMode ∧ t.async.step = none) ∧ nonZero 0 0 = [] := by decide +kernel
theorem test_met_QueriesAndDone : ((regs []).launchOf 0).map (fun l => (l.2.group 0, (l.2.group 1).contains 0)) = some ([0, 1, 4], false) ∧
    (regs []).doneReady 0 0 = true ∧ (regs []).me.send = [] ∧ (regs []).me.fills = [] ∧
    (world { ctx [] with fills := [(0, ⟨3, .load, some 1, false, false, false⟩)] }).doneReady 0 0 = false ∧
    ((regs []).core 0).launch ≠ none ∧ tasked.task.map (·.origin) = some (.queue (1 : Fin 8).val 3) := by decide

theorem test_met_vectors : (∀ i : Fin 4, ((regs []).quad 0).lanes[i] = []) ∧ (31 : BitVec 6).toNat < 32 ∧ (1 : Nat) < 1024 / fmtWidth 8 := by
  decide
theorem test_met_vector_conversions : Format.cvtdPair 0 3 = true ∧ (3 : Nat) < 32 / 8 ∧ ¬(4 : Nat) < 32 / 8 ∧ Format.cvtdPair 0 9 = false ∧
    (convertTo 3 .rne 0 3 (sourceVal 0 0)).trap = none ∧ (convertTo 3 .rne 0 3 (sourceVal 0 0x7F800000)).trap = some false := by decide
/-- A lane with one operation of another context. -/
def laned : State := { regs [] with quads := [(0, { Quad.reset with lanes := Quad.reset.lanes.set 0 [⟨3, false⟩] })] }
theorem test_met_lane_waits : (laned.quad 0).lanes[(0 : Fin 4)] = [⟨3, false⟩] ∧ (∀ o ∈ [(⟨3, false⟩ : LaneOp)], o.ctx ≠ laned.cur.2) ∧
    (laned.quad 0).lastLane = (0 : Fin 4) - 1 ∧ (⟨3, false⟩ : LaneOp).issued = false := by decide
theorem test_met_ReductionsOfVectors : (ctx []).pfx = false ∧ (∀ i : Fin 4, ((regs []).quad 0).lanes[i] = []) := by decide

/-- Core 0 holds the lease. -/
def leased : State := onArray (regs []) fun u => { u with lease := some 0, count := 16, clock := 4096, cfg := 0x6600 }
/-- A command of core 0's context 0. -/
def command (op : ArrayOp) (executed : Bool) : ArrayCmd := ⟨0, 0, op, false, 0x6600, 16, 0, 1, executed⟩
theorem test_met_leases : (leased.arrayOf 0).lease = some 0 ∧ (leased.arrayOf 0).clock ≠ 0 ∧
    ¬(((onArray leased fun u => { u with clock := 0 }).arrayOf 0).clock ≠ 0) ∧ ((regs []).arrayOf 0).lease ≠ some 0 ∧ (leased.arrayOf 0).queued < 8 ∧
    ((onArray leased fun u => { u with queue := List.replicate 8 (command .cfg false) }).arrayOf 0).queued ≥ 8 ∧
    leased.arrayOpen 0 0 = false ∧ (onArray leased fun u => { u with queue := [command .cfg false] }).arrayOpen 0 0 = true ∧
    ((leased.arrayOf 0).tiles[(0 : Fin 8)]).skip < 16 := by decide
theorem test_met_array_events :
    let s := onArray (world { ctx [] with wait := some .lease }) fun u => { u with requests := [0, 2], lastHolder := 3 }
    (s.arrayOf 0).lease = none ∧ (s.arrayOf 0).lastHolder = (0 : Fin 4) - 1 ∧ (0 : Fin 4) ∈ (s.arrayOf 0).requests ∧
    (s.core 0).wantsLease = true ∧ (leased.arrayOf 0).lease.isSome = true ∧
    ((onArray leased fun u => { u with queue := [command .cfg true] }).arrayOf 0).queue = [command .cfg true] ∧
    (command (.loadA 0 32 32) false).executed = false ∧ (∀ j ∈ ([] : List ArrayCmd), j.op ≠ .grant) ∧
    (∀ op ∈ [ArrayOp.loadA 0 32 32, .zero 0 none, .zero 0 (some (true, 5))],
      leased.quadHeld 0 ((leased.arrayOf 0).regions (command op false)) = false) := by decide
theorem test_met_configurations : cfgValid 0x6600 = true ∧ cfgValid 0x6601 = false ∧ (0xFFD00 : Word).toNat + 768 ≤ 2 ^ 20 ∧
    (0xFFD04 : Word).toNat + 768 > 2 ^ 20 ∧ (5 : Word).toNat % 4 ≠ 0 ∧ leased.ownStores 0 0 = false ∧
    storing.ownStores 0 0 = true ∧ cfgValid 0x5980 = false ∧ cfgValid 0x3310 = true := by decide
theorem test_met_array_waits : leased.arrayWaits .reads = false ∧ storing.arrayWaits .reads = true ∧ leased.arrayWaits .writes = false ∧
    leased.arrayWaits .both = false ∧ (onCore leased fun k => { k with stores := [{ syncStore with fences := 1 }] }).arrayWaits .writes = true := by
  decide
theorem test_met_operand_loads : (0 % 32 = 0 ∧ 32 ≤ 32 ∧ 0xFFFE0 + (1 - 1) * 32 + 32 ≤ 2 ^ 20) ∧ 0xFFFF0 + 2 * 8 ≤ 2 ^ 20 ∧
    ¬(0xFFFF2 + 2 * 8 ≤ 2 ^ 20) ∧ (leased.arrayOf 0).drainsAt 0 32 = false ∧ unfoldOutside 0 8 = false ∧
    unfoldOutside 0xFFFFFFFF 8 = true ∧ 0xFFFE0 + 32 ≤ 2 ^ 20 ∧ ¬(0xFFFE1 + 32 ≤ 2 ^ 20) ∧ 0xFFFE0 % 32 = 0 ∧ 0xFFFDC % 32 ≠ 0 ∧
    leased.quadHeld 0 [(0xFFFE0, 32)] = false ∧
    ((onArray leased fun u => { u with queue := [command (.drain 0 0x40 0 0 0 false false) false] }).arrayOf 0).drainsAt 0x40 32 = true := by decide
theorem test_met_tiles :
    let u := (onArray leased fun u => { u with
      tiles := ((u.tiles.set 0 { Tile.reset with owner := some (0, 0), next := .int }).set 1 { Tile.reset with owner := some (1, 0) }).set 2
        { Tile.reset with owner := some (0, 0), next := .float } }).arrayOf 0
    u.tiles[(0 : Fin 8)].owner = some (0, 0) ∧ u.tiles[(0 : Fin 8)].next = .int ∧ u.tiles[(1 : Fin 8)].owner = some (1, 0) ∧ leased.arrayWaits .both = false ∧
    u.tiles[(2 : Fin 8)].next = .float ∧ u.tiles[(3 : Fin 8)].owner = none ∧ u.cfg.getLsbD 7 = false ∧ u.cfg.getLsbD 4 = false ∧
    (0x6610 : Word).getLsbD 4 = true ∧ u.unfolding = false ∧
    (let s := onArray storing fun u => { u with cfg := 0x3310 }
     (s.arrayOf 0).cfg.getLsbD 4 = true ∧ s.ownStores 0 0 = true) := by decide
theorem test_met_drains : drainAccepts .int 8 false = true ∧ drainAccepts .float 8 false = false ∧ drainAccepts .float 3 false = true ∧
    (0xDFFE0 % 4 = 0 ∧ 8 * fmtWidth 0 / 8 ≤ 32 ∧ 0xDFFE0 + (1 - 1) * 32 + 32 ≤ 0xE0000) := by decide
theorem test_met_IntegerMultiplyAccumulates : ({ Tile.reset with cells := List.replicate 1024 ⟨0, 0, false⟩ } : Tile).cells.length = 1024 ∧
    Tile.reset.kind ≠ .float := by decide +kernel

/-- A FILL of 64 zero bytes to quad offset 0x40. -/
def fillReq : Vector Word 4 := #v[0x1003000000000040, 0x40, 0, 0]
/-- The FIFO's commands. -/
def copyCmd (req : Vector Word 4) (begun : Bool) (done : Nat) : CopyCmd :=
  ⟨0, 3, req, (ctx []).hb, [], [], begun, done, none, none, 0⟩
/-- Core 0 with a FIFO. -/
def copying (l : List CopyCmd) : State := onCore (regs []) fun k => { k with fifo := l }
theorem test_met_CopyCommands : requestReason fillReq = none ∧ passes ((regs []).chkCopy 0 (ctx []).hb fillReq) = true ∧
    requestReason #v[0, 0, 0, 0] = some 2 ∧ ((copying []).core 0).fifo.length < 16 ∧
    (List.replicate 16 (copyCmd fillReq false 0)).length ≥ 16 ∧ (copyCmd fillReq false 0).begun = false ∧
    (copyReq fillReq).op = 3 ∧ (6 : BitVec 5).toNat = (5 : Fin 6).val + 1 := by decide

/-- A gather of four rows of 16 bytes: indices at 0x200, table at 0x300, rows to 0x400, all in quad memory. -/
def gatherDesc : BitVec 512 := BitVec.ofNat 512 (0x111 + 0x200 * 2 ^ 64 + 4 * 2 ^ 128 + 16 * 2 ^ 160 + 0x300 * 2 ^ 192 + 16 * 2 ^ 256 +
  0x400 * 2 ^ 320)
/-- Its stream, one row done. -/
def gathering (row : Nat) : Gather :=
  { Gather.reset with lastStream := 0, streams := Gather.reset.streams.set 1 [⟨0, 0, 0, 5, gatherDesc, (ctx []).hb, row, none, 0⟩] }
theorem test_met_gathers : field (0x1000000000000040 : Word) 48 12 = 0 ∧ field (0x1001000000000040 : Word) 48 12 ≠ 0 ∧
    field (0x80 : Word) 7 57 ≠ 0 ∧ field (0x7F : Word) 7 57 = 0 ∧
    placed (regs []) 1 0x40 64 ⟨false, [0, 1], 64, false⟩ (fun h l u => finds (u.load h 0x40 l false) fun _ x => x.length == 64) = true ∧
    passes ((regs []).chkGather 0 (ctx []).hb gatherDesc) = true ∧ ((regs []).gather 3).streams[(1 : Fin 4)] = [] ∧
    (regs []).quiet 0 0 = true ∧ storing.quiet 0 0 = false ∧
    placed (world { ctx [] with desc := some gatherDesc }) 1 0x40 64 ⟨false, [0, 1], 64, false⟩ (fun _ _ u =>
      u.me.desc == some gatherDesc && passes (u.chkGather 0 (ctx []).hb gatherDesc)) = true := by decide +kernel
theorem test_met_gather_rows :
    let s := withMem { regs [] with gathers := [(3, gathering 1)] } [(quadKey 0 0x302, 255), (quadKey 0 0x303, 255)]
    Memory.wf s.mem = true ∧ (s.gather 3).lastStream = (1 : Fin 4) - 1 ∧
    ((s.gather 3).streams[(1 : Fin 4)].head?.map fun k => (k.row, k.err)) = some (1, none) ∧ (gatherReq gatherDesc).count = 4 ∧
    passing (s.chkHandle 0 (ctx []).hb (gatherReq gatherDesc).ihb) (fun h => hSpace h == 1) = true ∧
    passing (s.chkHandle 0 (ctx []).hb (gatherReq gatherDesc).dhb) (fun h => hSpace h == 1) = true ∧
    s.owners = [] ∧ s.poison = [] ∧ s.tileReads = [] ∧ Memory.nat s.mem (quadKey 0 0x302) 2 = 2 ^ 16 - 1 := by decide +kernel

theorem test_met_object_updates : placed (regs []) 3 0x40 32 ⟨true, [3], 32, false⟩ (fun _ l u => l.length == 1 && !u.me.versionPending &&
      passes (u.me.chkWatch l)) = true ∧ field (0x3000000000000040 : Word) 48 12 = 0 ∧
    field (0x20040 : Word) 48 16 = 0 ∧ field (0x3000040 : Word) 40 24 = 0 ∧ field (0x3000040 : Word) 0 24 % 64 = 0 ∧
    field (0xFFFFC0 : Word) 0 24 ≤ 2 ^ 24 - 64 ∧ field (0x3F : Word) 0 24 < 64 ∧ field (0x100000000 : Word) 32 32 ≠ 0 ∧
    field (0x1000000000000 : Word) 48 16 ≠ 0 := by decide
/-- A ring object at 0x20040: WR 5, RES 9, RD 2, base 0x30000, 64-byte slots, 4 to 8 of them. -/
def ring (slots : Byte) : State :=
  { withMem (regs []) [(0x20040, 5), (0x20044, 9), (0x20048, 2), (0x20052, 3), (0x20058, 64), (0x2005B, slots)] with
    syncObjs := [(0x20040 / 32, ⟨.ring [], 0, false⟩)] }
/-- A barrier object at 0x20040: phase 5, 1 arrival and 4 bytes pending, of 2 and 3. -/
def barrier : State :=
  { withMem (regs []) [(0x20040, 5), (0x20048, 2), (0x2004C, 1), (0x20050, 3), (0x20058, 4)] with
    syncObjs := [(0x20040 / 32, ⟨.barrier, 0, false⟩)] }
/-- A wait's place is found: its key, its checks, nothing met before, and its line at home with nothing against it. -/
def waitsAt (s : State) (n off size : Nat) (spaces : List Nat) (key : Nat) : Bool :=
  placed s (BitVec.ofNat 4 n) off size ⟨false, spaces, size, false⟩ fun h l u =>
    let z := (u.mergeSpans [⟨key, size, false⟩]).l2Leave h [⟨key, size, false⟩]
    (hSpace h == n && (l.map (·.key)) == [key] && !u.me.versionPending && u.me.held == none && !u.me.heldAt [⟨key, size, false⟩]) &&
    (!u.ownStoreAt 0 0 [⟨key, size, false⟩] && u.ownedLine [⟨key, size, false⟩] == none && !z.poisoned key size) &&
    (z.syncObj key == s.syncObj key && !((z.syncObj key).map (·.wild)).getD false && z.memWord key == s.memWord key)
theorem test_met_object_waits : waitsAt (ring 7) 3 0x40 32 [3] 0x20040 = true ∧ waitsAt (ring 7) 3 0x40 8 [0, 3] 0x20040 = true ∧
    waitsAt (ring 7) 0 0x40 8 [0, 3] 0x10040 = true ∧ waitsAt barrier 3 0x40 32 [3] 0x20040 = true ∧
    (ring 7).unknown 0x20040 true = false ∧ barrier.unknown 0x20040 false = false ∧ lowHalf ((ring 7).memWord 0x20040) = 5 ∧
    placed (world { ctx [] with held := some 7 }) 3 0x40 32 ⟨false, [3], 32, false⟩ (fun h l u => hSpace h == 3 && l.length == 1 &&
      u.me.held == some 7 && !u.me.versionPending) = true ∧
    (1 ≤ ((5 : BitVec 32) - 4).toNat ∧ ((5 : BitVec 32) - 4).toNat ≤ 2 ^ 31 - 1) ∧ ¬(1 ≤ ((5 : BitVec 32) - 5).toNat) ∧
    (0x900000005 : Word).toNat ≤ ((ring 7).memWord 0x20040).toNat ∧ ¬(0x900000006 : Word).toNat ≤ ((ring 7).memWord 0x20040).toNat := by
  decide +kernel
theorem test_met_rings : Memory.wf (ring 7).mem = true ∧
    (highHalf ((ring 7).memWord 0x20040) - lowHalf ((ring 7).memWord 0x20048)).toNat < field ((ring 7).memWord 0x20058) 24 16 + 1 ∧
    (highHalf ((ring 6).memWord 0x20040) - lowHalf ((ring 6).memWord 0x20048)).toNat ≥ field ((ring 6).memWord 0x20058) 24 16 + 1 ∧
    (ring 7).ringGen 0x20040 = 0 ∧ (ring 7).ringFilled 0x20040 = [] ∧ (ring 7).ringGen 0x20040 ≠ 1 ∧ (ring 7).unknown 0x20040 true = false ∧
    lowHalf ((ring 7).memWord 0x20048) ≠ lowHalf ((ring 7).memWord 0x20040) ∧
    lowHalf ((regs []).memWord 0x20048) = lowHalf ((regs []).memWord 0x20040) := by decide +kernel
theorem test_met_barriers :
    let s := barrier
    Memory.wf s.mem = true ∧ s.unknown 0x20040 false = false ∧ (1 ≤ (highHalf (s.memWord 0x20048)).toNat ∧ 4 ≤ field (s.memWord 0x20058) 0 48) ∧
    (1 = (highHalf (s.memWord 0x20048)).toNat ∧ 4 = field (s.memWord 0x20058) 0 48) ∧ ¬3 = field (s.memWord 0x20058) 0 48 := by decide +kernel

theorem test_met_copy_begins : (copyCmd fillReq false 0).begun = false ∧ (storing.core 0).stores = [pendingStore] ∧
    ¬(copyCmd fillReq false 0).count ≤ pendingStore.copies ∧ (copyCmd fillReq false 0).after = [] := by decide
theorem test_met_copy_chunks :
    let s := copying [copyCmd fillReq true 63]
    let t := { s with quads := [(0, { Quad.reset with copyLast := 3 })] }
    Memory.wf t.mem = true ∧ (t.core 0).fifo = [copyCmd fillReq true 63] ∧ (copyReq fillReq).op = 3 ∧ (copyReq fillReq).ckind ≠ 2 ∧
    63 < (copyReq fillReq).len ∧ 64 ≥ (copyReq fillReq).w ∧ (copyReq fillReq).ckind = 0 ∧
    passing (t.chkHandle 0 (ctx []).hb (copyReq fillReq).dhb) (fun h => hSpace h == 1) = true ∧
    (t.quad 0).copyLast = inQuad 0 - 1 ∧ t.owners = [] := by decide +kernel
/-- A ring-advancing FILL of 64 bytes with the ring at SYNC offset 0x40. -/
def ringReq : Vector Word 4 := #v[0x103B000000000040, 0, 0, 0x40]
theorem test_met_ring_reservation :
    let s : State :=
      { withMem (copying [copyCmd ringReq true 0]) [(0x20040, 5), (0x20044, 5), (0x20048, 2), (0x20058, 64), (0x2005B, 3)] with
        syncObjs := (ring 3).syncObjs }
    let z := (s.recall (0x20040 / 64)).dirtyLine ((s.core 0).launch.getD 0) (0x20040 / 64) false false
    (copyReq ringReq).ckind = 2 ∧ passing (s.chkHandle 0 (ctx []).hb (copyReq ringReq).ohb) (fun h =>
      passing (s.objectKey 0 h (copyReq ringReq).ooff 32) fun k => k == (0x20040, false)) = true ∧
    (highHalf (z.memWord 0x20040) - lowHalf (z.memWord 0x20048)).toNat < field (z.memWord 0x20058) 24 16 + 1 ∧
    (copyReq ringReq).len ≤ field (z.memWord 0x20058) 0 24 ∧ z.unknown 0x20040 true = false ∧
    s.ringHeld 0 (copyCmd ringReq true 0) = false ∧
    passes (((z.ringReserve 0x20040).2.watchWrite [⟨0x20040, 8, false⟩] 2 0 none).chkDest 0 (ctx []).hb (copyReq ringReq).dhb 64 (copyReq ringReq).w (copyReq ringReq).align) = true := by
  decide +kernel

/-- An FP32 sum of 64 bytes in quad memory, from 0x40 to 0x80, reduction id 5. -/
def redReq : Vector Word 4 := #v[0x1100000000000040, 0x40, 0x80, 0x5000000000000]
theorem test_met_reductions : xredReason redReq = none ∧ xredReason #v[0x1108000000000040, 0x40, 0x80, 0x5000000000000] = some 1 ∧
    passing ((regs []).chkReduction 0 (ctx []).hb 1 1 0 0x40 0x80 64 0 0) (fun h => hSpace h == 1) = true ∧ (regs []).quiet 0 0 = true ∧
    storing.quiet 0 0 = false ∧
    (world { ctx [] with fills := [(3, ⟨4, .version 0 0 false, none, false, false, false⟩)] }).me.versionPending = true ∧
    passing ((regs []).chkHandle 0 (ctx []).hb 1) (fun h => match (regs []).reductionSource 0 (.xred 0 1) h 0x40 64 with
      | .ok _ b => b.length == 64
      | _ => false) = true := by decide +kernel
theorem test_met_reductions_end :
    let r : Reduction := ⟨0, 0, 0, 2 ^ 61 + 1, redReq, (ctx []).hb, [], none, none, 0, 2⟩
    ({ regs [] with reductions := [r] } : State).reductions[0]? = some r ∧ r.settled = none ∧ (xredReq redReq).len = 64 ∧
    (xredReq redReq).ckind = 0 ∧ (regs []).owners = [] ∧ ({ r with settled := some ([], true) } : Reduction).err = none := by decide
/-- An INT32 sum over group 0: 128 bytes from 0x200 to 0x300 in 64-byte chunks, key 5. -/
def collDesc : BitVec 512 := BitVec.ofNat 512 (0x11 + 8 * 2 ^ 16 + 0x200 * 2 ^ 64 + 0x300 * 2 ^ 128 + 128 * 2 ^ 192 + 5 * 2 ^ 256)
/-- The same sum, with the switch's. -/
def switchDesc : BitVec 512 := collDesc + BitVec.ofNat 512 (3 * 2 ^ 320)
/-- A core's part of a collective. -/
def part (desc : BitVec 512) (core : Nat) (sent : List (Nat × List Byte)) (done : List Nat) (err : Option (Nat × Bool)) : Collective :=
  ⟨core, 0, 0, 1, 5, desc, (ctx []).hb, sent, done, [], false, err, 0⟩
theorem test_met_collectives : (regs []).collReason 0 collDesc = none ∧ (regs []).collReason 0 0 = some 2 ∧
    passes ((regs []).chkReduction 0 (ctx []).hb 1 1 0 0x200 0x300 (collLen collDesc) 0 0) = true ∧ (regs []).collsAt (collEngine 0 5) = [] ∧
    collChunks collDesc = 2 ∧ 1 < collChunks collDesc ∧ 0 ∈ (part collDesc 0 [] [0] none).chunksDone ∧
    1 ∉ (part collDesc 0 [] [0] none).chunksDone ∧ (part collDesc 0 [] [] (some (1, false))).err.isSome = true ∧ collId 0 5 = 2 ^ 61 + 5 ∧
    placed (world { ctx [] with desc := some collDesc }) 1 0x40 64 ⟨false, [0, 1], 64, false⟩ (fun _ _ u =>
      u.me.desc == some collDesc && (u.collReason 0 collDesc).isNone) = true := by decide +kernel
/-- Parts of a collective of the cores named, all joined, none ended. -/
def joined (cores : List Nat) (desc : BitVec 512) (sent : List (Nat × List Byte)) : Bool :=
  let s := { regs [] with
    launches := [(0, { launch with groups := [(0, cores)] })], cores := [(0, core (ctx [])), (1, core (ctx []))]
    collectives := [part desc 0 sent [] none, part desc 1 sent [] none] }
  let r := part desc 0 sent [] none
  s.collOrder r == cores.map (fun c => part desc c sent [] none) && s.collJoined r && !r.finished && !r.ended &&
    Memory.wf s.mem && s.tileReads.isEmpty && s.poison.isEmpty && s.owners.isEmpty
theorem test_met_collective_chunks : joined [1, 0] collDesc [] = true ∧ joined [0] collDesc [] = true ∧ joined [1, 0] switchDesc [] = true ∧
    joined [0] switchDesc [(2, [])] = true ∧ (collReq collDesc).redid = 0 ∧ (collReq switchDesc).redid ≠ 0 ∧
    (reduceBytes 0 fINT32 64 [List.replicate 64 1, List.replicate 64 2]).length = 64 := by decide +kernel

/-- A request of core 0's context 0 to device 5 over link 2. -/
def remote (op : RemoteOp) (slot : Option Nat) : RemoteReq := ⟨0, 0, 0, 5, 1, 0x40, 2, op, slot, 77, 0, false, 0⟩
/-- The world with requests under way and link 2 up after some failures. -/
def linked (t : Ctx) (n : Nat) : State :=
  { world t with remotes := [remote (.store [1, 2] none) none, remote (.amo 1 true 3 4) (some 3)], links := [(2, ⟨true, n⟩)] }
theorem test_met_remote_updates : passing ((regs []).chkAccess 0 (ctx []).hb 6 0x40 8 ⟨true, [6], 8, false⟩) (fun h =>
      !(regs []).remoteStores 0 0 (hRdev h)) = true ∧ (regs []).me.freeSlot = some 0 ∧ (regs []).me.versionPending = false ∧
    (regs []).mayWrite 0 0 = true ∧ field (0x6000000000000040 : Word) 48 12 = 0 ∧ field (0x6001000000000040 : Word) 48 12 ≠ 0 := by decide
theorem test_met_remote_packets :
    let s := { regs [] with launches := [(0, { launch with window := some (0x3000, 0x100) })] }
    s.windowPlace 0 0x100 1 true = none ∧ (s.windowPlace 0 0xF8 8 true) = some (0, [⟨0x30F8, 8, false⟩]) ∧
    s.owned [⟨0x30F8, 8, false⟩] = false ∧ (s.launch 0).map (·.state) = some .running ∧ Memory.wf s.mem = true ∧ s.log = none ∧
    s.quads = [] ∧ s.releases = [] ∧ s.syncObjs = [] := by decide
theorem test_met_links : (linked tasked 7).remotes[0]? = some (remote (.store [1, 2] none) none) ∧ (remote (.store [1, 2] none) none).slot = none ∧
    tasked.cstate = .running ∧ tasked.task.map (·.task.taskId) = some 77 ∧ tasked.async.extError = none ∧
    Ctx.reset.cstate ≠ .running ∧ (linked tasked 7).links.find 2 = some ⟨true, 7⟩ ∧ (7 + 1 ≥ 8 ∧ 6 + 1 < 8 ∧ 2 < 36) := by decide
theorem test_met_link_reductions :
    let r : Reduction := ⟨0, 0, 0, 2 ^ 61 + 1, redReq, (ctx []).hb, [], none, none, 0, 2⟩
    r ∈ ({ linked tasked 7 with reductions := [r] } : State).reductions ∧ r.link = 2 ∧ r.settled = none := by decide

/-- A log of four places whose slice 5 has an open entry. -/
def logging (written : Byte) : State :=
  { withMem (regs []) [(0x40000, written)] with log := some ⟨0x30000, 4, 0x40000, [(5, (3, 2, 0x12345, 4096))], []⟩ }
theorem test_met_log : Memory.wf (logging 3).mem = true ∧ (logging 3).logOwned = false ∧ (logging 4).logOwned = false ∧ ((logging 3).log.bind fun g => g.due 5) = some (3, 2, 0x12345, 4096) ∧
    (let g : LogRing := ⟨0x30000, 4, 0x40000, [], [(5, (3, 2, 0x12345, 1))]⟩
     g.due 5 = some (3, 2, 0x12345, 1)) ∧
    (let z (n : Byte) := (logging n).mergeSpans [⟨0x40000, 16, false⟩]
     ((z 3).memWord 0x40000).toNat % 2 ^ 63 - ((z 3).memWord 0x40008).toNat % 2 ^ 63 ≠ 4 ∧
     ((z 4).memWord 0x40000).toNat % 2 ^ 63 - ((z 4).memWord 0x40008).toNat % 2 ^ 63 = 4) ∧
    physKey 0 (0x30000 + 16 * 3) + 16 ≤ 0x40000 ∧ physKey 0 0x40010 ≥ 0x40000 + 8 := by decide +kernel

/-- A fill for g4 under tag 3. -/
def filling (f : FillSlot) (st : RegState) : State :=
  { world { ctx [] with fills := [(3, f)], gs := (Vector.replicate 32 .full).set 4 st } with
    remotes := [remote (.amo 1 true 3 4) (some 3)] }
theorem test_met_fills : (filling ⟨4, .load, some 5, false, false, false⟩ (.empty 3)).me.fills.find 3 = some ⟨4, .load, some 5, false, false, false⟩ ∧
    (filling ⟨4, .held 0 0 5 [], none, false, false, false⟩ (.empty 3)).me.fills.find 3 = some ⟨4, .held 0 0 5 [], none, false, false, false⟩ ∧
    (filling ⟨4, .load, some 5, false, false, false⟩ (.empty 3)).me.rst 4 = .empty 3 ∧ (regs []).me.rst 4 ≠ .empty 3 ∧
    (filling ⟨4, .remote, none, false, false, false⟩ (.empty 3)).remotes.find? (fun q => q.core == 0 && q.ctx == 0 && q.slot == some 3) =
      some (remote (.amo 1 true 3 4) (some 3)) ∧ (regs []).me.async.extError = none := by decide
/-- A read through the REMOTE handle held back behind others. -/
def heldRemote (after : List Nat) : FillSlot := ⟨4, .held (handle 0 0x1000 6 (5 * 2 ^ 128)) 8 (2 ^ 60) after, none, false, false, false⟩
theorem test_met_fills_remote : (∀ after ∈ [[], [2]], (filling (heldRemote after) (.empty 3)).me.fills.find 3 = some (heldRemote after)) ∧
    (heldRemote []).value = none ∧ hSpace (handle 0 0x1000 6 (5 * 2 ^ 128)) = 6 ∧
    (filling (heldRemote []) (.empty 3)).fullOpen 0 0 = false ∧
    (onCore (regs []) fun k => { k with stores := [{ pendingStore with full := true }] }).fullOpen 0 0 = true := by decide
/-- Another ready context beside the one in the pipe. -/
def pair (t : Ctx) (slice : Nat) : State := onCore (world t) fun k => { k with ctxs := k.ctxs.set 1 (ctx []), slice := slice }
theorem test_met_pipe_waits : ((pair (ctx []) 0).core 0).pipe = some 0 ∧ ({ ctx [] with wait := some .vector } : Ctx).wait = some .vector ∧
    (regs []).owners.find 5 = none ∧ Wait.vector ≠ .fillSlot ∧ Wait.vector ≠ .lost ∧ ((pair (ctx []) 0).core 0).otherReady 0 = true := by decide
theorem test_met_pipe_events :
    let t (a : Async) (status : Word) : Ctx := { ctx [] with async := a, status := status }
    let e := Async.empty
    (t { e with extError := some 1 } 0).takeable = true ∧ (t { e with doldrums := some 1 } 0).takeable = true ∧
    (t { e with watch := some 1 } 0).takeable = true ∧ (t { e with gust := some 1 } 0).takeable = false ∧
    (t { e with gust := some 1 } 0x20).takeable = true ∧ (t { e with gust := some 1 } 0x20).ie = true ∧ (t { e with step := some 1 } 0).takeable = true ∧
    (t { e with step := some 1 } 0).ie = false ∧ (ctx []).token = none ∧ (ctx []).takeable = false := by decide
theorem test_met_pipe_leaves :
    let t : Ctx := { ctx [] with
      gs := (Vector.replicate 32 .full).set 4 (.empty 3), wait := some (.source [4]), fills := [(3, ⟨4, .load, some 3, false, true, false⟩)]
      status := 4 }
    t.deepSlot = some 3 ∧ t.swen = true ∧
    (t.fills.find 3).isSome = true ∧ ((pair (ctx []) 4096).core 0).slice ≥ 4096 ∧ (ctx []).wait = none ∧ (ctx []).rep = none ∧
    ((pair (ctx []) 4152).core 0).slice ≥ 4152 := by decide

theorem test_met_stores_performed : storing.storeReady 0 0 = true ∧ (storing.core 0).stores[0]? = some pendingStore ∧
    (storing.ctx 0 (Fin.ofNat 8 0)).cstate ≠ .draining ∧ Memory.wf storing.mem = true ∧ pendingStore.dest = .home 1 false ∧
    pendingStore.op = .write ∧ pendingStore.wide = false := by decide
theorem test_met_cached_stores :
    let r : StoreRec := { pendingStore with addr := 0x303C, dest := .cached 0 false 0, bytes := [1, 2, 3, 4] }
    let s : State := { onCore (regs []) (fun k => { k with stores := [r] }) with quads := [(0, { Quad.reset with cache := [(0xC0, clean)] })] }
    s.storeReady 0 0 = true ∧ s.cacheLine 0 (0x303C / 64) = some clean ∧ clean.doomed = false ∧ r.wide = false ∧ 0x303C % 64 + 4 ≤ 64 ∧ r.tag = none := by decide +kernel
theorem test_met_version_stores :
    let r : StoreRec := { pendingStore with addr := 0x20040, dest := .home 3 false, op := .stv, bytes := leBytes 8 3 }
    (onCore (regs []) fun k => { k with stores := [r] }).storeReady 0 0 = true ∧ (regs []).syncObj 0x20040 = none := by decide +kernel
theorem test_met_merges :
    let s := { regs [] with quads := [(0, { Quad.reset with cache := [(0xC0, { clean with dirty := 0xF, writable := true })] })] }
    s.cacheLine 0 0xC0 = some { clean with dirty := 0xF, writable := true } ∧ s.log = none ∧ Memory.wf s.mem = true ∧
    (∀ p ∈ s.quads, p.1 ≠ 0 → p.2.cache.find 0xC0 = none) := by decide +kernel

theorem test_met_clocks : ({ ctx [] with sleep := some 15999 } : Ctx).sleep = some 15999 ∧
    (world { ctx [] with sleep := some 15999 }).canReach 15999 = true ∧ (world { ctx [] with sleep := some 16000 }).canReach 16000 = false ∧
    (regs []).canReach ((0 / 240 + 1) * 240) = true ∧
    ({ regs [] with mesh := 15999 } : State).canReach ((15999 / 240 + 1) * 240) = false ∧
    ({ tasked with budget := 0 } : Ctx).budget = 0 ∧ tasked.cstate = .running ∧ 0 < tasked.enquota.toInt ∧ tasked.mode ≠ 1 ∧
    ({ tasked with status := 0x40 } : Ctx).mode = 1 ∧ tasked.task.isSome = true := by decide
/-- Every core of the launch asleep, core 0 at a barrier. -/
def asleep : State :=
  let t : Ctx := { ctx [] with wait := some (.sync 0x20040 (.phase 5)) }
  let idle : Core := { core Ctx.reset with pipe := none }
  { world t with cores := [(0, core t), (1, idle), (4, idle)], syncObjs := barrier.syncObjs }
theorem test_met_doldrums : asleep.inDoldrums 0 launch = true ∧ (regs []).inDoldrums 0 launch = false ∧
    asleep.waiters launch = [(0, 0)] ∧ (asleep.ctx 0 0).mode ≠ 1 ∧ (asleep.ctx 0 0).async.doldrums = none := by decide +kernel
theorem test_met_supply : Cluster.reset.gust = none ∧ (lease 0 0).pending = false ∧ (lease 0 0).due = 0 ∧
    ({ core (ctx []) with sag := true } : Core).sag = true ∧ (regs []).supplyLost = false ∧ (regs []).quads = [] ∧ (regs []).log = none ∧
    (regs []).launches = [(0, launch)] ∧ (regs []).markerHeld = false ∧
    (let l : Launch := { launch with ckpt := 0x6000 }
     ({ regs [] with launches := [(0, l)], owners := [(0x6000 / 64, [.copy 0 1])] } : State).markerHeld = true ∧
     ({ regs [] with launches := [(0, l)] } : State).markerHeld = false) ∧ ({ launch with ckpt := 0x6000 } : Launch).ckpt ≠ 0 ∧ clusterOf 0 = 0 := by decide

/-- A task record of class 5 for a queue, with a payload, a hint and a cost in energy. -/
def record (queue plen hint energy : Nat) : BitVec 256 :=
  BitVec.ofNat 256 (9 + 5 * 2 ^ 128 + plen * 2 ^ 181 + queue * 2 ^ 186 + hint * 2 ^ 192 + energy * 2 ^ 216)
/-- A task that arrived with it. -/
def arrived (r : BitVec 256) : Task := ⟨r, 77, 5, 0x60, none⟩
/-- A handler for class 5. -/
def handlers : NatMap (BitVec 512) := [(5, BitVec.ofNat 512 (0x123 * 2 + 2 ^ 19))]
/-- Core 0 with a context, its queue 1 and its deque; core 1 idle with a deque, both in the launch. -/
def dispatching (t : Ctx) (q : List QEntry) (own other : List DequeRec) (k : Cluster) : State :=
  let idle : Core := { core Ctx.reset with pipe := none }
  { world t with
    launches := [(0, { launch with handlers := handlers })]
    cores := [(0, { core t with
        queues := (Vector.replicate 8 Queue.empty).set 1 ⟨q, 0, 0, [], 0⟩, deque := { Deque.empty with hw := own }, pipe := none }),
      (1, { idle with deque := { Deque.empty with hw := other } }), (4, idle)]
    clusters := [(0, k)] }
/-- A message in queue 1 not yet dispatched. -/
def message : QEntry := ⟨3, arrived (record 1 2 0 20), false⟩
def dequeRec : DequeRec := ⟨record 0 0 0 0, 78, none⟩
theorem test_met_dispatch :
    let s := dispatching (ctx []) [message] [dequeRec] [] Cluster.reset
    (s.core 0).dormant = some 1 ∧ s.mayDispatch 0 = true ∧ (s.core 0).dispatches % 8 ≠ 7 ∧ s.taskStops = [] ∧
    (∀ p : Fin 8, p < 1 → (s.core 0).queues[p].waiting = none) ∧ (s.core 0).hold.getLsbD 1 = false ∧
    (s.core 0).queues[(1 : Fin 8)].waiting = some message ∧
    (let u := dispatching (ctx []) [] [dequeRec] [] Cluster.reset
     (∀ q : Fin 8, (u.core 0).queues[q].waiting = none) ∧ (u.core 0).deque.hw = dequeRec :: [] ∧ (u.core 0).deque.spillCount = 0 ∧
       u.dequeHeld 0 = false ∧ field dequeRec.record 181 5 = 0) := by decide +kernel
theorem test_met_dispatch_eighth :
    let s := (dispatching (ctx []) [message] [] [] Cluster.reset).updCore 0 fun k => { k with dispatches := 7, lastQueue := 7 }
    (s.core 0).dispatches % 8 = 7 ∧ (s.core 0).lastQueue + 1 + 1 = (1 : Fin 8) ∧
    (∀ j : Fin 8, j < 1 → (s.core 0).queues[(s.core 0).lastQueue + 1 + j].waiting = none) ∧
    (s.core 0).queues[(1 : Fin 8)].waiting = some message ∧ s.mayDispatch 0 = true ∧ (s.core 0).dormant = some 1 := by decide +kernel
theorem test_met_dispatch_stolen :
    let s := (dispatching (ctx []) [] [] [] Cluster.reset).updCore 0 fun k => { k with stolen := some dequeRec }
    (s.core 0).dormant = some 1 ∧ s.mayDispatch 0 = true ∧ (∀ q : Fin 8, (s.core 0).queues[q].waiting = none) ∧
    (s.core 0).deque = Deque.empty ∧ (s.core 0).stolen = some dequeRec ∧ field dequeRec.record 181 5 = 0 ∧ s.taskStops = [] := by decide +kernel
theorem test_met_admits : (dispatching (ctx []) [message] [dequeRec] [] Cluster.reset).Admits 0 message.task := by
  unfold State.Admits; decide +kernel
theorem test_met_dispatch_refused :
    let m : QEntry := ⟨3, arrived (record 0 0 0 20), false⟩
    let k : Cluster := { Cluster.reset with remE := 10 }
    let s := { regs [] with
      cores := [(0, { core (ctx []) with hold := 0xFE, queues := (Vector.replicate 8 Queue.empty).set 0 ⟨[m], 0, 0, [], 0⟩ })]
      clusters := [(0, k)] }
    (s.core 0).dormant = some 1 ∧ s.mayDispatch 0 = true ∧ (s.core 0).hold = 0xFE ∧ (s.core 0).queues[(0 : Fin 8)].waiting = some m ∧
    (s.cluster (clusterOf 0)).starved = [] ∧ field m.task.record 216 16 > (s.cluster (clusterOf 0)).remE ∧
    (s.core 0).deque = Deque.empty ∧ (s.core 0).stolen = none := by decide +kernel

/-- A finished context with one thing left to send. -/
def ended (d : Drain) : Ctx := { ctx [] with cstate := .draining, drain := [d] }
def offer (refused : Bool) : Drain := ⟨.msg 0, arrived (record 1 2 0 0), some 0, refused⟩
theorem test_met_messages :
    let s := dispatching (ended (offer false)) [message] [] [] Cluster.reset
    s.launchOf 0 = some (0, { launch with handlers := handlers }) ∧ s.storesOpen 0 0 = false ∧
    s.queueHeld 0 1 = false ∧ s.queueHeld 9 1 = false ∧ (s.ctx 0 0).drain = [offer false] ∧
    (offer true).kind = .msg 0 ∧ (s.ctx 0 0).cstate = .draining ∧ Memory.wf s.mem = true ∧ (s.core 0).launch = some 0 ∧
    (s.core 0).started = true ∧ (s.core 0).queues[(1 : Fin 8)].freeEntry = some 0 ∧ field (record 1 2 0 0) 181 5 ≤ 16 ∧
    (s.core 9).launch ≠ some 0 ∧ ((s.core 9).queues[(1 : Fin 8)].hw.length + 255 < 256) := by decide +kernel

/-- A hinted task leaving core 0. -/
def hinted (hint : Nat) : Drain := ⟨.hint, arrived (record 1 0 hint 0), none, false⟩
theorem test_met_hints :
    let s := dispatching (ended (hinted 0)) [] [] [] Cluster.reset
    let held := s.setCore 0 { s.core 0 with hold := 0xFF, pipe := some 0 }
    (walkCores 0 (hinted 0).task.record).head? = some 0 ∧ s.mayClaim 0 0 1 = true ∧ s.taskStops = [] ∧
    (s.core 0).queues[(Fin.ofNat 8 1 : Fin 8)].freeEntry = some 0 ∧ (s.core 0).dormant = some 1 ∧ held.mayClaim 0 0 1 = false := by
  decide +kernel
theorem test_met_hints_unclaimed :
    let s := dispatching (ended (hinted 7)) [] [dequeRec] [] Cluster.reset
    let l : Launch := { launch with handlers := handlers }
    let held : State := { s with cores := s.cores.map fun (c, k) => (c, { k with hold := 0xFF }) }
    (∀ b ∈ walkCores 0 (hinted 0).task.record, held.mayClaim 0 b 1 = false) ∧ (held.hintCore 0 l (hinted 0).task.record).isSome = true ∧
    (held.core 0).deque.spillCount = 0 ∧ (held.core 0).deque.hw.length < 64 ∧ (held.core 0).deque.reserved = 0 ∧
    ({ held with cores := [] } : State).hintCore 0 l (hinted 0).task.record = none := by decide +kernel

/-- A SPAWN's request for a context of core 0, and the context it got. -/
def spawning : State := world { tasked with
  fills := [(3, ⟨4, .spawn, none, false, false, false⟩)], send := [⟨.child 0 3 none, arrived (record 0 0 0 0), none⟩] }
def reserved : Ctx := { ctx [] with cstate := .reserved, reservation := some ⟨0, false, some (arrived (record 0 0 0 0))⟩ }
theorem test_met_children : spawning.me.cstate = .running ∧
    spawning.me.fills.find 3 = some ⟨4, .spawn, none, false, false, false⟩ ∧ spawning.me.send.length = 1 ∧ spawning.me.task.isSome = true ∧
    (spawning.core 0).started = true ∧ (spawning.core 0).lowestDormant = some 1 ∧ Core.reset.started = false ∧
    ({ core (ctx []) with ctxs := Vector.replicate 8 (ctx []) } : Core).lowestDormant = none ∧
    reserved.cstate = .reserved ∧ reserved.barred = false ∧ (world reserved).paused 0 = false ∧ (world reserved).supplyLost = false := by
  decide +kernel

theorem test_met_steals :
    let s := dispatching Ctx.reset [] [] [dequeRec] Cluster.reset
    let probe (v : Nat) (n : Nat) := s.setCore 0 { s.core 0 with steal := .probing v, stealMiss := n }
    (s.core 0).steal = .idle ∧ (s.core 0).stolen = none ∧ (s.core 0).dormant.isSome = true ∧ s.mayDispatch 0 = true ∧
    s.hasCandidate 0 = false ∧ (s.victims 0)[(s.core 0).stealPtr % (s.victims 0).length]? = some 1 ∧
    ((probe 1 0).core 0).steal = .probing 1 ∧ ((probe 1 0).core 1).deque.hw = [] ++ [dequeRec] ∧
    ((probe 1 0).core 1).started = true ∧ ({ core (ctx []) with ctxs := Vector.replicate 8 (ctx []) } : Core).dormant = none ∧ 0 ∈ launch.group (field dequeRec.record 204 8) ∧ ((probe 9 0).core 9).started = false ∧
    ((probe 1 0).core 1).released = false ∧ s.supplyLost = false ∧ s.dequeHeld 0 = false ∧ s.dequeHeld 1 = false ∧ (s.core 0).deque.hw.length < 64 ∧
    (let dear : DequeRec := ⟨record 0 0 0 20, 78, none⟩
     field dear.task.record 216 16 > ({ Cluster.reset with remE := 10 } : Cluster).remE ∧ Cluster.reset.starved = []) ∧
    0 + 1 < (s.victims 0).length ∧ (s.victims 0).length = 2 := by decide +kernel

/-- Queue 1 of core 0 has three messages in its ring at 0x3000. -/
def spilled : State :=
  { world (ctx []) with
    cores := [(0, { core (ctx []) with queues := (Vector.replicate 8 Queue.empty).set 1 ⟨[message], 3, 3, [none, none, none], 4⟩ })]
    launches := [(0, { launch with qspill := 0x3000, startWord := 0x105, toStart := [0, 1] })] }
theorem test_met_queues :
    let l : Launch := { launch with qspill := 0x3000, startWord := 0x105, toStart := [0, 1] }
    spilled.launchOf 0 = some (0, l) ∧ Memory.wf spilled.mem = true ∧ (spilled.core 0).queues[(1 : Fin 8)].spillCount ≠ 0 ∧
    (spilled.core 0).queues[(1 : Fin 8)].freeEntry = some 0 ∧
    (spilled.readVirtual l (0x3000 + 1 * (240 * 256) + 3 * 256) 256).map (·.length) = some 256 ∧ 1 ∈ l.toStart ∧ l.resuming = false ∧
    (spilled.core 1).queues[(1 : Fin 8)].spillCount = 0 ∧ (spilled.core 1).queues[(1 : Fin 8)].freeEntry = some 0 ∧
    (l.group 0)[1]? = some 1 ∧ (l.group 0)[0]? ≠ some 1 := by decide +kernel
theorem test_met_completion :
    let idle := regs [] |>.setCore 0 (core Ctx.reset) |>.setCore 1 (core Ctx.reset) |>.setCore 4 (core Ctx.reset)
    idle.launch 0 = some launch ∧ idle.quiescent launch = true ∧ idle.packets 0 launch = false ∧ idle.recsSettled launch = true ∧
    (regs []).quiescent launch = false := by decide +kernel

/-- Words in the order of memory. -/
def words64 (l : List Nat) : List Byte := l.flatMap (leBytes 8)
/-- A chain with its header at 0x5000 and its four entries at 0x4000. -/
def chain (current : Option Nat) (status : Option Nat) (progress : Nat) : Chain :=
  ⟨BitVec.ofNat 128 (0x5000 + 2 ^ 64), false, 0x5000, 0x4000, 4, 0x1000, current, 2, 1, progress, status, false, false⟩
/-- Bytes set from an address of main memory. -/
def bytesAt (a : Nat) (l : List Byte) (s : State) : State := { s with mem := Memory.store s.mem a l }
/-- Chain 0 with entry 1. -/
def chained (k : Chain) (entry : List Byte) : State := bytesAt 0x4040 entry { regs [] with chains := [(0, k)] }

theorem test_met_host_writes :
    let s := { regs [] with launches := [] }
    Memory.wf s.mem = true ∧ s.hostWaits 0x3040 2 = false ∧ s.log = none ∧ 0x3040 + 2 ≤ 0xC000000000 ∧
    (let t := s.setCore 0 Core.reset
     t.hostWaits 0xC000000040 8 = false ∧ t.hostWaits 0xC000000000 8 = true) ∧
    (s.setCore 0 Core.reset).dieInLaunch 0 = false ∧ (regs []).dieInLaunch 0 = true := by decide +kernel
theorem test_met_tail_polls :
    let s (tail : Nat) : State := bytesAt 0x5010 (words64 [tail]) { regs [] with chains := [(0, chain none none 0)] }
    let left (tail : Nat) : Nat := ((s tail).memWord (physKey 0 0x5010) - BitVec.ofNat 64 1).toNat
    (s 1).headerOwned (chain none none 0) = false ∧ (s 1).entryOwned (chain none none 0) 2 = false ∧
    ({ s 1 with owners := [(0x5000 / 64, [.copy 0 1])] } : State).headerOwned (chain none none 0) = true ∧
    (chain none none 0).enabled = true ∧ (chain none none 0).current = none ∧ (s 1).quads = [] ∧ (s 1).releases = [] ∧ (s 1).syncObjs = [] ∧
    Memory.wf (s 5).mem = true ∧ left 6 > 4 ∧ left 1 = 0 ∧ (0 < left 5 ∧ left 5 ≤ 4) ∧ (s 1).breakpoints = [] ∧ (s 1).chainHalt.find 0 = none ∧
    NatMap.find [(0, 5)] 0 = some 5 := by decide +kernel
theorem test_met_tail_polls_reload :
    let s := bytesAt 0x5000 (words64 [0x4000, 4, 1, 2, 1, 0x1000, 0]) { regs [] with chains := [(0, { chain none none 0 with reload := true })] }
    (s.chain 0).reload = true ∧ s.headerOwned { s.chain 0 with hdr := (s.chain 0).header } = false ∧ (s.chain 0).enabled = true ∧ field (s.chain 0).reg 0 64 / 64 * 64 = 0x5000 ∧
    Memory.nat s.mem (physKey 0 0x5010) 8 = Memory.nat s.mem (physKey 0 0x5020) 8 ∧ Memory.wf s.mem = true := by decide +kernel
theorem test_met_entries_complete :
    let s (ty : Byte) := chained (chain (some 1) (some 7) 0) [ty]
    ((s 1).chain 0).current = some 1 ∧ ((s 1).chain 0).status = some 7 ∧
    ((s 1).chain 0).entryKey 1 + 8 ≤ 0x5000 + 0x20 ∧ (s 1).headerOwned ((s 1).chain 0) = false ∧
    (s 1).entryOwned ((s 1).chain 0) 1 = false ∧ (chain (some 1) none 0).status = none ∧
    bytesNat ((s 13).chainEntry 0 1) 0 1 > 12 ∧ bytesNat ((s 0).chainEntry 0 1) 0 1 = 0 ∧ Memory.wf (s 13).mem = true := by decide +kernel

/-- The entry in progress of chain 0, with its TYPE and words. -/
def entryIn (ty : Nat) (l : List Nat) (progress : Nat) : State := chained (chain (some 1) none progress) (words64 (ty :: l))
/-- Whether chain 0 has an entry of a TYPE in progress that has no field beyond its words set. -/
def inProgress (s : State) (ty n : Nat) : Bool :=
  (s.chain 0).current == some 1 && (s.chain 0).status == none && bytesNat (s.chainEntry 0 1) 0 1 == ty && entryClean (s.chainEntry 0 1) (words n)
theorem test_met_entry_in_progress : (entryIn 1 [0x3000] 0).EntryInProgress 0 1 ((entryIn 1 [0x3000] 0).chainEntry 0 1) :=
  ⟨1, by decide +kernel⟩
theorem test_met_chain_control : inProgress (entryIn 1 [0x3000] 0) 1 1 = true ∧ inProgress (entryIn 1 [0x3000, 1] 0) 1 1 = false ∧
    inProgress (entryIn 4 [0x3000, 5] 0) 4 2 = true ∧ inProgress (entryIn 5 [0x3000, 5] 0) 5 2 = true ∧
    inProgress (entryIn 9 [0, 0x30000, 0x100] 0) 9 3 = true ∧ inProgress (entryIn 12 [0x6000, 125, 4, 0x9000] 0) 12 4 = true ∧
    (∀ w : Fin 2, passing ((entryIn 5 [0x3000, 5] 0).placeVirtual 0x1000 0x3000 8 (w == 1)) (fun l => l == [⟨0x3000, 8, false⟩]) = true) ∧
    (entryIn 5 [0x3000, 5] 0).owned [⟨0x3000, 8, false⟩] = false ∧ (entryIn 5 [0x3000, 5] 0).poison = [] ∧
    ((entryIn 5 [0x3000, 5] 0).memWord 0x3000).toNat < 5 ∧ (regs []).obs = none ∧ Memory.wf (entryIn 5 [0x3000, 5] 0).mem = true := by
  decide +kernel
theorem test_met_chain_copies :
    let s := entryIn 3 [0x8000, 0x3000, 0x1800] 0x1000
    let w := entryIn 3 [0, 0x3000, 0x1800, 1] 0
    bytesNat (s.chainEntry 0 1) 0 1 = 3 ∧ copyDest (s.chainEntry 0 1) = some (.virtual 0x8000) ∧ (s.chain 0).progress < 0x1800 ∧
    passing (s.placeVirtual 0x1000 0x4000 0x800 false) (fun l => l == [⟨0x4000, 0x800, false⟩]) = true ∧
    passing (s.placeVirtual 0x1000 0x9000 0x800 true) (fun l => l == [⟨0x9000, 0x800, false⟩]) = true ∧
    s.heldSpans (.chain 0 1) [⟨0x4000, 0x800, false⟩] = false ∧ s.heldSpans (.chain 0 1) [⟨0x9000, 0x800, false⟩] = false ∧
    ({ s with owners := [(0x4000 / 64, [.copy 0 1])] } : State).heldSpans (.chain 0 1) [⟨0x4000, 0x800, false⟩] = true ∧
    ({ s with owners := [(0x9000 / 64, [.chain 0 1])] } : State).heldSpans (.chain 0 1) [⟨0x9000, 0x800, false⟩] = false ∧
    copyDest (w.chainEntry 0 1) = some (.weight 0 0) ∧ w.dieInLaunch 0 = true ∧ w.dieInLaunch 1 = false ∧
    (let w := entryIn 3 [0, 0x3000, 0x1800, 1 + 2 ^ 8] 0
     w.weightSources 0x1000 0x3000 2 0x1800 == ([[⟨0x3000, 0x1000, false⟩], [⟨0x4000, 0x800, false⟩]], true)) = true ∧
    w.heldSpans (.chain 0 1) [⟨0x3000, 0x1000, false⟩] = false ∧
    w.heldSpans (.chain 0 1) [⟨weightKey 1 0x400, 0x1800, false⟩] = false ∧ w.refreshAt [⟨weightKey 1 0x400, 0x1800, false⟩] = false ∧
    w.refreshAt [⟨weightKey 1 0, 0x1800, false⟩] = true ∧
    copyDest ((entryIn 3 [0, 0x3000, 0x1800, 2] 0).chainEntry 0 1) = none ∧ (entryIn 3 [0x8000, 0x3000, 0x1800] 0x1800).poison = [] := by
  decide +kernel
theorem test_met_chain_flush_log : inProgress (entryIn 11 [0x3000, 0x80, 0] 0) 11 3 = true ∧ 0x3000 + 0x80 ≤ targetCapacity 0 ∧
    inProgress (entryIn 10 [0x7000, 256, 0x9000] 0) 10 3 = true ∧ isPow2 256 = true ∧
    (entryIn 10 [0x7000, 256, 0x9000] 0).owned [⟨physKey 0 0x9000, 16, false⟩] = false ∧ (entryIn 11 [0x3000, 0x80, 0] 0).owners = [] := by
  decide +kernel

/-- A LAUNCH or RESUME entry whose descriptor at 0x6000 gives launch 3 cores 0 and 1. -/
def launching (ty : Nat) (old : NatMap Launch) : State :=
  { bytesAt 0x6000 (words64 [3, 0x7000, 8, 0x40000, 0x80000, 0xC0000, 0, 0]) (bytesAt 0xC0000 [3] (entryIn ty [0x6000] 0)) with
    cores := [], launches := old }
/-- The launch as suspended. -/
def suspended : Launch :=
  { launch with
    state := .suspended, groups := [(0, [0, 1])], save := 0x90000
    saved := [(0, ⟨List.replicate 8 Queue.empty, Deque.empty, 6, 2, 1, 0, some (0, [5])⟩), (1, ⟨List.replicate 8 Queue.empty, Deque.empty, 7, 3, 1, 0, none⟩)] }
theorem test_met_launches :
    let s := launching 2 []
    bytesNat (s.chainEntry 0 1) 0 1 = 2 ∧ passing (s.loadLaunch 0 (s.chainEntry 0 1)) (fun x => x.id == 3 && x.launch.group 0 == [0, 1]) = true ∧
    s.launch 3 = none ∧ (s.core 0).launch = none ∧ ((launching 2 [(3, launch)]).launch 3).isSome = true ∧
    passing ((entryIn 2 [0x3001] 0).loadLaunch 0 ((entryIn 2 [0x3001] 0).chainEntry 0 1)) (fun _ => true) = false := by decide +kernel
/-- Why a launch is not loaded: its STATUS, or none where it waits for an engine's line. -/
def notLoaded (s : State) : List (Option Nat) := match s.loadLaunch 0 (s.chainEntry 0 1) with
  | .ok _ => []
  | .error e => [e]
theorem test_met_launches_refused : (∀ ty ∈ [2, 7], ((notLoaded (entryIn ty [0x3001] 0)).any fun e => e.isSome) = true) ∧
    ∀ ty ∈ [2, 7], notLoaded { launching ty [(3, suspended)] with owners := [(0x6000 / 64, [.copy 0 1])] } = [none] := by
  decide +kernel
theorem test_met_resumes :
    let s := launching 7 [(3, suspended)]
    bytesNat (s.chainEntry 0 1) 0 1 = 7 ∧ passing (s.loadLaunch 0 (s.chainEntry 0 1)) (fun x =>
      !s.saveHeld x.launch (suspended.group 0)) = true ∧ s.launch 3 = some suspended ∧ suspended.state = .suspended ∧ launch.state ≠ .suspended ∧
    passing (s.loadLaunch 0 (s.chainEntry 0 1)) (fun x => x.id == 3 && x.launch.group 0 == suspended.group 0 &&
      (suspended.group 0).all fun c => (s.core c).launch == none && ((suspended.saved.find c).bind fun k => s.restoreCore
        { x.launch with
          chain := suspended.chain, recs := suspended.recs.mapVals fun _ r => r.emptied, window := suspended.window, resuming := true
          saved := suspended.saved } c k).isSome) = true := by
  decide +kernel
/-- Cores 0 and 1 of a launch being suspended. -/
def suspending (released : Bool) (l : Launch) : State :=
  let k : Core := { core Ctx.reset with pipe := none, preempt := true, seen := true, released := released }
  { entryIn 6 [0] 1 with cores := [(0, k), (1, k)], launches := [(0, l)] }
theorem test_met_suspensions :
    let l : Launch := { suspended with state := .suspending }
    let r : Launch := { suspended with state := .running, resuming := true, toStart := [1] }
    inProgress (entryIn 6 [0] 0) 6 1 = true ∧ launch.state = .running ∧ launch.save = 0 ∧ l.save ≠ 0 ∧
    (∀ c ∈ l.group 0, ((suspending true l).core c).released = true) ∧ (suspending true l).packets 0 l = false ∧
    (suspending false l).launchOf 0 = some (0, l) ∧ (suspending false l).maySave 0 l = true ∧
    ((suspending false l).writePieces 0 l (l.save.toNat + 0xA000 * (0 % 2 ^ 13)) ((suspending false l).saveImage 0)).isSome = true ∧
    (suspending true r).launchOf 1 = some (0, r) ∧ r.resuming = true ∧ 1 ∈ r.toStart ∧ ((suspending false l).core 0).stolen = none ∧
    (∃ p ∈ r.saved, p.2.rel = some (0, [5]) ∧ 0 ≠ quadOf 4) := by decide +kernel
theorem test_met_removals :
    let l : Launch := { launch with state := .removing, flood := [0, 1], removedBy := some 0 }
    let s : State := { regs [] with launches := [(0, l)] }
    inProgress (entryIn 8 [0] 0) 8 1 = true ∧ launch.state ≠ .removing ∧ s.launch 0 = some l ∧ 0 ∈ l.flood ∧ (s.core 0).launch = some 0 ∧
    launch.flood = [] ∧ ({ l with swept := true } : Launch).swept = true ∧ s.recsSettled l = true ∧ s.packets 0 l = false ∧ l.removedBy = some 0 := by decide +kernel

theorem test_met_control_intervals :
    let l : Launch := { launch with quota := 1000 }
    let s : State := { regs [] with launches := [(0, l)], clusters := [(0, { Cluster.reset with gust := some (lease 0 0) })] }
    (s.core 0).launch = some 0 ∧ s.launch 0 = some l ∧ l.quota ≠ 0 ∧ launch.quota = 0 ∧ (s.cluster 0).gust = some (lease 0 0) ∧
    s.launchOf 0 = some (0, l) ∧ (lease 0 2).due ≠ 0 ∧ (s.ctx 0 (Fin.ofNat 8 0)).cstate = .running ∧
    (s.ctx 0 (Fin.ofNat 8 1)).cstate ≠ .running ∧ ({ s with fwDue := true } : State).fwDue = true ∧ s.fwDue = false := by decide +kernel

theorem test_met_observation :
    let o : Observe := ⟨0x20000, 200, 4, 0x90000, 2, 100, 200⟩
    let k : Trigger := { (regs []).trigger with latchAt := some 15000, copying := true, records := [(3, 7)] }
    let s : State := { regs [] with obs := some o, trigger := k, ports := [(0x48, 7)] }
    let place := o.ring + 0xA1000 * ((o.frame + 1) % o.frames)
    s.frames = [] ∧ s.fillHeld place 0xA0940 = false ∧ s.fillHeld o.copy 0x101000 = false ∧
    ({ s with owners := [(place / 64, [.copy 0 1])] } : State).fillHeld place 0xA0940 = true ∧
    s.obs = some o ∧ o.interval ≠ 0 ∧ o.interval ≤ o.intervals ∧ s.mesh % 16000 = 0 ∧ s.obsNext = none ∧ s.ports = [(0x48, 7)] ∧ (0x40 ≤ 0x48 ∧ 0x48 + 8 ≤ 0xA0940) ∧ s.quads = [] ∧ Memory.wf s.mem = true ∧
    (regs []).trigger.latchAt = none ∧ k.latchAt = some 15000 ∧ s.canReach 15000 = true ∧ (s.ctx 0 0).cstate ≠ .dormant ∧
    (world tasked).me.task.isSome = true ∧ o.copy ≠ 0 ∧ k.copying = true ∧ k.records = [(3, 7)] := by decide +kernel

/-! ### Words written out from the encodings of the spec -/

/-- A 32-bit word and its instruction, each way. -/
abbrev Reads (w : BitVec 32) (i : Instr) : Prop := decode (.c32 w) = some i ∧ encode i = some (.c32 w)

theorem test_words_integer : Reads 0x81284100 (.add 5 1 0 2 0) ∧ Reads 0x82184104 (.cmp 3 1 0 2 0 4) ∧ Reads 0x82184110 (.sel 3 1 0 2 0) ∧
    Reads 0x83298380 (.div 5 6 0 7 0) ∧ Reads 0x84210FFF (.addi 4 4 0 0xFFF) ∧ Reads 0x88528038 (.slli 10 10 0 56) ∧
    Reads 0x8A180005 (.li 3 5) ∧ Reads 0x8B312345 (.lix 6 0x12345) ∧ Reads 0x8C380040 (.addpc 7 0x40) := by decide +kernel
theorem test_words_blocks : Reads 0x9452C600 (.blkmv 10 11 12) ∧ Reads 0x95200000 (.repn 4) ∧ Reads 0x9648000C (.crr 9 12) ∧
    Reads 0x96024030 (.cwr 4 0x30) ∧ Reads 0x97480000 (.mkempty 9) ∧ Reads 0x971A9000 (.rstate 3 9) ∧ Reads 0x98000000 .nop ∧
    Reads 0x9802002A (.trap 0x2A) ∧ Reads 0x98040007 (.brk 7) := by decide +kernel
theorem test_words_float : Reads 0xA0184100 (.fadd 3 1 0 2 0) ∧ Reads 0xA1404100 (.fma 8 1 0 2 0) ∧ Reads 0xA4314003 (.cvt 6 5 0 0 3) ∧
    Reads 0xA5314180 (.cvtd 6 5 0 3 0 0) := by decide +kernel
theorem test_words_cas : Reads 0xBC42AA45 (.cas 8 10 5 0 1 1) := by decide +kernel
theorem test_words_memory : Reads 0xB0390302 (.ld 7 4 0 3 2) ∧ Reads 0xB7388103 (.stb 7 2 0 1 3) ∧ Reads 0xB8424000 (.ldNc 8 9 0 0 0) ∧
    Reads 0xB9490201 (.ldA 9 4 0 2 1) ∧ Reads 0xBC29A04F (.amoadd 5 6 4 0 3 3) ∧ Reads 0xBE1021C8 (.ldv 2 0 4 7 2) ∧
    Reads 0xBF198150 (.wrec 3 6 5 4) := by decide +kernel
theorem test_words_tasks : Reads 0xC0000000 .done ∧ Reads 0xC14A8600 (.send 9 10 0 12 0) ∧ Reads 0xC3346A00 (.sendnz 3 4 6 5) ∧
    Reads 0xC4A28600 (.spawn 20 10 0 12 0) ∧ Reads 0xC6280003 (.qstat 5 3) := by decide +kernel
theorem test_words_vector : Reads 0xD0123000 (.vfadd 1 2 3 0) ∧ Reads 0xD212300A (.vicmp 1 2 3 0 2) ∧
    Reads 0xD5120213 (.vcvtd 1 2 1 0 3) ∧ Reads 0xD6120002 (.vexp2 1 2) := by decide +kernel
theorem test_words_array : Reads 0xE0000000 .xlease ∧ Reads 0xE0040002 (.xcfg 4) ∧ Reads 0xE0000004 .xwait ∧ Reads 0xE0490005 (.xstat 2 9) ∧
    Reads 0xE10428C0 (.xlda 4 5 3) ∧ Reads 0xE1062940 (.xldb 6 5 1) ∧ Reads 0xE1070400 (.xunf 7) ∧ Reads 0xE20003C0 (.xmma 0 3 3) ∧
    Reads 0xE2200540 (.xcmma 1 1 1) ∧ Reads 0xE3600000 (.xzero 3) ∧ Reads 0xE3001400 (.xzeroI 0 2) := by decide +kernel
theorem test_words_sync : Reads 0xE8A10000 (.cpy 20 4 0) ∧ Reads 0xE8A10001 (.cpyNb 20 4 0) ∧ Reads 0xE8280002 (.cpyst 5 0) ∧
    Reads 0xE9A18380 (.gather 20 6 0 7 0) ∧ Reads 0xEA018400 (.rainit 6 0 8 0) ∧ Reads 0xEA498501 (.rawait 9 6 0 10 0) ∧
    Reads 0xEA018002 (.rarel 6 0) ∧ Reads 0xEB020500 (.barinit 8 0 10 0) ∧ Reads 0xEB020581 (.bararr 8 0 11 0) ∧
    Reads 0xEB020602 (.barxb 8 0 12 0) ∧ Reads 0xEB020483 (.barwait 8 0 9 0) ∧ Reads 0xEC020480 (.seqwait 8 0 9 0) := by decide +kernel
theorem test_words_system : Reads 0xF0000000 .tret ∧ Reads 0xF02A0000 (.sleep 5) ∧ Reads 0xF0040000 .halt ∧ Reads 0xF1298000 (.killctx 5 6 0) ∧
    Reads 0xF2018380 (.tlbi 6 0 7 0) ∧ Reads 0xF2000001 .tlbsync ∧ Reads 0xF3490900 (.watch 9 2 1 4) ∧ Reads 0xF3020001 .sstepOn ∧
    Reads 0xF32C0000 (.snap 5) ∧ Reads 0xF4286000 (.gust 5 6) ∧ Reads 0xF4286001 (.gustT 5 6) ∧ Reads 0xF42A0000 (.gustrel 5) ∧
    Reads 0xF42C0001 (.qread 5 1) := by decide +kernel
theorem test_words_reductions : Reads 0xF5A10000 (.xred 20 4 0) ∧ Reads 0xF5A18001 (.coll 20 6 0) ∧ Reads 0xF54D0502 (.cwait 9 20 0 10 0) ∧
    Reads 0xF6298381 (.ramoAdd 5 6 0 7 0 0) ∧ Reads 0xF6298419 (.ramoCas 5 6 0 8 0 1) := by decide +kernel
theorem test_words_compact : decode (.c16 0x0800) = some (.movC 0 0) ∧ encode (.movC 0 0) = some (.c16 0x0800) ∧
    decode (.c16 0x70D0) = some (.fmt 1 5) ∧ encode (.fmt 1 5) = some (.c16 0x70D0) := by decide +kernel
theorem test_words_objdrop : Reads 0xBE4801C3 (.objdrop 9) := by decide +kernel

/-! ### Ill-formed terms, one for each check -/

/-- The term is ill formed, and the decoder refuses its words. -/
abbrev Ill (i : Instr) : Prop := i.wf = false ∧ (encode i).bind decode = none

theorem test_ill_conditions : Ill (.cmp 3 1 0 2 0 6) ∧ Ill (.cmpi 3 1 0 6 0) ∧ Ill (.br 6 1 2 0) ∧ Ill (.vicmp 1 2 3 0 6) ∧
    Ill (.vicmp 1 2 3 2 0) ∧ Ill (.vfcmp 1 2 3 2 0) ∧ Ill (.vsel 1 2 3 2) ∧ Ill (.vrsum 1 2 6) := by decide +kernel
theorem test_ill_lanes : Ill (.vfadd 1 2 3 2) ∧ Ill (.vadd 1 2 3 2) ∧ Ill (.vbcastl 1 2 32) ∧ Ill (.vrot 1 2 32) ∧ Ill (.vins 1 2 32) ∧
    Ill (.vext 1 2 32) := by decide +kernel
theorem test_ill_blocks : Ill (.blkmv 1 1 2) ∧ Ill (.blkmv 1 0 2) ∧ Ill (.blkset 1 2 2) ∧ Ill (.repn 0) ∧ Ill (.mkempty 0) := by decide +kernel
theorem test_ill_formats : Ill (.cvt 6 5 0 3 3) ∧ Ill (.cvt 6 5 0 5 3) ∧ Ill (.cvtd 6 5 0 0 0 3) ∧ Ill (.cvtd 6 5 0 9 0 0) ∧
    Ill (.vcvt 1 2 0 11) ∧ Ill (.vcvtd 1 2 0 0 11) ∧ Ill (.vcvtS 1 2 3 0 0 11) ∧ Ill (.vcvtdS 1 2 3 0 0 11) ∧ Ill (.fmt 11 0) ∧ Ill (.fmt 0 6) ∧
    Ill (.xdrn 0 4 5 9 0 0 0) := by decide +kernel
theorem test_ill_scopes : Ill (.amoadd 5 6 7 0 3 3) ∧ Ill (.ldAcq 5 6 7 0 3) ∧ Ill (.stRel 5 6 7 0 3) ∧ Ill (.fenceAcq 7) ∧ Ill (.fenceAcqInv 7) ∧
    Ill (.fenceRel 7) ∧ Ill (.fenceFull 7) ∧ Ill (.stv 2 0 7 2) ∧ Ill (.ldv 2 0 7 7 2) := by decide +kernel
theorem test_ill_registers : Ill (.cas 9 10 5 0 1 1) ∧ Ill (.cas 0 10 5 0 1 1) ∧ Ill (.ldA 0 4 0 2 1) ∧ Ill (.ldv 0 0 4 7 2) ∧
    Ill (.send 9 10 0 13 0) ∧ Ill (.sendh 9 10 0 13 0) ∧ Ill (.pusht 9 10 0 13 0) ∧ Ill (.sendnz 0 4 6 5) ∧ Ill (.sendnz 3 4 7 5) ∧
    Ill (.spawn 0 10 0 12 0) ∧ Ill (.spawn 20 10 0 29 0) ∧ Ill (.cpy 20 0 0) ∧ Ill (.cpyNb 20 29 0) ∧ Ill (.xred 20 29 0) := by decide +kernel
theorem test_ill_objects : Ill (.cpyst 5 7) ∧ Ill (.qread 5 6) ∧ Ill (.rainit 6 0 0 0) ∧ Ill (.rainit 6 0 9 0) ∧ Ill (.barinit 8 0 0 0) ∧
    Ill (.barinit 8 0 11 0) ∧ Ill (.ramoAdd 0 6 0 7 0 0) ∧ Ill (.ramoCas 5 6 0 9 0 1) := by decide +kernel
/-- Words no instruction has (R16, R27, R76). -/
theorem test_ill_words : decode (.c32 0xF7000000) = none ∧ decode (.c32 0x82184106) = none ∧ decode (.c32 0x95000000) = none ∧
    decode (.c16 0) = none ∧ decode (.c32 0xA4314033) = none := by decide +kernel

/-! ### Results the spec works out -/

/-- What an instruction leaves in the running context. -/
def leaves (i : Instr) (t : Ctx) (p : Ctx → Bool) : Bool := next (exec i (world t)) fun u => p u.me

/-- File 05, run A: ADD g5,g1,g2 with 40 and 2; DIVW g5,g5,g3 with 42 and 6; ADD g6,g1,g3. -/
theorem test_six_packets_add : leaves (.add 5 1 0 2 0) (ctx [(1, 40), (2, 2)]) (fun u => u.rd 5 == 42 && u.pc == 0x104 && u.rst 5 == .full) = true ∧
    leaves (.add 6 1 0 3 0) (ctx [(1, 40), (3, 6)]) (fun u => u.rd 6 == 46) = true := by decide +kernel
theorem test_six_packets_divide : leaves (.divw 5 5 0 3 0) (ctx [(5, 42), (3, 6)]) (fun u => u.rd 5 == 7) = true := by decide +kernel
/-- File 05, run B: a divisor of 0 traps with TRAPCAUSE 0x02, TRAPPC at the divide and TRAPINFO 0, at TRAPVEC, with g5 as it was. -/
theorem test_six_packets_trap : leaves (.divw 5 5 0 3 0) { ctx [(5, 42)] with pc := 0x20, trapVec := 0x38 } (fun u =>
    u.trapCause == 2 && u.trapPc == 0x20 && u.trapInfo == 0 && u.pc == 0x38 && u.mode == trapMode && u.rd 5 == 42) = true := by decide +kernel
/-- File 05: after −1, ADD g7,g5,g1 gives 39. -/
theorem test_six_packets_wrap : leaves (.add 7 5 0 1 0) (ctx [(5, BitVec.allOnes 64), (1, 40)]) (fun u => u.rd 7 == 39) = true := by decide +kernel
/-- File 04: LIX after LI g6,1 gives 0x92345. -/
theorem test_lix : leaves (.lix 6 0x12345) (ctx [(6, 1)]) (fun u => u.rd 6 == 0x92345) = true := by decide +kernel
/-- File 04: CVTD.sat of 448.0 gives 0x7E; of 512.0 it gives 0x7E and sets OVF and INX. -/
theorem test_cvtd : leaves (.cvtd 6 5 0 3 0 0) (ctx [(5, 0x43E00000)]) (fun u => u.rd 6 == 0x7E && field u.status 8 5 == 0) = true ∧
    leaves (.cvtd 6 5 0 3 0 0) (ctx [(5, 0x44000000)]) (fun u => u.rd 6 == 0x7E && field u.status 8 5 != 0) = true := by decide +kernel
/-- File 04: RSTATE g3,g9 after MKEMPTY g9 gives 0b10. -/
theorem test_rstate : leaves (.mkempty 9) (ctx []) (fun u => u.rst 9 == .free) = true ∧
    leaves (.rstate 3 9) { ctx [] with gs := (Vector.replicate 32 .full).set 9 .free } (fun u => u.rd 3 == 2) = true := by decide +kernel
/-- File 04: TRAP 0x2A and BRK 7 carry BREAK with their codes. -/
theorem test_break : leaves (.trap 0x2A) (ctx []) (fun u => u.trapCause == 0x0E && u.trapInfo == 0x2A && u.trapPc == 0x100) = true ∧
    leaves (.brk 7) (ctx []) (fun u => u.trapInfo == 0x10007) = true := by decide +kernel
/-- File 03: in the countdown kernel a BNEZ.c at 0x000A goes to 0x0006 while g4 is not 0, and to 0x000C once it is. -/
theorem test_countdown : leaves (.bnezC 4 0x7E) { ctx [(4, 3)] with pc := 0xA } (fun u => u.pc == 6) = true ∧
    leaves (.bnezC 4 0x7E) { ctx [] with pc := 0xA } (fun u => u.pc == 0xC) = true := by decide +kernel
/-- File 02: index 0x2A5B with entry 0xE142C2 gives −1, 0, −1.5, −0.5, 2, −1, 0, 6 on the second scale. -/
theorem test_codebook : decodeCB16 0x2A5B 0xE142C2 = ([0xA, 0x0, 0xB, 0x9, 0x4, 0xA, 0x0, 0x7], true) := by decide +kernel
/-- File 22: 1.0, 2^24 and 1.0 in ascending port order give 2^24. -/
theorem test_three_members : leNat (reduceBytes 0 0 4 [leBytes 4 0x3F800000, leBytes 4 0x4B800000, leBytes 4 0x3F800000]) = 0x4B800000 := by
  decide +kernel
/-- File 08: VCVTD.sat v1,v2,e4m3,1 of a lane of 512.0 gives 0x7E in elements 32 to 63 and leaves the other lanes of v1. -/
theorem test_vcvtd : leaves (.vcvtd 1 2 1 0 3)
    { ctx [] with v := (Vector.replicate 16 0 |>.set 1 (BitVec.allOnes 1024)).set 2 0x44000000 }
    (fun u => field (u.vrd 1) 256 8 == 0x7E && field (u.vrd 1) 264 8 == 0 && field (u.vrd 1) 248 8 == 0xFF &&
      field (u.vrd 1) 512 8 == 0xFF) = true := by decide +kernel
/-- A store lands byte by byte from the lowest address, and the canonical form drops zeros (log entry 4). -/
theorem test_memory_order : Memory.store [] 0x10 [1, 0, 3] = [(0x10, 1), (0x12, 3)] ∧
    Memory.store [(0x10, 1)] 0x10 [0] = [] ∧ Memory.nat [(0x10, 1), (0x12, 3)] 0x10 4 = 0x30001 := by decide

end Sys2Proof.Tests
end

section
/-!
SUPPORT. Memory as a map: the bytes of a store are read back, the others are kept, and two memories in the canonical form that
read alike are the same.
-/

namespace Sys2Proof.Machine

/-- The bytes of a store are read back at its address. -/
theorem bytes_store {m : List Host.Cell} (w : Memory.wf m = true) (a : Nat) (b : List Byte) :
    Memory.bytes (Memory.store m a b) a b.length = b := by
  induction b generalizing m a with
  | nil => rfl
  | cons v b ih =>
    have head : Memory.get (Memory.store m a (v :: b)) a = v := by simp [get_store w]
    rw [List.length_cons, Memory.bytes, head]
    exact congrArg (v :: ·) (ih (wf_set w a v) (a + 1))

/-- What a store leaves alone reads as before. -/
theorem get_store_outside {m : List Host.Cell} (w : Memory.wf m = true) {a p : Nat} {b : List Byte}
    (hp : p < a ∨ a + b.length ≤ p) : Memory.get (Memory.store m a b) p = Memory.get m p := by
  rw [get_store w, if_neg (by omega)]

theorem wfFrom_cons_iff {lo k : Nat} {v : Byte} {m : List Host.Cell} :
    Memory.wfFrom lo ((k, v) :: m) = true ↔ lo ≤ k ∧ v ≠ Memory.unwritten ∧ Memory.wfFrom (k + 1) m = true := by
  simp [Memory.wfFrom, and_assoc]

theorem get_cons_self (k : Nat) (v : Byte) (m : List Host.Cell) : Memory.get ((k, v) :: m) k = v := if_pos rfl

theorem get_cons_of_ne {k a : Nat} (h : k ≠ a) (v : Byte) (m : List Host.Cell) :
    Memory.get ((k, v) :: m) a = Memory.get m a := if_neg h

/-- An address that reads as written is not below the bound of the form. -/
theorem le_of_get_written {lo a : Nat} {m : List Host.Cell} (w : Memory.wfFrom lo m = true)
    (h : Memory.get m a ≠ Memory.unwritten) : lo ≤ a :=
  Nat.le_of_not_lt fun hlt => h (get_below hlt w)

/-- A memory in the form that reads as unwritten everywhere lists no cell. -/
theorem eq_nil_of_get_unwritten {lo : Nat} {m : List Host.Cell} (w : Memory.wfFrom lo m = true)
    (h : ∀ a, Memory.get m a = Memory.unwritten) : m = [] := by
  cases m with
  | nil => rfl
  | cons c m =>
    obtain ⟨k, v⟩ := c
    exact absurd (get_cons_self k v m ▸ h k) (wfFrom_cons_iff.1 w).2.1

/-- Two memories in the form that read alike at every address list the same cells: the least address written is the same in
both, so is its byte, and what is listed above it reads alike again. -/
theorem eq_of_get_eq {lo : Nat} {m n : List Host.Cell} (wm : Memory.wfFrom lo m = true) (wn : Memory.wfFrom lo n = true)
    (h : ∀ a, Memory.get m a = Memory.get n a) : m = n := by
  induction m generalizing lo n with
  | nil => exact (eq_nil_of_get_unwritten wn fun a => (h a).symm).symm
  | cons c m ih =>
    obtain ⟨k, v⟩ := c
    cases n with
    | nil => exact eq_nil_of_get_unwritten wm h
    | cons d n =>
      obtain ⟨j, u⟩ := d
      obtain ⟨-, hv, wmTail⟩ := wfFrom_cons_iff.1 wm
      obtain ⟨-, hu, wnTail⟩ := wfFrom_cons_iff.1 wn
      have hjk : j ≤ k := by
        refine le_of_get_written (wfFrom_cons_iff.2 ⟨Nat.le_refl _, hu, wnTail⟩) ?_
        rwa [← h k, get_cons_self]
      have hkj : k ≤ j := by
        refine le_of_get_written (wfFrom_cons_iff.2 ⟨Nat.le_refl _, hv, wmTail⟩) ?_
        rwa [h j, get_cons_self]
      obtain rfl : k = j := Nat.le_antisymm hkj hjk
      obtain rfl : v = u := by
        have hk := h k
        rwa [get_cons_self, get_cons_self] at hk
      have tails (a : Nat) : Memory.get m a = Memory.get n a := by
        by_cases ha : k = a
        · rw [get_below (Nat.lt_succ_of_le (Nat.le_of_eq ha.symm)) wmTail, get_below (Nat.lt_succ_of_le (Nat.le_of_eq ha.symm)) wnTail]
        · have hne := h a
          rwa [get_cons_of_ne ha, get_cons_of_ne ha] at hne
      rw [ih wmTail wnTail tails]

/-- Settles O7: a store read back, its frame and the form it keeps, and the form's extensionality. -/
theorem memoryReadsWhatWasStored : Obligations.MemoryReadsWhatWasStored := by
  refine ⟨fun m a b w => ⟨wf_store w a b, bytes_store w a b, fun p hp => get_store_outside w hp⟩, ?_⟩
  intro m n wm wn h
  exact eq_of_get_eq wm wn h

end Sys2Proof.Machine
end

section
/-!
SUPPORT. Every step keeps memory in its canonical form. What a step carries is a state, or a state beside a result; a predicate
says of each such carrier that its state is in the form. Then there is a lemma about each function of the model, in the model's
order: it writes no memory (`mem_`), the state it gives is in the form (`form_`), or what it gives carries such a state
(`keeps_`, `foundForm_` and their fellows). A lemma about an instruction cites those about the functions it calls.
-/

namespace Sys2Proof.Machine

/-! ### What carries a state, and the form of the state it carries -/

/-- An outcome that leaves memory in its canonical form where it is a next state. -/
def KeepsForm : Out → Prop
  | .next t => t.MemoryForm
  | _ => True

/-- What a read has found comes with memory in its form; a wait carries no state. -/
def FoundForm {α : Type} : Found α → Prop
  | .ok t _ => t.MemoryForm
  | .bad t => t.MemoryForm
  | .wait _ => True

/-- A region read by an engine comes with memory in its form. -/
def FetchedForm : Fetched → Prop
  | .ok t _ => t.MemoryForm
  | _ => True

/-- A step that an engine makes leaves memory in its form. -/
def ServeForm : Serve → Prop
  | .done t => t.MemoryForm
  | _ => True

/-- What is read or placed for the members of a collective comes with memory in its form. -/
def ChunkForm {α : Type} : ChunkStep α → Prop
  | .ok t _ => t.MemoryForm
  | _ => True

/-- A check that passes with a state, which `get` finds, passes with memory in its form. -/
def PassedForm {α : Type} (get : α → State) : Chk α → Prop
  | .ok a => (get a).MemoryForm
  | .error _ => True

/-- A result that is given with a state, which `get` finds, comes with memory in its form. -/
def GivenForm {α : Type} (get : α → State) : Option α → Prop
  | some a => (get a).MemoryForm
  | none => True

theorem memoryForm_iff (s : State) : s.MemoryForm ↔ Memory.wf s.mem = true := Iff.rfl
@[simp] theorem keepsForm_next (t : State) : KeepsForm (.next t) ↔ t.MemoryForm := Iff.rfl
@[simp] theorem foundForm_ok {α : Type} (t : State) (a : α) : FoundForm (.ok t a) ↔ t.MemoryForm := Iff.rfl
@[simp] theorem foundForm_bad {α : Type} (t : State) : FoundForm (.bad t : Found α) ↔ t.MemoryForm := Iff.rfl
@[simp] theorem foundForm_wait {α : Type} (w : Wait) : FoundForm (.wait w : Found α) := trivial
@[simp] theorem fetchedForm_ok (t : State) (b : List Byte) : FetchedForm (.ok t b) ↔ t.MemoryForm := Iff.rfl
@[simp] theorem fetchedForm_held (n : Nat) : FetchedForm (.held n) := trivial
@[simp] theorem fetchedForm_failed (n : Nat) : FetchedForm (.failed n) := trivial
@[simp] theorem serveForm_done (t : State) : ServeForm (.done t) ↔ t.MemoryForm := Iff.rfl
@[simp] theorem serveForm_idle : ServeForm .idle := trivial
@[simp] theorem serveForm_stalls (n : Nat) : ServeForm (.stalls n) := trivial
@[simp] theorem chunkForm_ok {α : Type} (t : State) (a : α) : ChunkForm (.ok t a) ↔ t.MemoryForm := Iff.rfl
@[simp] theorem givenForm_some {α : Type} (get : α → State) (a : α) : GivenForm get (some a) ↔ (get a).MemoryForm := Iff.rfl
@[simp] theorem givenForm_none {α : Type} (get : α → State) : GivenForm get none := trivial

/-- A step after an outcome that keeps the form keeps it where the step does. -/
theorem keeps_mapNext {o : Out} {f : State → State} (ho : KeepsForm o) (hf : ∀ t : State, t.MemoryForm → (f t).MemoryForm) :
    KeepsForm (mapNext o f) := by
  cases o with
  | next t => exact hf t ho
  | fault r => trivial
  | refused r => trivial

theorem givenForm_map {α β : Type} {get : β → State} {src : α → State} {f : α → β} {o : Option α}
    (ho : GivenForm src o) (hf : ∀ a, (src a).MemoryForm → (get (f a)).MemoryForm) : GivenForm get (o.map f) := by
  cases o with
  | none => trivial
  | some a => exact hf a ho

/-- The mark of a destination is put on a failed check alone. -/
theorem passedForm_markDst {α : Type} {get : α → State} {r : Chk α} (hr : PassedForm get r) : PassedForm get (markDst r) := by
  cases r with
  | ok a => exact hr
  | error e => trivial

/-- An engine that has its source and its destination fails or writes; both keep the form. -/
theorem serveForm_serve {f : Fetched} (hf : FetchedForm f) (stall : Option Nat) {fail : Nat → State}
    {write : State → List Byte → State} (hfail : ∀ n, (fail n).MemoryForm)
    (hwrite : ∀ (t : State) b, t.MemoryForm → (write t b).MemoryForm) : ServeForm (f.serve stall fail write) := by
  unfold Fetched.serve
  split
  · trivial
  · trivial
  · exact hfail _
  · exact hwrite _ _ hf

theorem keeps_reset (s : State) : KeepsForm (execReset s) := rfl

/-- Taking cells away keeps the canonical form. -/
theorem wfFrom_filter (p : Host.Cell → Bool) {m : List Host.Cell} {lo : Nat} (w : Memory.wfFrom lo m = true) :
    Memory.wfFrom lo (m.filter p) = true := by
  induction m generalizing lo with
  | nil => rfl
  | cons e m ih =>
    obtain ⟨k, v⟩ := e
    obtain ⟨hk, hv, hm⟩ := wfFrom_cons_iff.1 w
    rw [List.filter_cons]
    split
    · exact wfFrom_cons_iff.2 ⟨hk, hv, ih hm⟩
    · exact ih (wfFrom_mono (by omega) hm)

/-- A fold of writes that keep the canonical form keeps it. -/
theorem wf_foldl {α : Type} (l : List α) {f : List Host.Cell → α → List Host.Cell}
    (hf : ∀ m a, Memory.wf m = true → Memory.wf (f m a) = true) {m : List Host.Cell} (w : Memory.wf m = true) :
    Memory.wf (l.foldl f m) = true := by
  induction l generalizing m with
  | nil => exact w
  | cons a l ih => exact ih (hf m a w)

/-! ### What writes no memory -/

@[simp] theorem mem_post (s : State) (c x f) : (s.post c x f).mem = s.mem := rfl

@[simp] theorem mem_fireTrigger (s : State) : (s.fireTrigger).mem = s.mem := by
  unfold State.fireTrigger
  split <;> rfl

@[simp] theorem mem_returnRecord (s : State) (c record n back) : (s.returnRecord c record n back).mem = s.mem := rfl

@[simp] theorem mem_footView (s : State) (f) : (s.footView f).2.mem = s.mem := by
  unfold State.footView
  split <;> simp

@[simp] theorem mem_fillView (s : State) (f) : (s.fillView f).2.mem = s.mem := by
  unfold State.fillView
  split <;> simp

@[simp] theorem mem_retireTo (s : State) (f next info upd) : (s.retireTo f next info upd).mem = s.mem := rfl
@[simp] theorem mem_retire (s : State) (f upd) : (s.retire f upd).mem = s.mem := rfl

@[simp] theorem mem_l2Leave (s : State) (h spans) : (s.l2Leave h spans).mem = s.mem := by
  unfold State.l2Leave
  grind only [mem_foldl, mem_l2Drop]

@[simp] theorem mem_noteRead (s : State) (q line i) : (s.noteRead q line i).mem = s.mem := by
  unfold State.noteRead
  split <;> simp

@[simp] theorem mem_meet (s : State) (key ring) : (s.meet key ring).mem = s.mem := by
  unfold State.meet
  repeat' split
  all_goals rfl

@[simp] theorem mem_objWords (s : State) (key ring) : (s.objWords key ring).2.mem = s.mem := by
  unfold State.objWords
  split <;> rfl

@[simp] theorem mem_setFilled (s : State) (key filled) : (s.setFilled key filled).mem = s.mem := by
  unfold State.setFilled
  split <;> rfl

@[simp] theorem mem_metObject (s : State) (key) : (s.metObject key).mem = s.mem := rfl

@[simp] theorem mem_plainRange (s : State) (key len) : (s.plainRange key len).mem = s.mem := by
  unfold State.plainRange
  split <;> simp

@[simp] theorem mem_sendPush (s : State) (launch n line e) : (s.sendPush launch n line e).mem = s.mem := by
  unfold State.sendPush
  split <;> simp

@[simp] theorem mem_passFence (s : State) (c x full) : (s.passFence c x full).mem = s.mem := rfl
@[simp] theorem mem_releaseLane (s : State) (c x h off spans b op tag rel wide vsts) :
    (s.releaseLane c x h off spans b op tag rel wide vsts).mem = s.mem := mem_foldl _ _ _ fun _ _ => mem_updCore ..
@[simp] theorem mem_unbind (s : State) (launch n) : (s.unbind launch n).mem = s.mem := rfl

@[simp] theorem mem_openWindow (s : State) (launch n r stream replay) : (s.openWindow launch n r stream replay).mem = s.mem := by
  unfold State.openWindow
  simp

@[simp] theorem mem_settle (s : State) (p consumed) : (s.settle p consumed).mem = s.mem := by
  unfold State.settle
  split <;> simp

@[simp] theorem mem_removePush (s : State) (q i) : (s.removePush q i).mem = s.mem := rfl
@[simp] theorem mem_addSend (s : State) (e n) : (s.addSend e n).mem = s.mem := rfl
@[simp] theorem mem_retireSend (s : State) (f n upd) : (s.retireSend f n upd).mem = s.mem := rfl
@[simp] theorem mem_settleDrain (s : State) (c x) : (s.settleDrain c x).mem = s.mem := rfl

@[simp] theorem mem_admission (s : State) (c record n) : (s.admission c record n).2.mem = s.mem := by
  unfold State.admission
  dsimp only
  repeat' split
  all_goals rfl

@[simp] theorem mem_unmarkBut (s : State) (n n') : (s.unmarkBut n n').mem = s.mem := rfl

@[simp] theorem mem_stopReaches (s : State) (n k c) : (s.stopReaches n k c).2.mem = s.mem := by
  unfold State.stopReaches
  grind only [mem_pick]

@[simp] theorem mem_taskStop (s : State) (c x n) : (s.taskStop c x n).mem = s.mem := by
  unfold State.taskStop
  grind only [mem_foldl, mem_stopReaches, mem_updCtx, mem_fireTrigger]

@[simp] theorem mem_setArray (s : State) (q u) : (s.setArray q u).mem = s.mem := rfl

@[simp] theorem mem_requestLease (s : State) (c) : (s.requestLease c).mem = s.mem := by
  unfold State.requestLease
  dsimp only
  split <;> rfl

theorem mem_firstMessage (s : State) (c l) : (s.firstMessage c l).2.mem = s.mem := by
  induction l generalizing s with
  | nil => rfl
  | cons q l ih =>
    rw [State.firstMessage]
    split
    · exact ih s
    · next e _ =>
      have ha := mem_admission s c e.task.record e.task.taskId
      dsimp only
      split
      · exact ha
      · exact (ih _).trans ha

@[simp] theorem mem_dropDrain (s : State) (c x i) : (s.dropDrain c x i).mem = s.mem := rfl
@[simp] theorem mem_refuseDrain (s : State) (c x i) : (s.refuseDrain c x i).mem = s.mem := rfl

theorem mem_firstClaim (s : State) (launch t l) : (s.firstClaim launch t l).2.mem = s.mem := by
  induction l generalizing s with
  | nil => rfl
  | cons c l ih =>
    have ha := mem_admission s c t.record t.taskId
    rw [State.firstClaim]
    split
    · exact ih s
    · dsimp only
      split
      · exact ha
      · exact (ih _).trans ha

@[simp] theorem mem_endLeases (s : State) (cores) : (s.endLeases cores).mem = s.mem := rfl
@[simp] theorem mem_freeCores (s : State) (cores) : (s.freeCores cores).mem = s.mem := mem_foldl _ _ _ fun _ _ => mem_updCore ..
@[simp] theorem mem_unmarkLaunch (s : State) (n) : (s.unmarkLaunch n).mem = s.mem := rfl

@[simp] theorem mem_startRemoval (s : State) (n) : (s.startRemoval n).mem = s.mem := by
  unfold State.startRemoval
  repeat' split
  all_goals rfl

@[simp] theorem mem_reachCore (s : State) (n c) : (s.reachCore n c).mem = s.mem := by
  unfold State.reachCore
  repeat' split
  all_goals rfl

@[simp] theorem mem_reachAll (s : State) (n) : (s.reachAll n).mem = s.mem := by
  unfold State.reachAll
  grind only [mem_foldl, mem_reachCore]

@[simp] theorem mem_grantGust (s : State) (c x ms) : (s.grantGust c x ms).mem = s.mem := rfl

@[simp] theorem mem_releaseLine (s : State) (cl line) : (s.releaseLine cl line).mem = s.mem := by
  unfold State.releaseLine
  split <;> rfl

@[simp] theorem mem_releaseSpans (s : State) (cl spans more) : (s.releaseSpans cl spans more).mem = s.mem :=
  mem_foldl _ _ _ fun _ _ => mem_releaseLine ..
@[simp] theorem mem_releaseAll (s : State) (cl) : (s.releaseAll cl).mem = s.mem := rfl

@[simp] theorem mem_openTile (s : State) (lines merge) : (s.openTile lines merge).mem = s.mem := by
  unfold State.openTile
  split <;> rfl

@[simp] theorem mem_engineError (s : State) (c x taskId info) : (s.engineError c x taskId info).mem = s.mem := by
  unfold State.engineError
  dsimp only
  split <;> rfl

@[simp] theorem mem_setHead (s : State) (c k) : (s.setHead c k).mem = s.mem := rfl
@[simp] theorem mem_setGatherHead (s : State) (e strm k) : (s.setGatherHead e strm k).mem = s.mem := rfl
@[simp] theorem mem_readHeader (s : State) (ch) : (s.readHeader ch).mem = s.mem := rfl

@[simp] theorem mem_signalVector (s : State) (n) : (s.signalVector n).mem = s.mem := by
  unfold State.signalVector
  dsimp only
  split <;> rfl

@[simp] theorem mem_endEntry (s : State) (ch st) : (s.endEntry ch st).mem = s.mem := rfl
@[simp] theorem mem_progress (s : State) (ch n) : (s.progress ch n).mem = s.mem := rfl

@[simp] theorem mem_ioStall (s : State) (ch weight) : (s.ioStall ch weight).mem = s.mem := by
  unfold State.ioStall
  simp

@[simp] theorem mem_endCopy (s : State) (ch n st) : (s.endCopy ch n st).mem = s.mem := rfl
@[simp] theorem mem_dropWaiting (s : State) (cores) : (s.dropWaiting cores).mem = s.mem := rfl

@[simp] theorem mem_returnAll (s : State) (launch c) : (s.returnAll launch c).mem = s.mem := by
  unfold State.returnAll
  grind only [mem_foldl, mem_returnCurrent, mem_returnRecord, mem_setCluster]

@[simp] theorem mem_dropCommands (s : State) (n c) : (s.dropCommands n c).mem = s.mem := by
  unfold State.dropCommands
  grind only [mem_foldl, mem_releaseAll, mem_updCore, mem_setGather]

@[simp] theorem mem_dropRemote (s : State) (n c) : (s.dropRemote n c).mem = s.mem := by
  unfold State.dropRemote
  grind only [mem_foldl, mem_releaseAll]

@[simp] theorem mem_sendFor (s : State) (c x h off slot op) : (s.sendFor c x h off slot op).mem = s.mem := rfl
@[simp] theorem mem_sendRemote (s : State) (h off slot op) : (s.sendRemote h off slot op).mem = s.mem := rfl
@[simp] theorem mem_dropObject (s : State) (launch o) : (s.dropObject launch o).mem = s.mem := rfl
@[simp] theorem mem_failColl (s : State) (r own) : (s.failColl r own).mem = s.mem := rfl

@[simp] theorem mem_collStall (s : State) (engine) : (s.collStall engine).mem = s.mem := by
  unfold State.collStall
  simp

@[simp] theorem mem_sendChunk (s : State) (parts redid b) : (s.sendChunk parts redid b).mem = s.mem := rfl

@[simp] theorem mem_remoteError (s : State) (r) : (s.remoteError r).mem = s.mem := by
  unfold State.remoteError
  dsimp only
  split <;> rfl

@[simp] theorem mem_linkError (s : State) (r) : (s.linkError r).mem = s.mem := by
  unfold State.linkError
  split <;> simp

@[simp] theorem mem_linkReductions (s : State) (link) : (s.linkReductions link).mem = s.mem := rfl

@[simp] theorem mem_touchClusters (s : State) (melt) : (s.touchClusters melt).mem = s.mem := by
  unfold State.touchClusters
  grind only [mem_foldl, mem_setCluster]

@[simp] theorem mem_countPorts (s : State) (counts) : (s.countPorts counts).mem = s.mem := by
  unfold State.countPorts
  grind only [mem_foldl]

@[simp] theorem mem_afterFill (s : State) (c x slot) : (s.afterFill c x slot).mem = s.mem := rfl

@[simp] theorem mem_updPipe (s : State) (c f) : (s.updPipe c f).mem = s.mem := by
  unfold State.updPipe
  split <;> rfl

@[simp] theorem mem_endSlice (s : State) (c) : (s.endSlice c).mem = s.mem := by
  unfold State.endSlice
  split <;> simp

@[simp] theorem mem_switchOut (s : State) (c x slot) : (s.switchOut c x slot).mem = s.mem := rfl

@[simp] theorem mem_fetchHalf (s : State) (c a) : (s.fetchHalf c a).2.mem = s.mem := by
  unfold State.fetchHalf
  dsimp only
  split <;> simp

@[simp] theorem mem_fetchCode (s : State) (c pc) : (s.fetchCode c pc).2.mem = s.mem := by
  unfold State.fetchCode
  grind only [mem_fetchHalf]

@[simp] theorem mem_passCycles (s : State) (c n) : (s.passCycles c n).mem = s.mem := by
  unfold State.passCycles
  dsimp only
  split <;> rfl

@[simp] theorem mem_delay (s : State) : (s.delay).2.mem = s.mem := by
  unfold State.delay
  split <;> rfl

section
variable {s : State} (hs : s.MemoryForm)
include hs

/-! ### Faults and waits -/

theorem keeps_fault (code info) : KeepsForm (s.fault code info) := form_of_mem hs (mem_takeTrap _ _ _ _)
theorem keeps_waitFor (w) : KeepsForm (s.waitFor w) := hs

/-! ### The checks before an instruction's effect -/

theorem keeps_illegal (i) : KeepsForm (s.illegal i) := keeps_fault hs _ _

/-- The checks of R79 end in a fault, a wait or the instruction's own effect. -/
theorem keeps_issueCode (w f) {k : State → Out} (hk : ∀ t : State, t.MemoryForm → KeepsForm (k t)) :
    KeepsForm (issueCode w f s k) := by
  have hu : (((s.fillView f).2.woken f).footView f).2.MemoryForm :=
    form_of_mem hs ((mem_footView _ _).trans (mem_fillView s f))
  unfold issueCode
  split
  · exact keeps_fault hs _ _
  · split
    · exact keeps_fault hs _ _
    · dsimp only
      split
      · exact keeps_fault hu _ _
      · split
        · exact keeps_fault hu _ _
        · split
          · exact keeps_waitFor hu _
          · split
            · exact hk _ hu
            · exact keeps_waitFor hu _

theorem keeps_issue (i f) {k : State → Out} (hk : ∀ t : State, t.MemoryForm → KeepsForm (k t)) :
    KeepsForm (issue i f s k) :=
  keeps_issueCode hs _ _ hk

theorem keeps_quick (i f d val) : KeepsForm (quick i f d val s) := keeps_issue hs _ _ fun _ ht => ht

theorem keeps_throughLane {k : State → Out} (hk : ∀ t : State, t.MemoryForm → KeepsForm (k t)) :
    KeepsForm (s.throughLane k) := by
  unfold State.throughLane
  grind only [mem_updQuad, keeps_waitFor, memoryForm_iff]

/-! ### Integer instructions -/

theorem keeps_alu (i d a m b n op) : KeepsForm (alu i d a m b n op s) := keeps_quick hs ..
theorem keeps_alu1 (i d a m op) : KeepsForm (alu1 i d a m op s) := keeps_quick hs ..

theorem keeps_divide (i d a m b n arg op) : KeepsForm (divide i d a m b n arg op s) := by
  refine keeps_issue hs _ _ fun t ht => ?_
  grind only [keeps_fault, mem_retire, memoryForm_iff, keepsForm_next]

theorem keeps_compact2 (i d a op) : KeepsForm (compact2 i d a op s) := keeps_quick hs ..
theorem keeps_compactImm (i d op) : KeepsForm (compactImm i d op s) := keeps_quick hs ..

/-! ### Places of an access -/

/-- A check that fails faults; one that passes goes on. -/
theorem keeps_orFault {α : Type} {r : Chk α} {k : α → Out} (hk : ∀ a, KeepsForm (k a)) : KeepsForm (s.orFault r k) := by
  cases r with
  | ok a => exact hk a
  | error e => exact keeps_fault hs _ _

/-- The same where the check passes with a state of its own. -/
theorem keeps_orFault_passed {α : Type} {get : α → State} {r : Chk α} (hr : PassedForm get r) {k : α → Out}
    (hk : ∀ a, (get a).MemoryForm → KeepsForm (k a)) : KeepsForm (s.orFault r k) := by
  cases r with
  | ok a => exact hk a hr
  | error e => exact keeps_fault hs _ _

theorem passedForm_placeCore (c hd off len write) : PassedForm Prod.snd (s.placeCore c hd off len write) := by
  unfold State.placeCore
  split
  · trivial
  · exact hs

/-- An access goes on with its place, if it has one (R104). -/
theorem keeps_placed {u : State} (hu : u.MemoryForm) (c hd off len write) {k : List Span × State → Out}
    (hk : ∀ l t, t.MemoryForm → KeepsForm (k (l, t))) : KeepsForm (s.orFault (u.placeCore c hd off len write) k) :=
  keeps_orFault_passed hs (passedForm_placeCore hu _ _ _ _ _) fun a ha => hk a.1 a.2 ha

theorem keeps_placedDst {u : State} (hu : u.MemoryForm) (c hd off len write) {k : List Span × State → Out}
    (hk : ∀ l t, t.MemoryForm → KeepsForm (k (l, t))) : KeepsForm (s.orFault (markDst (u.placeCore c hd off len write)) k) :=
  keeps_orFault_passed hs (passedForm_markDst (passedForm_placeCore hu _ _ _ _ _)) fun a ha => hk a.1 a.2 ha

/-! ### Reads through a quad -/

theorem form_putIstore (key b) : (s.putIstore key b).MemoryForm := form_putMem hs ..

theorem foundForm_quadRead (q line o n i) : FoundForm (s.quadRead q line o n i) := by
  unfold State.quadRead
  grind only [mem_noteRead, mem_l2Drop, mem_putLine, form_allocate, mem_consume, memoryForm_iff, foundForm_ok, foundForm_bad,
    foundForm_wait]

theorem foundForm_loadLine (c x p policy nc i) : FoundForm (s.loadLine c x p policy nc i) := by
  unfold State.loadLine
  grind only [mem_l1Lookup, foundForm_quadRead, mem_l1Allocate, memoryForm_iff, foundForm_ok, foundForm_bad, foundForm_wait]

theorem form_recordReleases (key len q) : (s.recordReleases key len q).MemoryForm :=
  form_foldl _ _ _ (fun _ _ ht => form_recordRelease ht ..) hs

/-! ### Updates at the homes, and stores performed -/

theorem form_createVersion (key v) : (s.createVersion key v).MemoryForm := by
  unfold State.createVersion
  grind only [mem_foldl, form_putWord, mem_updCtx, memoryForm_iff]

theorem form_putWords (key a b c d) : (s.putWords key a b c d).MemoryForm := by
  unfold State.putWords
  grind only [form_putWord]

theorem form_raInit (key base w3) : (s.raInit key base w3).MemoryForm := by
  unfold State.raInit
  grind only [mem_metObject, form_putWords, memoryForm_iff]

theorem form_raRel (key) : (s.raRel key).MemoryForm := by
  unfold State.raRel
  grind only [mem_objWords, mem_meet, form_putWord, memoryForm_iff]

theorem form_ringReserve (key) : (s.ringReserve key).2.MemoryForm := by
  unfold State.ringReserve
  grind only [mem_objWords, mem_meet, form_putWord, memoryForm_iff]

theorem form_ringFill (key slot gen err) : (s.ringFill key slot gen err).MemoryForm := by
  unfold State.ringFill
  grind only [mem_objWords, mem_meet, form_putWord, mem_metObject, mem_setFilled, memoryForm_iff]

theorem form_barInit (key arr bytes) : (s.barInit key arr bytes).MemoryForm := by
  unfold State.barInit
  grind only [form_putWords, mem_metObject, memoryForm_iff]

theorem form_barUpdate (key arrivals bytes err) : (s.barUpdate key arrivals bytes err).MemoryForm := by
  unfold State.barUpdate
  grind only [mem_objWords, mem_meet, mem_metObject, form_putWords, memoryForm_iff]

theorem form_barExpect (key n) : (s.barExpect key n).MemoryForm := by
  unfold State.barExpect
  grind only [mem_objWords, mem_meet, form_putWord, memoryForm_iff]

theorem form_syncWrite (key v) : (s.syncWrite key v).MemoryForm := by
  unfold State.syncWrite
  split
  · exact form_putWord hs ..
  · exact form_createVersion hs ..

theorem form_firePushes (c line g near) : (s.firePushes c line g near).MemoryForm := by
  unfold State.firePushes
  grind only [form_foldl, mem_setRec, form_mergeLine, mem_sendPush, memoryForm_iff]

theorem form_storeCached (c r obj log policy) : (s.storeCached c r obj log policy).MemoryForm := by
  unfold State.storeCached
  grind only [mem_putLine, form_allocate, mem_dropLine, memoryForm_iff]

theorem form_atHome (space line) : (s.atHome space line).MemoryForm := by
  unfold State.atHome
  split
  · exact form_mergeHome hs ..
  · exact hs

/-- A store does at its home what its operation says, once the quads' copies are recalled. -/
theorem form_homeOp (r space log) : (s.homeOp r space log).MemoryForm := by
  have hr : (if space = spSync ∨ space = spOrdered then s.recall (r.addr / 64) else s).MemoryForm := by
    split
    · exact form_recall hs _
    · exact hs
  have hd := form_dirtyLine hr r.launch (r.addr / 64) log false
  unfold State.homeOp
  dsimp only
  split
  · split
    · exact form_syncWrite hd ..
    · split
      · exact form_putIstore hd ..
      · exact form_putMem hd ..
  · exact form_syncWrite hd ..
  · exact hd
  · exact form_raInit hd ..
  · exact form_raRel hd ..
  · exact form_barInit hd ..
  · exact form_barUpdate hd ..
  · exact form_barExpect hd ..

theorem form_perform (c r) : (s.perform c r).MemoryForm := by
  unfold State.perform
  grind only [form_recordReleases, form_recall, form_policyWrite, mem_watchWrite, form_storeCached, form_firePushes,
    form_homeOp, memoryForm_iff]

theorem form_performStore (c i) : (s.performStore c i).MemoryForm := by
  unfold State.performStore
  grind only [form_perform, mem_updCore, memoryForm_iff]

/-! ### Loads and stores -/

theorem foundForm_loadPieces (c x hd nc l va acc begun) : FoundForm (s.loadPieces c x hd nc l va acc begun) := by
  induction l generalizing s va acc begun with
  | nil => exact hs
  | cons p l ih =>
    have hp := foundForm_loadLine hs c x p (hPolicy hd) nc { s.readInfo c hd va (p.key / 64) with begun := begun }
    rw [State.loadPieces]
    split
    · next e =>
      rw [e] at hp
      exact ih hp _ _ _
    · trivial
    · next e =>
      rw [e] at hp
      exact hp

theorem foundForm_loadHome (c x space spans) : FoundForm (s.loadHome c x space spans) := by
  unfold State.loadHome
  grind only [form_foldl, form_atHome, mem_free, memoryForm_iff, foundForm_ok, foundForm_bad, foundForm_wait]

theorem foundForm_readFor (c x h off spans nc begun) : FoundForm (s.readFor c x h off spans nc begun) := by
  unfold State.readFor
  grind only [foundForm_loadPieces, foundForm_loadHome]

theorem foundForm_loadOn (h off spans nc begun) : FoundForm (s.loadOn h off spans nc begun) := by
  unfold State.loadOn
  grind only [foundForm_readFor, foundForm_wait]

theorem foundForm_load (h off spans nc) : FoundForm (s.load h off spans nc) := by
  unfold State.load
  grind only [foundForm_loadOn]

/-- A read that has found its bytes goes on with them; else it waits or faults (R104). -/
theorem keeps_found {α : Type} {r : Found α} (hr : FoundForm r) (off) {k : State → α → Out}
    (hk : ∀ (t : State) a, t.MemoryForm → KeepsForm (k t a)) : KeepsForm (s.found r off k) := by
  cases r with
  | ok t a => exact hk t a hr
  | wait w => exact keeps_waitFor hs _
  | bad t => exact keeps_fault hr _ _

theorem keeps_loadAt (n off size spaces nc) {k : State → List Byte → Out}
    (hk : ∀ (t : State) b, t.MemoryForm → KeepsForm (k t b)) : KeepsForm (s.loadAt n off size spaces nc k) :=
  keeps_orFault hs fun _ => keeps_placed hs hs _ _ _ _ _ fun _ _ ht => keeps_found ht (foundForm_load ht ..) _ hk

theorem keeps_storeAt (n off size align spaces) {k : State → BitVec 256 → List Span → Out}
    (hk : ∀ (t : State) hd l, t.MemoryForm → KeepsForm (k t hd l)) : KeepsForm (s.storeAt n off size align spaces k) := by
  unfold State.storeAt
  grind only [keeps_orFault, keeps_placed, keeps_waitFor]

theorem keeps_retireStore (f h off spans b) : KeepsForm (s.retireStore f h off spans b) := by
  unfold State.retireStore
  grind only [mem_retire, mem_takeOrdinal, mem_releaseStore, memoryForm_iff, keepsForm_next]

theorem keeps_scalarLoad (i t b m h o size nc) : KeepsForm (scalarLoad i t b m h o size nc s) :=
  keeps_issue hs _ _ fun _ ht => keeps_loadAt ht _ _ _ _ _ fun _ _ hu => hu
theorem keeps_scalarStore (i t b m h o size) : KeepsForm (scalarStore i t b m h o size s) :=
  keeps_issue hs _ _ fun _ ht => keeps_storeAt ht _ _ _ _ _ fun _ _ _ hu => keeps_retireStore hu ..

theorem keeps_withSlot {k : Fin 16 → Out} (hk : ∀ n, KeepsForm (k n)) : KeepsForm (s.withSlot k) := by
  unfold State.withSlot
  grind only [keeps_waitFor, mem_updMe, memoryForm_iff]

/-! ### Recordings and their windows -/

theorem form_writeBuffer (launch r o b) : (s.writeBuffer launch r o b).MemoryForm :=
  form_of_mem (form_quietWrite hs ..) (mem_resetSpans ..)
theorem form_writeHeader (launch r) : (s.writeHeader launch r).MemoryForm := form_writeBuffer hs ..

theorem form_dropRecording (launch n) : (s.dropRecording launch n).MemoryForm := by
  unfold State.dropRecording
  grind only [form_writeHeader, mem_setRec, mem_unbind, memoryForm_iff]

theorem keeps_wrecStart (f d h off n stream) : KeepsForm (s.wrecStart f d h off n stream) := by
  unfold State.wrecStart
  grind only [keeps_orFault, keeps_placed, keeps_found, foundForm_load, mem_retire, mem_dropTags, mem_unbind, mem_openWindow,
    memoryForm_iff, keepsForm_next]

theorem keeps_wrec (d a b h) : KeepsForm (execWrec d a b h s) := by
  refine keeps_issue hs _ _ fun t ht => ?_
  grind only [mem_retire, keeps_waitFor, mem_openWindow, keeps_wrecStart, memoryForm_iff, keepsForm_next]

theorem keeps_wplay (d b) : KeepsForm (execWplay d b s) := by
  refine keeps_issue hs _ _ fun t ht => ?_
  grind only [mem_retire, mem_openWindow, keeps_waitFor, memoryForm_iff, keepsForm_next]

theorem keeps_wend (d) : KeepsForm (execWend d s) := by
  refine keeps_issue hs _ _ fun t ht => ?_
  grind only [mem_retire, mem_closeWindow, memoryForm_iff, keepsForm_next]

theorem keeps_wdrop (d b) : KeepsForm (execWdrop d b s) := by
  unfold execWdrop
  grind only [keeps_issueCode, mem_retire, keeps_waitFor, form_dropRecording, memoryForm_iff, keepsForm_next]

theorem form_seal (launch n) : (s.seal launch n).MemoryForm := by
  unfold State.seal
  grind only [form_writeBuffer, mem_setRec, form_writeHeader, memoryForm_iff]

theorem keeps_pushArrival (quad idx) : KeepsForm (execPushArrival quad idx s) := by
  unfold execPushArrival
  grind only [mem_putLine, mem_settle, mem_removePush, mem_pick, mem_dropLine, memoryForm_iff, keepsForm_next]

theorem keeps_pushTimeout (quad idx) : KeepsForm (execPushTimeout quad idx s) := by
  unfold execPushTimeout
  grind only [mem_settle, mem_removePush, memoryForm_iff, keepsForm_next]

theorem keeps_roundClose (launch rec) : KeepsForm (execRoundClose launch rec s) := by
  unfold execRoundClose
  grind only [form_writeHeader, mem_setRec, memoryForm_iff, keepsForm_next]

theorem keeps_replayEntryLoad (core ctx) : KeepsForm (execReplayEntryLoad core ctx s) := by
  unfold execReplayEntryLoad
  split
  · split
    · exact hs
    · split
      · exact hs
      · split
        · exact hs
        · split
          · exact hs
          · exact form_of_mem hs (mem_setRec ..)
  · exact hs

/-! ### Tasks, sends and deques -/

theorem keeps_sendFault (reason) : KeepsForm (s.sendFault reason) := keeps_fault hs ..

theorem keeps_sendInstr (i k d a m b n) : KeepsForm (sendInstr i k d a m b n s) := by
  refine keeps_issue hs _ _ fun t ht => ?_
  grind only [keeps_sendFault, keeps_waitFor, mem_retireSend, form_putMem, mem_updCore, mem_addSend, memoryForm_iff,
    keepsForm_next]

theorem keeps_sendnz (h v p sel) : KeepsForm (execSendnz h v p sel s) := by
  refine keeps_issue hs _ _ fun t ht => ?_
  grind only [keeps_sendFault, keeps_throughLane, mem_addSend, mem_retireSend, memoryForm_iff, keepsForm_next]

theorem keeps_spawn (d a m b n) : KeepsForm (execSpawn d a m b n s) := by
  refine keeps_issue hs _ _ fun t ht => ?_
  grind only [keeps_sendFault, keeps_fault, keeps_withSlot, mem_addSend, mem_retireSend, memoryForm_iff, keepsForm_next]

theorem givenForm_writeVirtual (n l va b) : GivenForm id (s.writeVirtual n l va b) := by
  unfold State.writeVirtual
  grind only [form_quietWrite, givenForm_some, givenForm_none, id]

theorem form_takeEntry (c q e t payload dispatched) : (s.takeEntry c q e t payload dispatched).MemoryForm := form_putMem hs ..

theorem form_unspill (c q) : (s.unspill c q).MemoryForm := by
  unfold State.unspill
  grind only [mem_updCore, form_takeEntry, memoryForm_iff]

theorem form_roomInRing (c q) : (s.roomInRing c q).MemoryForm := by
  unfold State.roomInRing
  split
  · exact form_unspill hs ..
  · exact hs

theorem givenForm_accept (launch l c t payload) : GivenForm id (s.accept launch l c t payload) := by
  unfold State.accept
  grind only [form_roomInRing, mem_updCore, form_takeEntry, givenForm_writeVirtual, memoryForm_iff, givenForm_some,
    givenForm_none, givenForm_map, id]

theorem givenForm_writeDequePlaces (launch l c place recs) : GivenForm id (s.writeDequePlaces launch l c place recs) := by
  induction recs generalizing s place with
  | nil => exact hs
  | cons r recs ih =>
    have hr := givenForm_writeVirtual hs launch l (dequeSpillAddr l c place) (dequeEntryBytes r)
    rw [State.writeDequePlaces]
    split
    · next e =>
      rw [e] at hr
      exact ih hr _
    · trivial

theorem form_spillDeque (c) : (s.spillDeque c).MemoryForm := by
  unfold State.spillDeque
  grind only [givenForm_writeDequePlaces, mem_updCore, memoryForm_iff, givenForm_some, id]

theorem form_takeBack (c n) : (s.takeBack c n).MemoryForm := by
  unfold State.takeBack
  dsimp only
  repeat' split
  all_goals exact hs

theorem form_refillDeque (c) : (s.refillDeque c).MemoryForm := by
  unfold State.refillDeque
  grind only [form_takeBack]

theorem form_pushBottom (c r) : (s.pushBottom c r).MemoryForm := form_spillDeque hs ..

theorem givenForm_pushTop (c r) : GivenForm id (s.pushTop c r) := by
  unfold State.pushTop
  grind only [form_spillDeque, form_takeBack, mem_updCore, givenForm_writeDequePlaces, memoryForm_iff, givenForm_some,
    givenForm_none, givenForm_map, id]

theorem form_popBottom (c) : (s.popBottom c).MemoryForm := by
  unfold State.popBottom
  grind only [form_refillDeque, mem_updCore, memoryForm_iff]

theorem givenForm_takeTop (c) : GivenForm Prod.snd (s.takeTop c) := by
  unfold State.takeTop
  dsimp only
  split
  · cases (s.core c).deque.hw.getLast? with
    | none => trivial
    | some r => exact hs
  · split
    · trivial
    · split
      · exact hs
      · trivial

theorem form_releaseLocal (c x) : (s.releaseLocal c x).MemoryForm := by
  unfold State.releaseLocal
  grind only [form_foldl, form_pushBottom, mem_updCore, mem_updCtx, mem_settleDrain, memoryForm_iff]

theorem keeps_done : KeepsForm (execDone s) := by
  refine keeps_issue hs _ _ fun t ht => ?_
  grind only [keeps_waitFor, mem_endTask, mem_retire, mem_updCtx, form_releaseLocal, mem_settleDrain, mem_updCore,
    memoryForm_iff, keepsForm_next]

theorem form_dispatchAcquire (c rel) : (s.dispatchAcquire c rel).MemoryForm := by
  unfold State.dispatchAcquire
  grind only [form_drainAll, mem_updCore, memoryForm_iff]

theorem form_startTask (c x task origin entry) : (s.startTask c x task origin entry).MemoryForm := by
  unfold State.startTask
  grind only [mem_updCore, mem_updCtx, form_dispatchAcquire, mem_taskStop, mem_free, memoryForm_iff]

/-! ### The array -/

theorem form_runArray (q k) : (s.runArray q k).MemoryForm := by
  unfold State.runArray
  grind only [form_foldl, mem_setArray, form_putMem, memoryForm_iff]

theorem keeps_arrayCommandExecute (quad) : KeepsForm (execArrayCommandExecute quad s) := by
  unfold execArrayCommandExecute
  grind only [form_runArray, mem_setArray, memoryForm_iff, keepsForm_next]

theorem keeps_arrayCommandCompletion (quad) : KeepsForm (execArrayCommandCompletion quad s) := by
  unfold execArrayCommandCompletion
  repeat' split
  all_goals exact hs

theorem keeps_leaseGrant (quad) : KeepsForm (execLeaseGrant quad s) := by
  unfold execLeaseGrant
  dsimp only
  repeat' split
  all_goals exact hs

theorem keeps_leaseClockExpiry (quad) : KeepsForm (execLeaseClockExpiry quad s) := by
  unfold execLeaseClockExpiry
  dsimp only
  split <;> exact hs

theorem keeps_arrayFault (tile reason) : KeepsForm (s.arrayFault tile reason) := keeps_fault hs ..

theorem keeps_atArray (a) {k : ArrayUnit → Out} (hk : ∀ u, KeepsForm (k u)) : KeepsForm (s.atArray a k) := by
  unfold State.atArray
  grind only [keeps_waitFor, mem_requestLease, memoryForm_iff]

theorem keeps_acceptArray (f u op claim ends tile upd) : KeepsForm (s.acceptArray f u op claim ends tile upd) := hs

theorem keeps_withTile (u n) {k : ArrayUnit → Tile → Bool → Out} (hk : ∀ u t b, KeepsForm (k u t b)) :
    KeepsForm (s.withTile u n k) := by
  unfold State.withTile
  grind only [keeps_arrayFault]

theorem keeps_xlease : KeepsForm (execXlease s) := by
  refine keeps_issue hs _ _ fun t ht => ?_
  grind only [mem_retire, keeps_waitFor, mem_requestLease, memoryForm_iff, keepsForm_next]

theorem keeps_xcfg (a) : KeepsForm (execXcfg a s) := by
  refine keeps_issue hs _ _ fun t ht => keeps_atArray ht _ fun a => ?_
  grind only [keeps_acceptArray, keeps_illegal]

theorem keeps_xcfgTab (a) : KeepsForm (execXcfgTab a s) := by
  refine keeps_issue hs _ _ fun t ht => keeps_atArray ht _ fun a => ?_
  grind only [keeps_arrayFault, keeps_acceptArray]

theorem keeps_xwait : KeepsForm (execXwait s) := by
  refine keeps_issue hs _ _ fun t ht => ?_
  split <;> exact ht

theorem keeps_xstatInstr (i clears n a) : KeepsForm (xstatInstr i clears n a s) := by
  refine keeps_issue hs _ _ fun t ht => ?_
  dsimp only
  repeat' split
  all_goals exact ht

theorem keeps_xloadInstr (i a b r isB) : KeepsForm (xloadInstr i a b r isB s) := by
  refine keeps_issue hs _ _ fun t ht => keeps_atArray ht _ fun a => ?_
  grind only [keeps_arrayFault, keeps_acceptArray]

theorem keeps_xscaleInstr (i a r isB) : KeepsForm (xscaleInstr i a r isB s) := by
  refine keeps_issue hs _ _ fun t ht => keeps_atArray ht _ fun a => ?_
  grind only [keeps_arrayFault, keeps_acceptArray]

theorem keeps_xunf (a) : KeepsForm (execXunf a s) := by
  refine keeps_issue hs _ _ fun t ht => keeps_atArray ht _ fun a => ?_
  grind only [keeps_arrayFault, keeps_waitFor, keeps_acceptArray]

theorem keeps_xmmaInstr (i c m n complex) : KeepsForm (xmmaInstr i c m n complex s) := by
  refine keeps_issue hs _ _ fun t ht => keeps_atArray ht _ fun a => ?_
  grind only [keeps_withTile, keeps_arrayFault, keeps_acceptArray]

theorem keeps_xzeroInstr (i f c kind bias) : KeepsForm (xzeroInstr i f c kind bias s) := by
  refine keeps_issue hs _ _ fun t ht => keeps_atArray ht _ fun a => ?_
  grind only [keeps_withTile, keeps_acceptArray]

theorem keeps_xdrn (c a b f p k r) : KeepsForm (execXdrn c a b f p k r s) := by
  refine keeps_issue hs _ _ fun t ht => keeps_atArray ht _ fun a => ?_
  grind only [keeps_withTile, keeps_arrayFault, keeps_waitFor, keeps_acceptArray]

/-! ### Branches and fetch faults -/

theorem keeps_jumpTo (f target link) : KeepsForm (jumpTo s f target link) := by
  unfold jumpTo
  grind only [keeps_fault, mem_retireTo, memoryForm_iff, keepsForm_next]

theorem keeps_br (c a b o) : KeepsForm (execBr c a b o s) := by
  refine keeps_issue hs _ _ fun t ht => ?_
  grind only [keeps_jumpTo, mem_retire, memoryForm_iff, keepsForm_next]

theorem keeps_beqzC (a o) : KeepsForm (execBeqzC a o s) := by
  refine keeps_issue hs _ _ fun t ht => ?_
  grind only [keeps_jumpTo, mem_retire, memoryForm_iff, keepsForm_next]

theorem keeps_bnezC (a o) : KeepsForm (execBnezC a o s) := by
  refine keeps_issue hs _ _ fun t ht => ?_
  grind only [keeps_jumpTo, mem_retire, memoryForm_iff, keepsForm_next]

theorem keeps_repn (d) : KeepsForm (execRepn d s) := by
  refine keeps_issue hs _ _ fun t ht => ?_
  grind only [keeps_jumpTo, mem_updMe, memoryForm_iff, keepsForm_next]

theorem keeps_hint (o h) : KeepsForm (execHint o h s) := by
  unfold execHint
  grind only [keeps_issueCode, mem_retire, memoryForm_iff, keepsForm_next]

theorem keeps_illegalEncoding (bits wide) : KeepsForm (execIllegalEncoding bits wide s) := keeps_fault hs ..
theorem keeps_fetchBounds (outside) : KeepsForm (execFetchBounds outside s) := keeps_fault hs ..

/-! ### Dispatch, offers and launches' ends -/

theorem form_begin (c x t o) : (s.begin c x t o).MemoryForm := by
  unfold State.begin
  grind only [form_startTask, mem_updCore, memoryForm_iff]

theorem form_dispatchStolen (c x) : (s.dispatchStolen c x).MemoryForm := by
  unfold State.dispatchStolen
  grind only [form_begin, mem_updCore, memoryForm_iff]

theorem form_dispatch (c x) : (s.dispatch c x).MemoryForm := by
  unfold State.dispatch
  grind only [mem_firstMessage, mem_updCore, form_begin, form_refillDeque, form_dispatchStolen, mem_admission, form_popBottom,
    memoryForm_iff]

theorem keeps_dispatch (core) : KeepsForm (execDispatch core s) := by
  unfold execDispatch
  grind only [form_dispatch, keepsForm_next]

theorem form_offer (c x i dest d) : (s.offer c x i dest d).MemoryForm := by
  unfold State.offer
  grind only [givenForm_accept, mem_dropDrain, mem_refuseDrain, memoryForm_iff, givenForm_some, id]

theorem form_claim (launch c t payload) : (s.claim launch c t payload).MemoryForm := by
  unfold State.claim
  grind only [mem_updCore, form_takeEntry, form_startTask, memoryForm_iff]

theorem form_walk (c x i d) : (s.walk c x i d).MemoryForm := by
  unfold State.walk
  grind only [mem_firstClaim, mem_dropDrain, form_claim, mem_unmarkBut, mem_refuseDrain, givenForm_pushTop, memoryForm_iff,
    givenForm_some, id]

theorem form_offerSome (c x refused hint) : (s.offerSome c x refused hint).MemoryForm := by
  unfold State.offerSome
  grind only [form_releaseLocal, mem_pick, form_offer, form_walk, memoryForm_iff]

theorem keeps_spawnRequest (core ctx slot) : KeepsForm (execSpawnRequest core ctx slot s) := by
  unfold execSpawnRequest
  dsimp only
  repeat' split
  all_goals exact hs

theorem keeps_childStart (core ctx) : KeepsForm (execChildStart core ctx s) := by
  unfold execChildStart
  grind only [mem_admission, form_startTask, memoryForm_iff, keepsForm_next]

theorem keeps_stealProbe (core) : KeepsForm (execStealProbe core s) := by
  unfold execStealProbe
  dsimp only
  repeat' split
  all_goals exact hs

theorem givenForm_giveTop (c v) : GivenForm Prod.snd (s.giveTop c v) := by
  unfold State.giveTop
  grind only [givenForm_takeTop, givenForm_none]

theorem form_takeStolen (c r) : (s.takeStolen c r).MemoryForm := by
  unfold State.takeStolen
  grind only [form_pushBottom, mem_admission, mem_updCore, memoryForm_iff]

theorem keeps_stealReply (core) : KeepsForm (execStealReply core s) := by
  unfold execStealReply
  grind only [givenForm_giveTop, mem_unmarkBut, form_takeStolen, mem_updCore, memoryForm_iff, keepsForm_next, givenForm_some]

theorem keeps_startMessage (core) : KeepsForm (execStartMessage core s) := by
  unfold execStartMessage
  grind only [mem_updCore, mem_setLaunch, givenForm_accept, memoryForm_iff, keepsForm_next, givenForm_some, id]

theorem form_flushCaches (cores) : (s.flushCaches cores).MemoryForm := by
  unfold State.flushCaches
  grind only [form_foldl, mem_updQuad, form_drainAll, mem_updCore, memoryForm_iff]

theorem form_dropAll (n l) : (s.dropAll n l).MemoryForm := by
  unfold State.dropAll
  grind only [form_foldl, form_dropRecording, memoryForm_iff]

theorem form_endLaunch (n l status) : (s.endLaunch n l status).MemoryForm := by
  unfold State.endLaunch
  grind only [mem_unmarkLaunch, mem_freeCores, mem_endLeases, form_dropAll, form_flushCaches, mem_setChain, memoryForm_iff]

theorem keeps_launchComplete (launch) : KeepsForm (execLaunchComplete launch s) := by
  unfold execLaunchComplete
  grind only [form_endLaunch, keepsForm_next]

/-! ### Control and system instructions -/

theorem keeps_crr (d n) : KeepsForm (execCrr d n s) := by
  unfold execCrr
  grind only [keeps_illegal, keeps_issue, mem_retire, memoryForm_iff, keepsForm_next]

theorem keeps_cwr (r n) : KeepsForm (execCwr r n s) := by
  unfold execCwr
  grind only [keeps_illegal, keeps_issue, mem_retire, memoryForm_iff, keepsForm_next]

theorem keeps_tret : KeepsForm (execTret s) := by
  refine keeps_issue hs _ _ fun t ht => ?_
  grind only [keeps_fault, mem_forgetPlaces, mem_retireTo, memoryForm_iff, keepsForm_next]

theorem keeps_sleep (r) : KeepsForm (execSleep r s) := by
  refine keeps_issue hs _ _ fun t ht => ?_
  dsimp only
  repeat' split
  all_goals exact ht

theorem keeps_halt : KeepsForm (execHalt s) := by
  refine keeps_issue hs _ _ fun t ht => ?_
  grind only [mem_abort, memoryForm_iff, keepsForm_next]

theorem keeps_killctx (d a m) : KeepsForm (execKillctx d a m s) := by
  refine keeps_issue hs _ _ fun t ht => ?_
  grind only [mem_retire, mem_startRemoval, memoryForm_iff, keepsForm_next]

theorem keeps_tlbi (a m b n) : KeepsForm (execTlbi a m b n s) := by
  refine keeps_issue hs _ _ fun t ht => ?_
  grind only [keeps_illegal, keeps_fault, mem_retire, mem_updCore, mem_updMe, mem_reachCore, memoryForm_iff, keepsForm_next]

theorem form_mergeShot (n) : (s.mergeShot n).MemoryForm := by
  unfold State.mergeShot
  grind only [form_foldl, form_mergeLine]

theorem keeps_tlbsync : KeepsForm (execTlbsync s) := by
  refine keeps_issue hs _ _ fun t ht => ?_
  grind only [form_foldl, mem_reachAll, mem_acknowledged, form_mergeShot, mem_retire, keeps_waitFor, memoryForm_iff,
    keepsForm_next]

theorem keeps_watch (m n i r) : KeepsForm (execWatch m n i r s) :=
  keeps_issue hs _ _ fun _ ht => keeps_orFault ht fun _ => keeps_placed ht ht _ _ _ _ _ fun _ _ hu => hu
theorem keeps_sstep (i v) : KeepsForm (sstep i v s) := keeps_issue hs _ _ fun _ ht => ht

theorem keeps_snap (d) : KeepsForm (execSnap d s) := by
  refine keeps_issue hs _ _ fun t ht => ?_
  grind only [keeps_waitFor, mem_retire, mem_fireTrigger, mem_updMe, memoryForm_iff, keepsForm_next]

theorem keeps_gustInstr (i traps d r) : KeepsForm (gustInstr i traps d r s) := by
  refine keeps_issue hs _ _ fun t ht => ?_
  grind only [mem_grantGust, mem_retire, keeps_fault, memoryForm_iff, keepsForm_next]

theorem keeps_gustrel (d) : KeepsForm (execGustrel d s) := by
  refine keeps_issue hs _ _ fun t ht => ?_
  dsimp only
  split <;> exact ht

/-! ### Copies, gathers and their signals, and the waits on objects -/

theorem form_claimAfter (first cl spans) : (s.claimAfter first cl spans).MemoryForm := by
  unfold State.claimAfter
  grind only [mem_foldl, mem_closeTiles, form_recallSpans, memoryForm_iff]

theorem form_claimSpans (cl spans) : (s.claimSpans cl spans).MemoryForm := form_claimAfter hs ..

theorem foundForm_engineHome (info w p) : FoundForm (s.engineHome info w p) := by
  unfold State.engineHome
  grind only [mem_l2Drop, memoryForm_iff, foundForm_ok, foundForm_bad, foundForm_wait]

theorem foundForm_engineLine (via cached info w p) : FoundForm (s.engineLine via cached info w p) := by
  unfold State.engineLine
  grind only [foundForm_engineHome, form_recall, mem_noteRead, foundForm_quadRead, memoryForm_iff, foundForm_ok, foundForm_bad,
    foundForm_wait]

theorem foundForm_engineRead (c hd via cl begun w l va acc) : FoundForm (s.engineRead c hd via cl begun w l va acc) := by
  induction l generalizing s va acc with
  | nil => exact hs
  | cons p l ih =>
    rw [State.engineRead]
    split
    · trivial
    · have hp := foundForm_engineLine hs via (hSpace hd == spGlobal || hSpace hd == spWeight)
        { s.readInfo c hd va (p.key / 64) with begun := begun || !acc.isEmpty, engine := true } w p
      dsimp only
      split
      · next e =>
        rw [e] at hp
        exact ih hp _ _
      · trivial
      · next e =>
        rw [e] at hp
        exact hp

theorem fetchedForm_fetchRegion (c via cl h off len begun) : FetchedForm (s.fetchRegion c via cl h off len begun) := by
  unfold State.fetchRegion
  grind only [foundForm_engineRead, mem_openTile, memoryForm_iff, foundForm_ok, fetchedForm_ok, fetchedForm_held,
    fetchedForm_failed]

/-- An engine writes through the homes, an instruction store, or memory. -/
theorem form_engineWrite (c hd spans b kind n) : (s.engineWrite c hd spans b kind n).MemoryForm := by
  unfold State.engineWrite
  split
  · exact form_of_mem (form_homeWrite hs ..) (mem_l2Leave ..)
  · refine form_foldl _ _ _ (fun t p ht => ?_) hs
    obtain ⟨p, b⟩ := p
    dsimp only
    split
    · exact form_putIstore ht ..
    · exact form_putMem ht ..

/-- The completion signal of a command is an update of its object at the home. -/
theorem form_signal (c key log ckind w count slot err kind n quads) :
    (s.signal c key log ckind w count slot err kind n quads).MemoryForm := by
  have hd := form_dirtyLine (form_recall hs (key / 64)) ((s.core c).launch.getD 0) (key / 64) log false
  have hh := form_foldl quads _ (fun s q => s.recordReleases key (objectSize ckind) q)
    (fun _ _ ht => form_recordReleases ht _ _ _) hd
  unfold State.signal
  dsimp only
  split
  · exact form_of_mem (form_barUpdate hh ..) (mem_watchWrite ..)
  · exact form_of_mem (form_ringFill hh ..) (mem_watchWrite ..)
  · exact form_of_mem (form_syncWrite hh ..) (mem_watchWrite ..)
  · exact hs

theorem givenForm_endCommand (c hbs cl ohb ckind ooff w count slot err kind n quads) :
    GivenForm Prod.snd (s.endCommand c hbs cl ohb ckind ooff w count slot err kind n quads) := by
  unfold State.endCommand
  split
  · exact hs
  · split
    · exact hs
    · split
      · exact hs
      · split
        · trivial
        · exact form_signal hs ..

theorem form_claimRegion (c cl h off len) : (s.claimRegion c cl h off len).MemoryForm := form_claimSpans hs ..

theorem keeps_cpyInstr (i nb d a m) : KeepsForm (cpyInstr i nb d a m s) := by
  refine keeps_issue hs _ _ fun t ht => keeps_orFault ht fun e => ?_
  grind only [keeps_orFault, mem_retire, keeps_waitFor, mem_retireTo, mem_updCore, form_claimRegion, memoryForm_iff,
    keepsForm_next]

theorem keeps_cpyst (d sel) : KeepsForm (execCpyst d sel s) := by
  refine keeps_issue hs _ _ fun t ht => ?_
  split <;> exact ht

theorem keeps_beginCopy (op core) : KeepsForm (beginCopy op core s) := by
  unfold beginCopy
  repeat' split
  all_goals exact hs

theorem keeps_ringReserve (core) : KeepsForm (execRingReserve core s) := by
  have hset (t : State) (k) (ht : t.MemoryForm) : (t.setHead core k).MemoryForm := form_of_mem ht (mem_setHead _ _ _)
  unfold execRingReserve
  split
  · exact hs
  · next k _ =>
    dsimp only
    split
    · exact hs
    · split
      · exact hset _ _ hs
      · split
        · exact hset _ _ hs
        · next key log _ =>
          have hd := form_dirtyLine (form_recall hs (key / 64)) ((s.core core).launch.getD 0) (key / 64) log false
          have hr := form_ringReserve hd key
          split
          · exact hs
          · next e =>
            rw [e] at hr
            have hw := form_of_mem hr (mem_watchWrite _ [⟨key, 8, false⟩] 2 (quadOf core) none)
            split
            · exact hset _ _ hw
            · split
              · exact hset _ _ hw
              · exact form_claimAfter (hset _ _ hw) _ _ _

theorem fetchedForm_fetchSources (c cl hd off l acc begun) : FetchedForm (s.fetchSources c cl hd off l acc begun) := by
  induction l generalizing s acc begun with
  | nil => exact hs
  | cons p l ih =>
    rw [State.fetchSources]
    split
    · exact ih hs _ _
    · next o _ =>
      have ho := fetchedForm_fetchRegion hs c (some (quadOf c)) cl hd (off + o) p.len begun
      split
      · next e =>
        rw [e] at ho
        exact ih ho _ _
      · exact ho

theorem serveForm_copyChunk (c) : ServeForm (s.copyChunk c) := by
  have hset (t : State) (k) (ht : t.MemoryForm) : (t.setHead c k).MemoryForm := form_of_mem ht (mem_setHead _ _ _)
  unfold State.copyChunk
  split
  · trivial
  · next k _ =>
    dsimp only
    split
    · split <;> trivial
    · split
      · trivial
      · split
        · trivial
        · split
          · exact hset _ _ hs
          · split
            · exact hset _ _ hs
            · refine serveForm_serve ?_ _ (fun _ => hset _ _ hs) fun t b ht =>
                hset _ _ (form_of_mem (form_engineWrite ht _ _ _ _ _ _) (mem_releaseSpans _ _ _ _))
              split
              · exact hs
              · split
                · trivial
                · exact fetchedForm_fetchSources hs _ _ _ _ _ _ _

theorem givenForm_firstChunk (l) : GivenForm Prod.snd (s.firstChunk l) := by
  induction l with
  | nil => trivial
  | cons c l ih =>
    have hc := serveForm_copyChunk hs c
    rw [State.firstChunk]
    split
    · next e =>
      rw [e] at hc
      exact hc
    · exact ih

theorem keeps_engineChunk (quad) : KeepsForm (execEngineChunk quad s) := by
  unfold execEngineChunk
  grind only [givenForm_firstChunk, mem_pick, mem_updQuad, memoryForm_iff, keepsForm_next, givenForm_some]

theorem form_completeCopy (c) : (s.completeCopy c).MemoryForm := by
  unfold State.completeCopy
  grind only [mem_releaseAll, givenForm_endCommand, mem_updCore, mem_engineError, memoryForm_iff, givenForm_some]

theorem keeps_refFault (reason) : KeepsForm (s.refFault reason) := keeps_fault hs ..

theorem foundForm_readDesc (h off spans) : FoundForm (s.readDesc h off spans) := by
  unfold State.readDesc
  grind only [foundForm_load, foundForm_ok, foundForm_bad, foundForm_wait]

theorem keeps_waitWith (d w) : KeepsForm (s.waitWith d w) := hs

theorem keeps_gather (d a m b n) : KeepsForm (execGather d a m b n s) := by
  refine keeps_issue hs _ _ fun t ht => ?_
  grind only [keeps_refFault, keeps_orFault, keeps_placed, keeps_found, foundForm_readDesc, keeps_waitWith, form_drainAll,
    mem_retireTo, mem_setGather, form_claimRegion, memoryForm_iff, keepsForm_next]

theorem fetchedForm_fetchRow (k cl index) : FetchedForm (s.fetchRow k cl index) := by
  unfold State.fetchRow
  grind only [fetchedForm_fetchRegion, fetchedForm_ok, fetchedForm_failed]

theorem serveForm_gatherRow (die engine strm) : ServeForm (s.gatherRow die engine strm) := by
  have hset (t : State) (k) (ht : t.MemoryForm) : (t.setGatherHead (gatherIndex die engine) strm k).MemoryForm :=
    form_of_mem ht (mem_setGatherHead _ _ _ _)
  unfold State.gatherRow
  dsimp only
  split
  · trivial
  · next k _ =>
    split
    · trivial
    · split
      · next h ih _ _ =>
        split
        · exact hset _ _ hs
        · refine serveForm_serve ?_ _ (fun _ => hset _ _ hs) fun t b ht =>
            hset _ _ (form_of_mem (form_engineWrite ht _ _ _ _ _ _) (mem_releaseSpans _ _ _ _))
          have hf := fetchedForm_fetchRegion hs k.core none (.gather die engine strm.val k.count) ih
            ((gatherReq k.desc).ioff + k.row * (gatherReq k.desc).isize) (gatherReq k.desc).isize false
          split
          · next e =>
            rw [e] at hf
            exact fetchedForm_fetchRow hf _ _ _
          · exact hf
      · exact hset _ _ hs

theorem keeps_gatherRow (die engine stream) : KeepsForm (execGatherRow die engine stream s) := by
  unfold execGatherRow
  grind only [serveForm_gatherRow, mem_pick, mem_setGather, memoryForm_iff, keepsForm_next, serveForm_done]

theorem form_completeGather (die engine strm) : (s.completeGather die engine strm).MemoryForm := by
  unfold State.completeGather
  grind only [mem_releaseAll, givenForm_endCommand, mem_setGather, mem_engineError, memoryForm_iff, givenForm_some]

theorem keeps_refPlace (ref reason write spaces size) {k : State → BitVec 256 → Span → Out}
    (hk : ∀ (t : State) hd p, t.MemoryForm → KeepsForm (k t hd p)) : KeepsForm (s.refPlace ref reason write spaces size k) := by
  unfold State.refPlace
  grind only [keeps_refFault, keeps_orFault, keeps_placed, keeps_waitFor]

theorem keeps_objectStore (f h off p op b rel) : KeepsForm (s.objectStore f h off p op b rel) :=
  form_of_mem hs (mem_releaseStore ..)

theorem keeps_homeWait (hd off key size) {done : State → Word → Out} {k : State → Out}
    (hdone : ∀ (t : State) v, t.MemoryForm → KeepsForm (done t v)) (hk : ∀ t : State, t.MemoryForm → KeepsForm (k t)) :
    KeepsForm (s.homeWait hd off key size done k) := by
  unfold State.homeWait
  grind only [form_acquire, mem_l2Leave, keeps_waitFor, form_mergeSpans, keeps_fault, memoryForm_iff]

theorem keeps_rawait (d a m b n) : KeepsForm (execRawait d a m b n s) := by
  refine keeps_issue hs _ _ fun t ht => keeps_refPlace ht _ _ _ _ _ fun u hd p hu => ?_
  grind only [mem_retire, keeps_homeWait, mem_objWords, form_acquire, keeps_waitFor, memoryForm_iff, keepsForm_next]

theorem keeps_barxb (a m b n) : KeepsForm (execBarxb a m b n s) :=
  keeps_issue hs _ _ fun _ ht => keeps_refPlace ht _ _ _ _ _ fun _ _ _ hu => keeps_orFault hu fun _ => keeps_objectStore hu ..

theorem keeps_barwait (a m b n) : KeepsForm (execBarwait a m b n s) := by
  refine keeps_issue hs _ _ fun t ht => keeps_refPlace ht _ _ _ _ _ fun u hd p hu => ?_
  grind only [mem_retire, keeps_homeWait, mem_objWords, form_acquire, keeps_waitFor, memoryForm_iff, keepsForm_next]

theorem keeps_seqwait (a m b n) : KeepsForm (execSeqwait a m b n s) := by
  refine keeps_issue hs _ _ fun t ht => keeps_refPlace ht _ _ _ _ _ fun u hd p hu => ?_
  grind only [mem_retire, keeps_homeWait, mem_free, form_acquire, keeps_waitFor, memoryForm_iff, keepsForm_next]

/-! ### Chains, the host and launches -/

theorem form_acquireWord (key) : (s.acquireWord key).2.MemoryForm := by
  unfold State.acquireWord
  grind only [form_mergeHome, form_acquire, mem_free, memoryForm_iff]

theorem form_procWrite (ch spans b) : (s.procWrite ch spans b).MemoryForm :=
  form_of_mem (form_homeWrite hs ..) (mem_plainWriteSync ..)
theorem form_headerWord (ch o v) : (s.headerWord ch o v).MemoryForm := form_procWrite hs ..

theorem keeps_chainRegistrationWrite (chain value) : KeepsForm (execChainRegistrationWrite chain value s) := by
  unfold execChainRegistrationWrite
  split <;> exact hs

theorem form_haltChain (ch reason) : (s.haltChain ch reason).MemoryForm := form_headerWord hs ..

theorem form_beginEntry (ch) : (s.beginEntry ch).MemoryForm := by
  unfold State.beginEntry
  grind only [mem_setChain, form_headerWord, form_claimSpans, memoryForm_iff]

theorem form_pollTail (ch) : (s.pollTail ch).MemoryForm := by
  unfold State.pollTail
  grind only [mem_readHeader, form_acquireWord, form_haltChain, form_beginEntry, memoryForm_iff]

theorem keeps_tailPoll (chain) : KeepsForm (execTailPoll chain s) := by
  unfold execTailPoll
  split
  · exact hs
  · exact form_pollTail hs ..

theorem keeps_breakpointClear (chain) : KeepsForm (execBreakpointClear chain s) := by
  unfold execBreakpointClear
  grind only [form_beginEntry, mem_setChain, memoryForm_iff, keepsForm_next]

theorem keeps_chainEntryCompletion (chain) : KeepsForm (execChainEntryCompletion chain s) := by
  unfold execChainEntryCompletion
  grind only [mem_releaseAll, form_procWrite, form_headerWord, mem_setChain, mem_signalVector, memoryForm_iff, keepsForm_next]

theorem keeps_inEntry (ch ty) {k : Chain → List Byte → State} (hk : ∀ h e, (k h e).MemoryForm) :
    KeepsForm (s.inEntry ch ty k) := by
  unfold State.inEntry
  grind only [keepsForm_next]

theorem keeps_unknownChainEntryType (chain) : KeepsForm (execUnknownChainEntryType chain s) := by
  unfold execUnknownChainEntryType
  grind only [form_haltChain, mem_releaseAll, mem_setChain, memoryForm_iff, keepsForm_next]

theorem keeps_root (chain) : KeepsForm (execRoot chain s) := by
  refine keeps_inEntry hs _ _ fun c e => ?_
  grind only [mem_endEntry, mem_setChain, memoryForm_iff]

theorem form_entryPlace (ch va len write) {k : List Span → State} (hk : ∀ l, (k l).MemoryForm) :
    (s.entryPlace ch va len write k).MemoryForm := by
  unfold State.entryPlace
  grind only [mem_endEntry, memoryForm_iff]

theorem keeps_wait (chain) : KeepsForm (execWait chain s) := by
  refine keeps_inEntry hs _ _ fun c e => ?_
  grind only [mem_endEntry, form_entryPlace, form_acquireWord, memoryForm_iff]

theorem keeps_signal (chain) : KeepsForm (execSignal chain s) := by
  refine keeps_inEntry hs _ _ fun c e => ?_
  grind only [mem_endEntry, form_entryPlace, form_procWrite, memoryForm_iff]

theorem keeps_window (chain) : KeepsForm (execWindow chain s) := by
  refine keeps_inEntry hs _ _ fun c e => ?_
  grind only [mem_endEntry, mem_setLaunch, memoryForm_iff]

theorem keeps_logcfg (chain) : KeepsForm (execLogcfg chain s) := by
  refine keeps_inEntry hs _ _ fun c e => ?_
  grind only [form_foldl, mem_endEntry, form_flushLog, form_procWrite, memoryForm_iff]

theorem keeps_obscfg (chain) : KeepsForm (execObscfg chain s) := by
  refine keeps_inEntry hs _ _ fun c e => ?_
  grind only [mem_endEntry, memoryForm_iff]

theorem keeps_flush (chain) : KeepsForm (execFlush chain s) := by
  refine keeps_inEntry hs _ _ fun c e => ?_
  grind only [form_foldl, mem_endEntry, form_mergeHome, memoryForm_iff]

theorem form_copyWeight (ch n va len die o) : (s.copyWeight ch n va len die o).MemoryForm := by
  unfold State.copyWeight
  grind only [mem_endCopy, form_putMem, form_recallSpans, mem_ioStall, memoryForm_iff]

theorem form_copyPart (ch h n src va len) : (s.copyPart ch h n src va len).MemoryForm := by
  unfold State.copyPart
  grind only [mem_endCopy, mem_ioStall, form_procWrite, mem_progress, mem_releaseSpans, memoryForm_iff]

theorem keeps_copy (chain) : KeepsForm (execCopy chain s) := by
  refine keeps_inEntry hs _ _ fun c e => ?_
  grind only [mem_endCopy, form_copyWeight, form_copyPart, memoryForm_iff]

/-- A core's code is loaded over an instruction store cleared of what it held. -/
theorem form_loadCode (c image) : (s.loadCode c image).MemoryForm :=
  wf_foldl image (fun _ _ w => wf_set w _ _) (wfFrom_filter _ hs)

theorem form_loadSteps (ch x) : (s.loadSteps ch x).MemoryForm := by
  unfold State.loadSteps
  grind only [form_foldl, mem_dropWaiting, form_loadCode, mem_updCore, mem_updQuad, memoryForm_iff]

theorem keeps_launch (chain) : KeepsForm (execLaunch chain s) := by
  refine keeps_inEntry hs _ _ fun c e => ?_
  grind only [mem_endEntry, mem_progress, mem_setLaunch, form_loadSteps, memoryForm_iff]

theorem keeps_suspend (chain) : KeepsForm (execSuspend chain s) := by
  refine keeps_inEntry hs _ _ fun c e => ?_
  grind only [mem_foldl, mem_endEntry, mem_updCore, mem_progress, mem_setLaunch, mem_freeCores, mem_endLeases,
    mem_unmarkLaunch, memoryForm_iff]

theorem givenForm_writePieces (n l base pieces) : GivenForm id (s.writePieces n l base pieces) := by
  induction pieces generalizing s with
  | nil => exact hs
  | cons p pieces ih =>
    have hp := givenForm_writeVirtual hs n l (base + p.1) p.2
    rw [State.writePieces]
    split
    · next e =>
      rw [e] at hp
      exact ih hp
    · trivial

theorem form_keepStolen (c) : (s.keepStolen c).MemoryForm := by
  unfold State.keepStolen
  grind only [form_pushBottom, mem_updCore, mem_returnRecord, memoryForm_iff]

theorem keeps_coreSuspend (core) : KeepsForm (execCoreSuspend core s) := by
  unfold execCoreSuspend
  grind only [form_keepStolen, givenForm_writePieces, mem_setLaunch, mem_setCore, memoryForm_iff, keepsForm_next,
    givenForm_some, id]

theorem form_putBack (c k x) : (s.putBack c k x).MemoryForm := by
  unfold State.putBack
  grind only [form_foldl, form_putMem, mem_updCore, memoryForm_iff]

theorem keeps_resume (chain) : KeepsForm (execResume chain s) := by
  have hend (t : State) (ht : t.MemoryForm) (st) : (t.endEntry chain st).MemoryForm := form_of_mem ht (mem_endEntry _ _ _)
  refine keeps_inEntry hs _ _ fun _ e => ?_
  dsimp only
  split
  · exact hs
  · exact hend _ hs _
  · split
    · exact hend _ hs _
    · split
      · exact hend _ hs _
      · split
        · exact hend _ hs _
        · split
          · exact hs
          · split
            · refine hend _ (form_foldl _ _ _ ?_ ?_) _
              · rintro t ⟨c, k, r⟩ ht
                dsimp only
                split
                · exact form_putBack ht _ _ _
                · exact ht
              · exact form_of_mem (s := s.loadSteps chain _) (form_loadSteps hs _ _) rfl
            · exact hend _ hs _

theorem keeps_resumeMessage (core) : KeepsForm (execResumeMessage core s) := by
  unfold execResumeMessage
  grind only [form_foldl, mem_setLaunch, mem_acknowledged, form_drainQuad, mem_updCore, memoryForm_iff, keepsForm_next]

theorem keeps_remove (chain) : KeepsForm (execRemove chain s) := by
  refine keeps_inEntry hs _ _ fun c e => ?_
  grind only [mem_endEntry, mem_startRemoval, mem_setLaunch, mem_progress, memoryForm_iff]

theorem keeps_killFlood (launch core) : KeepsForm (execKillFlood launch core s) := by
  unfold execKillFlood
  grind only [mem_foldl, mem_setLaunch, mem_closeWindow, mem_dropWaiting, mem_dropRemote, mem_dropCommands, mem_returnAll,
    mem_updQuad, mem_updCore, memoryForm_iff, keepsForm_next]

theorem keeps_sweepEnd (launch) : KeepsForm (execSweepEnd launch s) := by
  unfold execSweepEnd
  grind only [mem_foldl, mem_updCore, mem_settle, mem_setLaunch, memoryForm_iff, keepsForm_next]

theorem keeps_removalConfirmation (launch) : KeepsForm (execRemovalConfirmation launch s) := by
  unfold execRemovalConfirmation
  grind only [form_endLaunch, mem_endEntry, memoryForm_iff, keepsForm_next]

theorem keeps_hostWrite (link offset data) : KeepsForm (execHostWrite link offset data s) := by
  unfold execHostWrite
  grind only [form_foldl, mem_plainWriteSync, form_homeWrite, form_putMem, memoryForm_iff, keepsForm_next]

theorem keeps_hostRegisterWrite (offset value) : KeepsForm (execHostRegisterWrite offset value s) := by
  unfold execHostRegisterWrite
  dsimp only
  repeat' split
  all_goals exact hs

/-! ### Late, vector and block accesses -/

theorem keeps_ldA (t b m h o) : KeepsForm (execLdA t b m h o s) := by
  refine keeps_issue hs _ _ fun t ht => keeps_orFault ht fun e => keeps_withSlot ht fun n =>
      keeps_placed ht ht _ _ _ _ _ fun l u hu => ?_
  grind only [keeps_orFault, keeps_placed, mem_retire, mem_sendRemote, foundForm_load, memoryForm_iff, keepsForm_next,
    foundForm_ok, foundForm_bad]

theorem keeps_vectorLoad (i v b m h o nc) : KeepsForm (vectorLoad i v b m h o nc s) :=
  keeps_issue hs _ _ fun _ ht => keeps_loadAt ht _ _ _ _ _ fun _ _ hu => hu

theorem passedForm_placeLanes (n write hd l) : PassedForm (fun r => r.2.2) (s.placeLanes n write hd l) := by
  induction l generalizing s hd with
  | nil => exact hs
  | cons o l ih =>
    rw [State.placeLanes]
    cases s.chkAccess s.cur.1 s.hbs n o 4 ⟨write, vectorSpaces, 4, true⟩ with
    | error e => trivial
    | ok hd =>
      have hp := passedForm_placeCore hs s.cur.1 hd o.toNat 4 write
      dsimp only [bind, Except.bind]
      cases e : s.placeCore s.cur.1 hd o.toNat 4 write with
      | error e => trivial
      | ok r =>
        rw [e] at hp
        have hr := ih (s := r.2) hp hd
        dsimp only
        cases e : r.2.placeLanes n write hd l with
        | error e => trivial
        | ok a =>
          rw [e] at hr
          exact hr

/-- The lanes of VLDS or VSTS go on with their places, if they have them (R282). -/
theorem keeps_placedLanes {u : State} (hu : u.MemoryForm) (n write hd l) {k : BitVec 256 × List (List Span) × State → Out}
    (hk : ∀ d p t, t.MemoryForm → KeepsForm (k (d, p, t))) : KeepsForm (s.orFault (u.placeLanes n write hd l) k) :=
  keeps_orFault_passed hs (passedForm_placeLanes hu _ _ _ _) fun a ha => hk a.1 a.2.1 a.2.2 ha

theorem foundForm_loadLanes (hd l acc) : FoundForm (s.loadLanes hd l acc).1 := by
  induction l generalizing s acc with
  | nil => exact hs
  | cons a l ih =>
    have ha := foundForm_loadOn hs hd a.1.toNat a.2 false !acc.isEmpty
    rw [State.loadLanes]
    split
    · next e =>
      rw [e] at ha
      exact ih ha _
    · trivial
    · next e =>
      rw [e] at ha
      exact ha

theorem keeps_vlds (v a b n) : KeepsForm (execVlds v a b n s) :=
  keeps_issue hs _ _ fun _ ht => keeps_placedLanes ht ht _ _ _ _ fun _ _ _ hu =>
    keeps_found hu (foundForm_loadLanes hu ..) _ fun _ _ hv => hv

theorem keeps_vsts (v a b h) : KeepsForm (execVsts v a b h s) := by
  refine keeps_issue hs _ _ fun t ht => ?_
  grind only [mem_foldl, keeps_orFault, keeps_placedLanes, keeps_waitFor, mem_retire, mem_takeOrdinal, mem_releaseLane,
    memoryForm_iff, keepsForm_next]

theorem keeps_blockStore (f move d a b n left hd spans bs) : KeepsForm (s.blockStore f move d a b n left hd spans bs) := by
  unfold State.blockStore
  grind only [mem_retireTo, mem_takeOrdinal, mem_releaseStore, memoryForm_iff, keepsForm_next]

theorem keeps_blkmv (d a b) : KeepsForm (execBlkmv d a b s) := by
  refine keeps_issue hs _ _ fun t ht => ?_
  dsimp only
  split
  · exact ht
  · exact keeps_orFault ht fun _ => keeps_placed ht ht _ _ _ _ _ fun _ _ hu => keeps_placedDst hu hu _ _ _ _ _ fun _ _ hv =>
      keeps_orFault hv fun _ => keeps_found hv (foundForm_load hv ..) _ fun _ _ hw => keeps_blockStore hw ..

theorem keeps_blkset (d a b) : KeepsForm (execBlkset d a b s) := by
  refine keeps_issue hs _ _ fun t ht => ?_
  grind only [keeps_fault, mem_retire, keeps_orFault, keeps_placedDst, keeps_waitFor, keeps_blockStore, memoryForm_iff,
    keepsForm_next]

/-! ### Acquires, releases, atomics and fences -/

theorem foundForm_readFar (spans) : FoundForm (s.readFar spans) := by
  unfold State.readFar
  grind only [foundForm_ok, foundForm_bad, foundForm_wait]

theorem foundForm_acquireRead (hd off spans wide) : FoundForm (s.acquireRead hd off spans wide) := by
  unfold State.acquireRead
  dsimp only
  split
  · exact foundForm_load hs ..
  · split
    · trivial
    · split
      · trivial
      · have ha := form_acquire hs ((spans.head?.map (·.key)).getD 0 / 8) (quadOf s.cur.1)
        split
        · exact foundForm_readFar ha ..
        · split
          · have hm := form_of_mem (form_mergeSpans ha spans) (mem_l2Leave _ hd spans)
            split
            · exact hm
            · exact hm
          · exact foundForm_loadHome ha ..

theorem keeps_ldAcq (d a sc e n) : KeepsForm (execLdAcq d a sc e n s) :=
  keeps_issue hs _ _ fun _ ht => keeps_orFault ht fun _ => keeps_placed ht ht _ _ _ _ _ fun _ _ hu =>
    keeps_found hu (foundForm_acquireRead hu ..) _ fun _ _ hv => hv

theorem keeps_stRel (d a sc e h) : KeepsForm (execStRel d a sc e h s) := by
  refine keeps_issue hs _ _ fun t ht => keeps_orFault ht fun e => ?_
  grind only [keeps_orFault, keeps_illegal, keeps_storeAt, mem_retire, mem_takeOrdinal, mem_releaseStore, memoryForm_iff,
    keepsForm_next]

/-- An atomic writes through the cache policy, the quad's copy, the object at its home, or memory itself; what its order acquires
and releases keeps the form too (R219, R220). -/
theorem foundForm_rmw (hd off spans size wide acq rel new) : FoundForm (s.rmw hd off spans size wide acq rel new) := by
  have order (t : State) (key q : Nat) (ht : t.MemoryForm) : (if wide ∧ acq then t.acquire key q else t).MemoryForm := by
    split
    · exact form_acquire ht _ _
    · exact ht
  have released (t : State) (key q : Nat) (ht : t.MemoryForm) :
      (if wide ∧ rel then t.recordReleases key size q else t).MemoryForm := by
    split
    · exact form_recordReleases ht _ _ _
    · exact ht
  unfold State.rmw
  dsimp only
  split
  · trivial
  · split
    · trivial
    · split
      · split
        · have hm := form_of_mem (form_mergeSpans hs spans) (mem_l2Leave _ hd spans)
          split
          · exact hm
          · split
            · exact order _ _ _ hm
            · exact form_policyWrite (order _ _ _ (released _ _ _ hm)) _ _ _ _ _ _ _
        · split
          · trivial
          · next u e =>
            have hu : FoundForm (.bad u : Found (BitVec 512)) := by
              rw [← e]
              exact foundForm_quadRead hs _ _ _ _ _
            exact hu
          · next u line e =>
            have hu : FoundForm (.ok u line) := by
              rw [← e]
              exact foundForm_quadRead hs _ _ _ _ _
            split
            · exact order _ _ _ hu
            · have hw := order _ (((spans.head?.map (·.key)).getD 0) / 8) (quadOf s.cur.1)
                (released _ ((spans.head?.map (·.key)).getD 0) (quadOf s.cur.1) hu)
              refine (foundForm_ok _ _).2 (form_of_mem ?_ (mem_updCore _ _ _))
              split
              · exact form_of_mem (form_storeCached hw _ _ _ _ _) (mem_watchWrite _ _ _ _ _)
              · exact hw
      · have hv := form_atHome hs spSync ((spans.head?.map (·.key)).getD 0 / 64)
        split
        · exact hv
        · split
          · exact order _ _ _ (by split <;> exact hv)
          · refine (foundForm_ok _ _).2 (form_of_mem (form_of_mem ?_ (mem_watchWrite _ _ _ _ _)) (mem_updCore _ _ _))
            refine form_syncWrite (form_dirtyLine (form_recall (order _ _ _ (released _ _ _ ?_)) _) _ _ _ _) _ _
            split <;> exact hv
      · split
        · exact hs
        · split
          · exact order _ _ _ hs
          · exact form_of_mem (form_putMem (order _ _ _ (released _ _ _ hs)) _ _) (mem_watchWrite _ _ _ _ _)

theorem keeps_rmwInstr (i f d a sc w n o new) : KeepsForm (rmwInstr i f d a sc w n o new s) :=
  keeps_issue hs _ _ fun _ ht => keeps_orFault ht fun _ => keeps_placed ht ht _ _ _ _ _ fun _ _ hu =>
    keeps_orFault hu fun _ => keeps_found hu (foundForm_rmw hu ..) _ fun _ _ hv => hv

theorem keeps_amo (i op d a sc w h o) : KeepsForm (amo i op d a sc w h o s) := by
  unfold amo
  grind only [keeps_rmwInstr]

theorem keeps_cas (d a sc w h o) : KeepsForm (execCas d a sc w h o s) := by
  unfold execCas
  grind only [keeps_rmwInstr]

theorem keeps_fence (i near) {act : State → State} (hact : ∀ t : State, t.MemoryForm → (act t).MemoryForm) :
    KeepsForm (fence i near act s) := by
  unfold fence
  grind only [keeps_issue, mem_retire, keeps_waitFor, memoryForm_iff, keepsForm_next]

theorem keeps_fenceAcq (sc) : KeepsForm (execFenceAcq sc s) :=
  keeps_fence hs _ _ fun _ ht => by
    split <;> exact ht

theorem keeps_fenceAcqInv (sc) : KeepsForm (execFenceAcqInv sc s) :=
  keeps_fence hs _ _ fun _ ht => by
    refine form_of_mem ?_ (mem_updCore ..)
    split <;> exact ht

theorem form_releaseFence (sc full) : (s.releaseFence sc full).MemoryForm := by
  unfold State.releaseFence
  grind only [form_drainAll, mem_passFence, memoryForm_iff]

theorem keeps_fenceRel (sc) : KeepsForm (execFenceRel sc s) := keeps_fence hs _ _ fun _ ht => form_releaseFence ht ..
theorem keeps_fenceFull (sc) : KeepsForm (execFenceFull sc s) := keeps_fence hs _ _ fun _ ht => form_releaseFence ht ..
theorem keeps_drain : KeepsForm (execDrain s) := keeps_fence hs _ _ fun _ ht => form_of_mem (form_drainAll ht ..) rfl
theorem keeps_ffence : KeepsForm (execFfence s) := keeps_fence hs _ _ fun _ ht => ht

theorem keeps_ldv (d a sc b n) : KeepsForm (execLdv d a sc b n s) := by
  refine keeps_issue hs _ _ fun t ht => keeps_orFault ht fun hd => keeps_withSlot ht fun slot =>
    keeps_placed ht ht _ _ _ _ _ fun l u hu => ?_
  dsimp only
  split
  · exact keeps_waitFor hu _
  · split
    · exact keeps_waitFor hu _
    · have hv := form_atHome hu spSync ((l.head?.map (·.key)).getD 0 / 64)
      split
      · exact keeps_fault hv _ _
      · split
        · refine form_of_mem ?_ (mem_retire _ _ _)
          split
          · exact form_acquire hv _ _
          · exact hv
        · split
          · exact hv
          · exact keeps_fault hv _ _

theorem keeps_stv (d a sc h) : KeepsForm (execStv d a sc h s) := by
  refine keeps_issue hs _ _ fun t ht => keeps_storeAt ht _ _ _ _ _ fun u hd l hu => ?_
  grind only [mem_releaseStore, mem_retire, memoryForm_iff, keepsForm_next]

theorem keeps_vrecl (d a h) : KeepsForm (execVrecl d a h s) := by
  refine keeps_issue hs _ _ fun t ht => keeps_storeAt ht _ _ _ _ _ fun u hd l hu => ?_
  grind only [mem_releaseStore, mem_retire, memoryForm_iff, keepsForm_next]

theorem keeps_objFault (reason) : KeepsForm (objFault s reason) := keeps_fault hs ..

theorem keeps_objdecl (d a h) : KeepsForm (execObjdecl d a h s) := by
  refine keeps_issue hs _ _ fun t ht => keeps_loadAt ht _ _ _ _ _ fun u b hu => ?_
  grind only [keeps_objFault, mem_retire, memoryForm_iff, keepsForm_next]

theorem keeps_objdrop (d) : KeepsForm (execObjdrop d s) := by
  unfold execObjdrop
  grind only [keeps_issueCode, keeps_objFault, mem_dropObject, mem_retire, memoryForm_iff, keepsForm_next]

/-! ### Reductions, collectives and remote packets -/

theorem fetchedForm_reductionSource (c cl h off len) : FetchedForm (s.reductionSource c cl h off len) := by
  unfold State.reductionSource
  grind only [form_mergeSpans, fetchedForm_fetchRegion, fetchedForm_failed]

theorem keeps_xred (d a m) : KeepsForm (execXred d a m s) := by
  refine keeps_issue hs _ _ fun t ht => ?_
  dsimp only
  split
  · exact keeps_fault ht _ _
  · refine keeps_orFault ht fun h => ?_
    split
    · exact keeps_waitFor ht _
    · split
      · exact keeps_fault ht _ _
      · split
        · next u b e =>
          have hu : FetchedForm (.ok u b) := by
            rw [← e]
            exact fetchedForm_reductionSource ht _ _ _ _ _
          refine (keepsForm_next _).2 (form_claimRegion ?_ _ _ _ _ _)
          exact hu
        · exact keeps_waitFor ht _
        · refine (keepsForm_next _).2 (form_claimRegion ?_ _ _ _ _ _)
          exact ht

theorem form_writeReduction (i r data) : (s.writeReduction i r data).MemoryForm := by
  unfold State.writeReduction
  grind only [form_engineWrite, memoryForm_iff]

theorem keeps_reductionResult (idx data bad) : KeepsForm (execReductionResult idx data bad s) := by
  unfold execReductionResult
  grind only [form_writeReduction, memoryForm_iff, keepsForm_next]

theorem givenForm_finishReduction (c ctx hbs cl ohb ckind ooff len count err taskId kind n quads) :
    GivenForm id (s.finishReduction c ctx hbs cl ohb ckind ooff len count err taskId kind n quads) := by
  refine givenForm_map (givenForm_endCommand hs c hbs cl ohb ckind ooff len count none err kind n _) ?_
  rintro ⟨_ | e, t⟩ ht
  · exact ht
  · exact form_of_mem ht (mem_engineError _ _ _ _ _)

theorem form_completeXred (i) : (s.completeXred i).MemoryForm := by
  unfold State.completeXred
  grind only [form_writeReduction, mem_releaseAll, givenForm_finishReduction, memoryForm_iff, givenForm_some, id]

theorem keeps_coll (d a m) : KeepsForm (execColl d a m s) := by
  refine keeps_issue hs _ _ fun t ht => ?_
  grind only [keeps_refFault, keeps_orFault, keeps_placed, keeps_found, foundForm_readDesc, keeps_fault, keeps_waitWith,
    mem_retireTo, form_claimRegion, memoryForm_iff, keepsForm_next]

theorem chunkForm_readChunks (n l) : ChunkForm (s.readChunks n l) := by
  induction l generalizing s with
  | nil => exact hs
  | cons m l ih =>
    rw [State.readChunks]
    split
    · trivial
    · next hd _ =>
      have hm := fetchedForm_reductionSource hs m.core m.claim hd
        ((collReq m.desc).soff + n * collChunk m.desc) (chunkLen m.desc n)
      split
      · trivial
      · trivial
      · next u b e =>
        rw [e] at hm
        have hl := ih hm
        split
        · next e =>
          rw [e] at hl
          exact hl
        · exact hl

theorem chunkForm_chunkPlaces (n l) : ChunkForm (s.chunkPlaces n l) := by
  induction l generalizing s with
  | nil => exact hs
  | cons m l ih =>
    rw [State.chunkPlaces]
    split
    · trivial
    · split
      · trivial
      · split
        · trivial
        · have hl := ih hs
          split
          · next e =>
            rw [e] at hl
            exact hl
          · exact hl

theorem form_writeChunk (k b parts m h spans) : (s.writeChunk k b parts m h spans).MemoryForm := by
  unfold State.writeChunk
  grind only [form_engineWrite, mem_collStall, mem_releaseSpans, memoryForm_iff]

theorem form_placeChunk (chunk b r parts) : (s.placeChunk chunk b r parts).MemoryForm := by
  unfold State.placeChunk
  grind only [form_foldl, chunkForm_chunkPlaces, mem_failColl, form_writeChunk, memoryForm_iff, chunkForm_ok]

theorem keeps_collectiveChunk (idx chunk fromSwitch bad) : KeepsForm (execCollectiveChunk idx chunk fromSwitch bad s) := by
  unfold execCollectiveChunk
  grind only [mem_failColl, form_placeChunk, chunkForm_readChunks, mem_sendChunk, memoryForm_iff, keepsForm_next, chunkForm_ok]

theorem form_completeColl (i) : (s.completeColl i).MemoryForm := by
  unfold State.completeColl
  grind only [mem_releaseAll, givenForm_finishReduction, memoryForm_iff, givenForm_some, id]

theorem form_acquirePart (r) : (s.acquirePart r).MemoryForm := form_foldl _ _ _ (fun _ _ ht => form_drainQuad ht ..) hs

theorem keeps_cwait (d a m b n) : KeepsForm (execCwait d a m b n s) := by
  refine keeps_issue hs _ _ fun t ht => ?_
  grind only [mem_retire, keeps_fault, form_acquirePart, keeps_waitFor, memoryForm_iff, keepsForm_next]

theorem keeps_commandCompletion (engine) : KeepsForm (execCommandCompletion engine s) := by
  cases engine with
  | copy core => exact form_completeCopy hs ..
  | gather die e strm => exact form_completeGather hs ..
  | xred idx => exact form_completeXred hs ..
  | coll idx => exact form_completeColl hs ..

theorem keeps_ramo (i op pair d a m b n w) : KeepsForm (ramo i op pair d a m b n w s) := by
  refine keeps_issue hs _ _ fun t ht => ?_
  grind only [keeps_refFault, keeps_orFault, keeps_withSlot, keeps_waitFor, mem_retire, mem_sendRemote, memoryForm_iff,
    keepsForm_next]

theorem form_remoteWrite (link launch spans b) : (s.remoteWrite link launch spans b).MemoryForm :=
  form_of_mem (form_homeWrite hs ..) (mem_plainWriteSync ..)

theorem form_remoteTag (pkt tag n err) : (s.remoteTag pkt tag n err).MemoryForm := by
  unfold State.remoteTag
  grind only [mem_dirtyLine, form_recall, mem_watchWrite, form_barUpdate, memoryForm_iff]

theorem keeps_remotePacketArrival (pkt) : KeepsForm (execRemotePacketArrival pkt s) := by
  unfold execRemotePacketArrival
  dsimp only
  split
  · exact hs
  · split
    · exact form_remoteTag hs ..
    · exact hs
    · exact form_remoteTag (form_remoteWrite hs ..) ..
    · exact form_mergeSpans hs ..
    · split
      · exact form_remoteWrite (form_mergeSpans hs _) ..
      · exact form_mergeSpans hs ..

theorem keeps_remoteAck (idx err) : KeepsForm (execRemoteAck idx err s) := by
  unfold execRemoteAck
  grind only [mem_remoteError, memoryForm_iff, keepsForm_next]

theorem keeps_flitReplay (link ok) : KeepsForm (execFlitReplay link ok s) := by
  unfold execFlitReplay
  grind only [mem_foldl, mem_linkReductions, mem_linkError, memoryForm_iff, keepsForm_next]

theorem form_stallEngines (n) : (s.stallEngines n).MemoryForm := by
  unfold State.stallEngines
  split <;> exact hs

theorem form_tick (mesh) : (s.tick mesh).MemoryForm := form_stallEngines hs ..

theorem keeps_logEntryWrite (slice) : KeepsForm (execLogEntryWrite slice s) := by
  unfold execLogEntryWrite
  split
  · exact hs
  · exact form_flushLog hs ..

/-! ### Energy -/

theorem keeps_gustLeaseExpiry (cluster) : KeepsForm (execGustLeaseExpiry cluster s) := by
  unfold execGustLeaseExpiry
  dsimp only
  repeat' split
  all_goals exact hs

theorem keeps_firmwareWatchdog : KeepsForm (execFirmwareWatchdog s) := by
  unfold execFirmwareWatchdog
  split <;> exact hs

theorem keeps_firmwareBudgetWrite (cluster eb ib) : KeepsForm (execFirmwareBudgetWrite cluster eb ib s) := by
  unfold execFirmwareBudgetWrite
  split <;> exact hs

theorem keeps_energyMeterUpdate (core ctx nj) : KeepsForm (execEnergyMeterUpdate core ctx nj s) := by
  unfold execEnergyMeterUpdate
  dsimp only
  split <;> exact hs

theorem keeps_sagClear (core) : KeepsForm (execSagClear core s) := by
  unfold execSagClear
  split <;> exact hs

theorem keeps_supplyLossWarning : KeepsForm (execSupplyLossWarning s) := by
  unfold execSupplyLossWarning
  grind only [form_foldl, form_drainAll, mem_plainWriteSync, form_quietWrite, memoryForm_iff, keepsForm_next]

/-! ### Samples and snapshots -/

theorem form_fillRange (pa len words) : (s.fillRange pa len words).MemoryForm := by
  refine form_of_mem (s := State.metLines _ _) ?_ (mem_watchWrite _ _ _ _ _)
  refine form_of_mem (s := State.l2KeepAll _ _) ?_ (mem_plainRange _ _ _)
  refine form_of_mem ?_ (mem_l2KeepAll _ _)
  refine wf_foldl words (fun m w h => ?_) (wfFrom_filter _ (form_foldl _ s _ (fun _ _ ht => form_recall ht _) hs))
  split
  · exact wf_store h _ _
  · exact h

theorem form_writeFrames (l) : (s.writeFrames l).MemoryForm := by
  induction l generalizing s with
  | nil => exact hs
  | cons e l ih =>
    rw [State.writeFrames]
    split
    · exact hs
    · exact ih (form_fillRange hs _ _ _)

theorem keeps_isobarSample (counts) : KeepsForm (execIsobarSample counts s) := by
  unfold execIsobarSample
  grind only [mem_countPorts, form_writeFrames, memoryForm_iff, keepsForm_next]

theorem keeps_snapshotLatch : KeepsForm (execSnapshotLatch s) := by
  unfold execSnapshotLatch
  grind only [form_tick, memoryForm_iff, keepsForm_next]

theorem keeps_snapshotCopy : KeepsForm (execSnapshotCopy s) := by
  unfold execSnapshotCopy
  grind only [form_fillRange, memoryForm_iff, keepsForm_next]

theorem keeps_taskStopWrite (n word0 word1) : KeepsForm (execTaskStopWrite n word0 word1 s) := by
  unfold execTaskStopWrite
  split <;> exact hs

/-! ### Fills, store performance and core events -/

theorem foundForm_readLate (c x slot h off key) : FoundForm (s.readLate c x slot h off key) := by
  unfold State.readLate
  grind only [foundForm_readFor, mem_updCore, memoryForm_iff, foundForm_ok, foundForm_bad]

theorem givenForm_fillValue (c ctx slot f data err) : GivenForm (fun r => r.2.2) (s.fillValue c ctx slot f data err) := by
  unfold State.fillValue
  split
  · next hd off key after _ _ =>
    dsimp only
    split
    · trivial
    · have hr := foundForm_readLate hs c (Fin.ofNat 8 ctx) slot hd off key
      split
      · next e =>
        rw [e] at hr
        exact hr
      · trivial
      · next e =>
        rw [e] at hr
        exact hr
  · dsimp only
    split
    · trivial
    · split
      · exact hs
      · cases data with
        | none => trivial
        | some v => exact hs
  · exact hs
  · trivial

theorem form_fillAcquire (c f) : (s.fillAcquire c f).MemoryForm := by
  unfold State.fillAcquire
  grind only [form_acquire]

theorem givenForm_sendHeld (c x slot f) : GivenForm id (s.sendHeld c x slot f) := by
  unfold State.sendHeld
  grind only [mem_updCtx, mem_sendFor, memoryForm_iff, givenForm_some, givenForm_none, id]

theorem form_fillWith (core x slot f v bad) : (s.fillWith core x slot f v bad).MemoryForm := by
  unfold State.fillWith
  grind only [mem_updCtx, form_fillAcquire, mem_afterFill, mem_updCore, mem_post, memoryForm_iff]

theorem keeps_fillArrival (core ctx slot data err) : KeepsForm (execFillArrival core ctx slot data err s) := by
  unfold execFillArrival
  grind only [givenForm_sendHeld, givenForm_fillValue, form_fillWith, keepsForm_next, givenForm_some, id]

theorem keeps_missSwitch (core) : KeepsForm (execMissSwitch core s) := by
  unfold execMissSwitch
  dsimp only
  repeat' split
  all_goals exact hs

theorem keeps_trapEntry (core) : KeepsForm (execTrapEntry core s) := by
  unfold execTrapEntry
  grind only [mem_takeTrap, mem_switchOut, memoryForm_iff, keepsForm_next]

theorem keeps_sleepExpiry (core ctx) : KeepsForm (execSleepExpiry core ctx s) := by
  unfold execSleepExpiry
  grind only [mem_updCore, mem_updCtx, form_tick, memoryForm_iff, keepsForm_next]

theorem keeps_storePerformed (core idx) : KeepsForm (execStorePerformed core idx s) := by
  unfold execStorePerformed
  grind only [form_performStore, form_releaseLocal, keepsForm_next]

theorem keeps_dirtyMerge (quad line evict) : KeepsForm (execDirtyMerge quad line evict s) := by
  unfold execDirtyMerge
  dsimp only
  split
  · exact hs
  · split
    · refine form_of_mem ?_ (mem_dropLine ..)
      split
      · exact form_mergeLate hs ..
      · exact hs
    · refine (keepsForm_next _).2 ?_
      split
      · exact form_mergeLine hs ..
      · exact hs

theorem keeps_bankRefresh : KeepsForm (execBankRefresh s) := by
  unfold execBankRefresh
  grind only [form_tick, keepsForm_next]

theorem keeps_taskOverrun (core ctx) : KeepsForm (execTaskOverrun core ctx s) := by
  unfold execTaskOverrun
  grind only [mem_abort, memoryForm_iff, keepsForm_next]

theorem keeps_doldrums (launch) : KeepsForm (execDoldrums launch s) := by
  unfold execDoldrums
  grind only [mem_foldl, mem_abort, mem_post, memoryForm_iff, keepsForm_next]

/-! ### Floating point -/

theorem keeps_rounded (i f d op) : KeepsForm (rounded i f d op s) := keeps_issue hs _ _ fun _ ht => ht

theorem keeps_exactFp (i f fmts d op) : KeepsForm (exactFp i f fmts d op s) := by
  unfold exactFp
  grind only [keeps_quick]

theorem keeps_cvtd (d a m e p sf) : KeepsForm (execCvtd d a m e p sf s) := by
  refine keeps_issue hs _ _ fun t ht => ?_
  grind only [keeps_fault, mem_retire, memoryForm_iff, keepsForm_next]

/-! ### Vectors -/

theorem keeps_vectorQuick (i f d val) : KeepsForm (vectorQuick i f d val s) :=
  keeps_issue hs _ _ fun _ ht => keeps_throughLane ht fun _ hu => hu
theorem keeps_vectorRounded (i f d ops) : KeepsForm (vectorRounded i f d ops s) :=
  keeps_issue hs _ _ fun _ ht => keeps_throughLane ht fun _ hu => hu
theorem keeps_vfBinary (i d a b c op) : KeepsForm (vfBinary i d a b c op s) := keeps_vectorRounded hs ..
theorem keeps_vfExact (i d a b c op) : KeepsForm (vfExact i d a b c op s) := keeps_vectorQuick hs ..
theorem keeps_vfUnary (i d a op) : KeepsForm (vfUnary i d a op s) := keeps_vectorQuick hs ..
theorem keeps_vInt (i d a b c op) : KeepsForm (vInt i d a b c op s) := keeps_vectorQuick hs ..
theorem keeps_vrExact (i greater d a seg) : KeepsForm (vrExact i greater d a seg s) := keeps_vectorQuick hs ..
theorem keeps_vrInt (i op d a seg) : KeepsForm (vrInt i op d a seg s) := keeps_vectorQuick hs ..

theorem keeps_vectorConvert (i d a more p pol e accepts draws value) :
    KeepsForm (vectorConvert i d a more p pol e accepts draws value s) := by
  unfold vectorConvert
  grind only [keeps_illegal, keeps_issue, keeps_throughLane, keeps_fault, mem_retire, memoryForm_iff, keepsForm_next]

theorem keeps_vfFunction (i d a op) : KeepsForm (vfFunction i d a op s) := keeps_vectorRounded hs ..

theorem keeps_vectorIssue (quad) : KeepsForm (execVectorIssue quad s) := by
  unfold execVectorIssue
  dsimp only
  split <;> exact hs

/-! ### Every instruction and every event -/

/-- Every instruction and every event keeps the form, each by the lemma about its own effect. -/
theorem keeps_exec (i) : KeepsForm (exec i s) := by
  cases i <;> dsimp only [exec]
  case add | sub | and | or | xor | andn | sll | srl | sra | mul | mulh | mulhu | min | max | minu | maxu | addw | subw | cmp
      => exact keeps_alu hs ..
  case sextb | sexth | sextw | zextb | zexth | zextw | clz | popc | addi | andi | ori | xori | slli | srli | srai | cmpi
      => exact keeps_alu1 hs ..
  case sel | li | lix | addpc | cvt | qstat | movC | liC => exact keeps_quick hs ..
  case div | rem | divu | remu | divw | remw | divuw | remuw => exact keeps_divide hs ..
  case br => exact keeps_br hs ..
  case j | call | jr | jC | jrC => exact keeps_issue hs _ _ fun _ ht => keeps_jumpTo ht ..
  case blkmv => exact keeps_blkmv hs ..
  case blkset => exact keeps_blkset hs ..
  case repn => exact keeps_repn hs ..
  case crr => exact keeps_crr hs ..
  case cwr => exact keeps_cwr hs ..
  case mkempty | rstate | wstat | grpq | grpqM | qpri | qread | fmt | nop => exact keeps_issue hs _ _ fun _ ht => ht
  case trap | brk => exact keeps_issue hs _ _ fun _ ht => keeps_fault ht ..
  case fadd | fsub | fmul | fma | fmsub | fnma | fnms | fdiv | fsqrt => exact keeps_rounded hs ..
  case fmin | fmax | fabs | fneg | fcmp | fclass => exact keeps_exactFp hs ..
  case cvtd => exact keeps_cvtd hs ..
  case ld | ldw | ldh | ldb | ldNc => exact keeps_scalarLoad hs ..
  case st | stw | sth | stb => exact keeps_scalarStore hs ..
  case ldA => exact keeps_ldA hs ..
  case vld | vldNc => exact keeps_vectorLoad hs ..
  case vst | stC => exact keeps_issue hs _ _ fun _ ht => keeps_storeAt ht _ _ _ _ _ fun _ _ _ hu => keeps_retireStore hu ..
  case amoswap | amoadd | amoand | amoor | amoxor | amomin | amomax | amominu | amomaxu => exact keeps_amo hs ..
  case cas => exact keeps_cas hs ..
  case ldAcq => exact keeps_ldAcq hs ..
  case stRel => exact keeps_stRel hs ..
  case vlds => exact keeps_vlds hs ..
  case vsts => exact keeps_vsts hs ..
  case fenceAcq => exact keeps_fenceAcq hs ..
  case fenceAcqInv => exact keeps_fenceAcqInv hs ..
  case fenceRel => exact keeps_fenceRel hs ..
  case fenceFull => exact keeps_fenceFull hs ..
  case objdecl => exact keeps_objdecl hs ..
  case ldv => exact keeps_ldv hs ..
  case stv => exact keeps_stv hs ..
  case vrecl => exact keeps_vrecl hs ..
  case wrec => exact keeps_wrec hs ..
  case wplay => exact keeps_wplay hs ..
  case wend => exact keeps_wend hs ..
  case send | sendh | pusht => exact keeps_sendInstr hs ..
  case sendnz => exact keeps_sendnz hs ..
  case spawn => exact keeps_spawn hs ..
  case vfadd | vfsub | vfmul | vfdiv => exact keeps_vfBinary hs ..
  case vfma => exact keeps_vectorRounded hs ..
  case vfmin | vfmax | vfcmp => exact keeps_vfExact hs ..
  case vfabs | vfneg => exact keeps_vfUnary hs ..
  case vadd | vsub | vmul | vmin | vmax | vand | vor | vxor | vsll | vsrl | vsra | vadds | vsubs | vicmp => exact keeps_vInt hs ..
  case vsel | vperm | vbcast | vbcastl | vrot | vins => exact keeps_vectorQuick hs ..
  case vrsum | vext => exact keeps_issue hs _ _ fun _ ht => keeps_throughLane ht fun _ hu => hu
  case vrmax | vrmin => exact keeps_vrExact hs ..
  case vrisum | vrisums | vrimax | vrimin => exact keeps_vrInt hs ..
  case vcvt | vcvtd | vcvtS | vcvtdS => exact keeps_vectorConvert hs ..
  case vrcp | vrsqrt | vexp2 | vlog2 | vtanh | vsigm | vfsqrt => exact keeps_vfFunction hs ..
  case xfree => exact keeps_issue hs _ _ fun _ ht => keeps_atArray ht _ fun _ => keeps_acceptArray ht ..
  case xcfg => exact keeps_xcfg hs ..
  case xcfgTab => exact keeps_xcfgTab hs ..
  case xstat | xstatClr => exact keeps_xstatInstr hs ..
  case xlda | xldb => exact keeps_xloadInstr hs ..
  case xldsa | xldsb => exact keeps_xscaleInstr hs ..
  case xunf => exact keeps_xunf hs ..
  case xmma | xcmma => exact keeps_xmmaInstr hs ..
  case xzero | xzeroF | xzeroI => exact keeps_xzeroInstr hs ..
  case xdrn => exact keeps_xdrn hs ..
  case cpy | cpyNb => exact keeps_cpyInstr hs ..
  case cpyst => exact keeps_cpyst hs ..
  case gather => exact keeps_gather hs ..
  case rainit | rarel | barinit | bararr
      => exact keeps_issue hs _ _ fun _ ht => keeps_refPlace ht _ _ _ _ _ fun _ _ _ hu => keeps_objectStore hu ..
  case rawait => exact keeps_rawait hs ..
  case barxb => exact keeps_barxb hs ..
  case barwait => exact keeps_barwait hs ..
  case seqwait => exact keeps_seqwait hs ..
  case sleep => exact keeps_sleep hs ..
  case killctx => exact keeps_killctx hs ..
  case tlbi => exact keeps_tlbi hs ..
  case watch => exact keeps_watch hs ..
  case snap => exact keeps_snap hs ..
  case gust | gustT => exact keeps_gustInstr hs ..
  case gustrel => exact keeps_gustrel hs ..
  case xred => exact keeps_xred hs ..
  case coll => exact keeps_coll hs ..
  case cwait => exact keeps_cwait hs ..
  case ramoSwap | ramoAdd | ramoAnd | ramoOr | ramoXor | ramoMin | ramoMax | ramoMinu | ramoMaxu | ramoCas
      => exact keeps_ramo hs ..
  case addC | subC | andC | orC | xorC | sllC | srlC => exact keeps_compact2 hs ..
  case addiC | slliC | srliC | sraiC => exact keeps_compactImm hs ..
  case ldC => exact keeps_issue hs _ _ fun _ ht => keeps_loadAt ht _ _ _ _ _ fun _ _ hu => hu
  case beqzC => exact keeps_beqzC hs ..
  case bnezC => exact keeps_bnezC hs ..
  case hint => exact keeps_hint hs ..
  case objdrop => exact keeps_objdrop hs ..
  case wdrop => exact keeps_wdrop hs ..
  case drain => exact keeps_drain hs ..
  case ffence => exact keeps_ffence hs ..
  case done => exact keeps_done hs ..
  case xlease => exact keeps_xlease hs ..
  case xwait => exact keeps_xwait hs ..
  case tret => exact keeps_tret hs ..
  case halt => exact keeps_halt hs ..
  case tlbsync => exact keeps_tlbsync hs ..
  case sstepOff | sstepOn | sstepOnce => exact keeps_sstep hs ..
  case reset => exact keeps_reset s
  case fillArrival => exact keeps_fillArrival hs ..
  case deepMissNotice | stealPauseExpiry | supplySag | thermalTrip | thermalRecover | powerFirmwareUpdate |
      deviceIdAssignment => exact hs
  case sidingRejoin | missReturn | asyncEventTaken | forcedBoundary => exact form_of_mem hs (mem_updPipe ..)
  case trapEntry => exact keeps_trapEntry hs ..
  case missSwitch => exact keeps_missSwitch hs ..
  case pipeSliceExpiry => exact form_of_mem hs (mem_endSlice ..)
  case storePerformed => exact keeps_storePerformed hs ..
  case dirtyMerge => exact keeps_dirtyMerge hs ..
  case bankRefresh => exact keeps_bankRefresh hs ..
  case dispatch => exact keeps_dispatch hs ..
  case messageOffer | messageReoffer | hintWalk => exact form_offerSome hs ..
  case spawnRequest => exact keeps_spawnRequest hs ..
  case childStart => exact keeps_childStart hs ..
  case stealProbe => exact keeps_stealProbe hs ..
  case stealReply => exact keeps_stealReply hs ..
  case spillMove => exact form_unspill hs ..
  case startMessage => exact keeps_startMessage hs ..
  case launchComplete => exact keeps_launchComplete hs ..
  case leaseGrant => exact keeps_leaseGrant hs ..
  case leaseClockExpiry => exact keeps_leaseClockExpiry hs ..
  case arrayCommandExecute => exact keeps_arrayCommandExecute hs ..
  case vectorIssue => exact keeps_vectorIssue hs ..
  case pushArrival => exact keeps_pushArrival hs ..
  case pushTimeout => exact keeps_pushTimeout hs ..
  case roundClose => exact keeps_roundClose hs ..
  case engineChunk => exact keeps_engineChunk hs ..
  case copyOp | pack | unpack | fill => exact keeps_beginCopy hs ..
  case ringReserve => exact keeps_ringReserve hs ..
  case gatherRow => exact keeps_gatherRow hs ..
  case commandCompletion => exact keeps_commandCompletion hs ..
  case tailPoll => exact keeps_tailPoll hs ..
  case chainEntryCompletion => exact keeps_chainEntryCompletion hs ..
  case root => exact keeps_root hs ..
  case launch => exact keeps_launch hs ..
  case copy => exact keeps_copy hs ..
  case wait => exact keeps_wait hs ..
  case signal => exact keeps_signal hs ..
  case suspend => exact keeps_suspend hs ..
  case resume => exact keeps_resume hs ..
  case remove => exact keeps_remove hs ..
  case window => exact keeps_window hs ..
  case logcfg => exact keeps_logcfg hs ..
  case flush => exact keeps_flush hs ..
  case obscfg => exact keeps_obscfg hs ..
  case coreSuspend => exact keeps_coreSuspend hs ..
  case taskOverrun => exact keeps_taskOverrun hs ..
  case killFlood => exact keeps_killFlood hs ..
  case sweepEnd => exact keeps_sweepEnd hs ..
  case removalConfirmation => exact keeps_removalConfirmation hs ..
  case doldrums => exact keeps_doldrums hs ..
  case controlIntervalBoundary => exact form_of_mem (form_tick hs ..) (mem_touchClusters ..)
  case gustLeaseExpiry => exact keeps_gustLeaseExpiry hs ..
  case energyMeterUpdate => exact keeps_energyMeterUpdate hs ..
  case firmwareBudgetWrite => exact keeps_firmwareBudgetWrite hs ..
  case firmwareWatchdog => exact keeps_firmwareWatchdog hs ..
  case sagClear => exact keeps_sagClear hs ..
  case supplyLossWarning => exact keeps_supplyLossWarning hs ..
  case hostWrite => exact keeps_hostWrite hs ..
  case chainRegistrationWrite => exact keeps_chainRegistrationWrite hs ..
  case hostRegisterWrite => exact keeps_hostRegisterWrite hs ..
  case remotePacketArrival => exact keeps_remotePacketArrival hs ..
  case remoteAck => exact keeps_remoteAck hs ..
  case flitReplay => exact keeps_flitReplay hs ..
  case reductionResult => exact keeps_reductionResult hs ..
  case collectiveChunk => exact keeps_collectiveChunk hs ..
  case logEntryWrite => exact keeps_logEntryWrite hs ..
  case isobarSample => exact keeps_isobarSample hs ..
  case hostFlashTrigger => exact form_of_mem hs (mem_fireTrigger ..)
  case snapshotLatch => exact keeps_snapshotLatch hs ..
  case snapshotCopy => exact keeps_snapshotCopy hs ..
  case breakpointClear => exact keeps_breakpointClear hs ..
  case taskStopWrite => exact keeps_taskStopWrite hs ..
  case arrayCommandCompletion => exact keeps_arrayCommandCompletion hs ..
  case sleepExpiry => exact keeps_sleepExpiry hs ..
  case replayEntryLoad => exact keeps_replayEntryLoad hs ..
  case resumeMessage => exact keeps_resumeMessage hs ..
  case illegalEncoding | fetchBounds => exact keeps_fault hs ..
  case unknownChainEntryType => exact keeps_unknownChainEntryType hs ..
  -- the seal of a recording, whose constructor bears a name that Lean reserves
  · exact form_seal hs ..

/-! ### Words that are refused, and cycles that pass -/

theorem keeps_refuseCode (w) : KeepsForm (refuseCode w s) := by
  unfold refuseCode
  split <;> exact keeps_illegalEncoding hs ..

theorem form_pass (c) : (s.pass c).MemoryForm := by
  unfold State.pass
  grind only [mem_delay, mem_passCycles, form_tick, memoryForm_iff]

/-! ### Turns -/

theorem keeps_runCode (w) : KeepsForm (runCode w s) := by
  unfold runCode
  grind only [keeps_exec, keeps_refuseCode]

theorem keeps_runPc (c x) : KeepsForm (s.runPc c x) := by
  unfold State.runPc
  grind only [mem_fetchCode, keeps_fetchBounds, keeps_runCode, memoryForm_iff]

theorem keeps_instruction (c) : KeepsForm (s.instruction c) := by
  unfold State.instruction
  split
  · exact hs
  · exact keeps_runPc hs ..

theorem form_loseCommands (before : State) (c x n) : (before.loseCommands s c x n).MemoryForm := by
  unfold State.loseCommands
  dsimp only
  split
  · exact hs
  · exact hs

theorem form_annulBehind (before : State) (c x) : (before.annulBehind s c x).MemoryForm := by
  unfold State.annulBehind
  split
  · exact hs
  · have hu : (s.pick 16).2.MemoryForm := form_of_mem hs (mem_pick s 16)
    dsimp only
    split
    · exact hu
    · exact form_loseCommands hu _ _ _ _

theorem form_lostCommand (c) : (s.lostCommand c).MemoryForm := by
  unfold State.lostCommand
  grind only [mem_pick, form_loseCommands, mem_setCtx, memoryForm_iff]

theorem keeps_acceptWaiting (c) : KeepsForm (s.acceptWaiting c) := by
  unfold State.acceptWaiting
  grind only [keeps_runPc, mem_updCtx, memoryForm_iff, keepsForm_next]

theorem form_annulled (before : State) (c) : (before.annulled s c).MemoryForm := by
  unfold State.annulled
  split
  · exact hs
  · exact form_annulBehind hs _ _ _

theorem form_takeTime (c) : (s.takeTime c).MemoryForm := form_of_mem (form_pass hs ..) (mem_endSlice ..)

theorem keeps_takeInput : KeepsForm (s.takeInput) := by
  unfold State.takeInput
  grind only [keeps_exec, memoryForm_iff, keepsForm_next]

/-- Every turn keeps the form: an instruction, an event from outside, the cycles that pass and every event of the state. -/
theorem keeps_turn (t : Turn) : KeepsForm (t.run s) := by
  cases t <;> dsimp only [Turn.run]
  case instr => exact keeps_mapNext (keeps_instruction hs _) fun _ ht => form_takeTime (form_annulled ht _ _) _
  case arrayAccept => exact keeps_mapNext (keeps_acceptWaiting hs _) fun _ ht => form_takeTime (form_annulled ht _ _) _
  case input => exact keeps_takeInput hs
  case pass => exact form_pass hs _
  case fillArrival => exact keeps_fillArrival hs ..
  case deepMissNotice | stealPauseExpiry | l2WriteBack => exact hs
  case sidingRejoin | missReturn | asyncEventTaken | forcedBoundary => exact form_of_mem hs (mem_updPipe ..)
  case trapEntry => exact keeps_trapEntry hs ..
  case missSwitch => exact keeps_missSwitch hs ..
  case pipeSliceExpiry => exact form_of_mem hs (mem_endSlice ..)
  case sleepExpiry => exact keeps_sleepExpiry hs ..
  case storePerformed => exact keeps_storePerformed hs ..
  case dirtyMerge => exact keeps_dirtyMerge hs ..
  case bankRefresh => exact keeps_bankRefresh hs ..
  case dispatch => exact keeps_dispatch hs ..
  case messageOffer | messageReoffer | hintWalk => exact form_offerSome hs ..
  case spawnRequest => exact keeps_spawnRequest hs ..
  case childStart => exact keeps_childStart hs ..
  case stealProbe => exact keeps_stealProbe hs ..
  case stealReply => exact keeps_stealReply hs ..
  case spillMove => exact form_unspill hs ..
  case startMessage => exact keeps_startMessage hs ..
  case resumeMessage => exact keeps_resumeMessage hs ..
  case coreSuspend => exact keeps_coreSuspend hs ..
  case launchComplete => exact keeps_launchComplete hs ..
  case leaseGrant => exact keeps_leaseGrant hs ..
  case leaseClockExpiry => exact keeps_leaseClockExpiry hs ..
  case arrayCommandExecute => exact keeps_arrayCommandExecute hs ..
  case arrayCommandCompletion => exact keeps_arrayCommandCompletion hs ..
  case vectorIssue => exact keeps_vectorIssue hs ..
  case roundClose => exact keeps_roundClose hs ..
  case replayEntryLoad => exact keeps_replayEntryLoad hs ..
  case pushArrival => exact keeps_pushArrival hs ..
  case pushTimeout => exact keeps_pushTimeout hs ..
  case engineChunk => exact keeps_engineChunk hs ..
  case copyOp | pack | unpack | fill => exact keeps_beginCopy hs ..
  case ringReserve => exact keeps_ringReserve hs ..
  case gatherRow => exact keeps_gatherRow hs ..
  case commandCompletion => exact keeps_commandCompletion hs ..
  case collectiveChunk => exact keeps_collectiveChunk hs ..
  case tailPoll => exact keeps_tailPoll hs ..
  case chainEntryCompletion => exact keeps_chainEntryCompletion hs ..
  case unknownChainEntryType => exact keeps_unknownChainEntryType hs ..
  case root => exact keeps_root hs ..
  case launch => exact keeps_launch hs ..
  case copy => exact keeps_copy hs ..
  case wait => exact keeps_wait hs ..
  case signal => exact keeps_signal hs ..
  case suspend => exact keeps_suspend hs ..
  case resume => exact keeps_resume hs ..
  case remove => exact keeps_remove hs ..
  case window => exact keeps_window hs ..
  case logcfg => exact keeps_logcfg hs ..
  case flush => exact keeps_flush hs ..
  case obscfg => exact keeps_obscfg hs ..
  case killFlood => exact keeps_killFlood hs ..
  case sweepEnd => exact keeps_sweepEnd hs ..
  case removalConfirmation => exact keeps_removalConfirmation hs ..
  case doldrums => exact keeps_doldrums hs ..
  case taskOverrun => exact keeps_mapNext (keeps_taskOverrun hs _ _) fun _ ht => form_annulled ht _ _
  case controlIntervalBoundary => exact form_of_mem (form_tick hs ..) (mem_touchClusters ..)
  case gustLeaseExpiry => exact keeps_gustLeaseExpiry hs ..
  case firmwareWatchdog => exact keeps_firmwareWatchdog hs ..
  case logEntryWrite => exact keeps_logEntryWrite hs ..
  case isobarSample => exact keeps_isobarSample hs ..
  case snapshotLatch => exact keeps_snapshotLatch hs ..
  case snapshotCopy => exact keeps_snapshotCopy hs ..
  case invalidate =>
    refine (keepsForm_next _).2 ?_
    split <;> exact hs
  case shootdown => exact form_of_mem hs (mem_reachCore ..)
  case lostCommand => exact form_lostCommand hs _
  -- the seal of a recording, whose constructor bears a name that Lean reserves
  · exact form_seal hs ..

theorem form_choose : (s.choose).2.MemoryForm := by
  unfold State.choose
  repeat' split
  all_goals exact hs

end

/-- Settles O5: the choice of a turn writes no memory, and every turn keeps the form. -/
theorem stepKeepsMemoryForm : Obligations.StepKeepsMemoryForm := by
  intro s t hs e
  have hc : s.choose.2.MemoryForm := form_choose hs
  have ht := keeps_turn hc s.choose.1
  unfold step at e
  rw [e] at ht
  exact ht

end Sys2Proof.Machine

end
